-- ==== Sys2Proof/Config.lean ====
section
/-! DEFINITION. What one implementation of the part fixes and the manual does not: free values, each an opaque
constant with no body, so that a claim holds whatever they are. -/

namespace Sys2Proof.Config

/-- How long the processing of a command takes, in ticks of 1/256 ms (R190: "The processing of every command ends
within 1 ms of the rise of CS that ends its transaction"). The argument is the model's counter of free values.
Log entry 5. -/
opaque processingTicks : Nat → Fin 257

/-- The generation that the response to a RETIRE carries when the slot is already EMPTY (R15 asks for the generation
"as they stand after the command", R1 says an EMPTY slot holds none). Log entry 6. -/
opaque emptiedGeneration : Nat → BitVec 16

end Sys2Proof.Config
end

