-- ==== Sys2Proof/Word.lean ====
section
/-! DEFINITION. The byte, the one word of the part that travels as bits (R214, R212), and the byte-wide reading of
a number. Every other value of the part is a number, a name or a list, and has its own type. -/

namespace Sys2Proof

/-- One byte of a station frame or a corridor frame. -/
abbrev Byte := BitVec 8

/-- The byte of a number below 256. -/
abbrev byteOf (n : Nat) : Byte := BitVec.ofNat 8 n

end Sys2Proof
end

