-- ==== Sys2Proof/Syntax.lean ====
section
/-! DEFINITION. The commands: one constructor of `Instr` for each row of spec/opcode_table.json, with the row's
operands. A station command's row carries the fields of its body (R214, R215), as the numbers the bytes spell; a
received frame's row carries the port, the frame's source and its body (R213); an event's row names the unit. -/

namespace Sys2Proof

/-- A trigger reference: a terminal and an input index (R5). -/
structure TrigRef where
  terminal : Nat
  input : Nat
deriving DecidableEq, Repr

/-- An action reference: a site terminal and an action number (R6). -/
structure ActionRef where
  site : Nat
  number : Nat
deriving DecidableEq, Repr

/-- The completion codes of a response (R193). -/
inductive Code
  | done | check | length | range | mode | unknown | notHome | state | full
deriving DecidableEq, Repr

/-- The kinds of corridor frame (R162). -/
inductive FrameKind
  | contingency | firedReport | tripOrder | orderAck | start | idle | update | updateReply | refresh | refreshAck
  | retire | retireAck | disown | quantity | actionStatus | echo | echoReply
deriving DecidableEq, Repr

/-- The body of RECORD LOAD as its bytes spell it (R215): codes and values before any check or clamp. The two counts
of the body are the lengths of the two lists. -/
structure LoadBody where
  schemeId : Nat
  source : Nat
  slot : Nat
  onAt : Int
  offAt : Int
  limit : Int
  k : Nat
  m : Nat
  f : Nat
  mode : Nat
  window : Nat
  refs : List TrigRef
  actions : List ActionRef
  cap : Nat
  posture : Nat
  interval : Nat
  group : Nat
  autoDisarm : Nat
deriving DecidableEq, Repr

/-- The commands of the block: one constructor for each row of spec/opcode_table.json. A START's row carries its one body
byte and an IDLE's none; one with another body has no row (log entry 39). -/
inductive Instr
  -- reset and the station port's transactions
  | fullReset
  | commandTransaction (mosi : List Byte)
  | fetch (clocked : Nat)
  | busyTransaction (clocked : Nat)
  -- record commands
  | recordLoad (body : LoadBody)
  | recordTune (id : Nat) (onAt offAt limit : Int) (k m f : Nat)
  | arm (id : Nat)
  | disarm (id : Nat)
  | block (id : Nat)
  | unblock (id : Nat)
  | resetSpent (id : Nat)
  | retire (id : Nat)
  | refresh (id : Nat)
  | refreshGroup (group : Nat)
  | dropCopy (id : Nat)
  | recordRead (id : Nat)
  | recordList
  | recordFindByAction (site number : Nat)
  | recordFindByTrigger (terminal input : Nat)
  -- quantity commands
  | quantitySource (slot source terminal peerSlot limit publish : Nat)
  | quantityPost (entries : List (Nat × Int))
  | quantityInvalidate (slots : List Nat)
  | quantityRead (slot : Nat)
  -- action and output commands
  | actionLoad (kind site number output valueSlot nominal pulse : Nat)
  | actionBlock (site number : Nat)
  | actionRestore (site number : Nat)
  | actionRemove (site number : Nat)
  | actionRead (site number : Nat)
  | outputRead
  -- trigger commands
  | inputConfigure (input enable qualifyUs dropoutUs : Nat)
  | inputRead (input : Nat)
  | remoteTriggerRead
  -- execution, ports and routes
  | executionRead (context collect : Nat)
  | portOpen (port : Nat)
  | portClose (port : Nat)
  | portRead (port : Nat)
  | routeWrite (destination primary alternate : Nat)
  | routeRead
  | portTest (destination : Nat)
  | portLoopback (port : Nat)
  -- events, settings and modes
  | eventRead
  | eventEnable (bits : Nat)
  | eventClear (bits : Nat)
  | settingsWrite (items : List (Nat × List Byte))
  | settingsComplete
  | settingsRead
  | reconfigure
  | tableClear
  | maintenanceEnter
  | maintenanceExit
  | testFire (id : Nat)
  -- pins and timers
  | inputLevelChange (input : Nat) (active : Bool)
  | qualifyTimerExpiry (input : Nat)
  | dropoutTimerExpiry (input : Nat)
  | repeatTimerExpiry (input : Nat)
  | holdTimerExpiry (terminal input : Nat)
  | slotExpiry (slot : Nat)
  | publicationTimerExpiry
  | freshnessExpiry (site number : Nat)
  | pulseEnd (output : Nat)
  | refreshDeadlineExpiry (id : Nat)
  | copyDeadlineExpiry (id : Nat)
  | reportWaitExpiry (context : Nat)
  | executionDeadlineExpiry (context : Nat)
  | retryTimerExpiry (id terminal : Nat)
  | portTestExpiry
  | startTimerExpiry (port : Nat)
  | windowEnd (port : Nat) (unfinished : Bool)
  | idleDue (port : Nat)
  | transmissionEnd (port : Nat)
  -- reception
  | frameFault (port : Nat) (line : List Byte)
  | relayedFrame (port destination source : Nat) (kind : FrameKind) (hop : Nat) (body : List Byte)
  | start (port source : Nat) (flags : Byte)
  | idle (port source : Nat)
  | contingency (port source : Nat) (body : List Byte)
  | firedReport (port source : Nat) (body : List Byte)
  | tripOrder (port source : Nat) (body : List Byte)
  | orderAck (port source : Nat) (body : List Byte)
  | update (port source : Nat) (body : List Byte)
  | updateReply (port source : Nat) (body : List Byte)
  | refreshFrame (port source : Nat) (body : List Byte)
  | refreshAck (port source : Nat) (body : List Byte)
  | retireFrame (port source : Nat) (body : List Byte)
  | retireAck (port source : Nat) (body : List Byte)
  | disown (port source : Nat) (body : List Byte)
  | quantityFrame (port source : Nat) (body : List Byte)
  | actionStatus (port source : Nat) (body : List Byte)
  | echo (port source : Nat) (body : List Byte)
  | echoReply (port source : Nat) (body : List Byte)
  | commandFrameRefused
deriving DecidableEq, Repr

end Sys2Proof
end

