-- ==== Sys2Proof/Machine/State.lean ====
section
/-! DEFINITION. The state of the part as plain data, every item the manual gives it, and `State.reset`.

Times are kept as instants on the part's clock `now`, counted in ticks of 1/256 ms (the time of one byte at the highest
link rate, so that every duration of the manual is a whole number of ticks). A timer that runs is the instant at which
it runs out; the "time left" of the manual is that instant less `now`. What the manual calls derived (notice lists,
publish homes, live and effective values, availabilities, reachability, copy states, READY, ATTN) is computed from the
state it is derived from, by the function that the rule describes. -/

namespace Sys2Proof.Machine

/-- The device mode (R202). -/
inductive Mode
  | config | run | maintenance
deriving DecidableEq, Repr

/-- The settings (R204). -/
structure Settings where
  terminal : Nat
  hopLimit : Nat
  rates : List Nat
  publishInterval : Nat
  publishList : List Nat
  noticeRepeat : Nat
  remoteHold : Nat
  reportWait : Nat
  deadline : Nat
  retryInterval : Nat
  retryCount : Nat
  degrade : Nat
  fail : Nat
  clear : Nat
deriving DecidableEq, Repr

/-! ### Scheme table -/

/-- Life states of an occupied slot (R3); EMPTY is an empty slot. -/
inductive Life
  | dormant | armed | fired | spent | blocked | retiring
deriving DecidableEq, Repr

/-- Lapse posture (R8). -/
inductive Posture
  | disarm | hold
deriving DecidableEq, Repr

/-- A refresh deadline (R87): stopped, running until an instant, or lapse pending. -/
inductive Deadline
  | stopped | running (due : Nat) | pending
deriving DecidableEq, Repr

/-- The trigger set (R5): references in the order given, mode ALL or ANY, coincidence window in ms. -/
structure TriggerSet where
  refs : List TrigRef
  all : Bool
  window : Nat
deriving DecidableEq, Repr

/-- The three forms of a home record (R3), each with the fields for arming and requirement that only it holds. -/
inductive Form
  | computed (slot : Nat) (onAt offAt limit : Int) (k : Nat)
  | measured (flag : Bool) (slot : Nat) (limit : Int) (k : Nat)
  | fixed (flag : Bool)
deriving DecidableEq, Repr

/-- Participant status (R139). -/
inductive PartStatus
  | current | behind | held | rejected | lost
deriving DecidableEq, Repr

/-- Reject reasons (R139, R144). -/
inductive RejectReason
  | noSlot | missingAction | triggerTableFull
deriving DecidableEq, Repr

/-- A participant status entry (R139). -/
structure Participant where
  terminal : Nat
  status : PartStatus
  acked : Option Nat
  tries : Nat
  retry : Option Nat
  owesClose : Bool
  reason : Option RejectReason
deriving DecidableEq, Repr

/-- The round item (R139). -/
inductive Round
  | none | update | retire
deriving DecidableEq, Repr

/-- The last outcome of a home record (R3). -/
inductive LastOutcome
  | none | full | partTripped | failed | empty | untracked | stray
deriving DecidableEq, Repr

/-- What only a home record holds (R3, R67, R139). `lastFiring` numbers its most recent firing (R133 asks whether a
context is the record's most recent firing); 0 before any. -/
structure HomePart where
  form : Form
  margin : Nat
  floor : Nat
  cap : Nat
  group : Nat
  armingResult : Bool
  requirement : Nat
  held : Nat
  sum : Nat
  shortfall : Bool
  frozen : Bool
  unsettled : Bool
  outcome : LastOutcome
  statuses : List Participant
  round : Round
  dirty : Bool
  lastFiring : Nat
deriving DecidableEq, Repr

/-- Results of a trip request (R119). -/
inductive Result
  | tripped | already | refused | noSuchAction | test | missing | trippedLate
deriving DecidableEq, Repr

/-- How a copy entered FIRED (R118). -/
inductive SummaryEntry
  | firing | order | carried
deriving DecidableEq, Repr

/-- A copy's firing summary (R118). -/
structure FiringSummary where
  generation : Nat
  entry : SummaryEntry
  results : List (Nat × Result)
deriving DecidableEq, Repr

/-- What only a copy holds: the firing summary while FIRED (R118) and the withheld state (R150). -/
structure CopyPart where
  summary : Option FiringSummary
  withheld : Option Life
deriving DecidableEq, Repr

/-- The role of an occupied slot with what only that role holds (R1, R3). -/
inductive Part
  | home (h : HomePart)
  | copy (c : CopyPart)
deriving DecidableEq, Repr

/-- A record or copy: the fields both roles hold (R3, R9), and the part of its role. -/
structure Scheme where
  id : Nat
  home : Nat
  generation : Nat
  life : Life
  trigger : TriggerSet
  actions : List ActionRef
  selection : List ActionRef
  participants : List Nat
  posture : Posture
  interval : Nat
  autoDisarm : Bool
  stale : Bool
  releaseNeeded : Bool
  deadline : Deadline
  part : Part
deriving DecidableEq, Repr

/-! ### Quantity store -/

/-- Where a slot's values come from (R34). -/
inductive QSource
  | none | station | peer (terminal slot : Nat)
deriving DecidableEq, Repr

/-- Quality of a value (R34). -/
inductive Quality
  | unset | good | stale | invalid
deriving DecidableEq, Repr

/-- A quantity slot (R34). `goodAt` is the instant of the last GOOD value, from which the age is counted. -/
structure QSlot where
  source : QSource
  value : Int
  quality : Quality
  goodAt : Option Nat
  limit : Nat
  publish : Bool
  clamped : Bool
deriving DecidableEq, Repr

/-- A slot of source NONE (R34, last column). -/
def emptySlot : QSlot :=
  { source := .none, value := 0, quality := .unset, goodAt := none, limit := 1000, publish := false, clamped := false }

/-! ### Action table and trip outputs -/

/-- The availabilities a site can publish, which are those of a LOCAL entry (R47). -/
inductive SiteAvail
  | inService | blocked | tripped
deriving DecidableEq, Repr

/-- Availability as shown (R47). -/
inductive Avail
  | inService | blocked | tripped | unreachable | unknown
deriving DecidableEq, Repr

/-- The kind of an entry with what only that kind holds (R47). `freshUntil` is present while a MIRROR is FRESH,
`taken` is the instant of the last publication taken (R56). Pulse in ms. -/
inductive ActionKind
  | localEntry (output : Nat) (valueSlot : Option Nat) (pulse : Nat) (avail : SiteAvail)
  | mirror (published : Option SiteAvail) (live : Option Nat) (freshUntil : Option Nat) (taken : Option Nat)
deriving DecidableEq, Repr

/-- An action entry (R47). -/
structure ActionEntry where
  ref : ActionRef
  nominal : Nat
  kind : ActionKind
deriving DecidableEq, Repr

/-- A trip output (R63, R64): PULSING until an instant or OPEN, and its test indication. -/
structure TripOutput where
  pulse : Option Nat
  indication : Bool
deriving DecidableEq, Repr

/-! ### Trigger unit -/

/-- The state of an input with the timers and times that belong to it (R99, R100): assertion time in 0.25 ms steps. -/
inductive InputState
  | released
  | qualifying (due : Nat)
  | asserted (since : Nat) (dropout : Option Nat) (repeatDue : Nat)
deriving DecidableEq, Repr

/-- An input qualifier (R99): qualify time in 0.25 ms steps, dropout time in ms. -/
structure Input where
  enable : Bool
  qualify : Nat
  dropout : Nat
  level : Bool
  state : InputState
deriving DecidableEq, Repr

/-- A remote trigger entry (R105): while ASSERTED, its assertion time in 0.25 ms steps and the end of its hold. -/
structure RemoteEntry where
  ref : TrigRef
  asserted : Option (Nat × Nat)
deriving DecidableEq, Repr

/-! ### Execution unit -/

/-- The cause of a firing (R119). -/
inductive Cause
  | localFiring | report (terminal : Nat) | hold (terminal : Nat)
deriving DecidableEq, Repr

/-- Site status (R119). -/
inductive SiteStatus
  | awaiting | reported | ordered | confirmed | undelivered | missed
deriving DecidableEq, Repr

/-- A site entry of a context (R119). -/
structure SiteEntry where
  terminal : Nat
  status : SiteStatus
  actions : List (Nat × Option Result)
  extras : List (Nat × Result)
  generation : Option Nat
  latency : Option Nat
deriving DecidableEq, Repr

/-- The outcome of a COMPLETE context (R119, R132). -/
inductive Outcome
  | full | partTripped | failed | empty
deriving DecidableEq, Repr

/-- What an OPEN or COMPLETE context holds (R119). `serial` numbers the executions, test firings
among them. -/
structure Execution where
  schemeId : Nat
  generation : Nat
  cause : Cause
  test : Bool
  firedAt : Nat
  serial : Nat
  sites : List SiteEntry
deriving DecidableEq, Repr

/-- An execution context (R119) with its report wait and execution deadline while OPEN. -/
inductive Context
  | idle
  | opened (x : Execution) (reportWait : Option Nat) (deadline : Nat)
  | complete (x : Execution) (completedAt : Nat) (outcome : Outcome)
deriving DecidableEq, Repr

/-! ### Link controller -/

/-- A routed frame (R162, R212); its class is its kind's. -/
structure Frame where
  destination : Nat
  source : Nat
  kind : FrameKind
  hop : Nat
  body : List Byte
deriving DecidableEq, Repr

/-- Who put a frame into a queue (R171): the originating block, with what its fate concerns, or relay from a port. An
order of a context carries the serial number of its execution, so that its fate reaches that context alone (R128). -/
inductive Origin
  | block
  | order (serial : Nat)
  | echoTest (number : Nat)
  | relay (arrival : Nat)
deriving DecidableEq, Repr

/-- A queued frame (R171). -/
structure Queued where
  frame : Frame
  origin : Origin
deriving DecidableEq, Repr

/-- What a transmitter sends (R164, R171). -/
inductive Sending
  | urgent | routine | start (heard : Bool) | idle
deriving DecidableEq, Repr

/-- The transmitter (R164): quiet, fill, or a frame until an instant. -/
inductive Transmitter
  | quiet | fill | sending (what : Sending) (due : Nat)
deriving DecidableEq, Repr

/-- Port states (R164). -/
inductive PortState
  | closed | starting | up
deriving DecidableEq, Repr

/-- Port health (R164); none is the absence of one. -/
inductive Health
  | normal | degraded | failed
deriving DecidableEq, Repr

/-- The faults a receiver records (R163). -/
inductive LineFault
  | malformed | check
deriving DecidableEq, Repr

/-- What leaves a transmitter, for a port in loopback (R182): a frame sent whole, or the bytes of one aborted (R172). -/
inductive LineFrame
  | start (heard : Bool) | idle | routed (f : Frame) | aborted
deriving DecidableEq, Repr

/-- A corridor port (R164). `peer` is the last peer START: when, and the number it carried. The three `win` flags are
what the receiver found in the health window so far (R180); `lastEnd` is the end of the last frame sent or the entry
into UP (R171); `looped` holds what a port in loopback has sent and its receiver not yet taken (R182). -/
structure Port where
  state : PortState
  loopback : Bool
  neighbour : Option Nat
  peer : Option (Nat × Nat)
  clash : Bool
  health : Option Health
  good : Nat
  bad : Nat
  silent : Nat
  urgent : List Queued
  routine : List Queued
  tx : Transmitter
  startDue : Option Nat
  windowDue : Option Nat
  lastFault : Option (LineFault × Nat × PortState)
  winFault : Bool
  winValid : Bool
  winActive : Bool
  lastEnd : Nat
  looped : List LineFrame
deriving DecidableEq, Repr

/-- A port after full reset (R164, last column). -/
def closedPort : Port :=
  { state := .closed, loopback := false, neighbour := none, peer := none, clash := false, health := none,
    good := 0, bad := 0, silent := 0, urgent := [], routine := [], tx := .quiet, startDue := none,
    windowDue := none, lastFault := none, winFault := false, winValid := false, winActive := false,
    lastEnd := 0, looped := [] }

/-- A route table entry (R173). -/
structure Route where
  primary : Option Nat
  alternate : Option Nat
deriving DecidableEq, Repr

/-- The PORT TEST result (R183, R184). -/
inductive TestResult
  | none
  | outstanding (destination originated due : Nat)
  | replied (roundTrip : Nat)
  | noReply
  | notSent
deriving DecidableEq, Repr

/-! ### Station port -/

/-- The response buffer (R188): a command frame in processing is the bytes stored, the count received and the
instant its processing ends. -/
inductive Buffer
  | empty
  | processing (stored : List Byte) (count due : Nat)
  | held (response : List Byte) (fetched : Bool)
deriving DecidableEq, Repr

/-- An event flag (R196): set exactly while it names an item. -/
structure EventFlag where
  item : Option Nat
  enable : Bool
deriving DecidableEq, Repr

/-- The ten events (R195), in the order of their table. -/
inductive Event
  | executionDone | strayFiring | armingChange | shortfall | unsettled | lapse | retireIncomplete | portHealth
  | quantityStale | copyDisowned
deriving DecidableEq, Repr

/-! ### The whole part -/

/-- The state of the part: every item the manual gives it (INVENTORY.md, "State", names the rule of each). -/
structure State where
  now : Nat
  mode : Mode
  settings : Settings
  schemes : List (Option Scheme)
  slots : List QSlot
  actions : List ActionEntry
  outputs : List TripOutput
  inputs : List Input
  remote : List RemoteEntry
  contexts : List Context
  firings : Nat
  ports : List Port
  routes : List Route
  testNumber : Nat
  test : TestResult
  publication : Option Nat
  buffer : Buffer
  miso : List Byte
  events : List EventFlag
  freeIndex : Nat
  pending : List Instr
deriving DecidableEq, Repr

/-- Why a step stops with a fault. -/
inductive Fault
  /-- Raised by an event or a received frame that names a unit the part does not have: an input above 15, a slot
  above 31, an output above 15, a context above 7, a port above 3. No such event can happen, so stopping is safe. -/
  | noSuchUnit
deriving DecidableEq, Repr

/-- Why a step is refused. -/
inductive Refusal
  /-- Raised by an arm of `exec` whose command has no meaning yet. Safe: nothing is claimed of it. -/
  | notModelled (mnemonic : String)
deriving DecidableEq, Repr

/-- The settings' defaults (R204). -/
def defaultSettings : Settings :=
  { terminal := 0, hopLimit := 7, rates := [256, 256, 256, 256], publishInterval := 100, publishList := [],
    noticeRepeat := 20, remoteHold := 60, reportWait := 20, deadline := 150, retryInterval := 25,
    retryCount := 8, degrade := 3, fail := 5, clear := 50 }

/-- An input after full reset (R99): qualify time 1 ms, dropout time 20 ms, the level as presented (at power-on the
model presents inactive: log entry 1). -/
def resetInput (level : Bool) : Input :=
  { enable := false, qualify := 4, dropout := 20, level := level, state := .released }

/-- The machine right after a full reset at power-on (R203 and the rules it gathers). -/
def State.reset : State :=
  { now := 0, mode := .config, settings := defaultSettings,
    schemes := List.replicate 64 none,
    slots := List.replicate 32 emptySlot,
    actions := [],
    outputs := List.replicate 16 { pulse := none, indication := false },
    inputs := List.replicate 16 (resetInput false),
    remote := [],
    contexts := List.replicate 8 .idle,
    firings := 0,
    ports := List.replicate 4 closedPort,
    routes := List.replicate 14 { primary := none, alternate := none },
    testNumber := 0, test := .none, publication := none,
    buffer := .empty, miso := [],
    events := List.replicate 10 { item := none, enable := false },
    freeIndex := 0, pending := [] }

end Sys2Proof.Machine
end

