-- ==== Sys2Proof/Machine/Codec.lean ====
section
/-! DEFINITION. Bytes: how numbers are laid out in frames and responses (R212 to R216), the CRC-16 check, the
transparency encoding, and the codes of frame kinds, results and other named values. -/

namespace Sys2Proof.Machine

/-! ### Numbers as bytes, most significant byte first (Formats) -/

/-- One byte. -/
def u8 (n : Nat) : List Byte := [byteOf n]

/-- Two bytes, unsigned. -/
def u16 (n : Nat) : List Byte := [byteOf (n / 256), byteOf n]

/-- Four bytes, unsigned. -/
def u32 (n : Nat) : List Byte :=
  [byteOf (n / 16777216), byteOf (n / 65536), byteOf (n / 256), byteOf n]

/-- Four bytes, signed in two's complement. -/
def i32 (v : Int) : List Byte := u32 (BitVec.ofInt 32 v).toNat

/-- A flag or marker: 01h set, 00h clear (R216). -/
def flagByte (b : Bool) : List Byte := if b then [1] else [0]

/-- A value that may be none or absent (R216). -/
def optional {α : Type} (enc : α → List Byte) : Option α → List Byte
  | some v => 1 :: enc v
  | none => [0]

/-- Entries laid out in turn. -/
def each {α : Type} (enc : α → List Byte) (l : List α) : List Byte := l.flatMap enc

/-- A list: a count byte followed by its entries (R216). -/
def listOf {α : Type} (enc : α → List Byte) (l : List α) : List Byte := byteOf l.length :: each enc l

/-- The unsigned number of two bytes. -/
def nat16 (a b : Byte) : Nat := a.toNat * 256 + b.toNat

/-- The unsigned number of four bytes. -/
def nat32 (a b c d : Byte) : Nat := ((a.toNat * 256 + b.toNat) * 256 + c.toNat) * 256 + d.toNat

/-- The signed number of four bytes. -/
def int32 (a b c d : Byte) : Int := (BitVec.ofNat 32 (nat32 a b c d)).toInt

/-- Whether bit `n` of a number is 1. -/
def bit (w n : Nat) : Bool := w / 2 ^ n % 2 == 1

/-- A trigger reference in one byte: terminal high, input low (R213). -/
def trigRefByte (r : TrigRef) : List Byte := u8 (r.terminal * 16 + r.input)

/-- The trigger reference of a byte (R213). -/
def trigRefOf (b : Byte) : TrigRef := { terminal := b.toNat / 16, input := b.toNat % 16 }

/-- An action reference in two bytes: site, then number (Formats). -/
def actionRefBytes (r : ActionRef) : List Byte := u8 r.site ++ u8 r.number

/-- The action references of a byte list read pair by pair. -/
def actionRefsOf : List Byte → List ActionRef
  | s :: n :: rest => { site := s.toNat, number := n.toNat } :: actionRefsOf rest
  | _ => []

/-! ### The check (R212) -/

/-- One bit step of the CRC-16 with polynomial 8005h, not reflected. -/
def crcShift (r : BitVec 16) : BitVec 16 :=
  if r.msb then (r <<< 1) ^^^ 0x8005#16 else r <<< 1

/-- One byte into the check register, most significant bit first. -/
def crcByte (r : BitVec 16) (b : Byte) : BitVec 16 :=
  let r0 := r ^^^ (b.setWidth 16 <<< 8)
  crcShift (crcShift (crcShift (crcShift (crcShift (crcShift (crcShift (crcShift r0)))))))

/-- The check of a byte list, register preset to FFFFh. -/
def crc (bytes : List Byte) : BitVec 16 := bytes.foldl crcByte 0xFFFF#16

/-- The check as two bytes, most significant first. -/
def crcBytes (bytes : List Byte) : List Byte := u16 (crc bytes).toNat

/-! ### Corridor frames (R162, R212) -/

/-- The marker, 5Ah. -/
def marker : Byte := 0x5A#8

/-- The escape, A5h. -/
def escape : Byte := 0xA5#8

/-- What a transmitter sends where it aborts a frame: an escape and a marker (R169, R172, R212). -/
def abortBytes : List Byte := [escape, marker]

/-- The code of a kind (R212). -/
def kindCode : FrameKind → Nat
  | .contingency => 0x01 | .firedReport => 0x02 | .tripOrder => 0x03 | .orderAck => 0x04
  | .start => 0x10 | .idle => 0x11
  | .update => 0x20 | .updateReply => 0x21 | .refresh => 0x22 | .refreshAck => 0x23
  | .retire => 0x24 | .retireAck => 0x25 | .disown => 0x26
  | .quantity => 0x30 | .actionStatus => 0x31 | .echo => 0x38 | .echoReply => 0x39

/-- The place of a kind in R162's table, by which a response names it (R216). -/
def kindPlace : FrameKind → Nat
  | .contingency => 1 | .firedReport => 2 | .tripOrder => 3 | .orderAck => 4 | .start => 5 | .idle => 6
  | .update => 7 | .updateReply => 8 | .refresh => 9 | .refreshAck => 10 | .retire => 11 | .retireAck => 12
  | .disown => 13 | .quantity => 14 | .actionStatus => 15 | .echo => 16 | .echoReply => 17

/-- All kinds in ascending order of their codes. -/
def allKinds : List FrameKind :=
  [.contingency, .firedReport, .tripOrder, .orderAck, .start, .idle, .update, .updateReply, .refresh, .refreshAck,
    .retire, .retireAck, .disown, .quantity, .actionStatus, .echo, .echoReply]

/-- The kind of a code, where there is one. -/
def kindOfCode (n : Nat) : Option FrameKind := allKinds.find? (fun k => kindCode k == n)

/-- The urgent kinds (R162); every other kind is ROUTINE. -/
def urgentKind : FrameKind → Bool
  | .contingency => true | .firedReport => true | .tripOrder => true | .orderAck => true
  | _ => false

/-- Link frames: START and IDLE (R162). -/
def linkKind : FrameKind → Bool
  | .start => true | .idle => true
  | _ => false

/-- The six header bytes (R212). -/
def headerBytes (f : Frame) : List Byte :=
  u8 f.destination ++ u8 f.source ++ u8 (kindCode f.kind) ++
    u8 ((if urgentKind f.kind then 128 else 0) + f.hop) ++ u16 f.body.length

/-- Header, body and check before transparency. -/
def plainBytes (f : Frame) : List Byte := headerBytes f ++ f.body ++ crcBytes (headerBytes f ++ f.body)

/-- Transparency: a marker or escape byte is sent as the escape and the byte with its low four bits inverted (R212). -/
def escaped (bytes : List Byte) : List Byte :=
  bytes.flatMap (fun b => if b == marker || b == escape then [escape, b ^^^ 0x0F#8] else [b])

/-- The bytes of a frame on the line, both markers included (R171, R212). -/
def lineBytes (f : Frame) : List Byte := marker :: escaped (plainBytes f) ++ [marker]

/-- A START as a port sends it (R162, R212): its own number as destination and source, hop limit 1. -/
def startFrame (own : Nat) (heard : Bool) : Frame :=
  { destination := own, source := own, kind := .start, hop := 1, body := flagByte heard }

/-- An IDLE as a port sends it (R162, R212). -/
def idleFrame (own : Nat) : Frame := { destination := own, source := own, kind := .idle, hop := 1, body := [] }

/-! ### What a receiver makes of the bytes between two markers (R163) -/

/-- The gathered bytes with transparency taken off: `aborted` where an escape stands before the marker, `bad` where an
escape is followed by a byte that restores to neither marker nor escape. -/
structure Restored where
  bytes : List Byte
  bad : Bool
  aborted : Bool
deriving DecidableEq, Repr

/-- Take the transparency off. An escape and the byte after it restore one byte, good or bad (log entry 9). -/
def restore : List Byte → Restored
  | [] => { bytes := [], bad := false, aborted := false }
  | [b] => if b == escape then { bytes := [], bad := false, aborted := true }
           else { bytes := [b], bad := false, aborted := false }
  | b :: c :: rest =>
    if b == escape then
      let r := restore rest
      let d := c ^^^ 0x0F#8
      { r with bytes := d :: r.bytes, bad := r.bad || !(d == marker || d == escape) }
    else
      let r := restore (c :: rest)
      { r with bytes := b :: r.bytes }

/-- What R163 makes of a frame: an abort, a fault, or a valid frame. -/
inductive Judgement
  | nothing
  | aborted
  | fault (f : LineFault)
  | valid (f : Frame)
deriving DecidableEq, Repr

/-- The recorded body length of a fault, 0..57 (R163). -/
def recordedLength (line : List Byte) : Nat := min 57 ((restore line).bytes.length - 8)

/-- R163's tests on restored bytes that are a header and more: CHECK, body length, kind and class, hop limit,
destination and source. A destination or source byte of 16 or above, which R163's test 8 does not name and R212's range of
1..14 leaves out, is MALFORMED as 0 and 15 are (log entry 43). -/
def judgeHeader (bytes : List Byte) : Judgement :=
  match bytes with
  | dest :: src :: kind :: ch :: l1 :: l0 :: rest =>
    let body := rest.take (rest.length - 2)
    if crcBytes (bytes.take (bytes.length - 2)) != rest.drop (rest.length - 2) then .fault .check
    else if nat16 l1 l0 != body.length then .fault .malformed
    else
      match kindOfCode kind.toNat with
      | none => .fault .malformed
      | some k =>
        if bit ch.toNat 7 != urgentKind k then .fault .malformed
        else if ch.toNat % 8 == 0 then .fault .malformed
        else if src.toNat == 0 || 15 ≤ src.toNat then .fault .malformed
        else if !linkKind k && (dest.toNat == 0 || 15 ≤ dest.toNat) then .fault .malformed
        else .valid { destination := dest.toNat, source := src.toNat, kind := k, hop := ch.toNat % 8, body := body }
  | _ => .fault .malformed

/-- R163's tests, in order, on the bytes between an opening marker and the next marker. Markers with nothing between
them are ignored (R162). -/
def judgeLine (line : List Byte) : Judgement :=
  if line == [] then .nothing
  else
    let r := restore line
    if r.aborted then .aborted
    else if r.bad then .fault .malformed
    else if 64 < r.bytes.length then .fault .malformed
    else if r.bytes.length < 8 then .fault .malformed
    else judgeHeader r.bytes

/-! ### Codes of named values (R213, R214, R216) -/

/-- Completion codes (R214). -/
def codeByte : Code → Nat
  | .done => 0 | .check => 1 | .length => 2 | .range => 3 | .mode => 4 | .unknown => 5 | .notHome => 6
  | .state => 7 | .full => 8

/-- A life state's code: that of UPDATE (R213), and 6 for RETIRING (R216). -/
def lifeCode : Life → Nat
  | .dormant => 1 | .armed => 2 | .fired => 3 | .spent => 4 | .blocked => 5 | .retiring => 6

/-- The life state of an UPDATE's code (R213). -/
def lifeOfCode : Nat → Option Life
  | 1 => some .dormant | 2 => some .armed | 3 => some .fired | 4 => some .spent | 5 => some .blocked
  | _ => none

/-- A result's code (R213, R216). -/
def resultCode : Result → Nat
  | .tripped => 1 | .already => 2 | .refused => 3 | .noSuchAction => 4 | .test => 5 | .missing => 6
  | .trippedLate => 7

/-- The result of a code carried by a frame (R213). -/
def resultOfCode : Nat → Option Result
  | 1 => some .tripped | 2 => some .already | 3 => some .refused | 4 => some .noSuchAction | 5 => some .test
  | _ => none

/-- A reject reason's code (R213), which is also its place in R139's list. -/
def reasonCode : RejectReason → Nat
  | .noSlot => 1 | .missingAction => 2 | .triggerTableFull => 3

/-- A summary entry's code (R213). -/
def entryCode : SummaryEntry → Nat
  | .firing => 1 | .order => 2 | .carried => 3

/-- A site availability's code in ACTION STATUS (R213), which is also its place in R47's list. -/
def siteAvailCode : SiteAvail → Nat
  | .inService => 1 | .blocked => 2 | .tripped => 3

/-- An availability's place in R47's list. -/
def availCode : Avail → Nat
  | .inService => 1 | .blocked => 2 | .tripped => 3 | .unreachable => 4 | .unknown => 5

/-- A quality's place in R34's list. -/
def qualityPlace : Quality → Nat
  | .unset => 1 | .good => 2 | .stale => 3 | .invalid => 4

/-- A participant status's place in R139's list. -/
def partStatusPlace : PartStatus → Nat
  | .current => 1 | .behind => 2 | .held => 3 | .rejected => 4 | .lost => 5

/-- A last outcome's place in R3's list. -/
def lastOutcomePlace : LastOutcome → Nat
  | .none => 1 | .full => 2 | .partTripped => 3 | .failed => 4 | .empty => 5 | .untracked => 6 | .stray => 7

/-- A context outcome's place in R119's list. -/
def outcomePlace : Outcome → Nat
  | .full => 1 | .partTripped => 2 | .failed => 3 | .empty => 4

/-- A site status's place in R119's list. -/
def siteStatusPlace : SiteStatus → Nat
  | .awaiting => 1 | .reported => 2 | .ordered => 3 | .confirmed => 4 | .undelivered => 5 | .missed => 6

/-- A mode's place in R202's list. -/
def modePlace : Mode → Nat
  | .config => 1 | .run => 2 | .maintenance => 3

/-- A port state's place in R164's list. -/
def portStatePlace : PortState → Nat
  | .closed => 1 | .starting => 2 | .up => 3

/-- A health's place in R164's list. -/
def healthPlace : Health → Nat
  | .normal => 1 | .degraded => 2 | .failed => 3

/-! ### Response frames (R214) and the station port's fixed bytes -/

/-- The fetch code (R214). -/
def fetchCode : Byte := 0xA0#8

/-- The status byte BUSY, which is also the BUSY marker (R191, R214). -/
def busyByte : Byte := 0xE5#8

/-- A response frame: code, ADJUSTED, body length, body, check (R214). -/
def responseFrame (c : Code) (adjusted : Bool) (body : List Byte) : List Byte :=
  let front := u8 (codeByte c) ++ flagByte adjusted ++ u16 body.length ++ body
  front ++ crcBytes front

end Sys2Proof.Machine
end

