-- ==== Sys2Proof/Decode.lean ====
section
/-! DEFINITION. The station port's reading of a command frame (R189, R214, R215), and `decodeTableWord`: the opcode
table gives no row any bits, so no word spells a command by them (log entry 22). -/

namespace Sys2Proof

/-- The command that a word spells by the opcode table's bits: no row of the table has bits. -/
def decodeTableWord (_nbits _w : Nat) : Option Instr := none

end Sys2Proof

namespace Sys2Proof.Machine

/-- What a command frame comes to: the frame test it fails, or the command it carries. -/
inductive Decoded
  | refused (c : Code)
  | command (i : Instr)
deriving DecidableEq, Repr

/-- A byte of a body by its place. -/
def byteAt (body : List Byte) (n : Nat) : Nat := (body[n]?).elim 0 BitVec.toNat

/-- Two bytes of a body from a place. -/
def word16At (body : List Byte) (n : Nat) : Nat := byteAt body n * 256 + byteAt body (n + 1)

/-- Four bytes of a body from a place, unsigned. -/
def word32At (body : List Byte) (n : Nat) : Nat := word16At body n * 65536 + word16At body (n + 2)

/-- Four bytes of a body from a place, signed. -/
def signed32At (body : List Byte) (n : Nat) : Int := (BitVec.ofNat 32 (word32At body n)).toInt

/-- A command whose body has one allowed length (R214). -/
def fixedLength (n : Nat) (body : List Byte) (i : Instr) : Decoded :=
  if body.length = n then .command i else .refused .length

/-- RECORD LOAD's body, its length judged against the count bytes as they stand (R215). -/
def decodeLoad (body : List Byte) : Decoded :=
  let t := byteAt body 21
  let a := byteAt body (25 + t)
  let q := 26 + t + 2 * a
  if body.length = 32 + t + 2 * a then
    .command (.recordLoad {
      schemeId := byteAt body 0, source := byteAt body 1, slot := byteAt body 2,
      onAt := signed32At body 3, offAt := signed32At body 7, limit := signed32At body 11,
      k := word16At body 15, m := word16At body 17, f := word16At body 19,
      mode := byteAt body 22, window := word16At body 23,
      refs := ((body.drop 25).take t).map trigRefOf,
      actions := actionRefsOf ((body.drop (26 + t)).take (2 * a)),
      cap := byteAt body q, posture := byteAt body (q + 1), interval := word16At body (q + 2),
      group := byteAt body (q + 4), autoDisarm := byteAt body (q + 5) })
  else .refused .length

/-- The entries of QUANTITY POST: slot and four-byte value. -/
def postEntries : List Byte → List (Nat × Int)
  | s :: a :: b :: c :: d :: rest => (s.toNat, int32 a b c d) :: postEntries rest
  | _ => []

/-- The items of SETTINGS WRITE: setting number, value length, value; none where the body does not hold what its
lengths say. The first argument bounds the items. -/
def settingItems : Nat → List Byte → Option (List (Nat × List Byte))
  | _, [] => some []
  | 0, _ => none
  | fuel + 1, n :: len :: rest =>
    if rest.length < len.toNat then none
    else (settingItems fuel (rest.drop len.toNat)).map (fun l => (n.toNat, rest.take len.toNat) :: l)
  | _ + 1, _ => none

/-- Whether a setting's value has a length that R214 gives it; a number that names no setting is left to the command's
own check. -/
def settingLengthOk (item : Nat × List Byte) : Bool :=
  let one := [1, 2, 14, 15, 16, 17]
  let two := [3, 4, 5, 6, 7, 9, 10, 11, 12, 13]
  if one.contains item.1 then item.2.length == 1
  else if two.contains item.1 then item.2.length == 2
  else true

/-- SETTINGS WRITE's body. -/
def decodeSettings (body : List Byte) : Decoded :=
  match settingItems body.length body with
  | some l => if l.all settingLengthOk then .command (.settingsWrite l) else .refused .length
  | none => .refused .length

/-- The commands with no body, by code (R214). -/
def bareCommand : Nat → Option Instr
  | 0x1C => some .recordList
  | 0x35 => some .outputRead
  | 0x42 => some .remoteTriggerRead
  | 0x56 => some .routeRead
  | 0x60 => some .eventRead
  | 0x71 => some .settingsComplete
  | 0x72 => some .settingsRead
  | 0x73 => some .reconfigure
  | 0x74 => some .tableClear
  | 0x75 => some .maintenanceEnter
  | 0x76 => some .maintenanceExit
  | _ => none

/-- The commands with a body of one byte, by code (R214). -/
def byteCommand : Nat → Option (Nat → Instr)
  | 0x12 => some .arm
  | 0x13 => some .disarm
  | 0x14 => some .block
  | 0x15 => some .unblock
  | 0x16 => some .resetSpent
  | 0x17 => some .retire
  | 0x18 => some .refresh
  | 0x19 => some .refreshGroup
  | 0x1A => some .dropCopy
  | 0x1B => some .recordRead
  | 0x23 => some .quantityRead
  | 0x41 => some .inputRead
  | 0x50 => some .portOpen
  | 0x51 => some .portClose
  | 0x52 => some .portRead
  | 0x53 => some .portLoopback
  | 0x54 => some .portTest
  | 0x77 => some .testFire
  | _ => none

/-- The commands with a body of two bytes taken apart, by code (R214). RECORD FIND BY TRIGGER's reference of two bytes is
read as the terminal and then the input index: R214 does not lay it out (log entry 40). -/
def pairCommand : Nat → Option (Nat → Nat → Instr)
  | 0x1D => some .recordFindByAction
  | 0x1E => some .recordFindByTrigger
  | 0x31 => some .actionBlock
  | 0x32 => some .actionRestore
  | 0x33 => some .actionRemove
  | 0x34 => some .actionRead
  | 0x48 => some .executionRead
  | _ => none

/-- The other commands, by code; RANGE where the code names none (R189). -/
def otherCommand (code : Nat) (b : List Byte) : Decoded :=
  match code with
  | 0x10 => decodeLoad b
  | 0x11 => fixedLength 19 b (.recordTune (byteAt b 0) (signed32At b 1) (signed32At b 5) (signed32At b 9)
      (word16At b 13) (word16At b 15) (word16At b 17))
  | 0x20 => fixedLength 7 b (.quantitySource (byteAt b 0) (byteAt b 1) (byteAt b 2) (byteAt b 3) (word16At b 4)
      (byteAt b 6))
  | 0x21 => fixedLength (1 + 5 * byteAt b 0) b (.quantityPost (postEntries (b.drop 1)))
  | 0x22 => fixedLength (1 + byteAt b 0) b (.quantityInvalidate ((b.drop 1).map BitVec.toNat))
  | 0x30 => fixedLength 9 b (.actionLoad (byteAt b 0) (byteAt b 1) (byteAt b 2) (byteAt b 3) (byteAt b 4)
      (word16At b 5) (word16At b 7))
  | 0x40 => fixedLength 8 b (.inputConfigure (byteAt b 0) (byteAt b 1) (word16At b 2) (word32At b 4))
  | 0x55 => fixedLength 3 b (.routeWrite (byteAt b 0) (byteAt b 1) (byteAt b 2))
  | 0x61 => fixedLength 2 b (.eventEnable (word16At b 0))
  | 0x62 => fixedLength 2 b (.eventClear (word16At b 0))
  | 0x70 => decodeSettings b
  | _ => .refused .range

/-- The last two frame tests, and the command of a code and body (R189, R214). -/
def decodeCommand (code : Nat) (b : List Byte) : Decoded :=
  match bareCommand code, byteCommand code, pairCommand code with
  | some i, _, _ => fixedLength 0 b i
  | _, some f, _ => fixedLength 1 b (f (byteAt b 0))
  | _, _, some f => fixedLength 2 b (f (byteAt b 0) (byteAt b 1))
  | none, none, none => otherCommand code b

/-- The frame tests of R189 in order, on the bytes stored of a transaction and the count received, and the command of a
frame that passes them. -/
def decodeFrame (stored : List Byte) (count : Nat) : Decoded :=
  match stored with
  | code :: l1 :: l0 :: rest =>
    let len := nat16 l1 l0
    if 512 < len ∨ count ≠ 3 + len + 2 then .refused .length
    else if crcBytes (stored.take (3 + len)) ≠ rest.drop len then .refused .check
    else decodeCommand code.toNat (rest.take len)
  | _ => .refused .length

end Sys2Proof.Machine
end

