-- ==== Sys2Proof/Machine/Ops.lean ====
section
/-! DEFINITION. The named operations over the state: time, the units by number, the scheme table, raising an event,
and answering a station command. -/

namespace Sys2Proof.Machine

/-! ### Time: ticks of 1/256 ms -/

/-- Ticks of a time in ms. -/
def msTicks (n : Nat) : Nat := n * 256

/-- Ticks of a time in 0.25 ms steps. -/
def quarterTicks (n : Nat) : Nat := n * 64

/-- The clock in 0.25 ms steps (R99: a time "on the terminal's own clock, in 0.25 ms steps"). -/
def State.quarters (s : State) : Nat := s.now / 64

/-- Time left to an instant in ms, counted down in 1 ms steps (log entry 3). -/
def State.leftMs (s : State) (due : Nat) : Nat := (due - s.now + 255) / 256

/-- Time left to an instant in 0.25 ms steps (log entry 3). -/
def State.leftQuarters (s : State) (due : Nat) : Nat := (due - s.now + 63) / 64

/-- Time since an instant in ms, saturating at 65535 (R34, R137). -/
def State.sinceMs (s : State) (t : Nat) : Nat := min 65535 ((s.now - t) / 256)

/-- Time since an instant in ms, as four bytes hold it: no rule saturates it, and it stops at what they can show
(log entry 36). -/
def State.elapsedMs (s : State) (t : Nat) : Nat := min 4294967295 ((s.now - t) / 256)

/-- Time since an instant in 0.25 ms steps, saturating at 65535 (R119). -/
def State.sinceQuarters (s : State) (t : Nat) : Nat := min 65535 ((s.now - t) / 64)

/-- Whether a running timer has run out. -/
def State.elapsed (s : State) (due : Nat) : Bool := decide (due ≤ s.now)

/-- Whether a timer, where it runs, has run out. -/
def State.ranOut (s : State) : Option Nat → Bool
  | some due => s.elapsed due
  | none => false

/-! ### Lists -/

/-- The list cut into pieces of at most `n`, in order; the first argument bounds the pieces. -/
def chunksUpTo {α : Type} (n : Nat) : Nat → List α → List (List α)
  | 0, _ => []
  | _ + 1, [] => []
  | fuel + 1, l => l.take n :: chunksUpTo n fuel (l.drop n)

/-- The list cut into pieces of at most `n`, in order. -/
def chunks {α : Type} (n : Nat) (l : List α) : List (List α) := chunksUpTo n l.length l

/-- The terminals 1..14, ascending. -/
def terminals : List Nat := [1, 2, 3, 4, 5, 6, 7, 8, 9, 10, 11, 12, 13, 14]

/-- Whether no value stands twice. -/
def noRepeat {α : Type} [DecidableEq α] (l : List α) : Bool := decide l.Nodup

/-! ### Units by number -/

/-- This terminal's own number (R204). -/
def State.own (s : State) : Nat := s.settings.terminal

/-- Change one port. -/
def State.modPort (s : State) (p : Nat) (f : Port → Port) : State := { s with ports := s.ports.modify p f }

/-- Change one trip output. -/
def State.modOutput (s : State) (o : Nat) (f : TripOutput → TripOutput) : State :=
  { s with outputs := s.outputs.modify o f }

/-- Change one input. -/
def State.modInput (s : State) (i : Nat) (f : Input → Input) : State := { s with inputs := s.inputs.modify i f }

/-- Change one quantity slot. -/
def State.modSlot (s : State) (q : Nat) (f : QSlot → QSlot) : State := { s with slots := s.slots.modify q f }

/-- Put a context. -/
def State.setContext (s : State) (c : Nat) (x : Context) : State := { s with contexts := s.contexts.set c x }

/-- A quantity slot; beyond the 32 slots an empty one, which nothing names. -/
def State.slotAt (s : State) (q : Nat) : QSlot := (s.slots[q]?).getD emptySlot

/-! ### Scheme table (R1) -/

/-- The record or copy in a slot. -/
def State.schemeAt (s : State) (i : Nat) : Option Scheme := (s.schemes[i]?).join

/-- The slots, in slot order. -/
def State.schemeSlots (s : State) : List Nat := List.range s.schemes.length

/-- Fill or empty a slot. -/
def State.putScheme (s : State) (i : Nat) (o : Option Scheme) : State := { s with schemes := s.schemes.set i o }

/-- The occupied slots' contents, in slot order. -/
def State.held (s : State) : List Scheme := s.schemes.filterMap (fun o => o)

/-- Whether a slot's content has a scheme id. -/
def holdsId (id : Nat) : Option Scheme → Bool
  | some sc => sc.id == id
  | none => false

/-- The slot that holds a scheme id (R1: at most one does). -/
def State.slotOf (s : State) (id : Nat) : Option Nat := s.schemes.findIdx? (holdsId id)

/-- The lowest-numbered EMPTY slot (R1). -/
def State.emptySlotNo (s : State) : Option Nat := s.schemes.findIdx? Option.isNone

/-- The record or copy of a scheme id, with its slot. -/
def State.findScheme (s : State) (id : Nat) : Option (Nat × Scheme) :=
  match s.slotOf id with
  | some i => (s.schemeAt i).map (fun sc => (i, sc))
  | none => none

/-- The home record of a scheme id, with its slot. -/
def State.findHome (s : State) (id : Nat) : Option (Nat × Scheme × HomePart) :=
  match s.findScheme id with
  | some (i, sc) =>
    match sc.part with
    | .home h => some (i, sc, h)
    | .copy _ => none
  | none => none

/-- The copy of a scheme id, with its slot. -/
def State.findCopy (s : State) (id : Nat) : Option (Nat × Scheme × CopyPart) :=
  match s.findScheme id with
  | some (i, sc) =>
    match sc.part with
    | .home _ => none
    | .copy c => some (i, sc, c)
  | none => none

/-- Whether a slot's content is a home record. -/
def Scheme.isHome (sc : Scheme) : Bool :=
  match sc.part with
  | .home _ => true
  | .copy _ => false

/-- Put the home part of a record back. -/
def Scheme.withHome (sc : Scheme) (h : HomePart) : Scheme := { sc with part := .home h }

/-- Put the copy part of a copy back. -/
def Scheme.withCopy (sc : Scheme) (c : CopyPart) : Scheme := { sc with part := .copy c }

/-- The instant at which a refresh deadline restarted now runs out (R87, R92). -/
def State.freshDeadline (s : State) (interval : Nat) : Deadline :=
  if interval == 0 then .stopped else .running (s.now + msTicks (interval * 1000))

/-! ### Events (R195, R196) -/

/-- The place of an event in R195's table, from 0. -/
def eventPlace : Event → Nat
  | .executionDone => 0 | .strayFiring => 1 | .armingChange => 2 | .shortfall => 3 | .unsettled => 4
  | .lapse => 5 | .retireIncomplete => 6 | .portHealth => 7 | .quantityStale => 8 | .copyDisowned => 9

/-- Raise an event for an item: its flag becomes set and names this item (R196). -/
def State.raise (s : State) (e : Event) (item : Nat) : State :=
  { s with events := s.events.modify (eventPlace e) (fun f => { f with item := some item }) }

/-- Raise an event where a condition holds. -/
def State.raiseIf (s : State) (c : Bool) (e : Event) (item : Nat) : State := if c then s.raise e item else s

/-! ### Station responses (R190, R193) -/

/-- Hold a response, unfetched (R190). -/
def State.respond (s : State) (c : Code) (adjusted : Bool) (body : List Byte) : State :=
  { s with buffer := .held (responseFrame c adjusted body) false }

/-- What a command's own checks and action come to: a refusal, or the state after it with ADJUSTED and the body. -/
inductive Taken
  | refused (c : Code)
  | done (s : State) (adjusted : Bool) (body : List Byte)

/-- A command frame that passed its frame tests is taken (R190): the device mode, then the command's own checks. A
refused command changes nothing but the response held, and its body is empty (R193). -/
def station (allowed : List Mode) (s : State) (act : Taken) : State :=
  if s.mode ∈ allowed then
    match act with
    | .refused c => s.respond c false []
    | .done t adjusted body => t.respond .done adjusted body
  else s.respond .mode false []

/-- The modes of a command taken in RUN and MAINTENANCE (R194). -/
def inService : List Mode := [.run, .maintenance]

/-- The modes of a command taken in all (R194). -/
def everyMode : List Mode := [.config, .run, .maintenance]

/-- A home-only record command's checks of the id, presence and role (R2, steps 3 to 5). -/
def withHomeRecord (s : State) (id : Nat) (k : Nat → Scheme → HomePart → Taken) : Taken :=
  if id == 0 then .refused .range
  else
    match s.findScheme id with
    | none => .refused .unknown
    | some (i, sc) =>
      match sc.part with
      | .copy _ => .refused .notHome
      | .home h => k i sc h

end Sys2Proof.Machine
end

