-- ==== Sys2Proof/Machine/Flags.lean ====
section
/-! DEFINITION. The lines and flags the host sees without a command: READY (R188), ATTN (R197), the status byte of a
transaction (R187), and the entries of EVENT READ and EVENT CLEAR (R199, R200). -/

namespace Sys2Proof.Machine

/-- READY is high exactly while a response is held that has not been fetched whole (R188). -/
def State.ready (s : State) : Bool :=
  match s.buffer with
  | .held _ false => true
  | _ => false

/-- ATTN is active while at least one flag is both set and enabled (R197). -/
def State.attn (s : State) : Bool := s.events.any (fun f => f.item.isSome && f.enable)

/-- The status byte of a transaction by the buffer at the fall of CS (R187, R214). -/
def statusByte : Buffer → Byte
  | .empty => 0x00#8
  | .processing _ _ _ => busyByte
  | .held _ false => 0x01#8
  | .held _ true => 0x02#8

/-- The state and item of a flag in a response (R199, R200). -/
def flagView (f : EventFlag) : List Byte := flagByte f.item.isSome ++ optional u8 f.item

/-- The flags that a ten-bit word names, each with its place. -/
def namedFlags (bits : Nat) (l : List EventFlag) : List EventFlag :=
  (l.zipIdx.filter (fun p => bit bits p.2)).map Prod.fst

end Sys2Proof.Machine
end

