-- ==== Sys2Proof/Machine/Links.lean ====
section
/-! DEFINITION. The Link Controller: reachability, the transmit queues and the transmitter, routing and relay, the
start handshake, leaving UP, and health (R162 to R186). -/

namespace Sys2Proof.Machine

/-! ### Ports and reachability (R173, R174) -/

/-- A port by number. -/
def State.portAt (s : State) (p : Nat) : Port := (s.ports[p]?).getD closedPort

/-- A port is usable while it is UP and its health is not FAILED (R174). -/
def Port.usable (p : Port) : Bool := p.state == .up && p.health != some .failed

/-- The port is heard while its last peer START was taken no more than 30 ms ago (R164). -/
def State.heard (s : State) (p : Port) : Bool :=
  match p.peer with
  | some (t, _) => decide (s.now ≤ t + msTicks 30)
  | none => false

/-- The route table entry of a destination (R173). -/
def State.routeTo (s : State) : Nat → Route
  | 0 => { primary := none, alternate := none }
  | d + 1 => (s.routes[d]?).getD { primary := none, alternate := none }

/-- Whether a route's port, where it names one, is usable. -/
def State.usableThrough (s : State) : Option Nat → Bool
  | some p => (s.portAt p).usable
  | none => false

/-- A destination is reachable while its primary port or its alternate port is usable (R174). -/
def State.reachable (s : State) (d : Nat) : Bool :=
  s.usableThrough (s.routeTo d).primary || s.usableThrough (s.routeTo d).alternate

/-! ### The transmitter (R171, R172) -/

/-- The link rate of a port in kbit/s (R204). -/
def State.rateOf (s : State) (p : Nat) : Nat := (s.settings.rates[p]?).getD 256

/-- The bytes on the line of what a port begins to send. -/
def Port.sendBytes (own : Nat) (port : Port) : Sending → List Byte
  | .urgent => (port.urgent.head?).elim [] (fun q => lineBytes q.frame)
  | .routine => (port.routine.head?).elim [] (fun q => lineBytes q.frame)
  | .start heard => lineBytes (startFrame own heard)
  | .idle => lineBytes (idleFrame own)

/-- Ticks of one byte at a port's link rate: 8 bits (R171). -/
def State.byteTicks (s : State) (p : Nat) : Nat := 2048 / s.rateOf p

/-- Begin to send after the bytes of an abort, or none: the transmission lasts its bytes, 8 bits each, at the port's link
rate (R171, R172). -/
def State.transmitAfter (s : State) (p : Nat) (lead : List Byte) (what : Sending) : State :=
  s.modPort p (fun port =>
    { port with tx := .sending what (s.now + (lead ++ port.sendBytes s.own what).length * s.byteTicks p) })

/-- Begin to send (R171). -/
def State.transmit (s : State) (p : Nat) (what : Sending) : State := s.transmitAfter p [] what

/-- What a free transmitter of an UP port sends next: urgent, then routine, then an IDLE where 2 ms have passed since
the last frame ended, else fill (R171). -/
def Port.nextToSend (now : Nat) (port : Port) : Option Sending :=
  if !port.urgent.isEmpty then some .urgent
  else if !port.routine.isEmpty then some .routine
  else if port.lastEnd + msTicks 2 ≤ now then some .idle
  else none

/-- The transmitter of an UP port chooses (R171). -/
def State.choose (s : State) (p : Nat) : State :=
  match (s.portAt p).nextToSend s.now with
  | some what => s.transmit p what
  | none => s.modPort p (fun port => { port with tx := .fill })

/-- A START is sent, after the bytes of an abort or none, its heard flag set where the port is heard at the sending
(R166). -/
def State.sendStart (s : State) (p : Nat) (lead : List Byte) : State :=
  s.transmitAfter p lead (.start (s.heard (s.portAt p)))

/-- A port in loopback gives its own receiver the bytes of the frame it aborts (R172, R182). -/
def Port.abortLooped (port : Port) : Port :=
  { port with looped := if port.loopback then port.looped ++ [.aborted] else port.looped }

/-- What is in transmission is aborted, and the head of the urgent queue begun (R172, log entry 35). -/
def State.preempt (s : State) (p : Nat) : State := (s.modPort p Port.abortLooped).transmitAfter p abortBytes .urgent

/-! ### Queues and routing (R171, R175, R177) -/

/-- Whether a port's queue of a kind's class has room: 16 urgent, 32 routine (R171). -/
def Port.room (port : Port) (k : FrameKind) : Bool :=
  if urgentKind k then decide (port.urgent.length < 16) else decide (port.routine.length < 32)

/-- A frame at the tail of the queue of its class (R171). -/
def Port.enqueue (port : Port) (q : Queued) : Port :=
  if urgentKind q.frame.kind then { port with urgent := port.urgent ++ [q] }
  else { port with routine := port.routine ++ [q] }

/-- Whether an urgent frame that joins preempts what is in transmission: a routine frame or a link frame, on a port
below 512 kbit/s (R172; START as any frame of class ROUTINE, log entry 10). -/
def preempts (rate : Nat) (k : FrameKind) : Sending → Bool
  | .urgent => false
  | _ => urgentKind k && decide (rate < 512)

/-- A frame joins a port's queue, and is begun in that event where the transmitter sends fill or is preempted
(R171, R172). -/
def State.join (s : State) (p : Nat) (q : Queued) : State :=
  let t := s.modPort p (fun port => port.enqueue q)
  match (s.portAt p).tx with
  | .quiet => t
  | .fill => t.choose p
  | .sending what _ => if preempts (s.rateOf p) q.frame.kind what then t.preempt p else t

/-- Whether a route's port takes a frame: usable, not the port the frame arrived on, and with room (R175, R177). -/
def State.takes (s : State) (arrival : Option Nat) (k : FrameKind) : Option Nat → Bool
  | some p => (s.portAt p).usable && arrival != some p && (s.portAt p).room k
  | none => false

/-- The port a frame is routed to: the primary, otherwise the alternate (R175, R177). -/
def State.findPort (s : State) (arrival : Option Nat) (d : Nat) (k : FrameKind) : Option Nat :=
  if s.takes arrival k (s.routeTo d).primary then (s.routeTo d).primary
  else if s.takes arrival k (s.routeTo d).alternate then (s.routeTo d).alternate
  else none

/-- The port a queued frame arrived on, for relay. -/
def Origin.arrival : Origin → Option Nat
  | .relay p => some p
  | _ => none

/-- Whether a queued frame was originated here. -/
def Origin.originated : Origin → Bool
  | .relay _ => false
  | _ => true

/-- Route a frame into a queue; `none` where no port takes it (NOT SENT, or discarded for a relayed one). -/
def State.route (s : State) (q : Queued) : Option State :=
  match s.findPort q.origin.arrival q.frame.destination q.frame.kind with
  | some p => some (s.join p q)
  | none => none

/-- A frame originated here: LKC completes the header (R175). -/
def State.originate (s : State) (k : FrameKind) (destination : Nat) (body : List Byte) (o : Origin) : Queued :=
  { frame := { destination := destination, source := s.own, kind := k, hop := s.settings.hopLimit, body := body },
    origin := o }

/-! ### Port states (R165 to R170) -/

/-- The state becomes STARTING: the start timer starts at 10 ms and a START is sent at once, after the bytes of an abort
where a frame was in transmission (R165, R168, R169, R181). -/
def State.beginStarting (s : State) (p : Nat) (lead : List Byte) : State :=
  (s.modPort p (fun port =>
    { port with state := .starting, tx := .fill, startDue := some (s.now + msTicks 10) })).sendStart p lead

/-- PORT OPEN's effect on a CLOSED port (R165). -/
def State.openPort (s : State) (p : Nat) : State :=
  (s.modPort p (fun port => { port with neighbour := none, peer := none, clash := false })).beginStarting p []

/-- What a transmitter sends as its port leaves UP: an abort where it is in the middle of a frame (R169, step 1). -/
def Transmitter.aborting : Transmitter → List Byte
  | .sending _ _ => abortBytes
  | .fill => []
  | .quiet => []

/-- A port enters UP from STARTING (R167). A START still in transmission runs on. -/
def State.enterUp (s : State) (p : Nat) : State :=
  (s.modPort p (fun port =>
    { port with
      state := .up, startDue := none, neighbour := port.peer.map Prod.snd, health := some .degraded,
      good := 0, bad := 0, silent := 0, windowDue := some (s.now + msTicks 10),
      winFault := false, winValid := false, winActive := false, lastEnd := s.now })).raiseIf
    ((s.portAt p).health != some .degraded) .portHealth p

/-- The urgent frames of a port leaving UP, one by one: re-routed, or returned where originated, or discarded where
relayed (R169, step 3). -/
def rerouteStep (acc : State × List Queued) (q : Queued) : State × List Queued :=
  match acc.1.route q with
  | some t => (t, acc.2)
  | none => (acc.1, if q.origin.originated then acc.2 ++ [q] else acc.2)

/-- A port's items as it leaves UP, before the state it goes to (R169, steps 1 and 2). -/
def Port.out (port : Port) (failed : Bool) : Port :=
  { port with
    state := .starting, tx := .fill, windowDue := none, health := if failed then some .failed else none,
    good := 0, bad := 0, silent := 0, urgent := [], routine := [], neighbour := none, clash := false,
    winFault := false, winValid := false, winActive := false }

/-- A port leaves UP (R169): the state with its queues emptied and its urgent frames re-routed, and the frames
returned NOT SENT. The caller takes the port on to CLOSED or STARTING. -/
def State.leaveUp (s : State) (p : Nat) (failed : Bool) : State × List Queued :=
  let port := s.portAt p
  let t := (s.modPort p (fun q => q.out failed)).raiseIf (port.health != (port.out failed).health) .portHealth p
  let r := port.urgent.foldl rerouteStep (t, [])
  (r.1, r.2 ++ port.routine.filter (fun q => q.origin.originated))

/-- The port becomes CLOSED, from STARTING or having left UP (R170). -/
def State.shutPort (s : State) (p : Nat) : State :=
  (s.modPort p (fun port =>
    { port with
      state := .closed, startDue := none, tx := .quiet, clash := false, neighbour := none, peer := none,
      loopback := false, health := none, looped := [] })).raiseIf
    ((s.portAt p).health == some .failed) .portHealth p

/-- PORT CLOSE's effect on a port, and the frames it returns NOT SENT (R170). -/
def State.closePort (s : State) (p : Nat) : State × List Queued :=
  match (s.portAt p).state with
  | .closed => (s, [])
  | .starting => (s.shutPort p, [])
  | .up =>
    let r := s.leaveUp p false
    (r.1.shutPort p, r.2)

/-! ### Reception (R163, R166, R176) -/

/-- A valid frame counts in the health window of an UP port (R180). -/
def State.markValid (s : State) (p : Nat) : State := s.modPort p (fun port => { port with winValid := true })

/-- Whether a port takes a valid routed frame or IDLE from a source, and the state in which it is then taken: in UP as
it stands; in STARTING it enters UP where it is heard, but a frame carrying this terminal's number is discarded while
loopback is clear; CLOSED ignores everything (R163, R166). -/
def State.admitFrame (s : State) (p source : Nat) : Option State :=
  let port := s.portAt p
  match port.state with
  | .closed => none
  | .up => some (s.markValid p)
  | .starting =>
    if source == s.own && !port.loopback then none
    else if s.heard port then some ((s.enterUp p).markValid p)
    else none

/-! ### Health (R180, R181) -/

/-- The class of a health window (R180). -/
inductive WindowClass
  | errored | good | active | silent
deriving DecidableEq, Repr

/-- The class of the window that ends, `unfinished` where part of a frame had been received (R180). -/
def Port.windowClass (port : Port) (unfinished : Bool) : WindowClass :=
  if port.winFault then .errored
  else if port.winValid then .good
  else if port.winActive || unfinished then .active
  else .silent

/-- One more, saturating at 255 (R180). -/
def runUp (n : Nat) : Nat := min 255 (n + 1)

/-- The runs after a window of a class, and a new window begun (R180). -/
def Port.afterWindow (port : Port) (c : WindowClass) (now : Nat) : Port :=
  { port with
    good := if c == .good then runUp port.good else 0,
    bad := if c == .good then 0 else runUp port.bad,
    silent := if c == .silent then runUp port.silent else 0,
    winFault := false, winValid := false, winActive := false, windowDue := some (now + msTicks 10) }

/-- What a window end decides (R181). -/
inductive HealthStep
  | fails | degrades | clears | stays
deriving DecidableEq, Repr

/-- The health decision against F, D and C, in R181's order. -/
def healthStep (st : Settings) (port : Port) : HealthStep :=
  if st.fail ≤ port.silent then .fails
  else if port.health == some .normal && decide (st.degrade ≤ port.bad) then .degrades
  else if port.health == some .degraded && decide (st.clear ≤ port.good) then .clears
  else .stays

/-! ### Frames a loopback port gives its own receiver (R182) -/

/-- What leaves a transmitter at the end of a transmission. -/
def Port.sentFrame (port : Port) : Sending → Option LineFrame
  | .urgent => (port.urgent.head?).map (fun q => .routed q.frame)
  | .routine => (port.routine.head?).map (fun q => .routed q.frame)
  | .start heard => some (.start heard)
  | .idle => some .idle

/-- The queues after a frame's transmission ends (R171). -/
def Port.dropSent (port : Port) : Sending → Port
  | .urgent => { port with urgent := port.urgent.tail }
  | .routine => { port with routine := port.routine.tail }
  | .start _ => port
  | .idle => port

end Sys2Proof.Machine
end

