-- ==== Sys2Proof/Machine/Tables.lean ====
section
/-! DEFINITION. What is derived from the tables as they stand: quantity readings (R54, R79), live and effective values
and availabilities of actions (R54 to R56), publish homes (R60), notice lists (R102), the assertion times of trigger
references (R109), satisfied sets (R110), eligibility (R111); and the trip request with its pulse (R58, R59, R63). -/

namespace Sys2Proof.Machine

/-! ### Quantities -/

/-- A value brought into -60000..60000 (R37). -/
def saturate (v : Int) : Int := max (-60000) (min 60000 v)

/-- The value of a slot while it is GOOD. -/
def State.goodValue (s : State) (q : Nat) : Option Int :=
  if (s.slotAt q).quality = .good then some (s.slotAt q).value else none

/-! ### Actions -/

/-- An action entry by reference. -/
def State.findAction (s : State) (r : ActionRef) : Option ActionEntry := s.actions.find? (fun a => decide (a.ref = r))

/-- Live value: of a LOCAL entry from its value slot while GOOD, brought into 0..65535 (R54); of a MIRROR entry the
last published value. -/
def State.liveValue (s : State) (a : ActionEntry) : Option Nat :=
  match a.kind with
  | .localEntry _ (some q) _ _ => (s.goodValue q).map (fun v => min 65535 v.toNat)
  | .localEntry _ none _ _ => none
  | .mirror _ live _ _ => live

/-- Effective value: of a LOCAL entry the live value, or the nominal value where there is none (R54); of a MIRROR
entry the live value while FRESH, and the nominal value while STALE (R56). -/
def State.effective (s : State) (a : ActionEntry) : Nat :=
  match a.kind with
  | .localEntry _ _ _ _ => (s.liveValue a).getD a.nominal
  | .mirror _ live (some _) _ => live.getD a.nominal
  | .mirror _ _ none _ => a.nominal

/-- A published availability as shown. -/
def SiteAvail.shown : SiteAvail → Avail
  | .inService => .inService | .blocked => .blocked | .tripped => .tripped

/-- Availability (R55): a LOCAL entry's own; a MIRROR entry's UNREACHABLE while its site is unreachable, else what the
site last published, else UNKNOWN. -/
def State.availability (s : State) (a : ActionEntry) : Avail :=
  match a.kind with
  | .localEntry _ _ _ av => av.shown
  | .mirror published _ _ _ =>
    if s.reachable a.ref.site then (published.map SiteAvail.shown).getD .unknown else .unreachable

/-- The LOCAL entry of an action number (R47). -/
def State.findLocal (s : State) (number : Nat) : Option ActionEntry :=
  match s.findAction { site := s.own, number := number } with
  | some a =>
    match a.kind with
    | .localEntry _ _ _ _ => some a
    | .mirror _ _ _ _ => none
  | none => none

/-- Whether an entry is LOCAL. -/
def ActionEntry.isLocal (a : ActionEntry) : Bool :=
  match a.kind with
  | .localEntry _ _ _ _ => true
  | .mirror _ _ _ _ => false

/-- The output of a LOCAL entry. -/
def ActionEntry.output (a : ActionEntry) : Option Nat :=
  match a.kind with
  | .localEntry o _ _ _ => some o
  | .mirror _ _ _ _ => none

/-- Key order of the action table: ascending site, then number (R47). -/
def refBefore (a b : ActionRef) : Bool := decide (a.site < b.site) || (a.site == b.site && decide (a.number < b.number))

/-- An entry put into the table in key order, in place of the entry of the same reference (R47, R48). -/
def putEntry (a : ActionEntry) : List ActionEntry → List ActionEntry
  | [] => [a]
  | b :: rest =>
    if b.ref = a.ref then a :: rest
    else if refBefore a.ref b.ref then a :: b :: rest
    else b :: putEntry a rest

/-- Change the availability of a LOCAL entry. -/
def ActionEntry.withAvail (a : ActionEntry) (av : SiteAvail) : ActionEntry :=
  match a.kind with
  | .localEntry o v p _ => { a with kind := .localEntry o v p av }
  | .mirror _ _ _ _ => a

/-- Change the entries of one reference. -/
def State.modAction (s : State) (r : ActionRef) (f : ActionEntry → ActionEntry) : State :=
  { s with actions := s.actions.map (fun a => if a.ref = r then f a else a) }

/-- The publish homes of a LOCAL action: the homes of the copies whose action list names it, ascending (R60). -/
def State.publishHomes (s : State) (number : Nat) : List Nat :=
  terminals.filter (fun t => s.held.any (fun sc =>
    !sc.isHome && sc.home == t && sc.actions.contains { site := s.own, number := number }))

/-! ### Trip outputs (R63) -/

/-- A trip output by number. -/
def State.outputAt (s : State) (o : Nat) : TripOutput := (s.outputs[o]?).getD { pulse := none, indication := false }

/-- TOB takes a pulse request: OPEN begins a pulse of the duration, PULSING keeps the larger of the remaining time
and the duration (R63). -/
def State.pulseOutput (s : State) (o ms : Nat) : State :=
  s.modOutput o (fun out =>
    { out with
      pulse := some (match out.pulse with
        | some due => max due (s.now + msTicks ms)
        | none => s.now + msTicks ms) })

/-! ### Trip requests (R58, R59) -/

/-- A trip request naming a LOCAL action number, with its test flag; the result it is answered. -/
def State.tripRequest (s : State) (number : Nat) (test : Bool) : State × Result :=
  match s.findLocal number with
  | none => (s, .noSuchAction)
  | some a =>
    match a.kind with
    | .mirror _ _ _ _ => (s, .noSuchAction)
    | .localEntry o _ pulse av =>
      if s.mode = .maintenance then (s.modOutput o (fun out => { out with indication := true }), .test)
      else if test then (s, .test)
      else
        match av with
        | .inService => ((s.pulseOutput o pulse).modAction a.ref (fun e => e.withAvail .tripped), .tripped)
        | .tripped => (s, .already)
        | .blocked => (s, .refused)

/-- Trip requests for a list of action numbers, in order, with the result of each. -/
def State.tripAll (s : State) (test : Bool) : List Nat → State × List (Nat × Result)
  | [] => (s, [])
  | n :: rest =>
    let r := s.tripRequest n test
    let q := r.1.tripAll test rest
    (q.1, (n, r.2) :: q.2)

/-! ### Triggers -/

/-- An input by number. -/
def State.inputAt (s : State) (i : Nat) : Input := (s.inputs[i]?).getD (resetInput false)

/-- The assertion time of an input, while ASSERTED. -/
def Input.assertedAt (x : Input) : Option Nat :=
  match x.state with
  | .asserted t _ _ => some t
  | _ => none

/-- The remote trigger entry of a reference (R105). -/
def State.findRemote (s : State) (r : TrigRef) : Option RemoteEntry := s.remote.find? (fun e => decide (e.ref = r))

/-- The assertion time of a reference as read here: the input's where it is local, else its remote entry's; none while
it is not asserted (R109). -/
def State.assertion (s : State) (r : TrigRef) : Option Nat :=
  if r.terminal == s.own then (s.inputAt r.input).assertedAt
  else ((s.findRemote r).bind (fun e => e.asserted)).map Prod.fst

/-- The greatest of the numbers (0 for none). -/
def greatest (l : List Nat) : Nat := l.foldl max 0

/-- The least of the numbers, starting from a bound. -/
def least (bound : Nat) (l : List Nat) : Nat := l.foldl min bound

/-- Whether a trigger set is satisfied (R110); the window is in ms, the times in 0.25 ms steps. -/
def State.satisfied (s : State) (t : TriggerSet) : Bool :=
  let times := t.refs.filterMap s.assertion
  if t.all then
    times.length == t.refs.length &&
      (t.window == 0 || decide (greatest times - least (greatest times) times ≤ t.window * 4))
  else !times.isEmpty

/-- Whether a record or copy is eligible to fire (R111). -/
def State.eligible (s : State) (sc : Scheme) : Bool :=
  s.mode == .run && sc.life == .armed &&
    (match sc.part with
      | .home _ => true
      | .copy _ => !(sc.stale && sc.posture == .disarm))

/-- The terminals that a record or copy naming an input here is held at (R102): its participants, and a copy's home. -/
def Scheme.holders (sc : Scheme) : List Nat :=
  match sc.part with
  | .home _ => sc.participants
  | .copy _ => sc.home :: sc.participants

/-- The notice list of an input (R102). -/
def State.noticeList (s : State) (i : Nat) : List Nat :=
  terminals.filter (fun t => t != s.own && s.held.any (fun sc =>
    sc.trigger.refs.contains { terminal := s.own, input := i } && sc.holders.contains t))

/-- The distinct remote references of a list of references, in order of first place. -/
def remoteRefs (own : Nat) (l : List TrigRef) : List TrigRef :=
  l.foldl (fun acc r => if r.terminal == own || acc.contains r then acc else acc ++ [r]) []

/-- The references the table names, slot by slot (R105). -/
def namedRefs (l : List (Option Scheme)) : List TrigRef :=
  l.flatMap (fun o => match o with
    | some sc => sc.trigger.refs
    | none => [])

/-- How many distinct remote references the table would name with a slot's content replaced, or one record added
(R10 check 4, R148). -/
def State.remoteCountWith (s : State) (slot : Option Nat) (refs : List TrigRef) : Nat :=
  let others := match slot with
    | some i => s.schemes.set i none
    | none => s.schemes
  (remoteRefs s.own (namedRefs others ++ refs)).length

/-- The remote trigger table derived again from the scheme table (R105): entries still named stay, entries no longer
named go, new ones are appended RELEASED. -/
def State.syncRemote (s : State) : State :=
  let named := remoteRefs s.own (namedRefs s.schemes)
  let kept := s.remote.filter (fun e => named.contains e.ref)
  let fresh := named.filter (fun r => !(kept.map RemoteEntry.ref).contains r)
  { s with remote := kept ++ fresh.map (fun r => { ref := r, asserted := none }) }

end Sys2Proof.Machine
end

