-- ==== Sys2Proof/Machine/Arming.lean ====
section
/-! DEFINITION. The Arming Unit's evaluation of a home record (R67 to R86): quality, arming result, requirement,
selection, life state. -/

namespace Sys2Proof.Machine

/-- The monitored slot of a form (R3). -/
def Form.monitored : Form → Option Nat
  | .computed q _ _ _ _ => some q
  | .measured _ q _ _ => some q
  | .fixed _ => none

/-- Whether a form's arming source is DIRECTED (R3). -/
def Form.directed : Form → Bool
  | .computed _ _ _ _ _ => false
  | .measured _ _ _ _ => true
  | .fixed _ => true

/-- The directed arm flag, where the form holds one (R4). -/
def Form.flag : Form → Option Bool
  | .computed _ _ _ _ _ => none
  | .measured f _ _ _ => some f
  | .fixed f => some f

/-- Set or clear the directed arm flag; a COMPUTED form holds none (R4). -/
def Form.withFlag (b : Bool) : Form → Form
  | .computed q a o l k => .computed q a o l k
  | .measured _ q l k => .measured b q l k
  | .fixed _ => .fixed b

/-- L and K, where the form holds them (R3). -/
def Form.limitAndK : Form → Option (Int × Nat)
  | .computed _ _ _ l k => some (l, k)
  | .measured _ _ l k => some (l, k)
  | .fixed _ => none

/-- on and off, where the form holds them (R3). -/
def Form.thresholds : Form → Option (Int × Int)
  | .computed _ a o _ _ => some (a, o)
  | .measured _ _ _ _ => none
  | .fixed _ => none

/-- The monitored quantity's value while GOOD; none where there is no slot or it is not GOOD. -/
def State.reading (s : State) (f : Form) : Option Int :=
  match f.monitored with
  | some q => s.goodValue q
  | none => none

/-- FROZEN after an evaluation: a monitored slot whose quality is not GOOD (R72). -/
def State.frozenNow (s : State) (f : Form) : Bool := f.monitored.isSome && (s.reading f).isNone

/-- The arming result after an evaluation: the latch of R71, held while FROZEN (R72); a DIRECTED record's flag (R73). -/
def armingNow (f : Form) (q : Option Int) (before : Bool) : Bool :=
  match f with
  | .computed _ onAt offAt _ _ =>
    match q with
    | some v => if onAt ≤ v then true else if v < offAt then false else before
    | none => before
  | .measured flag _ _ _ => flag
  | .fixed flag => flag

/-- The requirement of a GOOD quantity: excess, product, scaling rounded up, margin, floor and then ceiling
(R80, R81). -/
def requirementOf (q limit : Int) (k margin floor : Nat) : Nat :=
  if q - limit ≤ 0 then floor
  else
    let r1 := ((q - limit).toNat * k + 1023) / 1024 + margin
    if r1 < floor then floor else if 65535 < r1 then 65535 else r1

/-- The requirement and the held requirement after an evaluation (R78 to R81; a record with no slot keeps its held
requirement at F, log entry 11). -/
def requirementNow (f : Form) (q : Option Int) (margin floor held : Nat) : Nat × Nat :=
  match f.limitAndK with
  | none => (floor, floor)
  | some (l, k) =>
    match q with
    | none => (max held floor, held)
    | some v => (requirementOf v l k margin floor, requirementOf v l k margin floor)

/-- An action's value in a selection: its effective value where it is selectable, else none (R83). -/
def State.selectable (s : State) (r : ActionRef) : Option Nat :=
  match s.findAction r with
  | some a => if s.availability a = .inService ∧ 0 < s.effective a then some (s.effective a) else none
  | none => none

/-- The walk of the action list in rank order from a sum and a count (R84): the references selected from here on, and
the sum at the end. -/
def walk (value : ActionRef → Option Nat) (req cap : Nat) : List ActionRef → Nat → Nat → List ActionRef × Nat
  | [], sum, _ => ([], sum)
  | r :: rest, sum, count =>
    if req ≤ sum ∨ cap ≤ count then ([], sum)
    else
      match value r with
      | none => walk value req cap rest sum count
      | some v =>
        let w := walk value req cap rest (sum + v) (count + 1)
        (r :: w.1, w.2)

/-- Whether arming is inhibited: lapse inhibition or maintenance inhibition (R75). -/
def State.inhibited (s : State) (sc : Scheme) : Bool :=
  (sc.stale && sc.posture == .disarm) || s.mode == .maintenance

/-- The life state after stage 5: acts in DORMANT and ARMED only (R75). -/
def State.lifeNow (s : State) (sc : Scheme) (result : Bool) : Life :=
  match sc.life with
  | .dormant => if result && !s.inhibited sc then .armed else .dormant
  | .armed => if result && !s.inhibited sc then .armed else .dormant
  | l => l

/-- An evaluation of a home record, stages 1 to 5 (R68). -/
def State.evaluate (s : State) (sc : Scheme) (h : HomePart) : Scheme :=
  let q := s.reading h.form
  let result := armingNow h.form q h.armingResult
  let req := requirementNow h.form q h.margin h.floor h.held
  let w := walk s.selectable req.1 h.cap sc.actions 0 0
  { sc with
    life := s.lifeNow sc result,
    selection := w.1,
    part := .home { h with
      frozen := s.frozenNow h.form, armingResult := result, requirement := req.1, held := req.2,
      sum := w.2, shortfall := decide (w.2 < req.1) } }

/-- Leaving service, by entry to BLOCKED or SPENT: the directed arm flag is cleared (R4), a COMPUTED record's arming
result is cleared before the evaluation (R74). -/
def HomePart.leaveService (h : HomePart) : HomePart :=
  { h with
    form := h.form.withFlag false,
    armingResult := if h.form.directed then h.armingResult else false }

end Sys2Proof.Machine
end

