-- ==== Sys2Proof/Machine/Operands.lean ====
section
/-! DEFINITION. The bodies of corridor frames (R213): written by their originators and read by their receivers. A body
whose length does not match its counts, or with a count, code or field outside the values R213 lists, reads as none
and is discarded. -/

namespace Sys2Proof.Machine

/-! ### Writing -/

/-- The numbers of bits set, as a word. -/
def bitsOf (l : List Nat) : Nat := (l.map (fun n => 2 ^ n)).sum

/-- CONTINGENCY: input index and state. -/
def contingencyBody (input : Nat) (asserted : Bool) : List Byte := u8 input ++ u8 (if asserted then 1 else 2)

/-- A pair of action number and result. -/
def resultPair (p : Nat × Result) : List Byte := u8 p.1 ++ u8 (resultCode p.2)

/-- FIRED REPORT. -/
def firedReportBody (id generation : Nat) (results : List (Nat × Result)) : List Byte :=
  u8 id ++ u16 generation ++ listOf resultPair results

/-- TRIP ORDER. -/
def tripOrderBody (id generation : Nat) (test : Bool) (numbers : List Nat) : List Byte :=
  u8 id ++ u16 generation ++ flagByte test ++ listOf u8 numbers

/-- ORDER ACK. -/
def orderAckBody (id generation : Nat) (test : Bool) (results : List (Nat × Result)) : List Byte :=
  u8 id ++ u16 generation ++ flagByte test ++ listOf resultPair results

/-- A firing summary. -/
def summaryBytes (f : FiringSummary) : List Byte :=
  u16 f.generation ++ u8 (entryCode f.entry) ++ listOf resultPair f.results

/-- The selection as bits of the ranks of the action list. -/
def selectionBits (actions selection : List ActionRef) : Nat :=
  bitsOf ((actions.zipIdx.filter (fun p => selection.contains p.1)).map Prod.snd)

/-- The flags byte of UPDATE: auto-disarm, lapse posture, STALE. -/
def carriedFlags (sc : Scheme) : Nat :=
  (if sc.autoDisarm then 1 else 0) + (if sc.posture = .hold then 2 else 0) + (if sc.stale then 4 else 0)

/-- UPDATE: the record's carried fields and generation as they stand, and closes-firing (R142). -/
def updateBody (sc : Scheme) (closes : Bool) : List Byte :=
  u8 sc.id ++ u16 sc.generation ++
  u8 (lifeCode sc.life + if closes then 128 else 0) ++
  u8 (sc.trigger.refs.length + if sc.trigger.all then 128 else 0) ++
  u16 sc.trigger.window ++ each trigRefByte sc.trigger.refs ++
  listOf actionRefBytes sc.actions ++
  u16 (selectionBits sc.actions sc.selection) ++ u16 (bitsOf sc.participants) ++
  u8 (carriedFlags sc) ++ u16 sc.interval

/-- An UPDATE's reply (R144, R148). -/
inductive Reply
  | accept (closes : Bool)
  | hold (f : FiringSummary)
  | reject (r : RejectReason)
deriving DecidableEq, Repr

/-- UPDATE REPLY. -/
def replyBody (id generation : Nat) : Reply → List Byte
  | .accept closes => u8 id ++ u16 generation ++ u8 1 ++ flagByte closes
  | .hold f => u8 id ++ u16 generation ++ u8 2 ++ summaryBytes f
  | .reject r => u8 id ++ u16 generation ++ u8 3 ++ u8 (reasonCode r)

/-- REFRESH: pairs of scheme id and generation. -/
def refreshBody (pairs : List (Nat × Nat)) : List Byte := listOf (fun p => u8 p.1 ++ u16 p.2) pairs

/-- REFRESH ACK: scheme id, the generation the pair carried, the copy's generation or 0000h. -/
def refreshAckBody (entries : List (Nat × Nat × Option Nat)) : List Byte :=
  listOf (fun p => u8 p.1 ++ u16 p.2.1 ++ u16 (p.2.2.getD 0)) entries

/-- RETIRE ACK. -/
def retireAckBody (id : Nat) (f : Option FiringSummary) : List Byte := u8 id ++ optional summaryBytes f

/-- The code of a quality in QUANTITY; UNSET is never sent (R41). -/
def sentQuality : Quality → Nat
  | .good => 1 | .stale => 2 | .invalid => 3 | .unset => 0

/-- QUANTITY: slot, value, quality. -/
def quantityBody (entries : List (Nat × Int × Quality)) : List Byte :=
  listOf (fun e => u8 e.1 ++ i32 e.2.1 ++ u8 (sentQuality e.2.2)) entries

/-- ACTION STATUS: action number, availability, effective value. -/
def actionStatusBody (entries : List (Nat × SiteAvail × Nat)) : List Byte :=
  listOf (fun e => u8 e.1 ++ u8 (siteAvailCode e.2.1) ++ u16 e.2.2) entries

/-! ### Reading -/

/-- All the pairs of action number 1..96 and result code, or none where one is outside its range. -/
def readPairs : List Byte → Option (List (Nat × Result))
  | [] => some []
  | [_] => none
  | n :: c :: rest =>
    match resultOfCode c.toNat, readPairs rest with
    | some r, some l => if 1 ≤ n.toNat ∧ n.toNat ≤ 96 then some ((n.toNat, r) :: l) else none
    | _, _ => none

/-- Whether a scheme id and a generation are in range (R213: a field outside its range). -/
def keyInRange (id generation : Nat) : Bool := decide (1 ≤ id) && decide (1 ≤ generation)

/-- CONTINGENCY: input index and whether it is ASSERTED; other indexes and states are discarded (R107). -/
def readContingency : List Byte → Option (Nat × Bool)
  | [i, st] =>
    if 15 < i.toNat then none
    else if st = 1 then some (i.toNat, true)
    else if st = 2 then some (i.toNat, false)
    else none
  | _ => none

/-- FIRED REPORT: scheme id, generation, results. -/
def readFiredReport : List Byte → Option (Nat × Nat × List (Nat × Result))
  | id :: g1 :: g0 :: n :: rest =>
    if rest.length = 2 * n.toNat ∧ n.toNat ≤ 12 ∧ keyInRange id.toNat (nat16 g1 g0) then
      (readPairs rest).map (fun l => (id.toNat, nat16 g1 g0, l))
    else none
  | _ => none

/-- TRIP ORDER: scheme id, generation, test flag, action numbers. -/
def readTripOrder : List Byte → Option (Nat × Nat × Bool × List Nat)
  | id :: g1 :: g0 :: fl :: n :: rest =>
    if rest.length = n.toNat ∧ 1 ≤ n.toNat ∧ n.toNat ≤ 12 ∧ keyInRange id.toNat (nat16 g1 g0) ∧
        rest.all (fun b => decide (1 ≤ b.toNat ∧ b.toNat ≤ 96)) then
      some (id.toNat, nat16 g1 g0, bit fl.toNat 0, rest.map (fun b => b.toNat))
    else none
  | _ => none

/-- ORDER ACK: scheme id, generation, test flag, results. -/
def readOrderAck : List Byte → Option (Nat × Nat × Bool × List (Nat × Result))
  | id :: g1 :: g0 :: fl :: n :: rest =>
    if rest.length = 2 * n.toNat ∧ keyInRange id.toNat (nat16 g1 g0) then
      (readPairs rest).map (fun l => (id.toNat, nat16 g1 g0, bit fl.toNat 0, l))
    else none
  | _ => none

/-- What an UPDATE carries (R213). -/
structure Carried where
  id : Nat
  generation : Nat
  life : Life
  closes : Bool
  trigger : TriggerSet
  actions : List ActionRef
  selection : List ActionRef
  participants : List Nat
  posture : Posture
  interval : Nat
  autoDisarm : Bool
  stale : Bool
deriving DecidableEq, Repr

/-- A trigger reference's range: terminal 1..14; the input fits its four bits. -/
def trigRefInRange (r : TrigRef) : Bool := decide (1 ≤ r.terminal ∧ r.terminal ≤ 14 ∧ r.input ≤ 15)

/-- An action reference's range: site 1..14, number 1..96. -/
def actionRefInRange (r : ActionRef) : Bool :=
  decide (1 ≤ r.site ∧ r.site ≤ 14 ∧ 1 ≤ r.number ∧ r.number ≤ 96)

/-- A window's range: 0 or 5..2000 (R5). -/
def windowInRange (w : Nat) : Bool := w == 0 || decide (5 ≤ w ∧ w ≤ 2000)

/-- The last seven bytes of UPDATE, given what stands before them. -/
def readUpdateTail (id gen : Nat) (life : Life) (closes : Bool) (trigger : TriggerSet) (actions : List ActionRef) :
    List Byte → Option Carried
  | [s1, s0, p1, p0, fl, i1, i0] =>
    let sel := nat16 s1 s0
    let parts := nat16 p1 p0
    if keyInRange id gen ∧ trigger.refs.all trigRefInRange ∧ windowInRange trigger.window ∧
        actions.all actionRefInRange ∧ sel < 2 ^ actions.length ∧ !bit parts 0 ∧ !bit parts 15 ∧
        nat16 i1 i0 ≤ 600 then
      some {
        id := id, generation := gen, life := life, closes := closes,
        trigger := { trigger with window := if trigger.all then trigger.window else 0 },
        actions := actions,
        selection := (actions.zipIdx.filter (fun p => bit sel p.2)).map Prod.fst,
        participants := terminals.filter (bit parts),
        posture := if bit fl.toNat 1 then .hold else .disarm,
        interval := nat16 i1 i0,
        autoDisarm := bit fl.toNat 0,
        stale := bit fl.toNat 2 }
    else none
  | _ => none

/-- UPDATE (R213). Bits the layout gives no meaning are ignored (log entry 12). -/
def readUpdate : List Byte → Option Carried
  | id :: g1 :: g0 :: st :: tm :: w1 :: w0 :: rest =>
    let t := tm.toNat % 8
    match lifeOfCode (st.toNat % 8), rest.drop t with
    | some life, a :: rest2 =>
      if 1 ≤ t ∧ t ≤ 4 ∧ t ≤ rest.length ∧ 1 ≤ a.toNat ∧ a.toNat ≤ 12 ∧ rest2.length = 2 * a.toNat + 7 then
        readUpdateTail id.toNat (nat16 g1 g0) life (bit st.toNat 7)
          { refs := (rest.take t).map trigRefOf, all := bit tm.toNat 7, window := nat16 w1 w0 }
          (actionRefsOf (rest2.take (2 * a.toNat))) (rest2.drop (2 * a.toNat))
      else none
    | _, _ => none
  | _ => none

/-- The entry of a firing summary's code (R213). -/
def entryOfCode : Nat → Option SummaryEntry
  | 1 => some .firing | 2 => some .order | 3 => some .carried
  | _ => none

/-- All the pairs of a firing summary; the second group of kinds judges counts and codes only (R213). -/
def readSummaryPairs : List Byte → Option (List (Nat × Result))
  | [] => some []
  | [_] => none
  | n :: c :: rest =>
    match resultOfCode c.toNat, readSummaryPairs rest with
    | some r, some l => some ((n.toNat, r) :: l)
    | _, _ => none

/-- A firing summary, which takes up the whole rest of its body. -/
def readSummary : List Byte → Option FiringSummary
  | g1 :: g0 :: e :: n :: rest =>
    match entryOfCode e.toNat, readSummaryPairs rest with
    | some en, some l =>
      if rest.length = 2 * n.toNat ∧ n.toNat ≤ 12 then
        some { generation := nat16 g1 g0, entry := en, results := l }
      else none
    | _, _ => none
  | _ => none

/-- The reason of a code (R213). -/
def reasonOfCode : Nat → Option RejectReason
  | 1 => some .noSlot | 2 => some .missingAction | 3 => some .triggerTableFull
  | _ => none

/-- UPDATE REPLY: scheme id, generation of the UPDATE answered, reply. -/
def readReply : List Byte → Option (Nat × Nat × Reply)
  | id :: g1 :: g0 :: r :: rest =>
    if r = 1 then
      match rest with
      | [fl] => some (id.toNat, nat16 g1 g0, .accept (bit fl.toNat 0))
      | _ => none
    else if r = 2 then (readSummary rest).map (fun f => (id.toNat, nat16 g1 g0, .hold f))
    else if r = 3 then
      match rest with
      | [c] => (reasonOfCode c.toNat).map (fun x => (id.toNat, nat16 g1 g0, .reject x))
      | _ => none
    else none
  | _ => none

/-- Entries of three bytes: scheme id and generation. -/
def readTriples : List Byte → List (Nat × Nat)
  | id :: g1 :: g0 :: rest => (id.toNat, nat16 g1 g0) :: readTriples rest
  | _ => []

/-- REFRESH: 1..16 pairs of scheme id and generation. -/
def readRefresh : List Byte → Option (List (Nat × Nat))
  | n :: rest =>
    if rest.length = 3 * n.toNat ∧ 1 ≤ n.toNat ∧ n.toNat ≤ 16 then some (readTriples rest) else none
  | _ => none

/-- Entries of five bytes: scheme id, generation carried, copy's generation, 0000h for absent. -/
def readQuintuples : List Byte → List (Nat × Nat × Option Nat)
  | id :: g1 :: g0 :: c1 :: c0 :: rest =>
    (id.toNat, nat16 g1 g0, if nat16 c1 c0 = 0 then none else some (nat16 c1 c0)) :: readQuintuples rest
  | _ => []

/-- REFRESH ACK: 1..11 entries. -/
def readRefreshAck : List Byte → Option (List (Nat × Nat × Option Nat))
  | n :: rest =>
    if rest.length = 5 * n.toNat ∧ 1 ≤ n.toNat ∧ n.toNat ≤ 11 then some (readQuintuples rest) else none
  | _ => none

/-- RETIRE and DISOWN: a scheme id. -/
def readId : List Byte → Option Nat
  | [id] => some id.toNat
  | _ => none

/-- RETIRE ACK: scheme id, and a firing summary where one follows. A byte 1 that is neither 00h nor 01h discards the body,
which R213 does not say (log entry 44). -/
def readRetireAck : List Byte → Option (Nat × Option FiringSummary)
  | id :: fl :: rest =>
    if fl = 0 then (if rest = [] then some (id.toNat, none) else none)
    else if fl = 1 then (readSummary rest).map (fun f => (id.toNat, some f))
    else none
  | _ => none

/-- A quality's code in QUANTITY; any other code leaves its entry to be ignored (R43). -/
def qualityOfCode : Nat → Option Quality
  | 1 => some .good | 2 => some .stale | 3 => some .invalid
  | _ => none

/-- QUANTITY's entries of six bytes: slot, value, quality code. -/
def readSextuples : List Byte → List (Nat × Int × Nat)
  | s :: v3 :: v2 :: v1 :: v0 :: q :: rest => (s.toNat, int32 v3 v2 v1 v0, q.toNat) :: readSextuples rest
  | _ => []

/-- QUANTITY: 1..8 entries. -/
def readQuantity : List Byte → Option (List (Nat × Int × Nat))
  | n :: rest =>
    if rest.length = 6 * n.toNat ∧ 1 ≤ n.toNat ∧ n.toNat ≤ 8 then some (readSextuples rest) else none
  | _ => none

/-- A site availability's code in ACTION STATUS; any other code leaves its entry to be ignored (R62). -/
def siteAvailOfCode : Nat → Option SiteAvail
  | 1 => some .inService | 2 => some .blocked | 3 => some .tripped
  | _ => none

/-- ACTION STATUS's entries of four bytes: action number, availability code, effective value. -/
def readQuads : List Byte → List (Nat × Nat × Nat)
  | n :: a :: v1 :: v0 :: rest => (n.toNat, a.toNat, nat16 v1 v0) :: readQuads rest
  | _ => []

/-- ACTION STATUS: 1..12 entries. -/
def readActionStatus : List Byte → Option (List (Nat × Nat × Nat))
  | n :: rest =>
    if rest.length = 4 * n.toNat ∧ 1 ≤ n.toNat ∧ n.toNat ≤ 12 then some (readQuads rest) else none
  | _ => none

end Sys2Proof.Machine
end

