-- ==== Sys2Proof/Machine/Event.lean ====
section
/-! DEFINITION. One event in progress: the state as it stands within it, the state at its start, and what the blocks have
handed one another for the rest of the event. The rules speak of what an event as a whole does ("evaluates each such
record once", R40; "One event bumps once", R27; "where the trigger set is satisfied at the end of that event", R112;
"routed in ascending order of their kind codes", R175); this is where the model keeps what they need. -/

namespace Sys2Proof.Machine

/-- An event in progress. The lists hold scheme table slots: to be evaluated besides those a hand-on names (R69), whose
generation bumps whatever the comparison finds (R24, R27), for which a round is wanted without a bump (R141), whose
marker is set where the set is satisfied at the end (R112), and whose refresh is forwarded (R151). -/
structure Ev where
  start : State
  s : State
  quantities : List Nat
  evals : List Nat
  bumps : List Nat
  wants : List Nat
  marks : List Nat
  refreshed : List Nat
  trigs : List TrigRef
  out : List Queued

/-- An event begins. -/
def Ev.begin (s : State) : Ev :=
  { start := s, s := s, quantities := [], evals := [], bumps := [], wants := [], marks := [], refreshed := [],
    trigs := [], out := [] }

/-- Change the state within the event. -/
def Ev.on (e : Ev) (f : State → State) : Ev := { e with s := f e.s }

/-- Put a slot's content. -/
def Ev.put (e : Ev) (i : Nat) (sc : Scheme) : Ev := e.on (fun s => s.putScheme i (some sc))

/-- Put a home record back with its home part. -/
def Ev.putHome (e : Ev) (i : Nat) (sc : Scheme) (h : HomePart) : Ev := e.put i (sc.withHome h)

/-- Raise an event flag. -/
def Ev.raise (e : Ev) (ev : Event) (item : Nat) : Ev := e.on (fun s => s.raise ev item)

/-- Evaluate a record in this event (R69). -/
def Ev.evaluating (e : Ev) (i : Nat) : Ev := { e with evals := i :: e.evals }

/-- Bump a record's generation in this event (R24, R27). -/
def Ev.bumping (e : Ev) (i : Nat) : Ev := { e with bumps := i :: e.bumps }

/-- A round is wanted for a record (R141). -/
def Ev.wanting (e : Ev) (i : Nat) : Ev := { e with wants := i :: e.wants }

/-- The marker of a record or copy is set where its set is satisfied at the end of the event (R112). -/
def Ev.marking (e : Ev) (i : Nat) : Ev := { e with marks := i :: e.marks }

/-- A record's refresh is forwarded at the end of the event (R151). -/
def Ev.forwarding (e : Ev) (i : Nat) : Ev := { e with refreshed := i :: e.refreshed }

/-- QST hands slots on (R40). -/
def Ev.handingOn (e : Ev) (l : List Nat) : Ev := { e with quantities := e.quantities ++ l }

/-- A trigger reference has been asserted or released here (R110). -/
def Ev.triggering (e : Ev) (r : TrigRef) : Ev := { e with trigs := r :: e.trigs }

/-- Hand the Link Controller an originated frame with an origin of its own (R175). -/
def Ev.sendAs (e : Ev) (o : Origin) (k : FrameKind) (destination : Nat) (body : List Byte) : Ev :=
  { e with out := e.out ++ [e.s.originate k destination body o] }

/-- Hand the Link Controller an originated frame (R175). -/
def Ev.send (e : Ev) (k : FrameKind) (destination : Nat) (body : List Byte) : Ev := e.sendAs .block k destination body

/-- A CONTINGENCY notice of an input to its notice list (R103, R104). -/
def Ev.notify (e : Ev) (i : Nat) (asserted : Bool) : Ev :=
  (e.s.noticeList i).foldl (fun e t => e.send .contingency t (contingencyBody i asserted)) e

/-- An input becomes ASSERTED: assertion time, repeat timer, notices, evaluation of the sets naming it
(R100, R103, R110). -/
def Ev.assertInput (e : Ev) (i : Nat) : Ev :=
  ((e.on (fun s => s.modInput i (fun x =>
    { x with state := .asserted s.quarters none (s.now + msTicks s.settings.noticeRepeat) }))).notify i true).triggering
    { terminal := e.s.own, input := i }

/-- An input becomes RELEASED from ASSERTED: timers stop, one RELEASED notice, evaluation (R100, R104, R110). -/
def Ev.releaseInput (e : Ev) (i : Nat) : Ev :=
  ((e.on (fun s => s.modInput i (fun x => { x with state := .released }))).notify i false).triggering
    { terminal := e.s.own, input := i }

/-- An enabled input begins QUALIFYING; with a qualify time of 0 it becomes ASSERTED at once (R100). -/
def Ev.qualifyInput (e : Ev) (i : Nat) : Ev :=
  if (e.s.inputAt i).qualify = 0 then e.assertInput i
  else e.on (fun s => s.modInput i (fun x => { x with state := .qualifying (s.now + quarterTicks x.qualify) }))

end Sys2Proof.Machine
end

