-- ==== Sys2Proof/Machine/Replication.lean ====
section
/-! DEFINITION. The Replication Unit: participant statuses, update and retire rounds, resynchronisation, owes-close
(R139 to R147, R154, R155, R157). -/

namespace Sys2Proof.Machine

/-- Copy states (R140). -/
inductive CopyState
  | sole | settled | pending | unsettled
deriving DecidableEq, Repr

/-- The copy state of a record, derived from its entries and its round (R140). -/
def HomePart.copyState (h : HomePart) : CopyState :=
  if h.statuses.isEmpty then .sole
  else if h.round != .none then .pending
  else if h.statuses.all (fun p => p.status == .current) then .settled
  else .unsettled

/-- A copy state's place in R140's list, as R3 gives it. -/
def copyStatePlace : CopyState → Nat
  | .sole => 1 | .settled => 2 | .pending => 3 | .unsettled => 4

/-- A new entry: BEHIND, nothing acknowledged, tries 0, owes-close clear (R139). -/
def newParticipant (t : Nat) : Participant :=
  { terminal := t, status := .behind, acked := none, tries := 0, retry := none, owesClose := false, reason := none }

/-- A participant is engaged in the round in flight while HELD, or BEHIND with tries above 0 (R139). -/
def Participant.engaged (p : Participant) : Bool :=
  p.status == .held || (p.status == .behind && decide (0 < p.tries))

/-- BEHIND with tries 0, waiting for a round: retry timer stopped, no reject reason. -/
def Participant.waiting (p : Participant) : Participant :=
  { p with status := .behind, tries := 0, retry := none, reason := none }

/-- A status with its retry timer stopped; a reject reason is kept in REJECTED alone (R139). -/
def Participant.settle (p : Participant) (st : PartStatus) (reason : Option RejectReason) : Participant :=
  { p with status := st, retry := none, reason := reason }

/-- Change the entry of one terminal. -/
def HomePart.modPart (h : HomePart) (t : Nat) (f : Participant → Participant) : HomePart :=
  { h with statuses := h.statuses.map (fun p => if p.terminal = t then f p else p) }

/-- The entry of a terminal. -/
def HomePart.part (h : HomePart) (t : Nat) : Option Participant := h.statuses.find? (fun p => p.terminal == t)

/-- What sending a round's frame to a participant does to its entry: LOST where it is unreachable, else one try spent
and the retry timer started (R142, R155). -/
def State.sentTo (s : State) (p : Participant) : Participant :=
  if s.reachable p.terminal then
    { p with tries := p.tries + 1, retry := some (s.now + msTicks s.settings.retryInterval) }
  else p.settle .lost none

/-- The round's frame for a participant: RETIRE in a retire round, else an UPDATE with the record as it stands and
closes-firing where the participant owes a close (R142, R155). -/
def Ev.sendRound (e : Ev) (sc : Scheme) (r : Round) (p : Participant) : Ev :=
  if e.s.reachable p.terminal then
    match r with
    | .retire => e.send .retire p.terminal (u8 sc.id)
    | _ => e.send .update p.terminal (updateBody sc p.owesClose)
  else e

/-- Send a round's frame to every participant that satisfies a test, in ascending order, and put the record back with
their entries (R142, R155). -/
def Ev.sendRounds (e : Ev) (i : Nat) (sc : Scheme) (h : HomePart) (which : Participant → Bool) : Ev :=
  let h1 := { h with statuses := h.statuses.map (fun p => if which p then e.s.sentTo p else p) }
  ((h.statuses.filter which).foldl (fun e p => e.sendRound sc h.round p) e).putHome i sc h1

/-- An update round starts (R142): after a bump or from dirty, REJECTED and LOST first become BEHIND; each BEHIND
participant is sent an UPDATE. -/
def Ev.startRound (e : Ev) (i : Nat) (sc : Scheme) (h : HomePart) (afterChange : Bool) : Ev :=
  let again (p : Participant) : Participant :=
    if p.status == .behind || (afterChange && (p.status == .rejected || p.status == .lost)) then p.waiting else p
  let h1 := { h with statuses := h.statuses.map again, dirty := false, round := .update }
  e.sendRounds i sc h1 (fun p => p.status == .behind)

/-- A retire round starts (R155): every participant becomes BEHIND with tries 0 and is sent a RETIRE. -/
def Ev.startRetire (e : Ev) (i : Nat) (sc : Scheme) (h : HomePart) : Ev :=
  let h1 := { h with statuses := h.statuses.map Participant.waiting, dirty := false, round := .retire }
  e.sendRounds i sc h1 (fun _ => true)

/-- The end of an update round with no participant engaged, where the record is dirty a new round at once (R145). -/
def Ev.testRoundEnd (e : Ev) (i : Nat) : Ev :=
  match e.s.schemeAt i with
  | some sc =>
    match sc.part with
    | .home h =>
      if h.round == .update && !h.statuses.any Participant.engaged then
        if h.dirty then e.startRound i sc h true
        else e.putHome i sc { h with round := .none }
      else e
    | .copy _ => e
  | none => e

/-- The end of a retire round with no participant BEHIND: the slot becomes EMPTY, RETIRE INCOMPLETE where one is LOST
(R157). -/
def Ev.testRetireEnd (e : Ev) (i : Nat) : Ev :=
  match e.s.schemeAt i with
  | some sc =>
    match sc.part with
    | .home h =>
      if sc.life == .retiring && h.round == .retire && !h.statuses.any (fun p => p.status == .behind) then
        (e.on (fun s => s.putScheme i none)).on (fun s =>
          s.raiseIf (h.statuses.any (fun p => p.status == .lost)) .retireIncomplete sc.id)
      else e
    | .copy _ => e
  | none => e

/-- What a bump or a wanted round does to a record that is not RETIRING (R141): at a bump every CURRENT participant
becomes BEHIND; where a round is in flight the record is marked dirty, else a round starts. -/
def Ev.wantRound (e : Ev) (i : Nat) (bumped : Bool) : Ev :=
  match e.s.schemeAt i with
  | some sc =>
    match sc.part with
    | .home h =>
      if sc.life == .retiring then e
      else
        let h1 := if bumped then
            { h with statuses := h.statuses.map (fun p => if p.status == .current then p.waiting else p) }
          else h
        if h1.round == .none then e.startRound i sc h1 bumped
        else e.putHome i sc { h1 with dirty := true }
    | .copy _ => e
  | none => e

/-- The record's copy state in a state, where the slot holds the home record of this scheme id. -/
def State.copyStateOf (s : State) (i id : Nat) : Option CopyState :=
  match s.schemeAt i with
  | some sc =>
    match sc.part with
    | .home h => if sc.id == id then some h.copyState else none
    | .copy _ => none
  | none => none

/-- The copy state is derived again: the UNSETTLED flag, and the UNSETTLED event where the event ends UNSETTLED and
did not start so (R140). -/
def Ev.deriveCopyState (e : Ev) (i : Nat) : Ev :=
  match e.s.schemeAt i with
  | some sc =>
    match sc.part with
    | .home h =>
      let now := h.copyState
      (e.putHome i sc { h with unsettled := now == .unsettled }).on (fun s =>
        s.raiseIf (now == .unsettled && e.start.copyStateOf i sc.id != some .unsettled) .unsettled sc.id)
    | .copy _ => e
  | none => e

/-- RPU's part of an event for one slot: bump or wanted round, round ends, copy state. The end of the round is tested
twice, because a round that is started by the end of another may find every participant unreachable (R142, R145). -/
def Ev.replicate (e : Ev) (bumped : Nat → Bool) (i : Nat) : Ev :=
  let e1 := if bumped i || e.wants.contains i then e.wantRound i (bumped i) else e
  (((e1.testRoundEnd i).testRoundEnd i).testRetireEnd i).deriveCopyState i

/-- A participant at a destination that became unreachable: LOST where engaged (R154). -/
def Participant.cutOff (p : Participant) : Participant := if p.engaged then p.settle .lost none else p

/-- Resynchronisation of one record for one destination whose reachability changed (R154). -/
def Ev.resyncOne (e : Ev) (d : Nat) (reach : Bool) (i : Nat) : Ev :=
  match e.s.schemeAt i with
  | some sc =>
    match sc.part with
    | .home h =>
      match h.part d with
      | none => e
      | some p =>
        if !reach then e.putHome i sc (h.modPart d Participant.cutOff)
        else if p.status == .lost then
          if sc.life == .retiring then
            if h.round == .retire then
              e.sendRounds i sc (h.modPart d Participant.waiting) (fun q => q.terminal == d)
            else e
          else (e.putHome i sc (h.modPart d Participant.waiting)).wanting i
        else e
    | .copy _ => e
  | none => e

/-- The destinations whose reachability the event has changed (R174). -/
def Ev.reachChanges (e : Ev) : List Nat :=
  terminals.filter (fun d => e.s.reachable d != e.start.reachable d)

/-- Resynchronisation of every record, in slot order, for each destination reported (R154). -/
def Ev.resync (e : Ev) : Ev :=
  e.s.schemeSlots.foldl (fun e i =>
    e.reachChanges.foldl (fun e d => e.resyncOne d (e.s.reachable d) i) e) e

end Sys2Proof.Machine
end

