-- ==== Sys2Proof/Machine/Execution.lean ====
section
/-! DEFINITION. The Execution Unit: firing at a replica and at the home, contexts, reports, orders, acknowledgements,
outcomes, completion (R116 to R136). -/

namespace Sys2Proof.Machine

/-! ### Contexts and sites -/

/-- A context by number. -/
def State.contextAt (s : State) (c : Nat) : Context := (s.contexts[c]?).getD .idle

/-- The context numbers, ascending. -/
def State.contextNos (s : State) : List Nat := List.range s.contexts.length

/-- What an OPEN context holds. -/
def Context.openData : Context → Option Execution
  | .opened x _ _ => some x
  | _ => none

/-- The completion time of a COMPLETE context. -/
def Context.completedAt : Context → Option Nat
  | .complete _ t _ => some t
  | _ => none

/-- The first of the numbers with the least key. -/
def leastBy (key : Nat → Option Nat) : List Nat → Option Nat
  | [] => none
  | c :: rest =>
    match key c, leastBy key rest with
    | some k, some d => if ((key d).getD k) < k then some d else some c
    | some _, none => some c
    | none, r => r

/-- The first of the numbers with the greatest key: of several with that key, the lowest (log entry 47). -/
def greatestBy (key : Nat → Option Nat) : List Nat → Option Nat
  | [] => none
  | c :: rest =>
    match key c, greatestBy key rest with
    | some k, some d => if k < ((key d).getD k) then some d else some c
    | some _, none => some c
    | none, r => r

/-- The context a firing takes: the lowest IDLE one, otherwise the COMPLETE one completed earliest, the
lowest-numbered among those of equal time; none where all are OPEN (R120, step 1). -/
def State.freeContext (s : State) : Option Nat :=
  match s.contextNos.find? (fun c => s.contextAt c == .idle) with
  | some c => some c
  | none => leastBy (fun c => (s.contextAt c).completedAt) s.contextNos

/-- The OPEN context of a scheme id and test flag (R119: at most one is OPEN for a record). -/
def State.openContext (s : State) (id : Nat) (test : Bool) : Option (Nat × Execution) :=
  (s.contextNos.filterMap (fun c =>
    match (s.contextAt c).openData with
    | some x => if x.schemeId = id ∧ x.test = test then some (c, x) else none
    | none => none)).head?

/-- Whether a home record is FIRED by what a participant reported: its OPEN context has a cause other than LOCAL (R121,
R123). -/
def State.firedByReport (s : State) (sc : Scheme) : Bool :=
  sc.isHome && sc.life == .fired && (s.openContext sc.id false).any (fun x => x.2.cause != .localFiring)

/-- The actions of a selection at a site, as numbers in rank order. -/
def numbersAt (selection : List ActionRef) (t : Nat) : List Nat :=
  (selection.filter (fun r => r.site == t)).map ActionRef.number

/-- The selection grouped by site, ascending (R120, step 2). -/
def siteList (selection : List ActionRef) : List SiteEntry :=
  (terminals.filter (fun t => selection.any (fun r => r.site == t))).map (fun t =>
    { terminal := t, status := .awaiting, actions := (numbersAt selection t).map (fun n => (n, none)),
      extras := [], generation := none, latency := none })

/-- Change the entry of one terminal. -/
def Execution.modSite (x : Execution) (t : Nat) (f : SiteEntry → SiteEntry) : Execution :=
  { x with sites := x.sites.map (fun e => if e.terminal = t then f e else e) }

/-- The entry of a terminal. -/
def Execution.site (x : Execution) (t : Nat) : Option SiteEntry := x.sites.find? (fun e => e.terminal == t)

/-- The actions of an entry that have no result. -/
def SiteEntry.unanswered (e : SiteEntry) : List Nat :=
  (e.actions.filter (fun a => a.2.isNone)).map Prod.fst

/-- Each action without a result takes the first result given for it (R125, R130). -/
def takeResults (results : List (Nat × Result)) (actions : List (Nat × Option Result)) :
    List (Nat × Option Result) :=
  actions.map (fun a =>
    match a.2 with
    | some _ => a
    | none => (a.1, (results.find? (fun r => r.1 == a.1)).map Prod.snd))

/-- The extras after a report: results for actions outside the snapshot, unless already listed (R125, step 2), up to the
12 that an entry holds (R119): a result beyond them is dropped (log entry 37). -/
def addExtras (actions : List (Nat × Option Result)) (results extras : List (Nat × Result)) : List (Nat × Result) :=
  results.foldl (fun acc r =>
    if actions.any (fun a => a.1 == r.1) || acc.any (fun a => a.1 == r.1) || decide (12 ≤ acc.length) then acc
    else acc ++ [r]) extras

/-- Whether a site has answered or cannot be reached: REPORTED, CONFIRMED or UNDELIVERED (R131). -/
def SiteEntry.settled (e : SiteEntry) : Bool :=
  e.status == .reported || e.status == .confirmed || e.status == .undelivered

/-- A site that stays silent to the deadline: AWAITING or ORDERED becomes MISSED, latency none (R131). -/
def SiteEntry.miss (e : SiteEntry) : SiteEntry :=
  if e.status == .awaiting || e.status == .ordered then { e with status := .missed, latency := none } else e

/-- Every action without a result takes MISSING (R132, step 1). -/
def SiteEntry.fillMissing (e : SiteEntry) : SiteEntry :=
  { e with actions := e.actions.map (fun a => (a.1, some (a.2.getD .missing))) }

/-- Whether a result counts as tripped in the outcome: in a test context TEST does, where TRIPPED, ALREADY and
TRIPPED LATE do otherwise (R132, R136). -/
def countsTripped (test : Bool) : Option Result → Bool
  | some .test => test
  | some .tripped => !test
  | some .already => !test
  | some .trippedLate => !test
  | _ => false

/-- The outcome of a context from its snapshot actions (R132, R136). -/
def Execution.outcome (x : Execution) : Outcome :=
  let rs := x.sites.flatMap (fun e => e.actions.map Prod.snd)
  if rs.isEmpty then .empty
  else if rs.all (countsTripped x.test) then .full
  else if rs.any (countsTripped x.test) then .partTripped
  else .failed

/-- A context outcome as a record's last outcome. -/
def Outcome.last : Outcome → LastOutcome
  | .full => .full | .partTripped => .partTripped | .failed => .failed | .empty => .empty

/-! ### Completion -/

/-- A record's part of the completion of its execution, with its last outcome (R132 steps 3 to 6, R77): a pending lapse
is applied, the record leaves FIRED for SPENT or DORMANT, every participant owes a close, EXECUTION DONE is raised. -/
def Ev.completeRecord (e : Ev) (i : Nat) (outcome : LastOutcome) : Ev :=
  match e.s.schemeAt i with
  | some sc =>
    match sc.part with
    | .home h =>
      let lapsed := sc.deadline == .pending
      let h1 := { h with
        outcome := outcome, statuses := h.statuses.map (fun p => { p with owesClose := true }) }
      let sc1 := { sc with
        stale := sc.stale || lapsed,
        life := if sc.autoDisarm then .spent else .dormant,
        deadline := if lapsed || sc.autoDisarm then .stopped else sc.deadline }
      let e1 := e.putHome i sc1 (if sc.autoDisarm then h1.leaveService else h1)
      (((((e1.on (fun s => s.raiseIf lapsed .lapse sc.id)).raise .executionDone sc.id).evaluating i).bumping i).marking i)
    | .copy _ => e
  | none => e

/-- The slot of the FIRED home record of a scheme id (R119: FIRED exactly while a non-test context is OPEN for it). -/
def State.firedHome (s : State) (id : Nat) : Option Nat :=
  match s.findHome id with
  | some (i, sc, _) => if sc.life = .fired then some i else none
  | none => none

/-- A context completes (R132): MISSING results, the outcome, COMPLETE with its completion time; then its record, or
for a test context EXECUTION DONE alone (R136). -/
def Ev.complete (e : Ev) (c : Nat) : Ev :=
  match e.s.contextAt c with
  | .opened x _ _ =>
    let x1 := { x with sites := x.sites.map SiteEntry.fillMissing }
    let e1 := e.on (fun s => s.setContext c (.complete x1 s.now x1.outcome))
    if x.test then e1.raise .executionDone x.schemeId
    else
      match e1.s.firedHome x.schemeId with
      | some i => e1.completeRecord i x1.outcome.last
      | none => e1
  | _ => e

/-- Early completion: every site REPORTED, CONFIRMED or UNDELIVERED (R131). -/
def Ev.completeIfSettled (e : Ev) (c : Nat) : Ev :=
  match e.s.contextAt c with
  | .opened x _ _ => if x.sites.all SiteEntry.settled then e.complete c else e
  | _ => e

/-- The completion test of every OPEN context, ascending. -/
def Ev.completeSettled (e : Ev) : Ev := e.s.contextNos.foldl Ev.completeIfSettled e

/-! ### Firing -/

/-- A TRIP ORDER of a context for a site (R127, R128). -/
def Ev.order (e : Ev) (x : Execution) (t : Nat) (numbers : List Nat) : Ev :=
  e.sendAs (.order x.serial) .tripOrder t (tripOrderBody x.schemeId x.generation x.test numbers)

/-- Fill a site's entry from a report or summary (R125). The order for what it leaves out is sent at once, and the site
is ORDERED until the order's fate is known (R128). -/
def Ev.fillReport (e : Ev) (c t generation : Nat) (results : List (Nat × Result)) (causing : Bool) : Ev :=
  match e.s.contextAt c with
  | .opened x w d =>
    match x.site t with
    | none => e
    | some en =>
      let actions := takeResults results en.actions
      let en1 : SiteEntry := { en with
        actions := actions,
        extras := addExtras en.actions results en.extras,
        generation := some (en.generation.getD generation),
        latency := some (en.latency.getD (if causing then 0 else e.s.sinceQuarters x.firedAt)) }
      let missing := en1.unanswered
      let orders := (en.status == .awaiting || en.status == .undelivered) && !missing.isEmpty
      let status :=
        if en.status == .reported || en.status == .confirmed then en.status
        else if missing.isEmpty then .reported
        else .ordered
      let e1 := e.on (fun s => s.setContext c (.opened (x.modSite t (fun _ => { en1 with status := status })) w d))
      if orders then e1.order x t missing else e1
  | _ => e

/-- A report or summary that causes a firing: its terminal, generation and results. -/
abbrev FiringReport := Nat × Nat × List (Nat × Result)

/-- The local trips of a firing, at this terminal's site of the selection, in rank order (R120 step 3, R122 step 1). -/
def State.tripSelection (s : State) (selection : List ActionRef) : State × List (Nat × Result) :=
  s.tripAll false (numbersAt selection s.own)

/-- The context of a firing after its local trips: this terminal's own site REPORTED with latency 0 (R120 step 3). -/
def openExecution (sc : Scheme) (cause : Cause) (test : Bool) (now serial own : Nat) (results : List (Nat × Result)) :
    Execution :=
  Execution.modSite
    { schemeId := sc.id, generation := sc.generation, cause := cause, test := test, firedAt := now,
      serial := serial, sites := siteList sc.selection }
    own (fun en => { en with status := .reported, actions := takeResults results en.actions, latency := some 0 })

/-- The record moves from ARMED to FIRED, one firing counted (R120 step 4). -/
def Ev.toFired (e : Ev) (i : Nat) (sc : Scheme) (h : HomePart) : Ev :=
  (((e.on (fun s => { s with firings := s.firings + 1 })).putHome i { sc with life := .fired }
    { h with lastFiring := e.s.firings + 1 }).bumping i).marking i

/-- An untracked firing (R122): local trips without results, orders to the other sites but for what the report names,
FIRED and completed in the same event with last outcome UNTRACKED. -/
def Ev.fireUntracked (e : Ev) (i : Nat) (sc : Scheme) (h : HomePart) (report : Option FiringReport) : Ev :=
  let e1 := e.on (fun s => (s.tripSelection sc.selection).1)
  let named (t n : Nat) : Bool :=
    match report with
    | some (rt, _, rs) => rt == t && rs.any (fun r => r.1 == n)
    | none => false
  let e2 := (siteList sc.selection).foldl (fun e en =>
    let ns := (numbersAt sc.selection en.terminal).filter (fun n => !named en.terminal n)
    if en.terminal == e.s.own || ns.isEmpty then e
    else e.send .tripOrder en.terminal (tripOrderBody sc.id sc.generation false ns)) e1
  (e2.toFired i sc h).completeRecord i .untracked

/-- A tracked firing in a context (R120, R121): snapshot, local trips, FIRED, timers; the causing report fills its site;
early completion. -/
def Ev.fireTracked (e : Ev) (c i : Nat) (sc : Scheme) (h : HomePart) (cause : Cause) (report : Option FiringReport) : Ev :=
  let r := e.s.tripSelection sc.selection
  let x := openExecution sc cause false e.s.now (e.s.firings + 1) e.s.own r.2
  let st := e.s.settings
  let e1 := ((e.on (fun _ => r.1)).toFired i sc h).on (fun s =>
    s.setContext c (.opened x (some (s.now + msTicks st.reportWait)) (s.now + msTicks st.deadline)))
  let e2 := match report with
    | some (t, g, rs) => e1.fillReport c t g rs true
    | none => e1
  e2.completeIfSettled c

/-- A firing of a home record, taken only where it is ARMED (R120, R121, R122). -/
def Ev.fireHome (e : Ev) (i : Nat) (cause : Cause) (report : Option FiringReport) : Ev :=
  match e.s.schemeAt i with
  | some sc =>
    match sc.part with
    | .home h =>
      if sc.life = .armed then
        match e.s.freeContext with
        | some c => e.fireTracked c i sc h cause report
        | none => e.fireUntracked i sc h report
      else e
    | .copy _ => e
  | none => e

/-- A firing of a copy (R116): local trips, FIRED with its summary, a FIRED REPORT to its home. -/
def Ev.fireCopy (e : Ev) (i : Nat) : Ev :=
  match e.s.schemeAt i with
  | some sc =>
    match sc.part with
    | .home _ => e
    | .copy cp =>
      let r := e.s.tripSelection sc.selection
      let sc1 := { sc with life := .fired }.withCopy
        { cp with summary := some { generation := sc.generation, entry := .firing, results := r.2 } }
      (((e.on (fun _ => r.1)).put i sc1).marking i).send .firedReport sc.home
        (firedReportBody sc.id sc.generation r.2)
  | none => e

/-- The slots that fire in this event, in slot order: the set names a changed reference, is satisfied, the record or
copy is eligible and its marker clear (R110, R113). -/
def Ev.firingSlots (e : Ev) : List Nat :=
  e.s.schemeSlots.filter (fun i =>
    match e.s.schemeAt i with
    | some sc =>
      sc.trigger.refs.any (fun r => e.trigs.contains r) && e.s.satisfied sc.trigger && e.s.eligible sc &&
        !sc.releaseNeeded
    | none => false)

/-- One firing handed on by the Trigger Unit (R113). -/
def Ev.fire (e : Ev) (i : Nat) : Ev :=
  match e.s.schemeAt i with
  | some sc => if sc.isHome then e.fireHome i .localFiring none else e.fireCopy i
  | none => e

/-- The firings of the event, firing by firing in slot order (R113). -/
def Ev.fireAll (e : Ev) : Ev := e.firingSlots.foldl Ev.fire e

/-! ### Orders returned NOT SENT (R128) -/

/-- A returned order makes its site UNDELIVERED where it is still ORDERED and the context of its execution still OPEN. -/
def State.orderReturned (s : State) (serial t : Nat) : State :=
  { s with contexts := s.contexts.map (fun c =>
      match c with
      | .opened x w d =>
        if x.serial = serial then
          .opened (x.modSite t (fun en => if en.status = .ordered then { en with status := .undelivered } else en)) w d
        else c
      | c => c) }

/-- What an originator does with a frame returned NOT SENT (R117, R128, R142, R183): orders and the port test act, every
other frame is discarded. -/
def State.notSent (s : State) (q : Queued) : State :=
  match q.origin with
  | .order serial => s.orderReturned serial q.frame.destination
  | .echoTest n =>
    match s.test with
    | .outstanding _ _ _ => if n = s.testNumber then { s with test := .notSent } else s
    | _ => s
  | _ => s

/-- Every frame a port leaving UP returned. -/
def State.returnAll (s : State) (l : List Queued) : State := l.foldl State.notSent s

/-- Route one frame handed in the event; where no port takes it, it is returned NOT SENT at once (R175). -/
def State.dispatchFrame (s : State) (q : Queued) : State :=
  match s.route q with
  | some t => t
  | none => s.notSent q

/-- Route the frames handed in the event whose kinds are listed, kind by kind, in the order handed (R175). -/
def Ev.dispatchKinds (e : Ev) (kinds : List FrameKind) : Ev :=
  e.on (fun s => (kinds.flatMap (fun k => e.out.filter (fun q => q.frame.kind == k))).foldl State.dispatchFrame s)

/-! ### Reports, late and stray (R124, R126, R133) -/

/-- A late answer turns MISSING into TRIPPED LATE where it gives TRIPPED or ALREADY; in a test context into TEST where
it gives TEST (R133 step 1, R136). -/
def lateResult (test : Bool) (results : List (Nat × Result)) (a : Nat × Option Result) : Nat × Option Result :=
  if a.2 = some .missing then
    match (results.find? (fun r => r.1 == a.1)).map Prod.snd with
    | some .tripped => if test then a else (a.1, some .trippedLate)
    | some .already => if test then a else (a.1, some .trippedLate)
    | some .test => if test then (a.1, some .test) else a
    | _ => a
  else a

/-- A late answer for a MISSED site of a COMPLETE context (R133): late results, latency, the outcome worked again, and
where it changed on the record's most recent firing its last outcome and EXECUTION DONE. A record in RETIRING has not been
retired yet, and takes them too (log entry 38). The site's reported generation stays as it stood (log entry 48). -/
def Ev.lateAnswer (e : Ev) (c t : Nat) (results : List (Nat × Result)) (listExtras : Bool) : Ev :=
  match e.s.contextAt c with
  | .complete x at0 before =>
    match x.site t with
    | none => e
    | some en =>
      let actions := en.actions.map (lateResult x.test results)
      let en1 : SiteEntry := { en with
        actions := actions,
        extras := if listExtras then addExtras en.actions results en.extras else en.extras,
        latency := if actions = en.actions then en.latency else some (e.s.sinceQuarters x.firedAt) }
      let x1 := x.modSite t (fun _ => en1)
      let e1 := e.on (fun s => s.setContext c (.complete x1 at0 x1.outcome))
      if x1.outcome = before ∨ x.test = true then e1
      else
        match e1.s.findHome x.schemeId with
        | some (i, sc, h) =>
          if h.lastFiring = x.serial then
            (e1.putHome i sc { h with outcome := x1.outcome.last }).raise .executionDone x.schemeId
          else e1
        | none => e1
  | _ => e

/-- The COMPLETE context, completed latest, that satisfies a test and whose site `t` is MISSED; of several completed at one
time, the lowest-numbered (log entry 47). -/
def State.missedContext (s : State) (t : Nat) (ok : Execution → Bool) : Option Nat :=
  greatestBy (fun c =>
    match s.contextAt c with
    | .complete x at0 _ =>
      if ok x && (x.site t).any (fun en => en.status == .missed) then some at0 else none
    | _ => none) s.contextNos

/-- A stray report (R126): last outcome STRAY, STRAY FIRING. -/
def Ev.stray (e : Ev) (i : Nat) (sc : Scheme) (h : HomePart) : Ev :=
  (e.putHome i sc { h with outcome := .stray }).raise .strayFiring sc.id

/-- A stray FIRED REPORT or HOLD summary on a record not in RETIRING: the participant owes a close, and unless it is
engaged it becomes BEHIND and a round is wanted (R126, R146). -/
def Ev.strayOwing (e : Ev) (i : Nat) (sc : Scheme) (h : HomePart) (t : Nat) : Ev :=
  let owing (p : Participant) : Participant :=
    if p.engaged then { p with owesClose := true } else { p.waiting with owesClose := true }
  let e1 := e.stray i sc (h.modPart t owing)
  if (h.part t).any Participant.engaged then e1 else e1.wanting i

/-- A FIRED REPORT or a HOLD summary from participant `t` of a home record, by the first line of R124's table that
matches, from the third on. In RETIRING the owes-close markers play no part (R155). -/
def Ev.takeReport (e : Ev) (i : Nat) (cause : Cause) (t generation : Nat) (results : List (Nat × Result)) : Ev :=
  match e.s.schemeAt i with
  | some sc =>
    match sc.part with
    | .home h =>
      match e.s.openContext sc.id false with
      | some (c, _) => e.fillReport c t generation results false
      | none =>
        if sc.life = .retiring then e.stray i sc h
        else if (h.part t).any Participant.owesClose then
          match e.s.missedContext t (fun x => x.schemeId == sc.id && !x.test) with
          | some c => e.lateAnswer c t results true
          | none => e
        else if sc.life = .armed then e.fireHome i cause (some (t, generation, results))
        else e.strayOwing i sc h t
    | .copy _ => e
  | none => e

/-- An ORDER ACK from `t` in a context it matches (R130). -/
def Ev.takeAck (e : Ev) (c t : Nat) (results : List (Nat × Result)) : Ev :=
  match e.s.contextAt c with
  | .opened x w d =>
    match x.site t with
    | none => e
    | some en =>
      let answered := en.status == .reported || en.status == .confirmed
      let en1 : SiteEntry := { en with
        actions := takeResults results en.actions,
        status := if answered then en.status else .confirmed,
        latency := if answered then en.latency else some (e.s.sinceQuarters x.firedAt) }
      e.on (fun s => s.setContext c (.opened (x.modSite t (fun _ => en1)) w d))
  | .complete x _ _ =>
    if (x.site t).any (fun en => en.status == .missed) then e.lateAnswer c t results false else e
  | .idle => e

/-- Whether a context matches an acknowledgement: scheme id, generation at firing, test flag, and an entry for its
source (R130). -/
def Execution.matchesAck (x : Execution) (id generation : Nat) (test : Bool) (t : Nat) : Bool :=
  x.schemeId == id && x.generation == generation && x.test == test && (x.site t).isSome

/-- The context an ORDER ACK is matched to: the OPEN one, otherwise the one completed latest (R130); of several completed at
one time, the lowest-numbered (log entry 47). -/
def State.ackContext (s : State) (id generation : Nat) (test : Bool) (t : Nat) : Option Nat :=
  match s.contextNos.find? (fun c => ((s.contextAt c).openData).any (fun x => x.matchesAck id generation test t)) with
  | some c => some c
  | none => greatestBy (fun c =>
      match s.contextAt c with
      | .complete x at0 _ => if x.matchesAck id generation test t then some at0 else none
      | _ => none) s.contextNos

end Sys2Proof.Machine
end

