-- ==== Sys2Proof/Machine/Settle.lean ====
section
/-! DEFINITION. How an event is brought to its end: firings, urgent frames, early completions, resynchronisation,
evaluations, generations, rounds, refresh forwarding, the derived tables, release markers, publication, and the rest of
the frames. The order is that in which each stage reads what the ones before it leave (log entry 4). -/

namespace Sys2Proof.Machine

/-! ### Evaluations (R69, R70) -/

/-- Whether an entry's availability or effective value differs between the start of the event and now, or the entry was
not there; ATB hands such entries on (R57). -/
def Ev.actionChanged (e : Ev) (r : ActionRef) : Bool :=
  match e.s.findAction r, e.start.findAction r with
  | some a, some b => decide (e.s.availability a ≠ e.start.availability b ∨ e.s.effective a ≠ e.start.effective b)
  | some _, none => true
  | none, _ => false

/-- Whether a hand-on of this event names a record: its monitored slot, or an action of its list that changed (R69). -/
def Ev.handedOn (e : Ev) (sc : Scheme) (h : HomePart) : Bool :=
  (match h.form.monitored with
    | some q => e.quantities.contains q
    | none => false) || sc.actions.any e.actionChanged

/-- The record of this scheme id that the slot held at the start of the event, where it was a home record. -/
def Ev.homeBefore (e : Ev) (i id : Nat) : Option (Scheme × HomePart) :=
  match e.start.schemeAt i with
  | some sc =>
    match sc.part with
    | .home h => if sc.id = id then some (sc, h) else none
    | .copy _ => none
  | none => none

/-- Whether SHORTFALL was set at the start of the event. -/
def Ev.shortBefore (e : Ev) (i id : Nat) : Bool :=
  match e.homeBefore i id with
  | some (_, h) => h.shortfall
  | none => false

/-- The evaluation of one record, once in the event, with its events: ARMING CHANGE where stage 5 changed the life state,
SHORTFALL where the flag changed in the event (R68, R75, R85). -/
def Ev.evalSlot (e : Ev) (i : Nat) : Ev :=
  match e.s.schemeAt i with
  | some sc =>
    match sc.part with
    | .home h =>
      if e.evals.contains i || e.handedOn sc h then
        let sc1 := e.s.evaluate sc h
        let short := match sc1.part with
          | .home h1 => h1.shortfall
          | .copy _ => false
        (e.put i sc1).on (fun s =>
          (s.raiseIf (sc1.life != sc.life) .armingChange sc.id).raiseIf (short != e.shortBefore i sc.id)
            .shortfall sc.id)
      else e
    | .copy _ => e
  | none => e

/-- All evaluations, in slot order (R70). -/
def Ev.evaluateAll (e : Ev) : Ev := e.s.schemeSlots.foldl Ev.evalSlot e

/-! ### Generations (R27) -/

/-- The generation after `g`: 65535 is followed by 1 (R27). -/
def nextGeneration (g : Nat) : Nat := if g = 65535 then 1 else g + 1

/-- Whether a carried field differs; entering RETIRING counts for none (R27). -/
def carriedDiffer (a b : Scheme) : Bool :=
  decide ((b.life ≠ a.life ∧ b.life ≠ .retiring) ∨ b.trigger ≠ a.trigger ∨ b.actions ≠ a.actions ∨
    b.selection ≠ a.selection ∨ b.participants ≠ a.participants ∨ b.autoDisarm ≠ a.autoDisarm ∨
    b.posture ≠ a.posture ∨ b.interval ≠ a.interval ∨ b.stale ≠ a.stale)

/-- Whether the event bumps the generation of the record in a slot: it was there before, and the event asks for it or
has changed a carried field (R27). -/
def Ev.bumped (e : Ev) (i : Nat) : Bool :=
  match e.s.schemeAt i with
  | some sc =>
    sc.isHome &&
      (match e.homeBefore i sc.id with
        | some (sc0, _) => e.bumps.contains i || carriedDiffer sc0 sc
        | none => false)
  | none => false

/-- One bump, however many carried fields changed (R27). -/
def Ev.bumpSlot (e : Ev) (i : Nat) : Ev :=
  match e.s.schemeAt i with
  | some sc => e.put i { sc with generation := nextGeneration sc.generation }
  | none => e

/-- The slots whose generation the event bumps. -/
def Ev.bumpedSlots (e : Ev) : List Nat := e.s.schemeSlots.filter e.bumped

/-- Generations and rounds of every record, in slot order (R27, R141). -/
def Ev.replicateAll (e : Ev) : Ev :=
  let l := e.bumpedSlots
  e.s.schemeSlots.foldl (fun e i => e.replicate l.contains i) (l.foldl Ev.bumpSlot e)

/-! ### Refresh forwarding (R151) -/

/-- The pairs due to a participant: one for each refreshed record naming it, in slot order. -/
def Ev.refreshPairs (e : Ev) (t : Nat) : List (Nat × Nat) :=
  e.s.schemeSlots.filterMap (fun i =>
    match e.s.schemeAt i with
    | some sc => if e.refreshed.contains i && sc.participants.contains t then some (sc.id, sc.generation) else none
    | none => none)

/-- REFRESH frames of up to 16 pairs to each participant, ascending (R151). -/
def Ev.forwardRefresh (e : Ev) : Ev :=
  terminals.foldl (fun e t =>
    (chunks 16 (e.refreshPairs t)).foldl (fun e l => e.send .refresh t (refreshBody l)) e) e

/-! ### Release markers (R112) -/

/-- The content of this scheme id, home and role that the slot held at the start of the event. -/
def Ev.before (e : Ev) (i : Nat) (sc : Scheme) : Option Scheme :=
  match e.start.schemeAt i with
  | some sc0 => if sc0.id = sc.id ∧ sc0.home = sc.home ∧ sc0.isHome = sc.isHome then some sc0 else none
  | none => none

/-- Whether the event sets the marker where the set is satisfied at its end: it became eligible, it is eligible with a
different trigger set, it entered FIRED, completed or accepted closes-firing (R112), or it is a home record that a report
has fired, whose own set completes after it (R123; a firing by HOLD, and one at each such completion: log entry 45). -/
def Ev.setsMarker (e : Ev) (i : Nat) (sc : Scheme) : Bool :=
  e.marks.contains i || e.s.firedByReport sc ||
    (e.s.eligible sc &&
      (match e.before i sc with
        | some sc0 => !e.start.eligible sc0 || decide (sc0.trigger ≠ sc.trigger)
        | none => true))

/-- The release marker at the end of the event: clear where the set is unsatisfied, else as it stood or set (R112). -/
def Ev.markSlot (e : Ev) (i : Nat) : Ev :=
  match e.s.schemeAt i with
  | some sc =>
    e.put i { sc with
      releaseNeeded := e.s.satisfied sc.trigger && (sc.releaseNeeded || e.setsMarker i sc) }
  | none => e

/-- The markers of every record and copy. -/
def Ev.markAll (e : Ev) : Ev := e.s.schemeSlots.foldl Ev.markSlot e

/-! ### Publication of action status (R60, R61) -/

/-- A LOCAL entry as ACTION STATUS carries it: action number, availability, effective value (R61). -/
def State.statusEntry (s : State) (a : ActionEntry) : Option (Nat × SiteAvail × Nat) :=
  match a.kind with
  | .localEntry _ _ _ av => some (a.ref.number, av, s.effective a)
  | .mirror _ _ _ _ => none

/-- ACTION STATUS frames of up to 12 entries to one home (R61). -/
def Ev.publishTo (e : Ev) (t : Nat) (l : List ActionEntry) : Ev :=
  (chunks 12 (l.filterMap e.s.statusEntry)).foldl (fun e c => e.send .actionStatus t (actionStatusBody c)) e

/-- The LOCAL entries whose publish homes hold a terminal, in ascending action number (R60). -/
def State.publishedTo (s : State) (t : Nat) : List ActionEntry :=
  s.actions.filter (fun a => a.isLocal && (s.publishHomes a.ref.number).contains t)

/-- Change publication: to each home, ascending, the LOCAL actions that changed or whose list it newly joined (R61). -/
def Ev.publishChanges (e : Ev) : Ev :=
  terminals.foldl (fun e t =>
    e.publishTo t ((e.s.publishedTo t).filter (fun a =>
      e.actionChanged a.ref || !(e.start.publishHomes a.ref.number).contains t))) e

/-! ### The end of the event -/

/-- The frames that are routed before the contexts are tested for early completion: those whose fate a context hangs on,
and the kinds before them (R128, R175). -/
def firstKinds : List FrameKind := [.contingency, .firedReport, .tripOrder]

/-- The other kinds, ascending (R212). -/
def otherKinds : List FrameKind :=
  [.orderAck, .start, .idle, .update, .updateReply, .refresh, .refreshAck, .retire, .retireAck, .disown, .quantity,
    .actionStatus, .echo, .echoReply]

/-- The second half of the end: evaluations, generations and rounds, refresh forwarding, the derived tables, release
markers, publication, and the frames not yet routed. -/
def Ev.finish (e : Ev) : State :=
  let replicated := e.evaluateAll.replicateAll.forwardRefresh
  let derived := ((replicated.on State.syncRemote).markAll).publishChanges
  (derived.dispatchKinds otherKinds).s

/-- The event is brought to its end: firings, urgent frames, early completions and resynchronisation, then the rest. -/
def Ev.settle (e : Ev) : State := (e.fireAll.dispatchKinds firstKinds).completeSettled.resync.finish

/-- One event: what a command does first, brought to its end. -/
def event (s : State) (f : Ev → Ev) : State := (f (Ev.begin s)).settle

end Sys2Proof.Machine
end

