-- ==== Sys2Proof/Machine/QuantityCommands.lean ====
section
/-! DEFINITION. The quantity commands of the station computer (R34 to R38, R40, R45). -/

namespace Sys2Proof.Machine

/-- Whether a home record in ARMED or FIRED satisfies a test (R35 check 3, R48 check 3, R53 line 2). -/
def State.engagedHome (s : State) (ok : Scheme → HomePart → Bool) : Bool :=
  s.held.any (fun sc =>
    match sc.part with
    | .home h => (sc.life == .armed || sc.life == .fired) && ok sc h
    | .copy _ => false)

/-- The source a source code, terminal and peer slot give; none for a structural fault (R35 check 2, R214). -/
def readSource (own code terminal peerSlot : Nat) : Option QSource :=
  if code == 0 then some .none
  else if code == 1 then some .station
  else if code == 2 then
    if terminal == 0 || decide (15 ≤ terminal) || terminal == own || decide (31 < peerSlot) then none
    else some (.peer terminal peerSlot)
  else none

/-- A stale limit as held (R35). -/
def clampLimit (ms : Nat) : Nat := max 20 (min 10000 ms)

/-- The slot a source puts in place: value 0, UNSET, no age, indicator clear; with source NONE the limit and flag of an
empty slot (R34, R35). -/
def sourcedSlot (src : QSource) (limit : Nat) (publish : Bool) : QSlot :=
  match src with
  | .none => emptySlot
  | src => { emptySlot with source := src, limit := clampLimit limit, publish := publish }

/-- A source's place in R34's list, with terminal and peer slot after it for PEER and nothing after it for the others: no
presence byte stands before them (log entry 15). -/
def sourceBytes : QSource → List Byte
  | .none => u8 1
  | .station => u8 2
  | .peer t q => u8 3 ++ u8 t ++ u8 q

/-- A slot as QUANTITY READ returns it (R45). -/
def State.slotEntry (s : State) (q : Nat) : List Byte :=
  let x := s.slotAt q
  u8 q ++ sourceBytes x.source ++ i32 x.value ++ u8 (qualityPlace x.quality) ++
    optional u32 (x.goodAt.map s.sinceMs) ++ u16 x.limit ++ flagByte x.publish ++ flagByte x.clamped

/-- QUANTITY SOURCE (R35). A nonzero publish byte sets the flag (log entry 12). R35 gives the slot in the response no layout:
it is QUANTITY READ's entry, the slot number first (log entry 15). -/
def execQuantitySource (slot source terminal peerSlot limit publish : Nat) (s : State) :
    Host.Outcome State Fault Refusal :=
  .next (station inService s
    (if 31 < slot then .refused .range
     else
      match readSource s.own source terminal peerSlot with
      | none => .refused .range
      | some src =>
        if s.engagedHome (fun _ h => h.form.monitored == some slot) then .refused .state
        else
          let t := event s (fun e =>
            (e.on (fun s => s.modSlot slot (fun _ => sourcedSlot src limit (publish != 0)))).handingOn [slot])
          .done t (src != .none && clampLimit limit != limit) (t.slotEntry slot)))

/-- A value stored as GOOD, saturated, its age restarted (R36, R37). -/
def QSlot.takeGood (x : QSlot) (v : Int) (now : Nat) : QSlot :=
  { x with value := saturate v, quality := .good, goodAt := some now, clamped := decide (saturate v ≠ v) }

/-- Whether the entries of a post are structurally wrong (R36 checks 1 to 3). -/
def postFault (slots : List Nat) : Bool :=
  slots.isEmpty || decide (8 < slots.length) || slots.any (fun q => decide (31 < q)) || !noRepeat slots

/-- QUANTITY POST (R36, R37, R40): every entry in one event. -/
def execQuantityPost (entries : List (Nat × Int)) (s : State) : Host.Outcome State Fault Refusal :=
  .next (station inService s
    (if postFault (entries.map Prod.fst) then .refused .range
     else if entries.any (fun p => (s.slotAt p.1).source != .station) then .refused .state
     else
      let t := event s (fun e =>
        (e.on (fun s => entries.foldl (fun s p => s.modSlot p.1 (fun x => x.takeGood p.2 s.now)) s)).handingOn
          (entries.map Prod.fst))
      .done t (entries.any (fun p => decide (saturate p.2 ≠ p.2)))
        (each (fun p => i32 (t.slotAt p.1).value) entries)))

/-- QUANTITY INVALIDATE (R38): the slots whose quality changed are handed on. -/
def execQuantityInvalidate (slots : List Nat) (s : State) : Host.Outcome State Fault Refusal :=
  .next (station inService s
    (if postFault slots then .refused .range
     else if slots.any (fun q => (s.slotAt q).source == .none) then .refused .state
     else
      .done (event s (fun e =>
        (e.on (fun s => slots.foldl (fun s q => s.modSlot q (fun x => { x with quality := .invalid })) s)).handingOn
          (slots.filter (fun q => (s.slotAt q).quality != .invalid)))) false []))

/-- QUANTITY READ (R45): one slot, or all with FFh. -/
def execQuantityRead (slot : Nat) (s : State) : Host.Outcome State Fault Refusal :=
  .next (station everyMode s
    (if slot == 255 then .done s false (each s.slotEntry (List.range s.slots.length))
     else if 31 < slot then .refused .range
     else .done s false (s.slotEntry slot)))

end Sys2Proof.Machine
end

