-- ==== Sys2Proof/Machine/ActionCommands.lean ====
section
/-! DEFINITION. The action and output commands of the station computer (R47 to R53, R65). -/

namespace Sys2Proof.Machine

/-! ### ACTION LOAD -/

/-- The pulse duration as held: brought into 20..1000 ms, then raised to the next 10 ms step (R48). -/
def clampPulse (ms : Nat) : Nat := (max 20 (min 1000 ms) + 9) / 10 * 10

/-- The structural faults of a load (R48, check 1). -/
def actionFault (own kind : Nat) (r : ActionRef) (output valueSlot : Nat) : Bool :=
  !(kind == 1 || kind == 2) || !actionRefInRange r ||
  (kind == 1 && r.site != own) || (kind == 2 && r.site == own) ||
  (kind == 1 && (decide (15 < output) || (decide (31 < valueSlot) && valueSlot != 255)))

/-- Whether another LOCAL entry holds an output (R48, check 2). -/
def State.outputTaken (s : State) (r : ActionRef) (output : Nat) : Bool :=
  s.actions.any (fun a => a.output == some output && decide (a.ref ≠ r))

/-- Whether a home record in ARMED or FIRED names a reference in its action list (R48, R53). -/
def State.engagedAction (s : State) (r : ActionRef) : Bool := s.engagedHome (fun sc _ => sc.actions.contains r)

/-- Whether a reference is held as a LOCAL entry whose output is PULSING (R48, R53). -/
def State.pulsingAction (s : State) (r : ActionRef) : Bool :=
  match (s.findAction r).bind ActionEntry.output with
  | some o => (s.outputAt o).pulse.isSome
  | none => false

/-- The refusal of a load, the first check that fails (R48). -/
def State.actionRefusal (s : State) (kind : Nat) (r : ActionRef) (output valueSlot : Nat) : Option Code :=
  let held := (s.findAction r).isSome
  if actionFault s.own kind r output valueSlot then some .range
  else if kind == 1 && s.outputTaken r output then some .range
  else if held && s.engagedAction r then some .state
  else if s.pulsingAction r then some .state
  else if !held && decide (96 ≤ s.actions.length) then some .full
  else if !held && kind == 1 && decide (16 ≤ (s.actions.filter ActionEntry.isLocal).length) then some .full
  else none

/-- The entry a load leaves: a LOCAL entry IN SERVICE; a MIRROR entry with what its site last published kept, or with
nothing published where it is new (R49, R50). -/
def State.loadedAction (s : State) (kind : Nat) (r : ActionRef) (output valueSlot nominal pulse : Nat) : ActionEntry :=
  { ref := r, nominal := nominal,
    kind :=
      if kind == 1 then
        .localEntry output (if valueSlot == 255 then none else some valueSlot) (clampPulse pulse) .inService
      else
        match (s.findAction r).map ActionEntry.kind with
        | some (.mirror p l f t) => .mirror p l f t
        | _ => .mirror none none none none }

/-- The remaining time of an output in ms, 0 when OPEN (R65). -/
def State.pulseLeft (s : State) (out : TripOutput) : Nat := out.pulse.elim 0 s.leftMs

/-- An output's state's place: OPEN, PULSING (R63). -/
def outputPlace (out : TripOutput) : Nat := if out.pulse.isSome then 2 else 1

/-- An action entry as ACTION READ returns it (R65). R65 gives the time since the last publication no unit: ms here (log
entry 36). -/
def State.actionEntryBytes (s : State) (a : ActionEntry) : List Byte :=
  u8 a.ref.site ++ u8 a.ref.number ++ u8 (if a.isLocal then 1 else 2) ++
  (match a.kind with
    | .localEntry o v pulse _ =>
      u8 o ++ optional u8 v ++ u16 pulse ++ listOf u8 (s.publishHomes a.ref.number) ++
        u8 (outputPlace (s.outputAt o)) ++ u32 (s.pulseLeft (s.outputAt o)) ++ flagByte (s.outputAt o).indication
    | .mirror p _ f t =>
      optional (fun av => u8 (siteAvailCode av)) p ++ u8 (if f.isSome then 1 else 2) ++
        optional u32 (t.map s.elapsedMs)) ++
  u16 a.nominal ++ optional u16 (s.liveValue a) ++ u16 (s.effective a) ++ u8 (availCode (s.availability a))

/-- The entry of a reference as ACTION READ and ACTION LOAD answer it. R48 lists no items for ACTION LOAD's response: the
model takes ACTION READ's entry, the items of R65 in its order (log entry 15). -/
def State.actionReply (s : State) (r : ActionRef) : List Byte := (s.findAction r).elim [] s.actionEntryBytes

/-- ACTION LOAD (R48 to R50). -/
def execActionLoad (kind site number output valueSlot nominal pulse : Nat) (s : State) :
    Host.Outcome State Fault Refusal :=
  .next (station inService s
    (let r : ActionRef := { site := site, number := number }
     match s.actionRefusal kind r output valueSlot with
     | some c => .refused c
     | none =>
      let t := event s (fun e => e.on (fun s =>
        { s with actions := putEntry (s.loadedAction kind r output valueSlot nominal pulse) s.actions }))
      .done t (kind == 1 && clampPulse pulse != pulse) (t.actionReply r)))

/-! ### ACTION BLOCK, RESTORE, REMOVE -/

/-- The checks of a command on a LOCAL action (R51, R52). -/
def withLocalAction (s : State) (r : ActionRef) (k : Taken) : Taken :=
  if !actionRefInRange r then .refused .range
  else
    match s.findAction r with
    | none => .refused .unknown
    | some a => if a.isLocal then k else .refused .state

/-- ACTION BLOCK (R51): the pulse of its output runs on. -/
def execActionBlock (site number : Nat) (s : State) : Host.Outcome State Fault Refusal :=
  .next (station inService s
    (let r : ActionRef := { site := site, number := number }
     withLocalAction s r
      (.done (event s (fun e => e.on (fun s => s.modAction r (fun a => a.withAvail .blocked)))) false [])))

/-- ACTION RESTORE (R52): the pulse of its output runs on. -/
def execActionRestore (site number : Nat) (s : State) : Host.Outcome State Fault Refusal :=
  .next (station inService s
    (let r : ActionRef := { site := site, number := number }
     withLocalAction s r
      (.done (event s (fun e => e.on (fun s => s.modAction r (fun a => a.withAvail .inService)))) false [])))

/-- ACTION REMOVE (R53): lines 2 and 3 both give STATE where any record or copy names the reference. -/
def execActionRemove (site number : Nat) (s : State) : Host.Outcome State Fault Refusal :=
  .next (station inService s
    (let r : ActionRef := { site := site, number := number }
     if !actionRefInRange r then .refused .range
     else if (s.findAction r).isNone then .refused .unknown
     else if s.held.any (fun sc => sc.actions.contains r) then .refused .state
     else if s.pulsingAction r then .refused .state
     else
      .done (event s (fun e => e.on (fun s => { s with actions := s.actions.filter (fun a => decide (a.ref ≠ r)) })))
        false []))

/-! ### Reads -/

/-- ACTION READ (R65): one reference, or all with FFh FFh (log entry 15). -/
def execActionRead (site number : Nat) (s : State) : Host.Outcome State Fault Refusal :=
  .next (station everyMode s
    (let r : ActionRef := { site := site, number := number }
     if site == 255 && number == 255 then .done s false (listOf s.actionEntryBytes s.actions)
     else if !actionRefInRange r then .refused .range
     else if (s.findAction r).isNone then .refused .unknown
     else .done s false (s.actionReply r)))

/-- An output as OUTPUT READ returns it (R65). -/
def State.outputEntry (s : State) (o : Nat) : List Byte :=
  let out := s.outputAt o
  u8 (outputPlace out) ++ u32 (s.pulseLeft out) ++
    optional (fun a => u8 a.ref.number) (s.actions.find? (fun a => a.output == some o)) ++ flagByte out.indication

/-- OUTPUT READ (R65). -/
def execOutputRead (s : State) : Host.Outcome State Fault Refusal :=
  .next (station everyMode s (.done s false (each s.outputEntry (List.range s.outputs.length))))

end Sys2Proof.Machine
end

