-- ==== Sys2Proof/Machine/TriggerCommands.lean ====
section
/-! DEFINITION. The trigger commands of the station computer (R99, R101, R114). -/

namespace Sys2Proof.Machine

/-- The qualify time as held, in 0.25 ms steps, of a time in µs: at most 10 ms, raised to the next step (R99). -/
def qualifySteps (us : Nat) : Nat := (min 10000 us + 249) / 250

/-- The dropout time as held, in ms, of a time in µs: at most 100 ms, raised to the next millisecond (R99). -/
def dropoutMs (us : Nat) : Nat := (min 100000 us + 999) / 1000

/-- The qualifier with the three items replaced. -/
def Input.configured (x : Input) (enable : Bool) (qualify dropout : Nat) : Input :=
  { x with enable := enable, qualify := qualify, dropout := dropout }

/-- The effects of a configuration on the state of an input, `x` as it stood before (R101). A running timer is moved by
the difference of the times, which leaves it the new time less the time already spent. -/
def Ev.reconfigureInput (e : Ev) (i : Nat) (x : Input) (enable : Bool) (qualify dropout : Nat) : Ev :=
  let e1 := e.on (fun s => s.modInput i (fun x => x.configured enable qualify dropout))
  match x.state with
  | .released => if enable && !x.enable && x.level then e1.qualifyInput i else e1
  | .qualifying due =>
    if !enable then e1.on (fun s => s.modInput i (fun x => { x with state := .released }))
    else if qualify = x.qualify then e1
    else if due + quarterTicks qualify ≤ e.s.now + quarterTicks x.qualify then e1.assertInput i
    else e1.on (fun s => s.modInput i (fun y =>
      { y with state := .qualifying (due + quarterTicks qualify - quarterTicks x.qualify) }))
  | .asserted t dropDue rep =>
    if !enable then e1.releaseInput i
    else
      match dropDue with
      | none => e1
      | some due =>
        if dropout = x.dropout then e1
        else if due + msTicks dropout ≤ e.s.now + msTicks x.dropout then e1.releaseInput i
        else e1.on (fun s => s.modInput i (fun y =>
          { y with state := .asserted t (some (due + msTicks dropout - msTicks x.dropout)) rep }))

/-- An input state's place in R99's list. -/
def inputStatePlace : InputState → Nat
  | .released => 1 | .qualifying _ => 2 | .asserted _ _ _ => 3

/-- The time left on the qualify or dropout timer that runs: in 0.25 ms steps, the finer of the units of the two
(log entry 15). -/
def State.inputLeft (s : State) : InputState → Option Nat
  | .released => none
  | .qualifying due => some (s.leftQuarters due)
  | .asserted _ (some due) _ => some (s.leftQuarters due)
  | .asserted _ none _ => none

/-- The time since an assertion time, in 0.25 ms steps, saturating at 65535 ms (R114). -/
def State.sinceAssertion (s : State) (t : Nat) : Nat := min 262140 (s.quarters - t)

/-- An input as INPUT READ returns it (R114). Times are laid out in four bytes (R216); the qualify time is counted in
0.25 ms steps, the dropout time in ms (R99). -/
def State.inputEntry (s : State) (i : Nat) : List Byte :=
  let x := s.inputAt i
  flagByte x.enable ++ u32 x.qualify ++ u32 x.dropout ++ u8 (if x.level then 1 else 2) ++
    u8 (inputStatePlace x.state) ++ optional u32 (s.inputLeft x.state) ++
    optional u32 (x.assertedAt.map s.sinceAssertion) ++ listOf u8 (s.noticeList i)

/-- An input's qualifier as INPUT CONFIGURE returns it: the items of R99's table in its order, the timers by their
time left (log entry 15), the assertion time as the low four bytes of the terminal's clock in 0.25 ms steps, counted from
power-on: R99 gives it neither origin nor wrap (log entry 41). -/
def State.qualifierBytes (s : State) (i : Nat) : List Byte :=
  let x := s.inputAt i
  flagByte x.enable ++ u32 x.qualify ++ u32 x.dropout ++ u8 (if x.level then 1 else 2) ++
    u8 (inputStatePlace x.state) ++
    (match x.state with
      | .released => [0, 0, 0, 0]
      | .qualifying due => optional u32 (some (s.leftQuarters due)) ++ [0, 0, 0]
      | .asserted t d rep =>
        [0] ++ optional u32 (d.map s.leftMs) ++ optional u32 (some t) ++ optional u32 (some (s.leftMs rep)))

/-- INPUT CONFIGURE (R99, R101): the times come in µs (R214). A nonzero enable byte sets the enable (log entry 12). -/
def execInputConfigure (input enable qualifyUs dropoutUs : Nat) (s : State) : Host.Outcome State Fault Refusal :=
  .next (station everyMode s
    (if 15 < input then .refused .range
     else
      let q := qualifySteps qualifyUs
      let d := dropoutMs dropoutUs
      let t := event s (fun e => e.reconfigureInput input (s.inputAt input) (enable != 0) q d)
      .done t (q * 250 != qualifyUs || d * 1000 != dropoutUs) (t.qualifierBytes input)))

/-- INPUT READ (R114): one input, or all with FFh. -/
def execInputRead (input : Nat) (s : State) : Host.Outcome State Fault Refusal :=
  .next (station everyMode s
    (if input == 255 then .done s false (each s.inputEntry (List.range s.inputs.length))
     else if 15 < input then .refused .range
     else .done s false (s.inputEntry input)))

/-- A remote trigger entry as REMOTE TRIGGER READ returns it (R114). -/
def State.remoteEntryBytes (s : State) (r : RemoteEntry) : List Byte :=
  trigRefByte r.ref ++ u8 (if r.asserted.isSome then 2 else 1) ++
    optional u32 (r.asserted.map (fun p => s.sinceAssertion p.1)) ++
    optional u32 (r.asserted.map (fun p => s.leftMs p.2))

/-- REMOTE TRIGGER READ (R114). -/
def execRemoteTriggerRead (s : State) : Host.Outcome State Fault Refusal :=
  .next (station everyMode s (.done s false (listOf s.remoteEntryBytes s.remote)))

end Sys2Proof.Machine
end

