-- ==== Sys2Proof/Machine/LinkCommands.lean ====
section
/-! DEFINITION. The station computer's commands on contexts, ports and routes (R137, R165, R170, R173, R182, R183,
R185). -/

namespace Sys2Proof.Machine

/-! ### EXECUTION READ (R137) -/

/-- A context's state's place: IDLE, OPEN, COMPLETE (R119). -/
def contextPlace : Context → Nat
  | .idle => 1 | .opened _ _ _ => 2 | .complete _ _ _ => 3

/-- A cause with its terminal: LOCAL, REPORT, HOLD (R119). -/
def causeBytes : Cause → List Byte
  | .localFiring => u8 1
  | .report t => u8 2 ++ u8 t
  | .hold t => u8 3 ++ u8 t

/-- A site entry as EXECUTION READ returns it (R137). A snapshot action is laid out as its action number alone, its site
being the entry's terminal (log entry 15). -/
def siteBytes (e : SiteEntry) : List Byte :=
  u8 e.terminal ++ u8 (siteStatusPlace e.status) ++ optional u16 e.generation ++ optional u32 e.latency ++
    listOf (fun a => u8 a.1 ++ optional (fun r => u8 (resultCode r)) a.2) e.actions ++ listOf resultPair e.extras

/-- What an OPEN or COMPLETE context returns, with the times left that run (R137). -/
def State.executionBytes (s : State) (x : Execution) (outcome : Option Outcome) (wait deadline : Option Nat) :
    List Byte :=
  u8 x.schemeId ++ u16 x.generation ++ causeBytes x.cause ++ flagByte x.test ++
    optional (fun o => u8 (outcomePlace o)) outcome ++ u32 (s.sinceMs x.firedAt) ++
    optional u32 (wait.map s.leftMs) ++ optional u32 (deadline.map s.leftMs) ++ listOf siteBytes x.sites

/-- A context as EXECUTION READ returns it. -/
def State.contextEntry (s : State) (c : Nat) : List Byte :=
  u8 c ++ u8 (contextPlace (s.contextAt c)) ++
    (match s.contextAt c with
      | .idle => []
      | .opened x w d => s.executionBytes x none w (some d)
      | .complete x _ o => s.executionBytes x (some o) none none)

/-- A COMPLETE context collected becomes IDLE (R134). -/
def Context.collected : Context → Context
  | .complete _ _ _ => .idle
  | c => c

/-- The contexts a read names: one, or all with FFh. -/
def State.namedContexts (s : State) (c : Nat) : List Nat := if c == 255 then s.contextNos else [c]

/-- EXECUTION READ (R134, R137). A collect byte above 1 gives RANGE (log entry 24). -/
def execExecutionRead (context collect : Nat) (s : State) : Host.Outcome State Fault Refusal :=
  .next (station everyMode s
    (if context != 255 && decide (7 < context) then .refused .range
     else if 1 < collect then .refused .range
     else
      let l := s.namedContexts context
      let t := if collect == 1 then
          { s with contexts := l.foldl (fun cs c => cs.modify c Context.collected) s.contexts }
        else s
      .done t false (each s.contextEntry l)))

/-! ### Ports -/

/-- A port's state as a response carries it. -/
def State.portStateBytes (s : State) (p : Nat) : List Byte := u8 (portStatePlace (s.portAt p).state)

/-- PORT OPEN (R165). -/
def execPortOpen (port : Nat) (s : State) : Host.Outcome State Fault Refusal :=
  .next (station [.run] s
    (if 3 < port then .refused .range
     else
      let t := if (s.portAt port).state = .closed then s.openPort port else s
      .done t false (t.portStateBytes port)))

/-- A port is closed within an event, and the frames it returns reach their originators (R169, R170). -/
def Ev.closing (e : Ev) (p : Nat) : Ev :=
  e.on (fun s => (s.closePort p).1.returnAll (s.closePort p).2)

/-- PORT CLOSE (R170). -/
def execPortClose (port : Nat) (s : State) : Host.Outcome State Fault Refusal :=
  .next (station everyMode s
    (if 3 < port then .refused .range
     else
      let t := event s (fun e => e.closing port)
      .done t false (t.portStateBytes port)))

/-- The kind of the frame in transmission (R185). -/
def Port.kindInTransmission (p : Port) : Option FrameKind :=
  match p.tx with
  | .sending .urgent _ => (p.urgent.head?).map (fun q => q.frame.kind)
  | .sending .routine _ => (p.routine.head?).map (fun q => q.frame.kind)
  | .sending (.start _) _ => some .start
  | .sending .idle _ => some .idle
  | .fill => none
  | .quiet => none

/-- A fault's place: MALFORMED, CHECK (R163). -/
def faultPlace : LineFault → Nat
  | .malformed => 1 | .check => 2

/-- A port as PORT READ returns it (R185). The flag byte for whether the port is heard, and one byte for each run and for
the recorded body length of the last fault, are the model's choice (log entry 15). -/
def State.portEntry (s : State) (p : Nat) : List Byte :=
  let x := s.portAt p
  u8 (portStatePlace x.state) ++ flagByte x.loopback ++ optional u8 x.neighbour ++ flagByte x.clash ++
    flagByte (s.heard x) ++ optional (fun h => u8 (healthPlace h)) x.health ++ u8 x.good ++ u8 x.bad ++ u8 x.silent ++
    u8 x.urgent.length ++ u8 x.routine.length ++ optional (fun k => u8 (kindPlace k)) x.kindInTransmission ++
    u16 (s.rateOf p) ++
    optional (fun f => u8 (faultPlace f.1) ++ u8 f.2.1 ++ u8 (portStatePlace f.2.2)) x.lastFault

/-- The PORT TEST result: the test number, and outstanding, REPLIED with its round trip, NO REPLY, NOT SENT, or none
(R185). -/
def State.testBytes (s : State) : List Byte :=
  u8 s.testNumber ++
    (match s.test with
      | .none => [0]
      | .outstanding _ _ _ => [1, 1]
      | .replied t => [1, 2] ++ u32 t
      | .noReply => [1, 3]
      | .notSent => [1, 4])

/-- PORT READ (R185): one port, or all with FFh. -/
def execPortRead (port : Nat) (s : State) : Host.Outcome State Fault Refusal :=
  .next (station everyMode s
    (if port == 255 then .done s false (each s.portEntry (List.range s.ports.length) ++ s.testBytes)
     else if 3 < port then .refused .range
     else .done s false (s.portEntry port ++ s.testBytes)))

/-- PORT LOOPBACK (R182). -/
def execPortLoopback (port : Nat) (s : State) : Host.Outcome State Fault Refusal :=
  .next (station [.maintenance] s
    (if 3 < port then .refused .range
     else if (s.portAt port).state ≠ .closed then .refused .state
     else .done ((s.modPort port (fun p => { p with loopback := true })).openPort port) false []))

/-! ### Routes and the link test -/

/-- The port a byte names: 0..3, or none for FFh. -/
def portOf (b : Nat) : Option Nat := if b == 255 then none else some b

/-- A route entry with its destination's reachability (R173, R185). No rule encodes the reachability: the model lays it out
as a flag byte, 01h where the destination is reachable (log entry 15). -/
def State.routeEntry (s : State) (d : Nat) : List Byte :=
  optional u8 (s.routeTo d).primary ++ optional u8 (s.routeTo d).alternate ++ flagByte (s.reachable d)

/-- The refusals of ROUTE WRITE (R173). An entry of none for both is taken (log entry 28). -/
def routeFault (destination primary alternate : Nat) : Bool :=
  destination == 0 || decide (14 < destination) ||
  (decide (3 < primary) && primary != 255) || (decide (3 < alternate) && alternate != 255) ||
  (alternate != 255 && (primary == 255 || alternate == primary))

/-- Replace the entry of a destination. -/
def State.setRoute (s : State) (d : Nat) (r : Route) : State := { s with routes := s.routes.set (d - 1) r }

/-- ROUTE WRITE (R173, R174). -/
def execRouteWrite (destination primary alternate : Nat) (s : State) : Host.Outcome State Fault Refusal :=
  .next (station everyMode s
    (if routeFault destination primary alternate then .refused .range
     else
      let t := event s (fun e => e.on (fun s =>
        s.setRoute destination { primary := portOf primary, alternate := portOf alternate }))
      .done t false (t.routeEntry destination)))

/-- ROUTE READ (R185). -/
def execRouteRead (s : State) : Host.Outcome State Fault Refusal :=
  .next (station everyMode s (.done s false (each s.routeEntry terminals)))

/-- Whether a test is outstanding (R183). -/
def State.testing (s : State) : Bool :=
  match s.test with
  | .outstanding _ _ _ => true
  | _ => false

/-- PORT TEST (R183): the number counts up, the ECHO carries it, the test is outstanding for 100 ms unless the ECHO is
returned. -/
def execPortTest (destination : Nat) (s : State) : Host.Outcome State Fault Refusal :=
  .next (station inService s
    (if destination = 0 ∨ 14 < destination then .refused .range
     else if s.testing then .refused .state
     else
      let n := (s.testNumber + 1) % 256
      let t := event s (fun e =>
        (e.on (fun s =>
          { s with testNumber := n, test := .outstanding destination s.now (s.now + msTicks 100) })).sendAs
          (.echoTest n) .echo destination (u8 n))
      .done t false (u8 n)))

end Sys2Proof.Machine
end

