-- ==== Sys2Proof/Machine/RecordCommands.lean ====
section
/-! DEFINITION. The record commands of the station computer (R2, R10 to R23, R26, R30 to R32). -/

namespace Sys2Proof.Machine

/-! ### RECORD LOAD: checks, clamping, creation, replacement -/

/-- The structural faults that refuse a load with RANGE (R10, check 1). -/
def loadFault (b : LoadBody) : Bool :=
  !(b.source == 1 || b.source == 2) ||
  (decide (31 < b.slot) && b.slot != 255) ||
  (b.source == 1 && b.slot == 255) ||
  b.refs.isEmpty || decide (4 < b.refs.length) ||
  !b.refs.all trigRefInRange || !noRepeat b.refs ||
  !(b.mode == 1 || b.mode == 2) ||
  b.actions.isEmpty || decide (12 < b.actions.length) ||
  !b.actions.all actionRefInRange || !noRepeat b.actions ||
  b.cap == 0 ||
  !(b.posture == 1 || b.posture == 2) ||
  decide (7 < b.group)

/-- The window as held: 0 for ANY; for ALL 0, or brought into 5..2000 (R11). -/
def clampWindow (all : Bool) (w : Nat) : Nat :=
  if all then (if w == 0 then 0 else max 5 (min 2000 w)) else 0

/-- The form a load gives, clamped, its directed arm flag clear (R3, R4, R11). -/
def loadForm (b : LoadBody) : Form :=
  if b.source == 1 then
    .computed b.slot (saturate b.onAt) (saturate b.offAt) (saturate b.limit) (min 4095 b.k)
  else if b.slot == 255 then .fixed false
  else .measured false b.slot (saturate b.limit) (min 4095 b.k)

/-- Whether on and off, where the form holds them, stand as given. -/
def Form.keepsThresholds (f : Form) (onAt offAt : Int) : Bool :=
  match f.thresholds with
  | some (a, o) => decide (a = onAt ∧ o = offAt)
  | none => true

/-- Whether L and K, where the form holds them, stand as given. -/
def Form.keepsLimit (f : Form) (limit : Int) (k : Nat) : Bool :=
  match f.limitAndK with
  | some (l, k1) => decide (l = limit ∧ k1 = k)
  | none => true

/-- Whether off is greater than on, where the form holds them (R10 check 2, R14). -/
def Form.crossed (f : Form) : Bool :=
  match f.thresholds with
  | some (a, o) => decide (a < o)
  | none => false

/-- The trigger set a load gives, clamped (R5, R11). -/
def loadTrigger (b : LoadBody) : TriggerSet :=
  { refs := b.refs, all := b.mode == 2, window := clampWindow (b.mode == 2) b.window }

/-- Whether a load stores a value other than the one given (R11). A window given with ANY sets nothing. -/
def loadAdjusted (b : LoadBody) : Bool :=
  !(loadForm b).keepsThresholds b.onAt b.offAt || !(loadForm b).keepsLimit b.limit b.k ||
  decide (10000 < b.m) || (b.mode == 2 && (loadTrigger b).window != b.window) ||
  decide (b.actions.length < b.cap) || decide (600 < b.interval)

/-- The participants of a record: every other terminal that a trigger reference or an action site names, ascending
(R28). -/
def participantsOf (own : Nat) (refs : List TrigRef) (actions : List ActionRef) : List Nat :=
  terminals.filter (fun t =>
    t != own && (refs.any (fun r => r.terminal == t) || actions.any (fun a => a.site == t)))

/-- The home part of a record at a creating load (R12, R67). -/
def loadPart (b : LoadBody) (participants : List Nat) : HomePart :=
  { form := loadForm b, margin := min 10000 b.m, floor := b.f, cap := min b.actions.length b.cap, group := b.group,
    armingResult := false, requirement := b.f, held := b.f, sum := 0, shortfall := false, frozen := false,
    unsettled := false, outcome := .none, statuses := participants.map newParticipant, round := .none,
    dirty := false, lastFiring := 0 }

/-- The record a creating load puts in its slot, before its evaluation (R12). -/
def loadRecord (b : LoadBody) (s : State) : Scheme :=
  let ps := participantsOf s.own b.refs b.actions
  { id := b.schemeId, home := s.own, generation := 1, life := .dormant, trigger := loadTrigger b, actions := b.actions,
    selection := [], participants := ps, posture := if b.posture == 1 then .disarm else .hold,
    interval := min 600 b.interval, autoDisarm := b.autoDisarm != 0, stale := false, releaseNeeded := false,
    deadline := s.freshDeadline (min 600 b.interval), part := .home (loadPart b ps) }

/-- A creating load's event (R12). -/
def loadCreate (b : LoadBody) (i : Nat) (e : Ev) : Ev :=
  let sc := loadRecord b e.s
  let e1 := (e.put i sc).evaluating i
  if sc.participants.isEmpty then e1 else e1.wanting i

/-- The record a replacing load leaves, before its evaluation: its slot, id, last outcome, generation and round are
kept, and the entries of the terminals that stay (R13, R28, R67). -/
def loadReplacement (b : LoadBody) (s : State) (sc : Scheme) (h : HomePart) : Scheme :=
  let fresh := loadRecord b s
  let life : Life := if sc.life = .blocked then .blocked else .dormant
  let part := loadPart b fresh.participants
  { fresh with
    generation := sc.generation, life := life, selection := sc.selection,
    deadline := if life = .dormant then fresh.deadline else .stopped,
    part := .home { part with
      outcome := h.outcome, unsettled := h.unsettled, round := h.round, dirty := h.dirty, lastFiring := h.lastFiring,
      statuses := fresh.participants.map (fun t => (h.part t).getD (newParticipant t)) } }

/-- A replacing load's event: one bump, and DISOWN to each terminal that leaves (R13, R28, R158). -/
def loadReplace (b : LoadBody) (i : Nat) (sc : Scheme) (h : HomePart) (e : Ev) : Ev :=
  let sc1 := loadReplacement b e.s sc h
  let leavers := sc.participants.filter (fun t => !sc1.participants.contains t)
  leavers.foldl (fun e t => e.send .disown t (u8 sc.id)) (((e.put i sc1).evaluating i).bumping i)

/-- The field checks of a load (R10, in order), with the slot that is replaced. -/
def loadRefusal (b : LoadBody) (s : State) (slot : Option Nat) : Option Code :=
  if loadFault b then some .range
  else if (loadForm b).crossed then some .range
  else if !b.actions.all (fun r => (s.findAction r).isSome) then some .unknown
  else if 32 < s.remoteCountWith slot b.refs then some .full
  else none

/-- Slot number, generation and life state of a record (R12). R193 has the response of a command that sets ADJUSTED carry
the values stored; R12 lists none, and the model follows R12 (log entry 49). -/
def State.loadReply (s : State) (i : Nat) : List Byte :=
  match s.schemeAt i with
  | some sc => u8 i ++ u16 sc.generation ++ u8 (lifeCode sc.life)
  | none => u8 i

/-- A load for a scheme id that is not held (R10, R12). -/
def loadNew (b : LoadBody) (s : State) : Taken :=
  match loadRefusal b s none with
  | some c => .refused c
  | none =>
    match s.emptySlotNo with
    | none => .refused .full
    | some i =>
      let t := event s (loadCreate b i)
      .done t (loadAdjusted b) (t.loadReply i)

/-- A load for a home record: refused in ARMED, FIRED and RETIRING (R13, R15). -/
def loadHeld (b : LoadBody) (s : State) (i : Nat) (sc : Scheme) (h : HomePart) : Taken :=
  if sc.life = .armed ∨ sc.life = .fired ∨ sc.life = .retiring then .refused .state
  else
    match loadRefusal b s (some i) with
    | some c => .refused c
    | none =>
      let t := event s (loadReplace b i sc h)
      .done t (loadAdjusted b) (t.loadReply i)

/-- RECORD LOAD (R2, R10 to R13). -/
def execRecordLoad (b : LoadBody) (s : State) : Host.Outcome State Fault Refusal :=
  .next (station inService s
    (if b.schemeId == 0 then .refused .range
     else
      match s.findScheme b.schemeId with
      | none => loadNew b s
      | some (i, sc) =>
        match sc.part with
        | .copy _ => .refused .notHome
        | .home h => loadHeld b s i sc h))

/-! ### RECORD TUNE (R14) -/

/-- A form with the values of a tune, clamped, where it holds them (R11, R14). -/
def Form.tuned (f : Form) (onAt offAt limit : Int) (k : Nat) : Form :=
  match f with
  | .computed q _ _ _ _ => .computed q (saturate onAt) (saturate offAt) (saturate limit) (min 4095 k)
  | .measured flag q _ _ => .measured flag q (saturate limit) (min 4095 k)
  | .fixed flag => .fixed flag

/-- Generation and life state of a record (R14), and no stored value, whatever R193 says of ADJUSTED (log entry 49). -/
def State.tuneReply (s : State) (i : Nat) : List Byte :=
  match s.schemeAt i with
  | some sc => u16 sc.generation ++ u8 (lifeCode sc.life)
  | none => []

/-- RECORD TUNE (R14, R97). -/
def execRecordTune (id : Nat) (onAt offAt limit : Int) (k m f : Nat) (s : State) : Host.Outcome State Fault Refusal :=
  .next (station inService s (withHomeRecord s id (fun i sc h =>
    if sc.life = .fired ∨ sc.life = .retiring then .refused .state
    else
      let form := h.form.tuned onAt offAt limit k
      if form.crossed then .refused .range
      else
        let t := event s (fun e =>
          (e.putHome i sc { h with form := form, margin := min 10000 m, floor := f }).evaluating i)
        .done t (!form.keepsThresholds onAt offAt || !form.keepsLimit limit k || decide (10000 < m))
          (t.tuneReply i))))

/-! ### Commands on a home record's life state (R15 to R21) -/

/-- Life state and generation of a record after a command (R15). -/
def State.lifeReply (s : State) (i : Nat) : List Byte :=
  match s.schemeAt i with
  | some sc => u8 (lifeCode sc.life) ++ u16 sc.generation
  | none => u8 0 ++ u16 (Config.emptiedGeneration s.freeIndex).toNat

/-- DONE with the life state and generation as they stand (R15). -/
def doneWith (t : State) (i : Nat) : Taken := .done t false (t.lifeReply i)

/-- ARM (R15, R16). -/
def execArm (id : Nat) (s : State) : Host.Outcome State Fault Refusal :=
  .next (station inService s (withHomeRecord s id (fun i sc h =>
    if h.form.directed = false then .refused .state
    else if sc.life = .dormant then
      doneWith (event s (fun e => (e.putHome i sc { h with form := h.form.withFlag true }).evaluating i)) i
    else if sc.life = .armed then doneWith s i
    else .refused .state)))

/-- DISARM (R15, R17). -/
def execDisarm (id : Nat) (s : State) : Host.Outcome State Fault Refusal :=
  .next (station inService s (withHomeRecord s id (fun i sc h =>
    if h.form.directed = false then .refused .state
    else if sc.life = .fired ∨ sc.life = .retiring then .refused .state
    else doneWith (event s (fun e => (e.putHome i sc { h with form := h.form.withFlag false }).evaluating i)) i)))

/-- BLOCK (R15, R18, R74, R87). On a BLOCKED record it changes nothing. -/
def execBlock (id : Nat) (s : State) : Host.Outcome State Fault Refusal :=
  .next (station inService s (withHomeRecord s id (fun i sc h =>
    if sc.life = .fired ∨ sc.life = .retiring then .refused .state
    else if sc.life = .blocked then doneWith s i
    else
      doneWith (event s (fun e =>
        (e.putHome i { sc with life := .blocked, deadline := .stopped } h.leaveService).evaluating i)) i)))

/-- The return of a record to DORMANT by UNBLOCK or RESET SPENT: evaluated, deadline restarted (R19, R20). -/
def Ev.toService (e : Ev) (i : Nat) (sc : Scheme) : Ev :=
  (e.put i { sc with life := .dormant, deadline := e.s.freshDeadline sc.interval }).evaluating i

/-- UNBLOCK (R15, R19). -/
def execUnblock (id : Nat) (s : State) : Host.Outcome State Fault Refusal :=
  .next (station inService s (withHomeRecord s id (fun i sc _ =>
    if sc.life = .blocked then doneWith (event s (fun e => e.toService i sc)) i else .refused .state)))

/-- RESET SPENT (R15, R20). -/
def execResetSpent (id : Nat) (s : State) : Host.Outcome State Fault Refusal :=
  .next (station inService s (withHomeRecord s id (fun i sc _ =>
    if sc.life = .spent then doneWith (event s (fun e => e.toService i sc)) i else .refused .state)))

/-- RETIRE (R15, R21, R155): RETIRING, deadline stopped, retire round; the slot is EMPTY at once where no participant is
left waiting. The free value of an emptied slot's generation is drawn here (log entry 6). -/
def execRetire (id : Nat) (s : State) : Host.Outcome State Fault Refusal :=
  .next (station inService s (withHomeRecord s id (fun i sc h =>
    if sc.life = .armed ∨ sc.life = .fired ∨ sc.life = .retiring then .refused .state
    else
      let t := event s (fun e =>
        e.startRetire i { sc with life := .retiring, deadline := .stopped } h)
      .done { t with freeIndex := t.freeIndex + 1 } false (t.lifeReply i))))

/-! ### REFRESH, REFRESH GROUP, DROP COPY (R22, R23, R26) -/

/-- One record refreshed within an event: STALE cleared, the deadline restarted in DORMANT, ARMED and FIRED,
an evaluation, and the refresh forwarded (R22, R69, R87, R88, R151). -/
def Ev.refreshRecord (e : Ev) (i : Nat) (sc : Scheme) : Ev :=
  let runs := sc.life = .dormant ∨ sc.life = .armed ∨ sc.life = .fired
  ((e.put i { sc with
    stale := false,
    deadline := if runs then e.s.freshDeadline sc.interval else sc.deadline }).evaluating i).forwarding i

/-- REFRESH (R15, R22). -/
def execRefresh (id : Nat) (s : State) : Host.Outcome State Fault Refusal :=
  .next (station inService s (withHomeRecord s id (fun i sc _ =>
    if sc.life = .retiring then .refused .state
    else doneWith (event s (fun e => e.refreshRecord i sc)) i)))

/-- The slots that hold a home record of a refresh group, not RETIRING (R23). -/
def State.groupSlots (s : State) (g : Nat) : List Nat :=
  s.schemeSlots.filter (fun i =>
    match s.schemeAt i with
    | some sc =>
      match sc.part with
      | .home h => h.group == g && sc.life != .retiring
      | .copy _ => false
    | none => false)

/-- REFRESH GROUP (R23): all its records in one event. -/
def execRefreshGroup (g : Nat) (s : State) : Host.Outcome State Fault Refusal :=
  .next (station inService s
    (if 7 < g then .refused .range
     else
      let l := s.groupSlots g
      .done (event s (fun e => l.foldl (fun e i =>
        match e.s.schemeAt i with
        | some sc => e.refreshRecord i sc
        | none => e) e)) false (u8 l.length)))

/-- DROP COPY (R2, R26). -/
def execDropCopy (id : Nat) (s : State) : Host.Outcome State Fault Refusal :=
  .next (station inService s
    (if id == 0 then .refused .range
     else
      match s.findScheme id with
      | none => .refused .unknown
      | some (i, sc) =>
        if sc.isHome = true ∨ sc.life = .fired then .refused .state
        else .done (event s (fun e => e.on (fun s => s.putScheme i none))) false []))

/-! ### Lookups (R30 to R32) -/

/-- A trigger set as a response lays it out: references, mode, window. -/
def triggerBytes (t : TriggerSet) : List Byte :=
  listOf trigRefByte t.refs ++ u8 (if t.all then 2 else 1) ++ u16 t.window

/-- The time left on a refresh deadline in ms: while it runs, 0 while a lapse is pending, none while stopped (R30). -/
def State.deadlineLeft (s : State) : Deadline → Option Nat
  | .running due => some (s.leftMs due)
  | .pending => some 0
  | .stopped => none

/-- A participant status entry: terminal, status, acknowledged generation, tries, owes-close, reject reason (R30). -/
def participantBytes (p : Participant) : List Byte :=
  u8 p.terminal ++ u8 (partStatusPlace p.status) ++ optional u16 p.acked ++ u8 p.tries ++
    flagByte p.owesClose ++ optional (fun r => u8 (reasonCode r)) p.reason

/-- A lapse posture's place in R3's list. -/
def posturePlace : Posture → Nat
  | .disarm => 1 | .hold => 2

/-- What RECORD READ shows of a MIRROR action of a record: the reference, the published availability or none, and the live
value or none (R56; the layout: log entry 46). -/
def State.mirrorBytes (s : State) (r : ActionRef) : Option (List Byte) :=
  match s.findAction r with
  | some a =>
    match a.kind with
    | .mirror published _ _ _ =>
      some (actionRefBytes r ++ optional (fun av => u8 (siteAvailCode av)) published ++ optional u16 (s.liveValue a))
    | .localEntry _ _ _ _ => none
  | none => none

/-- A home record in RECORD READ, in the order of R3's field table and then R30's further items, a round in flight as
a flag byte, and the arming result (log entry 15), and last what R56 has it show of the MIRROR entries of its action list, in
rank order (log entry 46). -/
def State.homeBytes (s : State) (sc : Scheme) (h : HomePart) : List Byte :=
  u8 sc.id ++ u8 sc.home ++ u16 sc.generation ++ u8 (lifeCode sc.life) ++
  u8 (if h.form.directed then 2 else 1) ++ optional flagByte h.form.flag ++ optional u8 h.form.monitored ++
  optional i32 (h.form.thresholds.map Prod.fst) ++ optional i32 (h.form.thresholds.map Prod.snd) ++
  optional i32 (h.form.limitAndK.map Prod.fst) ++ optional u16 (h.form.limitAndK.map Prod.snd) ++
  u16 h.margin ++ u16 h.floor ++ triggerBytes sc.trigger ++ listOf actionRefBytes sc.actions ++ u8 h.cap ++
  listOf actionRefBytes sc.selection ++ u16 h.requirement ++ u16 h.held ++ u32 h.sum ++
  listOf u8 sc.participants ++ listOf participantBytes h.statuses ++ u8 (copyStatePlace h.copyState) ++
  u8 (posturePlace sc.posture) ++ u16 sc.interval ++ u8 h.group ++ flagByte sc.autoDisarm ++
  flagByte h.shortfall ++ flagByte h.frozen ++ flagByte h.unsettled ++ flagByte sc.stale ++
  flagByte sc.releaseNeeded ++ u8 (lastOutcomePlace h.outcome) ++
  flagByte (h.round != .none) ++ flagByte h.dirty ++ optional u32 (s.deadlineLeft sc.deadline) ++
  flagByte h.armingResult ++ listOf (fun l => l) (sc.actions.filterMap s.mirrorBytes)

/-- A copy in RECORD READ: R9's fields in the order of R3's table, the withheld state, the firing summary and the time
left on its deadline (R30, R161). Where the withheld state and the summary stand is the model's choice (log entry 15). -/
def State.copyBytes (s : State) (sc : Scheme) (c : CopyPart) : List Byte :=
  u8 sc.id ++ u8 sc.home ++ u16 sc.generation ++ u8 (lifeCode sc.life) ++ triggerBytes sc.trigger ++
  listOf actionRefBytes sc.actions ++ listOf actionRefBytes sc.selection ++ listOf u8 sc.participants ++
  u8 (posturePlace sc.posture) ++ u16 sc.interval ++ flagByte sc.autoDisarm ++ flagByte sc.stale ++
  flagByte sc.releaseNeeded ++ optional (fun l => u8 (lifeCode l)) c.withheld ++ optional summaryBytes c.summary ++
  optional u32 (s.deadlineLeft sc.deadline)

/-- A role's place: HOME, COPY (R1). -/
def rolePlace (sc : Scheme) : Nat := if sc.isHome then 1 else 2

/-- RECORD READ (R2, R30). -/
def execRecordRead (id : Nat) (s : State) : Host.Outcome State Fault Refusal :=
  .next (station inService s
    (if id == 0 then .refused .range
     else
      match s.findScheme id with
      | none => .refused .unknown
      | some (i, sc) =>
        .done s false (u8 i ++ u8 (rolePlace sc) ++
          (match sc.part with
            | .home h => s.homeBytes sc h
            | .copy c => s.copyBytes sc c))))

/-- One entry for each occupied slot, in slot order: R31's items, and then STALE, which R93 and R96 have RECORD LIST show;
no rule says where in the entry it stands (log entry 14). -/
def State.listEntries (s : State) : List (List Byte) :=
  s.schemeSlots.filterMap (fun i =>
    (s.schemeAt i).map (fun sc =>
      u8 i ++ u8 sc.id ++ u8 (rolePlace sc) ++ u8 (lifeCode sc.life) ++ u16 sc.generation ++ flagByte sc.stale))

/-- RECORD LIST (R31). -/
def execRecordList (s : State) : Host.Outcome State Fault Refusal :=
  .next (station inService s (.done s false (listOf (fun l => l) s.listEntries)))

/-- Scheme ids and roles of the records and copies that satisfy a test, in slot order (R32). -/
def State.findEntries (s : State) (ok : Scheme → Bool) : List (List Byte) :=
  (s.held.filter ok).map (fun sc => u8 sc.id ++ u8 (rolePlace sc))

/-- RECORD FIND BY ACTION (R32). -/
def execRecordFindByAction (site number : Nat) (s : State) : Host.Outcome State Fault Refusal :=
  .next (station inService s
    (if !actionRefInRange { site := site, number := number } then .refused .range
     else
      .done s false (listOf (fun l => l)
        (s.findEntries (fun sc => sc.actions.contains { site := site, number := number })))))

/-- RECORD FIND BY TRIGGER (R32). -/
def execRecordFindByTrigger (terminal input : Nat) (s : State) : Host.Outcome State Fault Refusal :=
  .next (station inService s
    (if !trigRefInRange { terminal := terminal, input := input } then .refused .range
     else
      .done s false (listOf (fun l => l)
        (s.findEntries (fun sc => sc.trigger.refs.contains { terminal := terminal, input := input })))))

end Sys2Proof.Machine
end

