-- ==== Sys2Proof/Machine/ModeCommands.lean ====
section
/-! DEFINITION. Modes, settings and maintenance (R202 to R211), with the test firing (R135). -/

namespace Sys2Proof.Machine

/-! ### SETTINGS WRITE, SETTINGS READ -/

/-- A value brought into a range. -/
def clampTo (lo hi n : Nat) : Nat := max lo (min hi n)

/-- A link rate as held: the lowest of the six rates that is no lower, else 2048 (R204). -/
def clampRate (n : Nat) : Nat :=
  if n ≤ 64 then 64 else if n ≤ 128 then 128 else if n ≤ 256 then 256 else if n ≤ 512 then 512
  else if n ≤ 1024 then 1024 else 2048

/-- The list with each repeated entry kept once, at its first place (R204). -/
def firstPlaces (l : List Nat) : List Nat := l.foldl (fun acc n => if acc.contains n then acc else acc ++ [n]) []

/-- The unsigned number of a value's bytes. -/
def natOfBytes (l : List Byte) : Nat := l.foldl (fun n b => n * 256 + b.toNat) 0

/-- The numbers of a value's bytes. -/
def natsOfBytes (l : List Byte) : List Nat := l.map BitVec.toNat

/-- A setting takes its value, clamped, by its number of R214; a number that names none changes nothing (R204). -/
def Settings.take (st : Settings) (item : Nat × List Byte) : Settings :=
  let v := natOfBytes item.2
  match item.1 with
  | 1 => { st with terminal := v }
  | 2 => { st with hopLimit := clampTo 1 7 v }
  | 3 => { st with rates := st.rates.set 0 (clampRate v) }
  | 4 => { st with rates := st.rates.set 1 (clampRate v) }
  | 5 => { st with rates := st.rates.set 2 (clampRate v) }
  | 6 => { st with rates := st.rates.set 3 (clampRate v) }
  | 7 => { st with publishInterval := clampTo 20 1000 v }
  | 8 => { st with publishList := firstPlaces (natsOfBytes item.2) }
  | 9 => { st with noticeRepeat := clampTo 10 100 v }
  | 10 => { st with remoteHold := clampTo 30 500 v }
  | 11 => { st with reportWait := clampTo 2 100 v }
  | 12 => { st with deadline := clampTo 20 1000 v }
  | 13 => { st with retryInterval := clampTo 10 200 v }
  | 14 => { st with retryCount := clampTo 1 15 v }
  | 15 => { st with degrade := clampTo 1 100 v }
  | 16 => { st with fail := clampTo 1 100 v }
  | 17 => { st with clear := clampTo 1 255 v }
  | _ => st

/-- Whether a setting's value is stored other than given (R204). -/
def itemAdjusted (item : Nat × List Byte) : Bool :=
  let v := natOfBytes item.2
  match item.1 with
  | 2 => clampTo 1 7 v != v
  | 3 => clampRate v != v
  | 4 => clampRate v != v
  | 5 => clampRate v != v
  | 6 => clampRate v != v
  | 7 => clampTo 20 1000 v != v
  | 8 => firstPlaces (natsOfBytes item.2) != natsOfBytes item.2
  | 9 => clampTo 10 100 v != v
  | 10 => clampTo 30 500 v != v
  | 11 => clampTo 2 100 v != v
  | 12 => clampTo 20 1000 v != v
  | 13 => clampTo 10 200 v != v
  | 14 => clampTo 1 15 v != v
  | 15 => clampTo 1 100 v != v
  | 16 => clampTo 1 100 v != v
  | 17 => clampTo 1 255 v != v
  | _ => false

/-- The checks of a write (R204, in order; every one gives RANGE). -/
def settingsFault (items : List (Nat × List Byte)) : Bool :=
  items.any (fun i => i.1 == 0 || decide (17 < i.1)) || !noRepeat (items.map Prod.fst) ||
  items.any (fun i => i.1 == 1 && (natOfBytes i.2 == 0 || decide (14 < natOfBytes i.2))) ||
  items.any (fun i => i.1 == 8 &&
    (decide (14 < i.2.length) || (natsOfBytes i.2).any (fun t => t == 0 || decide (14 < t))))

/-- The deadline X raised to W + 10 where below it, on the settings as they stand at the end (R204). -/
def Settings.raiseDeadline (st : Settings) : Settings := { st with deadline := max st.deadline (st.reportWait + 10) }

/-- The settings after a write (R204). -/
def Settings.written (st : Settings) (items : List (Nat × List Byte)) : Settings :=
  (items.foldl Settings.take st).raiseDeadline

/-- Every setting, each as its value in SETTINGS WRITE, in the order of its number (R204, R216). -/
def settingsBytes (st : Settings) : List Byte :=
  u8 st.terminal ++ u8 st.hopLimit ++ each u16 st.rates ++ u16 st.publishInterval ++ each u8 st.publishList ++
    u16 st.noticeRepeat ++ u16 st.remoteHold ++ u16 st.reportWait ++ u16 st.deadline ++ u16 st.retryInterval ++
    u8 st.retryCount ++ u8 st.degrade ++ u8 st.fail ++ u8 st.clear

/-- SETTINGS WRITE (R204). A value of a wrong length is a frame fault and comes before the mode (R193, R214). A deadline
raised to W + 10 sets ADJUSTED whether or not it was named (log entry 16). -/
def execSettingsWrite (items : List (Nat × List Byte)) (s : State) : Host.Outcome State Fault Refusal :=
  .next (
    if items.all settingLengthOk then
      station [.config] s
        (if settingsFault items then .refused .range
         else
          let t := { s with settings := s.settings.written items }
          .done t (items.any itemAdjusted || t.settings.deadline != (items.foldl Settings.take s.settings).deadline)
            (settingsBytes t.settings))
    else s.respond .length false [])

/-- SETTINGS READ (R204). -/
def execSettingsRead (s : State) : Host.Outcome State Fault Refusal :=
  .next (station everyMode s (.done s false (u8 (modePlace s.mode) ++ settingsBytes s.settings)))

/-! ### SETTINGS COMPLETE, RECONFIGURE, TABLE CLEAR -/

/-- SETTINGS COMPLETE (R205). -/
def execSettingsComplete (s : State) : Host.Outcome State Fault Refusal :=
  .next (station [.config] s
    (if s.own = 0 then .refused .state
     else
      .done { s with mode := .run, publication := some (s.now + msTicks s.settings.publishInterval) } false
        (u8 (modePlace .run))))

/-- Whether every table is empty and every port CLOSED (R206). -/
def State.bare (s : State) : Bool :=
  s.schemes.all Option.isNone && s.actions.isEmpty && s.slots.all (fun q => q.source == .none) &&
    s.ports.all (fun p => p.state == .closed)

/-- RECONFIGURE (R206). -/
def execReconfigure (s : State) : Host.Outcome State Fault Refusal :=
  .next (station [.run] s
    (if s.bare then
      .done { s with
        mode := .config, publication := none, contexts := s.contexts.map Context.collected } false []
     else .refused .state))

/-- Whether a context is OPEN. -/
def Context.isOpen (c : Context) : Bool := c.openData.isSome

/-- Whether a context is OPEN or an output PULSING (R207, R208). -/
def State.executing (s : State) : Bool :=
  s.contexts.any Context.isOpen || s.outputs.any (fun o => o.pulse.isSome)

/-- TABLE CLEAR (R207): no evaluation, no event, no frame. -/
def execTableClear (s : State) : Host.Outcome State Fault Refusal :=
  .next (station [.run] s
    (if s.executing then .refused .state
     else
      .done { s with
        schemes := s.schemes.map (fun _ => none), actions := [], slots := s.slots.map (fun _ => emptySlot),
        remote := [], contexts := s.contexts.map Context.collected } false
        (u8 s.held.length ++ u8 s.actions.length)))

/-! ### Maintenance -/

/-- Whether a life state refuses MAINTENANCE ENTER (R208). -/
def Scheme.active (sc : Scheme) : Bool := sc.life == .armed || sc.life == .fired

/-- MAINTENANCE ENTER (R208). -/
def execMaintenanceEnter (s : State) : Host.Outcome State Fault Refusal :=
  .next (station [.run] s
    (if s.held.any Scheme.active || s.executing then .refused .state
     else .done (event s (fun e => e.on (fun s => { s with mode := .maintenance }))) false []))

/-- The ports in loopback are closed as PORT CLOSE gives, ascending (R182, R210). -/
def Ev.closeLoopbacks (e : Ev) : Ev :=
  (List.range e.s.ports.length).foldl (fun e p => if (e.s.portAt p).loopback then e.closing p else e) e

/-- The silent sites of an OPEN context become MISSED (R131). -/
def Context.missed : Context → Context
  | .opened x w d => .opened { x with sites := x.sites.map SiteEntry.miss } w d
  | c => c

/-- A context's silent sites become MISSED and it completes (R131, R132). -/
def Ev.expire (e : Ev) (c : Nat) : Ev := (e.on (fun s => s.setContext c (s.contextAt c).missed)).complete c

/-- Every OPEN test context completes (R136, R210). -/
def Ev.endTests (e : Ev) : Ev :=
  e.s.contextNos.foldl (fun e c =>
    match (e.s.contextAt c).openData with
    | some x => if x.test then e.expire c else e
    | none => e) e

/-- A copy takes its withheld state, FIRED with a summary of entry CARRIED (R150). -/
def Ev.releaseWithheld (e : Ev) (i : Nat) : Ev :=
  match e.s.schemeAt i with
  | some sc =>
    match sc.part with
    | .home _ => e
    | .copy c =>
      match c.withheld with
      | none => e
      | some l =>
        let fired := l = .fired
        let summary : Option FiringSummary :=
          if fired then some { generation := sc.generation, entry := .carried, results := [] } else none
        let e1 := e.put i ({ sc with life := l }.withCopy { summary := summary, withheld := none })
        if fired then e1.marking i else e1
  | none => e

/-- A home record is evaluated. -/
def Ev.evaluatingHome (e : Ev) (i : Nat) : Ev :=
  match e.s.schemeAt i with
  | some sc => if sc.isHome then e.evaluating i else e
  | none => e

/-- What MAINTENANCE EXIT does before the event is brought to its end (R210). The ports in loopback are closed before the
test contexts end, so that a test order they return leaves its site UNDELIVERED (R128, log entry 20). -/
def Ev.exitMaintenance (e : Ev) : Ev :=
  let e1 := e.closeLoopbacks
  let e2 := (e1.on (fun s => { s with outputs := s.outputs.map (fun o => { o with indication := false }) })).endTests
  let e3 := e2.on (fun s => { s with mode := .run })
  e3.s.schemeSlots.foldl Ev.evaluatingHome (e3.s.schemeSlots.foldl Ev.releaseWithheld e3)

/-- The number of home records ARMED. -/
def State.armedHomes (s : State) : Nat := (s.held.filter (fun sc => sc.isHome && sc.life == .armed)).length

/-- MAINTENANCE EXIT (R210): the count is of the records armed by the exit. -/
def execMaintenanceExit (s : State) : Host.Outcome State Fault Refusal :=
  .next (station [.maintenance] s
    (let t := event s Ev.exitMaintenance
     .done t false (u8 (t.armedHomes - s.armedHomes))))

/-! ### TEST FIRE (R135, R211) -/

/-- The test context opens: test requests here, test orders at once to every other site (R135). The execution takes a
serial number as a firing's does. -/
def Ev.openTest (e : Ev) (c : Nat) (sc : Scheme) : Ev :=
  let r := e.s.tripAll true (numbersAt sc.selection e.s.own)
  let serial := e.s.firings + 1
  let x := openExecution sc .localFiring true e.s.now serial e.s.own r.2
  let ordered := { x with
    sites := x.sites.map (fun en => if en.terminal = e.s.own then en else { en with status := .ordered }) }
  let e1 := (e.on (fun _ => { r.1 with firings := serial })).on (fun s =>
    s.setContext c (.opened ordered none (s.now + msTicks s.settings.deadline)))
  (x.sites.filter (fun en => en.terminal != e.s.own)).foldl (fun e en =>
    e.order x en.terminal (en.actions.map Prod.fst)) e1

/-- TEST FIRE (R211). -/
def execTestFire (id : Nat) (s : State) : Host.Outcome State Fault Refusal :=
  .next (station [.maintenance] s (withHomeRecord s id (fun _ sc _ =>
    if ¬(sc.life = .dormant ∨ sc.life = .blocked ∨ sc.life = .spent) then .refused .state
    else if (s.openContext id true).isSome then .refused .state
    else
      match s.freeContext with
      | none => .refused .full
      | some c => .done (event s (fun e => e.openTest c sc)) false (u8 c))))

end Sys2Proof.Machine
end

