-- ==== Sys2Proof/Machine/TimerEvents.lean ====
section
/-! DEFINITION. The events of pins and timers. An expiry acts only where its timer runs and has run out; where it does
not, "the expiry does not happen" (R36, R91, R108 and others), and nothing changes. An event that names a unit the part
does not have is a fault (log entry 27). -/

namespace Sys2Proof.Machine

/-- An event of a unit, by its number and the number of such units. -/
def ofUnit (n count : Nat) (t : State) : Host.Outcome State Fault Refusal :=
  if n < count then .next t else .fault .noSuchUnit

/-! ### Trigger inputs (R100, R103) -/

/-- The level of an input has changed (R100); a disabled input shows it and no more (R101). -/
def Ev.levelChanged (e : Ev) (i : Nat) (active : Bool) : Ev :=
  let e1 := e.on (fun s => s.modInput i (fun x => { x with level := active }))
  let x := e.s.inputAt i
  if !x.enable then e1
  else
    match x.state, active with
    | .released, true => e1.qualifyInput i
    | .qualifying _, false => e1.on (fun s => s.modInput i (fun y => { y with state := .released }))
    | .asserted t none rep, false =>
      if x.dropout = 0 then e1.releaseInput i
      else e1.on (fun s => s.modInput i (fun y =>
        { y with state := .asserted t (some (s.now + msTicks x.dropout)) rep }))
    | .asserted t (some _) rep, true =>
      e1.on (fun s => s.modInput i (fun y => { y with state := .asserted t none rep }))
    | _, _ => e1

/-- INPUT LEVEL CHANGE (R100, R101). A level presented again is no change. -/
def execInputLevelChange (input : Nat) (active : Bool) (s : State) : Host.Outcome State Fault Refusal :=
  ofUnit input 16
    (if (s.inputAt input).level = active then s else event s (fun e => e.levelChanged input active))

/-- QUALIFY TIMER EXPIRY (R100). -/
def execQualifyTimerExpiry (input : Nat) (s : State) : Host.Outcome State Fault Refusal :=
  ofUnit input 16
    (match (s.inputAt input).state with
      | .qualifying due => if s.elapsed due then event s (fun e => e.assertInput input) else s
      | _ => s)

/-- DROPOUT TIMER EXPIRY (R100, R104). -/
def execDropoutTimerExpiry (input : Nat) (s : State) : Host.Outcome State Fault Refusal :=
  ofUnit input 16
    (match (s.inputAt input).state with
      | .asserted _ (some due) _ => if s.elapsed due then event s (fun e => e.releaseInput input) else s
      | _ => s)

/-- REPEAT TIMER EXPIRY (R103). -/
def execRepeatTimerExpiry (input : Nat) (s : State) : Host.Outcome State Fault Refusal :=
  ofUnit input 16
    (match (s.inputAt input).state with
      | .asserted t d rep =>
        if s.elapsed rep then
          event s (fun e =>
            (e.on (fun s => s.modInput input (fun x =>
              { x with state := .asserted t d (s.now + msTicks s.settings.noticeRepeat) }))).notify input true)
        else s
      | _ => s)

/-- Put the assertion of a remote entry. -/
def State.setRemote (s : State) (r : TrigRef) (a : Option (Nat × Nat)) : State :=
  { s with remote := s.remote.map (fun e => if e.ref = r then { e with asserted := a } else e) }

/-- HOLD TIMER EXPIRY (R108). -/
def execHoldTimerExpiry (terminal input : Nat) (s : State) : Host.Outcome State Fault Refusal :=
  .next (
    let r : TrigRef := { terminal := terminal, input := input }
    match (s.findRemote r).bind RemoteEntry.asserted with
    | some (_, due) =>
      if s.elapsed due then event s (fun e => (e.on (fun s => s.setRemote r none)).triggering r) else s
    | none => s)

/-! ### Quantities, publication, mirrors, outputs -/

/-- Whether a slot's stale limit has elapsed (R39). -/
def State.slotExpired (s : State) (x : QSlot) : Bool :=
  x.quality == .good && s.ranOut (x.goodAt.map (fun t => t + msTicks x.limit))

/-- SLOT EXPIRY (R39). -/
def execSlotExpiry (slot : Nat) (s : State) : Host.Outcome State Fault Refusal :=
  ofUnit slot 32
    (if s.slotExpired (s.slotAt slot) then
      event s (fun e =>
        ((e.on (fun s => s.modSlot slot (fun x => { x with quality := .stale }))).raise .quantityStale slot).handingOn
          [slot])
     else s)

/-- The slots a publication takes: flag set, and not UNSET, ascending, as QUANTITY carries them (R41). -/
def State.publishedSlots (s : State) : List (Nat × Int × Quality) :=
  (List.range s.slots.length).filterMap (fun q =>
    let x := s.slotAt q
    if x.publish && x.quality != .unset then some (q, x.value, x.quality) else none)

/-- The QUANTITY frames of a publication, in runs of up to 8, to each terminal of the publish list but this one (R41). -/
def Ev.publishQuantities (e : Ev) : Ev :=
  let frames := (chunks 8 e.s.publishedSlots).map quantityBody
  (e.s.settings.publishList.filter (fun t => t != e.s.own)).foldl (fun e t =>
    frames.foldl (fun e b => e.send .quantity t b) e) e

/-- The periodic publication of action status to every home, ascending (R61). -/
def Ev.publishStatus (e : Ev) : Ev := terminals.foldl (fun e t => e.publishTo t (e.s.publishedTo t)) e

/-- PUBLICATION TIMER EXPIRY (R41, R61). -/
def execPublicationTimerExpiry (s : State) : Host.Outcome State Fault Refusal :=
  .next (
    if s.ranOut s.publication then
      event s (fun e =>
        (e.on (fun s =>
          { s with publication := some (s.now + msTicks s.settings.publishInterval) })).publishQuantities.publishStatus)
    else s)

/-- The end of a mirror's freshness. -/
def ActionEntry.freshUntil (a : ActionEntry) : Option Nat :=
  match a.kind with
  | .mirror _ _ f _ => f
  | .localEntry _ _ _ _ => none

/-- A mirror becomes STALE (R56). -/
def ActionEntry.goStale (a : ActionEntry) : ActionEntry :=
  match a.kind with
  | .mirror p l _ t => { a with kind := .mirror p l none t }
  | .localEntry _ _ _ _ => a

/-- FRESHNESS EXPIRY (R56). -/
def execFreshnessExpiry (site number : Nat) (s : State) : Host.Outcome State Fault Refusal :=
  .next (
    let r : ActionRef := { site := site, number := number }
    if s.ranOut ((s.findAction r).bind ActionEntry.freshUntil) then
      event s (fun e => e.on (fun s => s.modAction r ActionEntry.goStale))
    else s)

/-- PULSE END (R63). -/
def execPulseEnd (output : Nat) (s : State) : Host.Outcome State Fault Refusal :=
  ofUnit output 16
    (if s.ranOut (s.outputAt output).pulse then s.modOutput output (fun o => { o with pulse := none }) else s)

/-! ### Refresh deadlines (R89, R90, R93) -/

/-- Whether a refresh deadline has run out. -/
def State.lapsed (s : State) : Deadline → Bool
  | .running due => s.elapsed due
  | .stopped => false
  | .pending => false

/-- REFRESH DEADLINE EXPIRY at the home (R89, R90). -/
def execRefreshDeadlineExpiry (id : Nat) (s : State) : Host.Outcome State Fault Refusal :=
  .next (
    match s.findHome id with
    | some (i, sc, _) =>
      if !s.lapsed sc.deadline then s
      else if sc.life = .fired then s.putScheme i (some { sc with deadline := .pending })
      else if sc.life = .dormant ∨ sc.life = .armed then
        event s (fun e =>
          ((e.put i { sc with stale := true, deadline := .stopped }).raise .lapse id).evaluating i)
      else s
    | none => s)

/-- COPY DEADLINE EXPIRY (R93): not deferred in FIRED. -/
def execCopyDeadlineExpiry (id : Nat) (s : State) : Host.Outcome State Fault Refusal :=
  .next (
    match s.findCopy id with
    | some (i, sc, _) =>
      if s.lapsed sc.deadline then
        event s (fun e => (e.put i { sc with stale := true, deadline := .stopped }).raise .lapse id)
      else s
    | none => s)

/-! ### Execution (R127, R131) -/

/-- The sites still AWAITING become ORDERED at the report wait (R127). -/
def SiteEntry.orderAwaiting (en : SiteEntry) : SiteEntry :=
  if en.status = .awaiting then { en with status := .ordered } else en

/-- REPORT WAIT EXPIRY (R127): an order to each site still AWAITING, for all its snapshot actions. -/
def execReportWaitExpiry (context : Nat) (s : State) : Host.Outcome State Fault Refusal :=
  ofUnit context 8
    (match s.contextAt context with
      | .opened x (some w) d =>
        if s.elapsed w then
          event s (fun e =>
            (x.sites.filter (fun en => en.status == .awaiting)).foldl (fun e en =>
                e.order x en.terminal (en.actions.map Prod.fst))
              (e.on (fun s => s.setContext context
                (.opened { x with sites := x.sites.map SiteEntry.orderAwaiting } none d))))
        else s
      | _ => s)

/-- EXECUTION DEADLINE EXPIRY (R131, R132). -/
def execExecutionDeadlineExpiry (context : Nat) (s : State) : Host.Outcome State Fault Refusal :=
  ofUnit context 8
    (match s.contextAt context with
      | .opened _ _ d => if s.elapsed d then event s (fun e => e.expire context) else s
      | _ => s)

/-! ### Replication (R145, R155) -/

/-- What a retry expiry does to an engaged participant: another try, or LOST where the tries have reached the count
(R145, R155). -/
def Ev.retry (e : Ev) (i : Nat) (sc : Scheme) (h : HomePart) (p : Participant) : Ev :=
  if p.tries < e.s.settings.retryCount then e.sendRounds i sc h (fun q => q.terminal == p.terminal)
  else e.putHome i sc (h.modPart p.terminal (fun q => q.settle .lost none))

/-- RETRY TIMER EXPIRY (R145, R155). -/
def execRetryTimerExpiry (id terminal : Nat) (s : State) : Host.Outcome State Fault Refusal :=
  .next (
    match s.findHome id with
    | some (i, sc, h) =>
      match h.part terminal with
      | some p => if p.engaged && s.ranOut p.retry then event s (fun e => e.retry i sc h p) else s
      | none => s
    | none => s)

/-! ### Links -/

/-- PORT TEST EXPIRY (R184). -/
def execPortTestExpiry (s : State) : Host.Outcome State Fault Refusal :=
  .next (
    match s.test with
    | .outstanding _ _ due => if s.elapsed due then { s with test := .noReply } else s
    | _ => s)

/-- START TIMER EXPIRY (R166). -/
def execStartTimerExpiry (port : Nat) (s : State) : Host.Outcome State Fault Refusal :=
  ofUnit port 4
    (if (s.portAt port).state = .starting ∧ s.ranOut (s.portAt port).startDue = true then
      (s.modPort port (fun p => { p with startDue := some (s.now + msTicks 10) })).sendStart port []
     else s)

/-- A port leaves UP within an event and returns to STARTING, its last peer START set; the returned frames reach their
originators (R168, R169, R181). -/
def Ev.restart (e : Ev) (p : Nat) (failed : Bool) (peer : Option (Nat × Nat)) : Ev :=
  e.on (fun s =>
    let r := s.leaveUp p failed
    ((r.1.returnAll r.2).modPort p (fun x => { x with peer := peer })).beginStarting p (s.portAt p).tx.aborting)

/-- The health decision of a window end (R181). -/
def Ev.decideHealth (e : Ev) (p : Nat) : Ev :=
  match healthStep e.s.settings (e.s.portAt p) with
  | .fails => e.restart p true none
  | .degrades => (e.on (fun s => s.modPort p (fun x => { x with health := some .degraded }))).raise .portHealth p
  | .clears => (e.on (fun s => s.modPort p (fun x => { x with health := some .normal }))).raise .portHealth p
  | .stays => e

/-- WINDOW END (R180, R181); `unfinished` says that part of a frame had been received (log entry 23). -/
def execWindowEnd (port : Nat) (unfinished : Bool) (s : State) : Host.Outcome State Fault Refusal :=
  ofUnit port 4
    (if (s.portAt port).state = .up ∧ s.ranOut (s.portAt port).windowDue = true then
      event s (fun e =>
        (e.on (fun s =>
          s.modPort port (fun x => x.afterWindow (x.windowClass unfinished) s.now))).decideHealth port)
     else s)

/-- IDLE DUE (R171). -/
def execIdleDue (port : Nat) (s : State) : Host.Outcome State Fault Refusal :=
  ofUnit port 4
    (let x := s.portAt port
     if x.state = .up ∧ x.tx = .fill ∧ x.lastEnd + msTicks 2 ≤ s.now then s.transmit port .idle else s)

/-- A transmission has ended: the frame leaves its queue, a port in loopback gives it to its own receiver (R171,
R182). -/
def Port.ended (x : Port) (what : Sending) (now : Nat) : Port :=
  { x.dropSent what with
    lastEnd := now, tx := .fill,
    looped := if x.loopback then x.looped ++ (x.sentFrame what).toList else x.looped }

/-- TRANSMISSION END (R171): in UP the transmitter chooses again in the same event. -/
def execTransmissionEnd (port : Nat) (s : State) : Host.Outcome State Fault Refusal :=
  ofUnit port 4
    (match (s.portAt port).tx with
      | .sending what due =>
        if s.elapsed due then
          let t := s.modPort port (fun x => x.ended what s.now)
          if (s.portAt port).state = .up then t.choose port else t
        else s
      | _ => s)

end Sys2Proof.Machine
end

