-- ==== Sys2Proof/Machine/FrameEvents.lean ====
section
/-! DEFINITION. The events of reception: faults, START and IDLE, relay, and the routed frames taken locally by the block
of their kind (R163, R166, R168, R176 to R179, and the receiving rules of each block). -/

namespace Sys2Proof.Machine

/-! ### Faults and the disposition of frames -/

/-- A fault is recorded as the port's last fault, and marks the window of an UP port (R163). -/
def State.recordFault (s : State) (p : Nat) (f : LineFault) (length : Nat) : State :=
  s.modPort p (fun x => { x with
    lastFault := some (f, length, x.state), winFault := x.winFault || x.state == .up })

/-- What bytes between two markers do to a port that is not CLOSED, where they are no valid frame (R163, R180). A START
whose body is not one byte, or an IDLE with a body, passes R163's tests and has no row of its own: it changes nothing
(log entry 39). -/
def State.judged (s : State) (p : Nat) (line : List Byte) : State :=
  match judgeLine line with
  | .fault f => s.recordFault p f (recordedLength line)
  | .aborted => s.modPort p (fun x => { x with winActive := x.winActive || x.state == .up })
  | .nothing => s
  | .valid _ => s

/-- FRAME FAULT (R163): the bytes that arrived between two markers, as they stood on the line. A valid frame is the event
of its kind, not this one. -/
def execFrameFault (port : Nat) (line : List Byte) (s : State) : Host.Outcome State Fault Refusal :=
  ofUnit port 4 (if (s.portAt port).state = .closed then s else s.judged port line)

/-- Whether a source is a terminal's number (R163, test 8). -/
def sourceOk (source : Nat) : Bool := decide (1 ≤ source ∧ source ≤ 14)

/-- A port is not CLOSED, so that a frame that fails a test of R163 is recorded. -/
def State.malformed (s : State) (p : Nat) (body : List Byte) : State :=
  if (s.portAt p).state = .closed then s else s.recordFault p .malformed (min 57 body.length)

/-- A valid routed frame arrives: the port takes it, entering UP with it where it is heard, or ignores it; what follows is
in the same event (R163, R166, R176). A frame that cannot be valid is MALFORMED (R163). -/
def received (port source : Nat) (body : List Byte) (s : State) (f : Ev → Ev) : Host.Outcome State Fault Refusal :=
  ofUnit port 4
    (if !sourceOk source || decide (56 < body.length) then s.malformed port body
     else
      match s.admitFrame port source with
      | none => s
      | some t => event s (fun e => f (e.on (fun _ => t))))

/-- A body is taken where it can be read, and discarded otherwise (R213). -/
def taking {α : Type} (r : Option α) (f : α → Ev → Ev) (e : Ev) : Ev :=
  match r with
  | some a => f a e
  | none => e

/-- Where a frame to another terminal is relayed with its hop limit reduced, or discarded (R176, R177). -/
def Ev.relay (e : Ev) (port : Nat) (f : Frame) : Ev :=
  if f.destination = e.s.own then e
  else if f.source = e.s.own ∧ (e.s.portAt port).loopback = false then e
  else if f.hop ≤ 1 then e
  else e.on (fun s => (s.route { frame := { f with hop := f.hop - 1 }, origin := .relay port }).getD s)

/-- RELAYED FRAME (R176, R177): a valid routed frame for another terminal. -/
def execRelayedFrame (port destination source : Nat) (kind : FrameKind) (hop : Nat) (body : List Byte) (s : State) :
    Host.Outcome State Fault Refusal :=
  if sourceOk destination && decide (1 ≤ hop ∧ hop ≤ 7) && !linkKind kind then
    received port source body s (fun e =>
      e.relay port { destination := destination, source := source, kind := kind, hop := hop, body := body })
  else ofUnit port 4 (s.malformed port body)

/-! ### Link frames (R166, R168, R179) -/

/-- The heard flag of a START (R212). -/
def heardFlag (flags : Byte) : Bool := bit flags.toNat 0

/-- A valid START in STARTING (R166, R167). -/
def Ev.startInStarting (e : Ev) (p source : Nat) (flags : Byte) : Ev :=
  if source = e.s.own ∧ (e.s.portAt p).loopback = false then
    e.on (fun s => s.modPort p (fun x => { x with clash := true }))
  else
    let e1 := e.on (fun s => s.modPort p (fun x => { x with clash := false, peer := some (s.now, source) }))
    if heardFlag flags then e1.on (fun s => s.enterUp p) else e1

/-- A valid START in UP (R168). -/
def Ev.startInUp (e : Ev) (p source : Nat) (flags : Byte) : Ev :=
  if heardFlag flags && (e.s.portAt p).neighbour == some source then e.on (fun s => s.markValid p)
  else e.restart p false (some (e.s.now, source))

/-- START (R166 to R168). -/
def execStart (port source : Nat) (flags : Byte) (s : State) : Host.Outcome State Fault Refusal :=
  ofUnit port 4
    (if !sourceOk source then s.malformed port [flags]
     else
      match (s.portAt port).state with
      | .closed => s
      | .starting => event s (fun e => e.startInStarting port source flags)
      | .up => event s (fun e => e.startInUp port source flags))

/-- IDLE (R166, R167, R179). -/
def execIdle (port source : Nat) (s : State) : Host.Outcome State Fault Refusal :=
  received port source [] s (fun e => e)

/-! ### CONTINGENCY (R107) -/

/-- A notice taken by the state of its entry. -/
def Ev.takeNotice (e : Ev) (source : Nat) (n : Nat × Bool) : Ev :=
  let r : TrigRef := { terminal := source, input := n.1 }
  let due := e.s.now + msTicks e.s.settings.remoteHold
  match e.s.findRemote r with
  | none => e
  | some en =>
    match en.asserted, n.2 with
    | none, true => (e.on (fun s => s.setRemote r (some (s.quarters, due)))).triggering r
    | some (t, _), true => e.on (fun s => s.setRemote r (some (t, due)))
    | some _, false => (e.on (fun s => s.setRemote r none)).triggering r
    | none, false => e

/-- CONTINGENCY (R107). -/
def execContingency (port source : Nat) (body : List Byte) (s : State) : Host.Outcome State Fault Refusal :=
  received port source body s (taking (readContingency body) (fun n e => e.takeNotice source n))

/-! ### FIRED REPORT, TRIP ORDER, ORDER ACK (R124, R129, R130) -/

/-- A DISOWN naming a scheme id to a terminal (R158). -/
def Ev.sendDisown (e : Ev) (id t : Nat) : Ev := e.send .disown t (u8 id)

/-- A FIRED REPORT by R124's table. -/
def Ev.takeFiredReport (e : Ev) (source : Nat) (m : Nat × Nat × List (Nat × Result)) : Ev :=
  match e.s.findHome m.1 with
  | none => e.sendDisown m.1 source
  | some (i, _, h) =>
    if (h.part source).isNone then e.sendDisown m.1 source
    else e.takeReport i (.report source) source m.2.1 m.2.2

/-- FIRED REPORT (R124). -/
def execFiredReport (port source : Nat) (body : List Byte) (s : State) : Host.Outcome State Fault Refusal :=
  received port source body s (taking (readFiredReport body) (fun m e => e.takeFiredReport source m))

/-- The copy that an order moves to FIRED, where it does (R129, step 2). -/
def Ev.orderFires (e : Ev) (id source : Nat) (test : Bool) (results : List (Nat × Result)) : Ev :=
  match e.s.findCopy id with
  | some (i, sc, c) =>
    if sc.home = source ∧ sc.life ≠ .fired ∧ test = false ∧ e.s.mode = .run then
      (e.put i ({ sc with life := .fired }.withCopy
        { c with summary := some { generation := sc.generation, entry := .order, results := results } })).marking i
    else e
  | none => e

/-- A TRIP ORDER: trip requests in order, the copy, the acknowledgement (R129). -/
def Ev.takeOrder (e : Ev) (source : Nat) (m : Nat × Nat × Bool × List Nat) : Ev :=
  let r := e.s.tripAll m.2.2.1 m.2.2.2
  ((e.on (fun _ => r.1)).orderFires m.1 source m.2.2.1 r.2).send .orderAck source
    (orderAckBody m.1 m.2.1 m.2.2.1 r.2)

/-- TRIP ORDER (R129). -/
def execTripOrder (port source : Nat) (body : List Byte) (s : State) : Host.Outcome State Fault Refusal :=
  received port source body s (taking (readTripOrder body) (fun m e => e.takeOrder source m))

/-- An ORDER ACK in the context it matches (R130). -/
def Ev.takeOrderAck (e : Ev) (source : Nat) (m : Nat × Nat × Bool × List (Nat × Result)) : Ev :=
  match e.s.ackContext m.1 m.2.1 m.2.2.1 source with
  | some c => e.takeAck c source m.2.2.2
  | none => e

/-- ORDER ACK (R130). -/
def execOrderAck (port source : Nat) (body : List Byte) (s : State) : Host.Outcome State Fault Refusal :=
  received port source body s (taking (readOrderAck body) (fun m e => e.takeOrderAck source m))

/-! ### UPDATE (R148 to R150) -/

/-- The firing summary of a FIRED copy. -/
def CopyPart.firingSummary (c : CopyPart) : FiringSummary :=
  c.summary.getD { generation := 0, entry := .carried, results := [] }

/-- Whether the carried list names a local action that has no LOCAL entry (R148). -/
def State.missingAction (s : State) (u : Carried) : Bool :=
  u.actions.any (fun r => r.site == s.own && (s.findLocal r.number).isNone)

/-- What a replica answers, by R148's table, given the slot and content of the id where it is held. -/
def State.updateReply (s : State) (source : Nat) (u : Carried) (held : Option (Nat × Scheme)) : Reply :=
  let foreign : Bool := match held with
    | some (_, sc) => sc.isHome || sc.home != source
    | none => false
  let protectedCopy : Bool := match held with
    | some (_, sc) => sc.life == .fired && !u.closes && u.life != .fired
    | none => false
  let summary : FiringSummary := match held with
    | some (_, sc) =>
      match sc.part with
      | .copy c => c.firingSummary
      | .home _ => { generation := 0, entry := .carried, results := [] }
    | none => { generation := 0, entry := .carried, results := [] }
  if foreign then .reject .noSlot
  else if protectedCopy then .hold summary
  else if held.isNone && s.emptySlotNo.isNone then .reject .noSlot
  else if s.missingAction u then .reject .missingAction
  else if 32 < s.remoteCountWith (held.map Prod.fst) u.trigger.refs then .reject .triggerTableFull
  else .accept u.closes

/-- The firing summary of a copy that accepts an UPDATE into a life state (R150). A CARRIED summary holds the UPDATE's
generation, also where it replaces that of a copy FIRED already, which R118 and R150 leave open (log entry 42). -/
def acceptedSummary (u : Carried) (before : Option Scheme) : Option FiringSummary :=
  if u.life ≠ .fired then none
  else
    let carried : FiringSummary := { generation := u.generation, entry := .carried, results := [] }
    match before with
    | some sc =>
      match sc.part with
      | .copy c => if sc.life = .fired ∧ u.closes = false then c.summary else some carried
      | .home _ => some carried
    | none => some carried

/-- The copy an accepted UPDATE leaves (R149, R150, R92): in MAINTENANCE a state of ARMED or FIRED is withheld. -/
def State.acceptedCopy (s : State) (source : Nat) (u : Carried) (before : Option Scheme) : Scheme :=
  let withheld := s.mode == .maintenance && (u.life == .armed || u.life == .fired)
  let life : Life := if withheld then .dormant else u.life
  let runs := life = .dormant ∨ life = .armed ∨ life = .fired
  { id := u.id, home := source, generation := u.generation, life := life, trigger := u.trigger, actions := u.actions,
    selection := u.selection, participants := u.participants, posture := u.posture, interval := u.interval,
    autoDisarm := u.autoDisarm, stale := u.stale,
    releaseNeeded := (before.map Scheme.releaseNeeded).getD false,
    deadline := if runs then s.freshDeadline u.interval else .stopped,
    part := .copy {
      summary := if withheld then none else acceptedSummary u before,
      withheld := if withheld then some u.life else none } }

/-- An UPDATE is accepted into a slot; the marker is set where the set is satisfied and the copy accepts closes-firing or
enters FIRED (R112, R149, R150). -/
def Ev.acceptUpdate (e : Ev) (i source : Nat) (u : Carried) (before : Option Scheme) : Ev :=
  let sc := e.s.acceptedCopy source u before
  let e1 := e.put i sc
  if u.closes || (sc.life == .fired && (before.map Scheme.life) != some .fired) then e1.marking i else e1

/-- The slot an accepted UPDATE goes to: the copy's, or the lowest EMPTY one (R149). -/
def State.updateSlot (s : State) (held : Option (Nat × Scheme)) : Option Nat :=
  match held with
  | some (i, _) => some i
  | none => s.emptySlotNo

/-- An UPDATE, with its reply (R148). -/
def Ev.takeUpdate (e : Ev) (source : Nat) (u : Carried) : Ev :=
  let held := e.s.findScheme u.id
  let reply := e.s.updateReply source u held
  let e1 := match reply, e.s.updateSlot held with
    | .accept _, some i => e.acceptUpdate i source u (held.map Prod.snd)
    | _, _ => e
  e1.send .updateReply source (replyBody u.id u.generation reply)

/-- UPDATE (R148). -/
def execUpdate (port source : Nat) (body : List Byte) (s : State) : Host.Outcome State Fault Refusal :=
  received port source body s (taking (readUpdate body) (fun u e => e.takeUpdate source u))

/-! ### UPDATE REPLY (R143, R144, R146) -/

/-- An ACCEPT of a generation from a participant (R143). -/
def Ev.takeAccept (e : Ev) (i : Nat) (sc : Scheme) (h : HomePart) (p : Participant) (gen : Nat) (echo : Bool) : Ev :=
  if gen = sc.generation then
    e.putHome i sc (h.modPart p.terminal (fun q =>
      { q.settle .current none with acked := some gen, owesClose := q.owesClose && !echo }))
  else if p.status = .current then e
  else
    (e.putHome i sc (h.modPart p.terminal (fun q => { q.waiting with acked := some gen }))).wanting i

/-- A HOLD from a participant, its summary handed to the Execution Unit (R144). -/
def Ev.takeHold (e : Ev) (i : Nat) (sc : Scheme) (h : HomePart) (p : Participant) (f : FiringSummary) : Ev :=
  if p.status = .current then e
  else
    let e1 := if p.engaged then
        e.putHome i sc (h.modPart p.terminal (fun q => { q with status := .held }))
      else (e.putHome i sc (h.modPart p.terminal Participant.waiting)).wanting i
    e1.takeReport i (.hold p.terminal) p.terminal f.generation f.results

/-- A REJECT from a participant (R144). -/
def Ev.takeReject (e : Ev) (i : Nat) (sc : Scheme) (h : HomePart) (p : Participant) (r : RejectReason) : Ev :=
  if p.status = .current then e
  else e.putHome i sc (h.modPart p.terminal (fun q => q.settle .rejected (some r)))

/-- A reply about a RETIRING record (R146). -/
def Ev.replyInRetiring (e : Ev) (i id source : Nat) (f : Reply) : Ev :=
  match f with
  | .accept _ => e.sendDisown id source
  | .hold m => e.takeReport i (.hold source) source m.generation m.results
  | .reject _ => e

/-- An UPDATE REPLY (R143, R144, R146). -/
def Ev.takeReply (e : Ev) (source : Nat) (m : Nat × Nat × Reply) : Ev :=
  match e.s.findHome m.1 with
  | none => e.sendDisown m.1 source
  | some (i, sc, h) =>
    match h.part source with
    | none => e.sendDisown m.1 source
    | some p =>
      if sc.life = .retiring then e.replyInRetiring i m.1 source m.2.2
      else
        match m.2.2 with
        | .accept echo => e.takeAccept i sc h p m.2.1 echo
        | .hold f => e.takeHold i sc h p f
        | .reject r => e.takeReject i sc h p r

/-- UPDATE REPLY (R143, R144, R146). -/
def execUpdateReply (port source : Nat) (body : List Byte) (s : State) : Host.Outcome State Fault Refusal :=
  received port source body s (taking (readReply body) (fun m e => e.takeReply source m))

/-! ### REFRESH, REFRESH ACK (R152, R153) -/

/-- One pair of a REFRESH, with the entry of its acknowledgement (R152, R92). -/
def Ev.takePair (acc : Ev × List (Nat × Nat × Option Nat)) (source : Nat) (p : Nat × Nat) :
    Ev × List (Nat × Nat × Option Nat) :=
  match acc.1.s.findCopy p.1 with
  | some (i, sc, _) =>
    if sc.home = source then
      let runs := sc.life = .dormant ∨ sc.life = .armed ∨ sc.life = .fired
      (acc.1.put i { sc with
          stale := false,
          deadline := if runs then acc.1.s.freshDeadline sc.interval else sc.deadline },
        acc.2 ++ [(p.1, p.2, some sc.generation)])
    else (acc.1, acc.2 ++ [(p.1, p.2, none)])
  | none => (acc.1, acc.2 ++ [(p.1, p.2, none)])

/-- A REFRESH: its pairs in frame order, then the acknowledgements in frames of up to 11 (R152). -/
def Ev.takeRefresh (e : Ev) (source : Nat) (pairs : List (Nat × Nat)) : Ev :=
  let r := pairs.foldl (fun acc p => Ev.takePair acc source p) (e, [])
  (chunks 11 r.2).foldl (fun e l => e.send .refreshAck source (refreshAckBody l)) r.1

/-- REFRESH (R152). -/
def execRefreshFrame (port source : Nat) (body : List Byte) (s : State) : Host.Outcome State Fault Refusal :=
  received port source body s (taking (readRefresh body) (fun l e => e.takeRefresh source l))

/-- The entry of a participant after an acknowledgement that shows the present generation (R153). -/
def Participant.shownPresent (p : Participant) (gen : Nat) : Participant :=
  if p.owesClose then p.waiting else { p.settle .current none with acked := some gen }

/-- One entry of a REFRESH ACK compared with its participant (R153). -/
def Ev.compareEntry (e : Ev) (i : Nat) (sc : Scheme) (h : HomePart) (p : Participant) (copy : Option Nat) : Ev :=
  if p.status = .rejected then e
  else if copy = some sc.generation then
    if p.status = .current then e
    else
      let e1 := e.putHome i sc (h.modPart p.terminal (fun q => q.shownPresent sc.generation))
      if p.owesClose then e1.wanting i else e1
  else if p.status = .current ∨ p.status = .lost then
    (e.putHome i sc (h.modPart p.terminal Participant.waiting)).wanting i
  else e

/-- One entry of a REFRESH ACK (R146, R153). -/
def Ev.takeAckEntry (e : Ev) (source : Nat) (m : Nat × Nat × Option Nat) : Ev :=
  match e.s.findHome m.1 with
  | none => if m.2.2.isSome then e.sendDisown m.1 source else e
  | some (i, sc, h) =>
    match h.part source with
    | none => e.sendDisown m.1 source
    | some p =>
      if sc.life = .retiring ∨ m.2.1 ≠ sc.generation then e else e.compareEntry i sc h p m.2.2

/-- REFRESH ACK (R153). -/
def execRefreshAck (port source : Nat) (body : List Byte) (s : State) : Host.Outcome State Fault Refusal :=
  received port source body s
    (taking (readRefreshAck body) (fun l e => l.foldl (fun e m => e.takeAckEntry source m) e))

/-! ### RETIRE, RETIRE ACK, DISOWN (R156, R157, R159) -/

/-- The copy of a scheme id whose home is a terminal, with its slot. -/
def State.copyOf (s : State) (id home : Nat) : Option (Nat × Scheme × CopyPart) :=
  match s.findCopy id with
  | some (i, sc, c) => if sc.home = home then some (i, sc, c) else none
  | none => none

/-- A RETIRE: the copy is removed, its firing summary acknowledged where it was FIRED (R156). -/
def Ev.takeRetire (e : Ev) (source id : Nat) : Ev :=
  match e.s.copyOf id source with
  | some (i, sc, c) =>
    (e.on (fun s => s.putScheme i none)).send .retireAck source
      (retireAckBody id (if sc.life = .fired then some c.firingSummary else none))
  | none => e.send .retireAck source (retireAckBody id none)

/-- RETIRE (R156). -/
def execRetireFrame (port source : Nat) (body : List Byte) (s : State) : Host.Outcome State Fault Refusal :=
  received port source body s (taking (readId body) (fun id e => e.takeRetire source id))

/-- A participant that acknowledges the retire (R157). -/
def Participant.retired (p : Participant) : Participant :=
  if p.status = .behind ∨ p.status = .lost then p.settle .current none else { p with retry := none }

/-- A RETIRE ACK (R146, R157). -/
def Ev.takeRetireAck (e : Ev) (source : Nat) (m : Nat × Option FiringSummary) : Ev :=
  match e.s.findHome m.1 with
  | none => e.sendDisown m.1 source
  | some (i, sc, h) =>
    if (h.part source).isNone then e.sendDisown m.1 source
    else if sc.life ≠ .retiring then e
    else
      let h1 := h.modPart source Participant.retired
      if m.2.isSome then e.stray i sc h1 else e.putHome i sc h1

/-- RETIRE ACK (R157). -/
def execRetireAck (port source : Nat) (body : List Byte) (s : State) : Host.Outcome State Fault Refusal :=
  received port source body s (taking (readRetireAck body) (fun m e => e.takeRetireAck source m))

/-- A DISOWN (R159). -/
def Ev.takeDisown (e : Ev) (source id : Nat) : Ev :=
  match e.s.copyOf id source with
  | some (i, _, _) => (e.on (fun s => s.putScheme i none)).raise .copyDisowned id
  | none => e

/-- DISOWN (R159). -/
def execDisown (port source : Nat) (body : List Byte) (s : State) : Host.Outcome State Fault Refusal :=
  received port source body s (taking (readId body) (fun id e => e.takeDisown source id))

/-! ### QUANTITY, ACTION STATUS (R43, R44, R62) -/

/-- A slot that a received entry applies to takes it by the quality carried (R44, R37). -/
def QSlot.takeEntry (x : QSlot) (v : Int) (q : Quality) (now : Nat) : QSlot :=
  match q with
  | .good => x.takeGood v now
  | .stale => { x with value := saturate v, quality := .stale, clamped := decide (saturate v ≠ v) }
  | .invalid => { x with quality := .invalid }
  | .unset => x

/-- One entry applied to one slot, with its event (R44). -/
def Ev.applyEntry (e : Ev) (q : Nat) (v : Int) (quality : Quality) : Ev :=
  let wasGood := (e.s.slotAt q).quality == .good
  let e1 := (e.on (fun s => s.modSlot q (fun x => x.takeEntry v quality s.now))).handingOn [q]
  if wasGood && quality == .stale then e1.raise .quantityStale q else e1

/-- One entry of a QUANTITY frame, applied to every slot whose source names it (R43), in ascending slot number: where it
takes several GOOD slots to STALE, QUANTITY STALE names the highest, which no rule says (log entry 20). -/
def Ev.takeQuantity (e : Ev) (source : Nat) (m : Nat × Int × Nat) : Ev :=
  match qualityOfCode m.2.2 with
  | some quality =>
    if 31 < m.1 then e
    else
      ((List.range e.s.slots.length).filter (fun q => (e.s.slotAt q).source == .peer source m.1)).foldl
        (fun e q => e.applyEntry q m.2.1 quality) e
  | none => e

/-- QUANTITY (R43, R44). -/
def execQuantityFrame (port source : Nat) (body : List Byte) (s : State) : Host.Outcome State Fault Refusal :=
  received port source body s
    (taking (readQuantity body) (fun l e => l.foldl (fun e m => e.takeQuantity source m) e))

/-- A mirror takes a publication and becomes FRESH for three publish intervals (R56, R62). -/
def ActionEntry.published (a : ActionEntry) (av : SiteAvail) (v now interval : Nat) : ActionEntry :=
  match a.kind with
  | .mirror _ _ _ _ =>
    { a with kind := .mirror (some av) (some v) (some (now + msTicks (3 * interval))) (some now) }
  | .localEntry _ _ _ _ => a

/-- One entry of an ACTION STATUS frame (R62). -/
def Ev.takeStatus (e : Ev) (source : Nat) (m : Nat × Nat × Nat) : Ev :=
  match siteAvailOfCode m.2.1 with
  | some av =>
    if m.1 = 0 ∨ 96 < m.1 then e
    else e.on (fun s => s.modAction { site := source, number := m.1 } (fun a =>
      a.published av m.2.2 s.now s.settings.publishInterval))
  | none => e

/-- ACTION STATUS (R62). -/
def execActionStatus (port source : Nat) (body : List Byte) (s : State) : Host.Outcome State Fault Refusal :=
  received port source body s
    (taking (readActionStatus body) (fun l e => l.foldl (fun e m => e.takeStatus source m) e))

/-! ### ECHO, ECHO REPLY (R184) -/

/-- ECHO: answered with its body unchanged (R184). -/
def execEcho (port source : Nat) (body : List Byte) (s : State) : Host.Outcome State Fault Refusal :=
  received port source body s (fun e => e.send .echoReply source body)

/-- An ECHO REPLY matched against the outstanding test (R184). -/
def State.testReplied (s : State) (source : Nat) (body : List Byte) : State :=
  match s.test with
  | .outstanding d t _ =>
    if d = source ∧ body = u8 s.testNumber then { s with test := .replied ((s.now - t) / 64) } else s
  | _ => s

/-- ECHO REPLY (R184). -/
def execEchoReply (port source : Nat) (body : List Byte) (s : State) : Host.Outcome State Fault Refusal :=
  received port source body s (fun e => e.on (fun s => s.testReplied source body))

end Sys2Proof.Machine
end

