-- ==== Sys2Proof/Machine/StationPort.lean ====
section
/-! DEFINITION. The full reset (R203), the station port's transactions (R187 to R192), the refusal of a command frame
(R189, R190), and the commands on the event flags (R198 to R200). -/

namespace Sys2Proof.Machine

/-! ### Full reset -/

/-- FULL RESET: the machine as `State.reset` has it, but for what stands outside the part, the levels presented on its
inputs (R99, R115), and the model's own clock, queue and free values. The reset is one instant: the model has no state in
which the reset pin is held and the station port answers nothing (R203, log entry 26). -/
def execFullReset (s : State) : Host.Outcome State Fault Refusal :=
  .next { State.reset with
    now := s.now, inputs := s.inputs.map (fun x => resetInput x.level), freeIndex := s.freeIndex,
    pending := s.pending }

/-! ### Transactions -/

/-- The bytes sent on MISO in a busy transaction of `n` bytes (R191). -/
def busyBytes (n : Nat) : List Byte := List.replicate n busyByte

/-- The bytes sent on MISO in a transaction of `n` bytes that shifts out a content after its status byte, and then idle
fill (R187, R189, R192). -/
def shiftedBytes (b : Buffer) (content : List Byte) (n : Nat) : List Byte :=
  (statusByte b :: content ++ List.replicate n 0x00#8).take n

/-- A fetch of `n` bytes, begun while not PROCESSING (R192). -/
def State.fetched (s : State) (n : Nat) : State :=
  match s.buffer with
  | .held r seen =>
    { s with
      miso := shiftedBytes s.buffer r n,
      buffer := .held r (seen || decide (1 + r.length ≤ n)) }
  | b => { s with miso := shiftedBytes b [] n }

/-- A transaction whose first byte is not the fetch code, begun while not PROCESSING: fewer than three bytes are ignored,
else the frame is in processing (R189). The time its processing takes is a free value of at most 1 ms (R190, log
entry 5). -/
def State.commandReceived (s : State) (mosi : List Byte) : State :=
  let t := { s with miso := shiftedBytes s.buffer [] mosi.length }
  if mosi.length < 3 then t
  else
    { t with
      buffer := .processing (mosi.take 517) mosi.length (s.now + (Config.processingTicks s.freeIndex).val),
      freeIndex := s.freeIndex + 1 }

/-- A transaction of a number of bytes while PROCESSING shows BUSY and changes nothing else (R191). -/
def State.busy (s : State) (n : Nat) : State := { s with miso := busyBytes n }

/-- Whether a command frame is in processing. -/
def State.isProcessing (s : State) : Bool :=
  match s.buffer with
  | .processing _ _ _ => true
  | _ => false

/-- COMMAND TRANSACTION (R187, R189, R191): no whole byte, nothing; while PROCESSING, busy; a first byte that is the
fetch code makes it a fetch (log entry 8). -/
def execCommandTransaction (mosi : List Byte) (s : State) : Host.Outcome State Fault Refusal :=
  .next (
    if mosi == [] then s
    else if s.isProcessing then s.busy mosi.length
    else if mosi.head? == some fetchCode then s.fetched mosi.length
    else s.commandReceived mosi)

/-- FETCH of a number of bytes clocked (R187, R191, R192). -/
def execFetch (clocked : Nat) (s : State) : Host.Outcome State Fault Refusal :=
  .next (
    if clocked == 0 then s
    else if s.isProcessing then s.busy clocked
    else s.fetched clocked)

/-- BUSY TRANSACTION of a number of bytes, one begun while PROCESSING: it shows BUSY to its end even where the processing
ends under way (R191, log entry 8); no whole byte, nothing (R187). -/
def execBusyTransaction (clocked : Nat) (s : State) : Host.Outcome State Fault Refusal :=
  .next (if clocked == 0 then s else s.busy clocked)

/-- The refusal of the frame in processing, where it fails a frame test. -/
def Buffer.frameRefusal : Buffer → Option Code
  | .processing stored count _ =>
    match decodeFrame stored count with
    | .refused c => some c
    | .command _ => none
  | _ => none

/-- COMMAND FRAME REFUSED (R189, R190): the frame in processing is answered with the code of the test it fails. A frame
that passes, or no frame, is no such event and changes nothing. -/
def execCommandFrameRefused (s : State) : Host.Outcome State Fault Refusal :=
  .next (
    match s.buffer.frameRefusal with
    | some c => s.respond c false []
    | none => s)

/-! ### Event flags -/

/-- The state of ATTN in a response. -/
def State.attnByte (s : State) : List Byte := flagByte s.attn

/-- EVENT READ (R199). -/
def execEventRead (s : State) : Host.Outcome State Fault Refusal :=
  .next (station everyMode s
    (.done s false (each (fun f => flagView f ++ flagByte f.enable) s.events ++ s.attnByte)))

/-- The enables that a word gives, flag by flag (R198, R214). -/
def enabledBy (bits : Nat) (l : List EventFlag) : List EventFlag :=
  l.zipIdx.map (fun p => { p.1 with enable := bit bits p.2 })

/-- EVENT ENABLE (R198, R214): any of bits 10 to 15 gives RANGE. -/
def execEventEnable (bits : Nat) (s : State) : Host.Outcome State Fault Refusal :=
  .next (station everyMode s
    (if 1024 ≤ bits then .refused .range
     else
      let t := { s with events := enabledBy bits s.events }
      .done t false (each (fun f => flagByte f.enable) t.events ++ t.attnByte)))

/-- The flags that a word names are cleared, with item none (R200). -/
def clearedBy (bits : Nat) (l : List EventFlag) : List EventFlag :=
  l.zipIdx.map (fun p => if bit bits p.2 then { p.1 with item := none } else p.1)

/-- EVENT CLEAR (R200, R214): the response shows each flag named as it stood before. -/
def execEventClear (bits : Nat) (s : State) : Host.Outcome State Fault Refusal :=
  .next (station everyMode s
    (if 1024 ≤ bits then .refused .range
     else .done { s with events := clearedBy bits s.events } false (each flagView (namedFlags bits s.events))))

end Sys2Proof.Machine
end

