-- ==== Sys2Proof/Machine/Clock.lean ====
section
/-! DEFINITION. What the passing of time brings about: the expiries that are due, the frames a port in loopback gives its
own receiver, and the taking of a command frame in processing. A tick queues them as the commands of their rows, in one
fixed order (log entry 2). -/

namespace Sys2Proof.Machine

/-- A command where a condition holds. -/
def due (c : Bool) (i : Instr) : List Instr := if c then [i] else []

/-- The expiries due at an input (R100, R103). -/
def State.inputDue (s : State) (i : Nat) : List Instr :=
  match (s.inputAt i).state with
  | .released => []
  | .qualifying t => due (s.elapsed t) (.qualifyTimerExpiry i)
  | .asserted _ d rep => due (s.ranOut d) (.dropoutTimerExpiry i) ++ due (s.elapsed rep) (.repeatTimerExpiry i)

/-- The hold expiries due (R108). -/
def State.holdDue (s : State) (e : RemoteEntry) : List Instr :=
  due (s.ranOut (e.asserted.map Prod.snd)) (.holdTimerExpiry e.ref.terminal e.ref.input)

/-- The expiries due at a record or copy: its refresh deadline, and the retry timers of its engaged participants (R89,
R93, R145). -/
def State.schemeDue (s : State) (sc : Scheme) : List Instr :=
  match sc.part with
  | .home h =>
    due (s.lapsed sc.deadline) (.refreshDeadlineExpiry sc.id) ++
      h.statuses.flatMap (fun p => due (p.engaged && s.ranOut p.retry) (.retryTimerExpiry sc.id p.terminal))
  | .copy _ => due (s.lapsed sc.deadline) (.copyDeadlineExpiry sc.id)

/-- The expiries due at a context (R127, R131). -/
def State.contextDue (s : State) (c : Nat) : List Instr :=
  match s.contextAt c with
  | .opened _ w d => due (s.ranOut w) (.reportWaitExpiry c) ++ due (s.elapsed d) (.executionDeadlineExpiry c)
  | _ => []

/-- The end of a transmission. -/
def Transmitter.endsAt : Transmitter → Option Nat
  | .sending _ t => some t
  | _ => none

/-- Whether the receiver of a port in loopback has part of a frame: its own transmission is under way, with more than the
opening marker sent (R180, R182). -/
def State.partLooped (s : State) (p : Nat) : Bool :=
  let x := s.portAt p
  match x.tx with
  | .sending what due =>
    x.loopback && decide (due + 2 * s.byteTicks p ≤ s.now + (x.sendBytes s.own what).length * s.byteTicks p)
  | _ => false

/-- What is due at a port (R166, R171, R180). A window end says whether part of a frame had been received, which the model
knows of a port in loopback alone (log entry 23). -/
def State.portDue (s : State) (p : Nat) : List Instr :=
  let x := s.portAt p
  due (s.ranOut x.tx.endsAt) (.transmissionEnd p) ++
    due (x.state == .starting && s.ranOut x.startDue) (.startTimerExpiry p) ++
    due (x.state == .up && s.ranOut x.windowDue) (.windowEnd p (s.partLooped p)) ++
    due (x.state == .up && x.tx == .fill && decide (x.lastEnd + msTicks 2 ≤ s.now)) (.idleDue p)

/-- The 100 ms timer of an outstanding test (R184). -/
def State.testDue (s : State) : List Instr :=
  match s.test with
  | .outstanding _ _ t => due (s.elapsed t) .portTestExpiry
  | _ => []

/-- A routed frame taken locally, as the command of its kind's row (R178). -/
def localRow (p : Nat) (f : Frame) : Instr :=
  match f.kind with
  | .contingency => .contingency p f.source f.body
  | .firedReport => .firedReport p f.source f.body
  | .tripOrder => .tripOrder p f.source f.body
  | .orderAck => .orderAck p f.source f.body
  | .start => .start p f.source 0
  | .idle => .idle p f.source
  | .update => .update p f.source f.body
  | .updateReply => .updateReply p f.source f.body
  | .refresh => .refreshFrame p f.source f.body
  | .refreshAck => .refreshAck p f.source f.body
  | .retire => .retireFrame p f.source f.body
  | .retireAck => .retireAck p f.source f.body
  | .disown => .disown p f.source f.body
  | .quantity => .quantityFrame p f.source f.body
  | .actionStatus => .actionStatus p f.source f.body
  | .echo => .echo p f.source f.body
  | .echoReply => .echoReply p f.source f.body

/-- The row of what comes back to a port in loopback: a frame's, or FRAME FAULT with the bytes of an abort (R163, R182). -/
def State.loopedRow (s : State) (p : Nat) : LineFrame → Instr
  | .start heard => .start p s.own (if heard then 1 else 0)
  | .idle => .idle p s.own
  | .routed f =>
    if f.destination = s.own then localRow p f
    else .relayedFrame p f.destination f.source f.kind f.hop f.body
  | .aborted => .frameFault p [escape]

/-- What comes back to a port in loopback. -/
def State.loopedRows (s : State) (p : Nat) : List Instr := (s.portAt p).looped.map (s.loopedRow p)

/-- The taking of a command frame whose processing has ended: its command, or its refusal (R190). -/
def State.takingDue (s : State) : List Instr :=
  match s.buffer with
  | .processing stored count t =>
    if s.elapsed t then
      match decodeFrame stored count with
      | .command i => [i]
      | .refused _ => [.commandFrameRefused]
    else []
  | _ => []

/-- All that is due at the present instant, in the model's fixed order (log entry 2). -/
def State.dueEvents (s : State) : List Instr :=
  (List.range s.inputs.length).flatMap s.inputDue ++ s.remote.flatMap s.holdDue ++
  (List.range s.slots.length).flatMap (fun q => due (s.slotExpired (s.slotAt q)) (.slotExpiry q)) ++
  s.actions.flatMap (fun a => due (s.ranOut a.freshUntil) (.freshnessExpiry a.ref.site a.ref.number)) ++
  (List.range s.outputs.length).flatMap (fun o => due (s.ranOut (s.outputAt o).pulse) (.pulseEnd o)) ++
  s.held.flatMap s.schemeDue ++ s.contextNos.flatMap s.contextDue ++
  due (s.ranOut s.publication) .publicationTimerExpiry ++ s.testDue ++
  (List.range s.ports.length).flatMap s.loopedRows ++ (List.range s.ports.length).flatMap s.portDue ++
  s.takingDue

/-- A tick of 1/256 ms, which passes while no command waits: the clock goes on, and what is due then waits. -/
def State.tick (s : State) : State :=
  let t := { s with now := s.now + 1 }
  { t with
    ports := t.ports.map (fun p => { p with looped := [] }),
    pending := t.pending ++ t.dueEvents }

end Sys2Proof.Machine
end

