-- ==== Sys2Proof/Machine/Dispatch.lean ====
section
/-! DEFINITION. One arm for each command: a direct call of its meaning. -/

namespace Sys2Proof.Machine

def exec (i : Instr) (s : State) : Host.Outcome State Fault Refusal :=
  match i with
  | .fullReset => Sys2Proof.Machine.execFullReset s
  | .commandTransaction mosi => Sys2Proof.Machine.execCommandTransaction mosi s
  | .fetch clocked => Sys2Proof.Machine.execFetch clocked s
  | .busyTransaction clocked => Sys2Proof.Machine.execBusyTransaction clocked s
  | .recordLoad body => Sys2Proof.Machine.execRecordLoad body s
  | .recordTune id onAt offAt limit k m f => Sys2Proof.Machine.execRecordTune id onAt offAt limit k m f s
  | .arm id => Sys2Proof.Machine.execArm id s
  | .disarm id => Sys2Proof.Machine.execDisarm id s
  | .block id => Sys2Proof.Machine.execBlock id s
  | .unblock id => Sys2Proof.Machine.execUnblock id s
  | .resetSpent id => Sys2Proof.Machine.execResetSpent id s
  | .retire id => Sys2Proof.Machine.execRetire id s
  | .refresh id => Sys2Proof.Machine.execRefresh id s
  | .refreshGroup group => Sys2Proof.Machine.execRefreshGroup group s
  | .dropCopy id => Sys2Proof.Machine.execDropCopy id s
  | .recordRead id => Sys2Proof.Machine.execRecordRead id s
  | .recordList => Sys2Proof.Machine.execRecordList s
  | .recordFindByAction site number => Sys2Proof.Machine.execRecordFindByAction site number s
  | .recordFindByTrigger terminal input => Sys2Proof.Machine.execRecordFindByTrigger terminal input s
  | .quantitySource slot source terminal peerSlot limit publish => Sys2Proof.Machine.execQuantitySource slot source terminal peerSlot limit publish s
  | .quantityPost entries => Sys2Proof.Machine.execQuantityPost entries s
  | .quantityInvalidate slots => Sys2Proof.Machine.execQuantityInvalidate slots s
  | .quantityRead slot => Sys2Proof.Machine.execQuantityRead slot s
  | .actionLoad kind site number output valueSlot nominal pulse => Sys2Proof.Machine.execActionLoad kind site number output valueSlot nominal pulse s
  | .actionBlock site number => Sys2Proof.Machine.execActionBlock site number s
  | .actionRestore site number => Sys2Proof.Machine.execActionRestore site number s
  | .actionRemove site number => Sys2Proof.Machine.execActionRemove site number s
  | .actionRead site number => Sys2Proof.Machine.execActionRead site number s
  | .outputRead => Sys2Proof.Machine.execOutputRead s
  | .inputConfigure input enable qualifyUs dropoutUs => Sys2Proof.Machine.execInputConfigure input enable qualifyUs dropoutUs s
  | .inputRead input => Sys2Proof.Machine.execInputRead input s
  | .remoteTriggerRead => Sys2Proof.Machine.execRemoteTriggerRead s
  | .executionRead context collect => Sys2Proof.Machine.execExecutionRead context collect s
  | .portOpen port => Sys2Proof.Machine.execPortOpen port s
  | .portClose port => Sys2Proof.Machine.execPortClose port s
  | .portRead port => Sys2Proof.Machine.execPortRead port s
  | .routeWrite destination primary alternate => Sys2Proof.Machine.execRouteWrite destination primary alternate s
  | .routeRead => Sys2Proof.Machine.execRouteRead s
  | .portTest destination => Sys2Proof.Machine.execPortTest destination s
  | .portLoopback port => Sys2Proof.Machine.execPortLoopback port s
  | .eventRead => Sys2Proof.Machine.execEventRead s
  | .eventEnable bits => Sys2Proof.Machine.execEventEnable bits s
  | .eventClear bits => Sys2Proof.Machine.execEventClear bits s
  | .settingsWrite items => Sys2Proof.Machine.execSettingsWrite items s
  | .settingsComplete => Sys2Proof.Machine.execSettingsComplete s
  | .settingsRead => Sys2Proof.Machine.execSettingsRead s
  | .reconfigure => Sys2Proof.Machine.execReconfigure s
  | .tableClear => Sys2Proof.Machine.execTableClear s
  | .maintenanceEnter => Sys2Proof.Machine.execMaintenanceEnter s
  | .maintenanceExit => Sys2Proof.Machine.execMaintenanceExit s
  | .testFire id => Sys2Proof.Machine.execTestFire id s
  | .inputLevelChange input active => Sys2Proof.Machine.execInputLevelChange input active s
  | .qualifyTimerExpiry input => Sys2Proof.Machine.execQualifyTimerExpiry input s
  | .dropoutTimerExpiry input => Sys2Proof.Machine.execDropoutTimerExpiry input s
  | .repeatTimerExpiry input => Sys2Proof.Machine.execRepeatTimerExpiry input s
  | .holdTimerExpiry terminal input => Sys2Proof.Machine.execHoldTimerExpiry terminal input s
  | .slotExpiry slot => Sys2Proof.Machine.execSlotExpiry slot s
  | .publicationTimerExpiry => Sys2Proof.Machine.execPublicationTimerExpiry s
  | .freshnessExpiry site number => Sys2Proof.Machine.execFreshnessExpiry site number s
  | .pulseEnd output => Sys2Proof.Machine.execPulseEnd output s
  | .refreshDeadlineExpiry id => Sys2Proof.Machine.execRefreshDeadlineExpiry id s
  | .copyDeadlineExpiry id => Sys2Proof.Machine.execCopyDeadlineExpiry id s
  | .reportWaitExpiry context => Sys2Proof.Machine.execReportWaitExpiry context s
  | .executionDeadlineExpiry context => Sys2Proof.Machine.execExecutionDeadlineExpiry context s
  | .retryTimerExpiry id terminal => Sys2Proof.Machine.execRetryTimerExpiry id terminal s
  | .portTestExpiry => Sys2Proof.Machine.execPortTestExpiry s
  | .startTimerExpiry port => Sys2Proof.Machine.execStartTimerExpiry port s
  | .windowEnd port unfinished => Sys2Proof.Machine.execWindowEnd port unfinished s
  | .idleDue port => Sys2Proof.Machine.execIdleDue port s
  | .transmissionEnd port => Sys2Proof.Machine.execTransmissionEnd port s
  | .frameFault port line => Sys2Proof.Machine.execFrameFault port line s
  | .relayedFrame port destination source kind hop body => Sys2Proof.Machine.execRelayedFrame port destination source kind hop body s
  | .start port source flags => Sys2Proof.Machine.execStart port source flags s
  | .idle port source => Sys2Proof.Machine.execIdle port source s
  | .contingency port source body => Sys2Proof.Machine.execContingency port source body s
  | .firedReport port source body => Sys2Proof.Machine.execFiredReport port source body s
  | .tripOrder port source body => Sys2Proof.Machine.execTripOrder port source body s
  | .orderAck port source body => Sys2Proof.Machine.execOrderAck port source body s
  | .update port source body => Sys2Proof.Machine.execUpdate port source body s
  | .updateReply port source body => Sys2Proof.Machine.execUpdateReply port source body s
  | .refreshFrame port source body => Sys2Proof.Machine.execRefreshFrame port source body s
  | .refreshAck port source body => Sys2Proof.Machine.execRefreshAck port source body s
  | .retireFrame port source body => Sys2Proof.Machine.execRetireFrame port source body s
  | .retireAck port source body => Sys2Proof.Machine.execRetireAck port source body s
  | .disown port source body => Sys2Proof.Machine.execDisown port source body s
  | .quantityFrame port source body => Sys2Proof.Machine.execQuantityFrame port source body s
  | .actionStatus port source body => Sys2Proof.Machine.execActionStatus port source body s
  | .echo port source body => Sys2Proof.Machine.execEcho port source body s
  | .echoReply port source body => Sys2Proof.Machine.execEchoReply port source body s
  | .commandFrameRefused => Sys2Proof.Machine.execCommandFrameRefused s

end Sys2Proof.Machine
end

