-- ==== Sys2Proof/Safety.lean ====
section
/-! DEFINITION. The terms in which claims speak of the part: its shape, its ranges, what MAINTENANCE keeps still, a part
at rest between events, answers to commands, and what a command leaves as it stood. -/

namespace Sys2Proof.Machine

/-! ### The shape of the part -/

/-- The numbers of units the manual gives: 64 scheme slots (R1), 32 quantity slots (R34), 16 outputs (R63), 16 inputs
(R99), 8 contexts (R119), 4 ports (R164), 14 route entries (R173), 10 event flags (R195), 4 link rates (R204). -/
structure State.Shaped (s : State) : Prop where
  schemes : s.schemes.length = 64
  slots : s.slots.length = 32
  outputs : s.outputs.length = 16
  inputs : s.inputs.length = 16
  contexts : s.contexts.length = 8
  ports : s.ports.length = 4
  routes : s.routes.length = 14
  events : s.events.length = 10
  rates : s.settings.rates.length = 4

/-- No transmit queue holds more than its capacity (R171). -/
def State.QueuesFit (s : State) : Prop := ∀ p ∈ s.ports, p.urgent.length ≤ 16 ∧ p.routine.length ≤ 32

/-- Every slot's value lies in -60000..60000 tenths (R34, R37). -/
def State.ValuesInRange (s : State) : Prop := ∀ q ∈ s.slots, -60000 ≤ q.value ∧ q.value ≤ 60000

/-- In MAINTENANCE no trip output is energized and no record or copy is ARMED or FIRED (R209). -/
def State.MaintenanceStill (s : State) : Prop :=
  s.mode = .maintenance → (∀ o ∈ s.outputs, o.pulse = none) ∧ (∀ sc ∈ s.held, sc.life ≠ .armed ∧ sc.life ≠ .fired)

/-- In CONFIG the tables are empty and every port is CLOSED (R204, R206). -/
def State.ConfigBare (s : State) : Prop := s.mode = .config → s.bare = true

/-- No two occupied slots hold the same scheme id (R1). -/
def State.IdsUnique (s : State) : Prop := (s.held.map Scheme.id).Nodup

/-- What holds of every home record's selection between events: it is a sub-list of the action list within the cap, every
action of it is IN SERVICE with a value above 0 (R84), and SHORTFALL shows whether its sum falls short (R85). -/
def State.SelectionsCurrent (s : State) : Prop :=
  ∀ sc ∈ s.held, ∀ h, sc.part = .home h →
    sc.selection.Sublist sc.actions ∧ sc.selection.length ≤ h.cap ∧
    (∀ r ∈ sc.selection, (s.selectable r).isSome = true) ∧ h.shortfall = decide (h.sum < h.requirement)

/-- A home record is ARMED only with its arming result set, and never STALE under posture DISARM (R75, R111). -/
def State.ArmedCalledFor (s : State) : Prop :=
  ∀ sc ∈ s.held, ∀ h, sc.part = .home h → sc.life = .armed →
    h.armingResult = true ∧ ¬ (sc.stale = true ∧ sc.posture = .disarm)

/-! ### At rest between events -/

/-- A record's round and copy state are current: an update round has a participant engaged (R145), a retire round one
BEHIND (R157), and UNSETTLED shows the copy state (R140). -/
def Scheme.roundCurrent (sc : Scheme) : Prop :=
  match sc.part with
  | .home h =>
    (h.round = .update → h.statuses.any Participant.engaged = true) ∧
    (sc.life = .retiring → h.round = .retire → h.statuses.any (fun p => p.status == .behind) = true) ∧
    h.unsettled = (h.copyState == .unsettled)
  | .copy _ => True

/-- A context is current: an OPEN one has a site that is not REPORTED, CONFIRMED or UNDELIVERED (R131). -/
def Context.current (c : Context) : Prop := ∀ x, c.openData = some x → x.sites.all SiteEntry.settled = false

/-- The part is at rest: nothing that an event does at its end is left to do. Rounds and contexts are current, a release
marker is set only where the set is satisfied (R112), and at a home record fired by a report there always (R123, log entry
45), and the remote trigger table holds what the scheme table names (R105). -/
structure State.AtRest (s : State) : Prop where
  rounds : ∀ sc ∈ s.held, sc.roundCurrent
  contexts : ∀ c ∈ s.contexts, c.current
  markers : ∀ sc ∈ s.held, sc.releaseNeeded = true → s.satisfied sc.trigger = true
  firedMarkers : ∀ sc ∈ s.held, s.firedByReport sc = true → s.satisfied sc.trigger = true → sc.releaseNeeded = true
  remote : s.syncRemote = s

/-! ### What an event does at its end -/

/-- A port without its transmit queues and transmitter, and without the aborts its own receiver is still to be given: what
the handing over of frames does not change (R171, R172). -/
def Port.fixed (p : Port) : Port :=
  { p with urgent := [], routine := [], tx := .quiet, looped := p.looped.filter (fun f => f != .aborted) }

/-- A record or copy without its release marker. -/
def Scheme.unmarked (sc : Scheme) : Scheme := { sc with releaseNeeded := false }

/-- An action's availability and effective value, where it has an entry. -/
def State.shown (s : State) (r : ActionRef) : Option (Avail × Nat) :=
  (s.findAction r).map (fun a => (s.availability a, s.effective a))

/-- The home record of a scheme id that a slot holds. -/
def State.homeIn (s : State) (i id : Nat) : Option Scheme :=
  (s.schemeAt i).filter (fun sc => sc.isHome && sc.id == id)

/-- The record or copy in a slot with the id, home and role of another. -/
def State.sameIn (s : State) (i : Nat) (sc : Scheme) : Option Scheme :=
  (s.schemeAt i).filter (fun sc0 => sc0.id == sc.id && sc0.home == sc.home && sc0.isHome == sc.isHome)

/-- What a command asks of the rest of its event: slots to evaluate (R69), quantity slots handed on (R40), slots whose
generation bumps in any case (R27), slots for which a round is wanted without a bump (R141), slots whose marker is set
where the set is satisfied (R112), slots whose refresh is forwarded (R151), frames handed to the Link Controller
(R175). -/
structure Work where
  evals : List Nat := []
  quantities : List Nat := []
  bumps : List Nat := []
  wants : List Nat := []
  marks : List Nat := []
  refreshed : List Nat := []
  out : List Queued := []

/-- Whether the event evaluates a home record: asked for, its monitored slot handed on, or an action of its list whose
availability or effective value differs between the start `s` and the state `u` (R69). -/
def evaluates (s u : State) (w : Work) (i : Nat) (sc : Scheme) (h : HomePart) : Prop :=
  i ∈ w.evals ∨ (∃ q ∈ w.quantities, h.form.monitored = some q) ∨
    ∃ r ∈ sc.actions, (u.findAction r).isSome = true ∧ s.shown r ≠ u.shown r

/-- Whether the event bumps a record's generation: it was there at the start, and a bump is asked for or a carried field
differs (R27). -/
def bumps (s : State) (w : Work) (i : Nat) (sc : Scheme) : Bool :=
  sc.isHome && (s.homeIn i sc.id).any (fun sc0 => w.bumps.contains i || carriedDiffer sc0 sc)

/-- Whether a round that starts sends to a participant: one BEHIND, and after a bump also one CURRENT, REJECTED or LOST
(R141, R142). -/
def Participant.dueIn (bumped : Bool) (p : Participant) : Bool := p.status == .behind || (bumped && p.status != .held)

/-- The participants, round and dirty marker of a record after a bump, or after a round is wanted, or neither: a round
starts where none is in flight; otherwise the record is dirty, its CURRENT participants BEHIND after a bump
(R141, R142). -/
def HomePart.inRound (h : HomePart) (u : State) (bumped wanted retiring : Bool) : HomePart :=
  if retiring || !(bumped || wanted) then h
  else if h.round == .none then
    { h with
      statuses := h.statuses.map (fun p => if p.dueIn bumped then u.sentTo p.waiting else p), dirty := false,
      round := .update }
  else
    { h with
      statuses := if bumped then h.statuses.map (fun p => if p.status == .current then p.waiting else p) else h.statuses,
      dirty := true }

/-- Whether an update round has no participant engaged, and so ends (R145). -/
def HomePart.ending (h : HomePart) : Bool := h.round == .update && !h.statuses.any Participant.engaged

/-- Whether a participant is sent to by the round that a dirty record starts at once (R142, R145). -/
def Participant.dueAgain (p : Participant) : Bool :=
  p.status == .behind || p.status == .rejected || p.status == .lost

/-- The end of an update round, where it has no participant engaged: for a dirty record another round (R145). -/
def HomePart.endRound (h : HomePart) (u : State) : HomePart :=
  if h.ending then
    if h.dirty then
      { h with
        statuses := h.statuses.map (fun p => if p.dueAgain then u.sentTo p.waiting else p), dirty := false,
        round := .update }
    else { h with round := .none }
  else h

/-- The rounds of a record at the end of an event: one started or marked for, and the ends of rounds; a second end, for a
round that found every participant unreachable (R142, R145). -/
def HomePart.rounds (h : HomePart) (u : State) (bumped wanted retiring : Bool) : HomePart :=
  ((h.inRound u bumped wanted retiring).endRound u).endRound u

/-- The UNSETTLED flag derived again (R140). -/
def HomePart.flagged (h : HomePart) : HomePart := { h with unsettled := h.copyState == .unsettled }

/-- A home record after the generation and round stages of an event that bumps it or not, and wants a round for it or
not. -/
def Scheme.replicated (sc : Scheme) (u : State) (bumped wanted : Bool) : Scheme :=
  match sc.part with
  | .home h =>
    { sc with
      generation := if bumped then nextGeneration sc.generation else sc.generation,
      part := .home (h.rounds u bumped wanted (sc.life == .retiring)).flagged }
  | .copy _ => sc

/-- Whether a record or copy comes to be eligible in an event from `s` to `t`, or is so with another trigger set
(R112). -/
def becomesEligible (s t : State) (i : Nat) (sc : Scheme) : Prop :=
  t.eligible sc = true ∧
    ∀ sc0, s.sameIn i sc = some sc0 → s.eligible sc0 = false ∨ sc0.trigger ≠ sc.trigger

/-- A flag after it was raised for the items of a list in turn (R196). -/
def EventFlag.after (f : EventFlag) (items : List Nat) : EventFlag := { f with item := items.getLast?.or f.item }

/-- The scheme ids of the slots whose life state differs, in slot order. -/
def lifeChanges (u t : State) : List Nat :=
  t.schemeSlots.filterMap (fun i =>
    match u.schemeAt i, t.schemeAt i with
    | some a, some b => if b.life = a.life then none else some b.id
    | _, _ => none)

/-- Whether a slot held the home record of a scheme id with SHORTFALL set. -/
def State.shortIn (s : State) (i id : Nat) : Bool :=
  match s.homeIn i id with
  | some sc =>
    match sc.part with
    | .home h => h.shortfall
    | .copy _ => false
  | none => false

/-- The scheme ids of the home records whose SHORTFALL is not as it was at the start, in slot order. -/
def shortChanges (s t : State) : List Nat :=
  t.schemeSlots.filterMap (fun i =>
    match t.schemeAt i with
    | some sc => if sc.isHome = true ∧ t.shortIn i sc.id ≠ s.shortIn i sc.id then some sc.id else none
    | none => none)

/-- The scheme ids of the home records that are UNSETTLED and were not at the start, in slot order. -/
def newlyUnsettled (s t : State) : List Nat :=
  t.schemeSlots.filterMap (fun i =>
    match t.schemeAt i with
    | some sc =>
      if t.copyStateOf i sc.id = some .unsettled ∧ s.copyStateOf i sc.id ≠ some .unsettled then some sc.id else none
    | none => none)

/-- The UPDATE frame of a record for a participant (R142). -/
def State.updateFrame (s : State) (sc : Scheme) (p : Participant) : Queued :=
  s.originate .update p.terminal (updateBody sc p.owesClose) .block

/-- The UPDATE frames of the round that starts for a record after a bump or a wanted round, in ascending order of
participants (R142). -/
def State.startFrames (s : State) (sc : Scheme) (h : HomePart) (bumped wanted : Bool) : List Queued :=
  if h.round = .none ∧ sc.life ≠ .retiring ∧ (bumped = true ∨ wanted = true) then
    (h.statuses.filter (fun p => p.dueIn bumped && s.reachable p.terminal)).map (s.updateFrame sc)
  else []

/-- The UPDATE frames of the round that a dirty record starts as one ends (R142, R145). -/
def State.againFrames (s : State) (sc : Scheme) (h : HomePart) : List Queued :=
  if h.ending = true ∧ h.dirty = true then
    (h.statuses.filter (fun p => p.dueAgain && s.reachable p.terminal)).map (s.updateFrame sc)
  else []

/-- The UPDATE frames of the rounds an event starts, slot by slot; `u` is the state the event's own part left, `t` its end
(R142, R145). -/
def roundFrames (s u t : State) (w : Work) : List Queued :=
  t.schemeSlots.flatMap (fun i =>
    match u.schemeAt i, t.schemeAt i with
    | some sc0, some sc =>
      match sc0.part with
      | .home h =>
        u.startFrames sc h (bumps s w i sc) (decide (i ∈ w.wants)) ++
          u.againFrames sc (h.inRound u (bumps s w i sc) (decide (i ∈ w.wants)) (sc.life == .retiring))
      | .copy _ => []
    | _, _ => [])

/-- The pairs of scheme id and generation due to a participant from some slots, in slot order (R151). -/
def State.pairsTo (t : State) (slots : List Nat) (d : Nat) : List (Nat × Nat) :=
  t.schemeSlots.filterMap (fun i =>
    match t.schemeAt i with
    | some sc => if i ∈ slots ∧ d ∈ sc.participants then some (sc.id, sc.generation) else none
    | none => none)

/-- The REFRESH frames that forward the refresh of some slots: to each participant, ascending, one pair for each record
naming it, in slot order, up to 16 a frame (R151). -/
def refreshFrames (u t : State) (slots : List Nat) : List Queued :=
  terminals.flatMap (fun d =>
    (chunks 16 (t.pairsTo slots d)).map (fun l => u.originate .refresh d (refreshBody l) .block))

/-- The LOCAL actions that change publication sends to a home: those it is a publish home of at the end whose
availability or effective value differs, or whose list it newly joined (R61). -/
def changedFor (s u t : State) (d : Nat) : List ActionEntry :=
  u.actions.filter (fun a => a.isLocal && (t.publishHomes a.ref.number).contains d &&
    (decide (s.shown a.ref ≠ u.shown a.ref) || !(s.publishHomes a.ref.number).contains d))

/-- The ACTION STATUS frames of change publication: to each home, ascending, up to 12 entries a frame (R61). -/
def statusFrames (s u t : State) : List Queued :=
  terminals.flatMap (fun d =>
    (chunks 12 ((changedFor s u t d).filterMap u.statusEntry)).map (fun l =>
      u.originate .actionStatus d (actionStatusBody l) .block))

/-- The frames handed over in an event as they are routed: in ascending order of their kind codes, those of one kind in
the order handed (R175). -/
def byKind (l : List Queued) : List Queued :=
  (firstKinds ++ otherKinds).flatMap (fun k => l.filter (fun q => q.frame.kind == k))

/-- The end `t` of an event that began in `s`, where `u` is what its own part left, with the firings, completions and
resynchronisation that it brings about: evaluations, one bump for each record that needs it, rounds, release markers,
flags and frames; no retirement ends, and nothing else changes. -/
structure Evaluated (s u t : State) (w : Work) : Prop where
  /-- Only the scheme table, the ports and the event flags change further. -/
  rest : t = { u with schemes := t.schemes, ports := t.ports, events := t.events }
  /-- The table keeps its slots. -/
  size : t.schemes.length = u.schemes.length
  /-- A slot that holds no home record stands as it did but for its release marker. -/
  others : ∀ i, (∀ sc, u.schemeAt i = some sc → sc.isHome = false) →
    (t.schemeAt i).map Scheme.unmarked = (u.schemeAt i).map Scheme.unmarked
  /-- A home record that the event did not touch stands as it did but for its release marker. -/
  kept : ∀ i sc h, u.schemeAt i = some sc → sc.part = .home h → s.schemeAt i = some sc → i ∉ w.bumps → i ∉ w.wants →
    ¬ evaluates s u w i sc h → (t.schemeAt i).map Scheme.unmarked = some sc.unmarked
  /-- A home record that is not evaluated has its generation and round kept current. -/
  touched : ∀ i sc h, u.schemeAt i = some sc → sc.part = .home h → ¬ evaluates s u w i sc h →
    (t.schemeAt i).map Scheme.unmarked =
      some (sc.replicated u (bumps s w i sc) (decide (i ∈ w.wants))).unmarked
  /-- An evaluated record is as its evaluation leaves it (R68), its generation and round kept current. -/
  evaluated : ∀ i sc h, u.schemeAt i = some sc → sc.part = .home h → evaluates s u w i sc h →
    (t.schemeAt i).map Scheme.unmarked =
      some ((u.evaluate sc h).replicated u (bumps s w i (u.evaluate sc h)) (decide (i ∈ w.wants))).unmarked
  /-- The release marker clears where the set is not satisfied, and is set as R112 and R123 say (log entry 45). -/
  markers : ∀ i sc sc', u.schemeAt i = some sc → t.schemeAt i = some sc' →
    (sc'.releaseNeeded = true ↔
      t.satisfied sc'.trigger = true ∧ (sc.releaseNeeded = true ∨ i ∈ w.marks ∨
        t.firedByReport sc' = true ∨ becomesEligible s t i sc'))
  /-- The ports change only by the routing of frames, by ascending kind code (R175): those handed over, the UPDATE frames
  of rounds that start, REFRESH forwarding, and change publication. -/
  frames : t.ports = ((byKind (w.out ++ roundFrames s u t w ++ refreshFrames u t w.refreshed ++
    statusFrames s u t)).foldl State.dispatchFrame u).ports
  /-- ARMING CHANGE names the last record whose life state the event's evaluations changed (R75). -/
  arming : t.events[eventPlace .armingChange]? =
    (u.events[eventPlace .armingChange]?).map (fun f => f.after (lifeChanges u t))
  /-- SHORTFALL names the last record whose flag the event changed (R85). -/
  shortfall : t.events[eventPlace .shortfall]? =
    (u.events[eventPlace .shortfall]?).map (fun f => f.after (shortChanges s t))
  /-- UNSETTLED names the last record that the event left UNSETTLED and did not find so (R140). -/
  unsettled : t.events[eventPlace .unsettled]? =
    (u.events[eventPlace .unsettled]?).map (fun f => f.after (newlyUnsettled s t))
  /-- Every other flag stands as it did. -/
  events : ∀ ev, ev ≠ .armingChange → ev ≠ .shortfall → ev ≠ .unsettled →
    t.events[eventPlace ev]? = u.events[eventPlace ev]?

/-! ### Commands that complete -/

/-- A command completes: its event, begun in `s`, ends as `Evaluated` says, `u` being what its own part left. -/
def Happens (i : Instr) (s u : State) (w : Work) : Prop := ∃ t, exec i s = .next t ∧ Evaluated s u t w

/-- A station command completes: its event ends as `Evaluated` says, and the response DONE is held (R190). -/
def Answers (i : Instr) (s u : State) (w : Work) (adjusted : Bool) (body : State → List Byte) : Prop :=
  ∃ t, exec i s = .next (t.respond .done adjusted (body t)) ∧ Evaluated s u t w

/-- A command completes: its event ends as `Evaluated` says, and where it is a station command it is answered DONE. -/
def Ends (i : Instr) (s u : State) (w : Work) (reply : Option (Bool × (State → List Byte))) : Prop :=
  match reply with
  | none => Happens i s u w
  | some (adjusted, body) => Answers i s u w adjusted body

/-- Whether `t` keeps what the events of ports and contexts never change: mode, settings, slots, inputs, remote triggers,
test, publication, buffer and the rest. -/
structure Keeps (s t : State) : Prop where
  mode : t.mode = s.mode
  settings : t.settings = s.settings
  slots : t.slots = s.slots
  actions : t.actions = s.actions
  outputs : t.outputs = s.outputs
  inputs : t.inputs = s.inputs
  buffer : t.buffer = s.buffer
  publication : t.publication = s.publication
  firings : t.firings = s.firings

/-- The modes in which a station command is taken (R194); none for what is no station command. -/
def stationModes : Instr → Option (List Mode)
  | .recordLoad _ => some [.run, .maintenance]
  | .recordTune _ _ _ _ _ _ _ => some [.run, .maintenance]
  | .arm _ => some [.run, .maintenance]
  | .disarm _ => some [.run, .maintenance]
  | .block _ => some [.run, .maintenance]
  | .unblock _ => some [.run, .maintenance]
  | .resetSpent _ => some [.run, .maintenance]
  | .retire _ => some [.run, .maintenance]
  | .refresh _ => some [.run, .maintenance]
  | .refreshGroup _ => some [.run, .maintenance]
  | .dropCopy _ => some [.run, .maintenance]
  | .recordRead _ => some [.run, .maintenance]
  | .recordList => some [.run, .maintenance]
  | .recordFindByAction _ _ => some [.run, .maintenance]
  | .recordFindByTrigger _ _ => some [.run, .maintenance]
  | .quantitySource _ _ _ _ _ _ => some [.run, .maintenance]
  | .quantityPost _ => some [.run, .maintenance]
  | .quantityInvalidate _ => some [.run, .maintenance]
  | .quantityRead _ => some [.config, .run, .maintenance]
  | .actionLoad _ _ _ _ _ _ _ => some [.run, .maintenance]
  | .actionBlock _ _ => some [.run, .maintenance]
  | .actionRestore _ _ => some [.run, .maintenance]
  | .actionRemove _ _ => some [.run, .maintenance]
  | .actionRead _ _ => some [.config, .run, .maintenance]
  | .outputRead => some [.config, .run, .maintenance]
  | .inputConfigure _ _ _ _ => some [.config, .run, .maintenance]
  | .inputRead _ => some [.config, .run, .maintenance]
  | .remoteTriggerRead => some [.config, .run, .maintenance]
  | .executionRead _ _ => some [.config, .run, .maintenance]
  | .portOpen _ => some [.run]
  | .portClose _ => some [.config, .run, .maintenance]
  | .portRead _ => some [.config, .run, .maintenance]
  | .routeWrite _ _ _ => some [.config, .run, .maintenance]
  | .routeRead => some [.config, .run, .maintenance]
  | .portTest _ => some [.run, .maintenance]
  | .portLoopback _ => some [.maintenance]
  | .eventRead => some [.config, .run, .maintenance]
  | .eventEnable _ => some [.config, .run, .maintenance]
  | .eventClear _ => some [.config, .run, .maintenance]
  | .settingsWrite _ => some [.config]
  | .settingsComplete => some [.config]
  | .settingsRead => some [.config, .run, .maintenance]
  | .reconfigure => some [.run]
  | .tableClear => some [.run]
  | .maintenanceEnter => some [.run]
  | .maintenanceExit => some [.maintenance]
  | .testFire _ => some [.maintenance]
  | _ => none

/-- A station command's body as the frame tests let it through: SETTINGS WRITE only with value lengths of R214. -/
def bodyStands : Instr → Bool
  | .settingsWrite items => items.all settingLengthOk
  | _ => true

/-- A port takes a valid frame from a source (R163, R166), `v` being the state in which it is taken, and no terminal's
reachability changes with its port's state. -/
structure Received (s : State) (p source : Nat) (body : List Byte) (v : State) : Prop where
  port : p < 4
  sender : 1 ≤ source ∧ source ≤ 14
  length : body.length ≤ 56
  admitted : s.admitFrame p source = some v
  reach : ∀ d, v.reachable d = s.reachable d

/-- Nothing fires on a reference: whatever names it with its set satisfied, and is eligible, has its marker set
(R113). -/
def State.heldBack (u : State) (r : TrigRef) : Prop :=
  ∀ sc ∈ u.held, r ∈ sc.trigger.refs → u.satisfied sc.trigger = true → u.eligible sc = true → sc.releaseNeeded = true

/-- An input's ASSERTED state as it begins now (R100, R103). -/
def State.assertedNow (s : State) : InputState := .asserted s.quarters none (s.now + msTicks s.settings.noticeRepeat)

/-- The state of an input after its level changed, and the notice that goes out: ASSERTED (`true`), RELEASED (`false`)
or none (R100, R103, R104). -/
def Input.levelled (x : Input) (s : State) (active : Bool) : InputState × Option Bool :=
  if x.enable = false then (x.state, none)
  else
    match x.state, active with
    | .released, true =>
      if x.qualify = 0 then (s.assertedNow, some true) else (.qualifying (s.now + quarterTicks x.qualify), none)
    | .qualifying _, false => (.released, none)
    | .asserted t none rep, false =>
      if x.dropout = 0 then (.released, some false)
      else (.asserted t (some (s.now + msTicks x.dropout)) rep, none)
    | .asserted t (some _) rep, true => (.asserted t none rep, none)
    | st, _ => (st, none)

/-- The state of an input after its configuration, and the notice that goes out (R101). -/
def Input.afterConfigure (x : Input) (s : State) (enable : Bool) (qualify dropout : Nat) : InputState × Option Bool :=
  match x.state with
  | .released =>
    if enable = true ∧ x.enable = false ∧ x.level = true then
      if qualify = 0 then (s.assertedNow, some true) else (.qualifying (s.now + quarterTicks qualify), none)
    else (.released, none)
  | .qualifying due =>
    if enable = false then (.released, none)
    else if qualify = x.qualify then (.qualifying due, none)
    else if due + quarterTicks qualify ≤ s.now + quarterTicks x.qualify then (s.assertedNow, some true)
    else (.qualifying (due + quarterTicks qualify - quarterTicks x.qualify), none)
  | .asserted t drop rep =>
    if enable = false then (.released, some false)
    else
      match drop with
      | none => (.asserted t none rep, none)
      | some due =>
        if dropout = x.dropout then (.asserted t (some due) rep, none)
        else if due + msTicks dropout ≤ s.now + msTicks x.dropout then (.released, some false)
        else (.asserted t (some (due + msTicks dropout - msTicks x.dropout)) rep, none)

/-- A command by which an input comes to be ASSERTED: the expiry of its qualify timer, a level change where its qualify
time is 0, or INPUT CONFIGURE (R100, R101); `u` is the state that this leaves, `reply` the answer of a station command. -/
def Asserts (s : State) (cmd : Instr) (input : Nat) (u : State) (reply : Option (Bool × (State → List Byte))) : Prop :=
  input ≤ 15 ∧
    ((∃ due, (s.inputAt input).state = .qualifying due ∧ due ≤ s.now ∧ cmd = .qualifyTimerExpiry input ∧
        u = s.modInput input (fun x => { x with state := s.assertedNow }) ∧ reply = none) ∨
      (∃ active, (s.inputAt input).level ≠ active ∧ ((s.inputAt input).levelled s active).2 = some true ∧
        cmd = .inputLevelChange input active ∧
        u = s.modInput input (fun x => { x with level := active, state := s.assertedNow }) ∧ reply = none) ∨
      ∃ enable qualifyUs dropoutUs,
        (let q := (min 10000 qualifyUs + 249) / 250
         let d := (min 100000 dropoutUs + 999) / 1000
         ((s.inputAt input).afterConfigure s (decide (enable ≠ 0)) q d).2 = some true ∧
         cmd = .inputConfigure input enable qualifyUs dropoutUs ∧
         u = s.modInput input (fun x => { x with
           enable := decide (enable ≠ 0), qualify := q, dropout := d, state := s.assertedNow }) ∧
         reply = some (decide (q * 250 ≠ qualifyUs ∨ d * 1000 ≠ dropoutUs), fun t => t.qualifierBytes input)))

/-- The CONTINGENCY notices of an input to its notice list (R102 to R104). -/
def State.notices (s : State) (i : Nat) : Option Bool → List Queued
  | none => []
  | some b => (s.noticeList i).map (fun t => s.originate .contingency t (contingencyBody i b) .block)

/-- A DISOWN naming a scheme id (R158). -/
def State.disownFrame (s : State) (t id : Nat) : Queued := s.originate .disown t (u8 id) .block

/-- A frame from the urgent queue of a port that has left UP: routed again, or returned NOT SENT where it was originated
here, or discarded (R169, step 3). -/
def State.rerouted (s : State) (q : Queued) : State :=
  match s.route q with
  | some t => t
  | none => if q.origin.originated then s.notSent q else s

/-- A port has left UP, `y` being the port as it then stands: its urgent frames are routed again or returned, in queue
order, and its routine frames returned where originated here (R169, steps 3 and 4). -/
def State.leftUp (s : State) (p : Nat) (y : Port) (raised : Bool) : State :=
  let x := s.portAt p
  (x.routine.filter (fun q => q.origin.originated)).foldl State.notSent
    (x.urgent.foldl State.rerouted (({ s with ports := s.ports.set p y }).raiseIf raised .portHealth p))

/-- Resynchronisation with the terminals that `s` reached and `u` does not: each engaged participant there is LOST
(R154). -/
def State.cutOff (s u : State) : State :=
  { u with schemes := u.schemes.map (Option.map (fun sc =>
      match sc.part with
      | .home h => sc.withHome { h with statuses := h.statuses.map (fun p =>
          if p.terminal ∈ terminals ∧ s.reachable p.terminal = true ∧ u.reachable p.terminal = false ∧ p.engaged = true then
            { p with status := .lost, retry := none, reason := none }
          else p) }
      | .copy _ => sc)) }

/-- Every retire round in flight still has a participant BEHIND, so that no retirement ends (R157). -/
def State.retirementsRun (s : State) : Prop :=
  ∀ sc ∈ s.held, ∀ h, sc.part = .home h → sc.life = .retiring → h.round = .retire →
    h.statuses.any (fun p => p.status == .behind) = true

/-- A port takes a valid frame from a source (R163, R166), whether or not reachability changes as it enters UP. -/
def Admitted (s : State) (p source : Nat) (body : List Byte) (v : State) : Prop :=
  p < 4 ∧ 1 ≤ source ∧ source ≤ 14 ∧ body.length ≤ 56 ∧ s.admitFrame p source = some v

/-- Whether a record's participant at a terminal is LOST where the event from `s` to `u` has made the terminal reachable
(R154). -/
def HomePart.regains (h : HomePart) (s u : State) (d : Nat) : Bool :=
  decide (d ∈ terminals) && !s.reachable d && u.reachable d && decide ((h.part d).map Participant.status = some .lost)

/-- Resynchronisation with the terminals that `u` reaches and `s` did not: a participant that was LOST there is BEHIND, and
in a retire round it is sent RETIRE again (R154). -/
def State.rejoined (s u : State) : State :=
  { u with schemes := u.schemes.map (Option.map (fun sc =>
      match sc.part with
      | .home h => sc.withHome { h with statuses := h.statuses.map (fun p =>
          if h.regains s u p.terminal = false then p
          else if sc.life ≠ .retiring then { p with status := .behind, tries := 0, retry := none, reason := none }
          else if h.round = .retire then { p with
            status := .behind, tries := 1, retry := some (u.now + msTicks u.settings.retryInterval), reason := none }
          else p) }
      | .copy _ => sc)) }

/-- What that resynchronisation asks of the rest of the event, beside a command's own work: a round for each record not in
RETIRING that regains a participant, and the RETIRE frames sent again, record by record, by ascending terminal (R154). -/
def Work.rejoining (w : Work) (s u : State) : Work :=
  { w with
    wants := w.wants ++ u.schemeSlots.filter (fun i => (u.schemeAt i).any (fun sc =>
      match sc.part with
      | .home h => sc.life != .retiring && terminals.any (h.regains s u)
      | .copy _ => false)),
    out := w.out ++ (u.schemeSlots.filterMap u.schemeAt).flatMap (fun sc =>
      match sc.part with
      | .home h =>
        if sc.life = .retiring ∧ h.round = .retire then
          (terminals.filter (h.regains s u)).flatMap (fun d =>
            (h.statuses.filter (fun p => p.terminal == d)).map (fun p =>
              s.originate .retire p.terminal (u8 sc.id) .block))
        else []
      | .copy _ => []) }

/-- A frame event ends as `Evaluated` says, `u` being what its own part left, after resynchronisation with the terminals
that its port's entry into UP has made reachable (R154, R167). -/
def HappensUp (i : Instr) (s u : State) (w : Work) : Prop := Happens i s (s.rejoined u) (w.rejoining s u)

/-! ### Contexts that complete -/

/-- A home record after the completion of its execution: a pending lapse applied, SPENT or DORMANT, its last outcome put,
every participant owing a close (R77, R132). -/
def Scheme.executed (sc : Scheme) (h : HomePart) (o : LastOutcome) : Scheme :=
  let lapsed := decide (sc.deadline = .pending)
  let h1 := { h with outcome := o, statuses := h.statuses.map (fun p => { p with owesClose := true }) }
  { sc with
    stale := sc.stale || lapsed, life := if sc.autoDisarm then .spent else .dormant,
    deadline := if lapsed || sc.autoDisarm then .stopped else sc.deadline,
    part := .home (if sc.autoDisarm then { h1 with
        form := h.form.withFlag false,
        armingResult := if h.form.directed then h.armingResult else false } else h1) }

/-- The FIRED home record that an OPEN context belongs to, with its slot (R119). -/
def State.recordOf (s : State) (x : Execution) : Option (Nat × Scheme × HomePart) :=
  if x.test then none else (s.findHome x.schemeId).filter (fun r => r.2.1.life == .fired)

/-- The state after an OPEN context has completed: its actions without a result MISSING, its outcome worked, EXECUTION DONE
raised, and its record out of FIRED (R132); of a test context no record is touched (R136). -/
def State.concluded (s : State) (c : Nat) : State :=
  match s.contextAt c with
  | .opened x _ _ =>
    let x1 := { x with sites := x.sites.map (fun en =>
      { en with actions := en.actions.map (fun a => (a.1, some (a.2.getD .missing))) }) }
    let done := s.setContext c (.complete x1 s.now x1.outcome)
    match s.recordOf x with
    | some (i, sc, h) =>
      ((done.putScheme i (some (sc.executed h x1.outcome.last))).raiseIf (decide (sc.deadline = .pending)) .lapse
        sc.id).raise .executionDone sc.id
    | none => if x.test then done.raise .executionDone x.schemeId else done
  | _ => s

/-- What the completion of a context asks of the rest of its event, beside a command's own work: its record is evaluated,
its generation bumps, its marker is set where the set is satisfied (R112, R132). -/
def Work.concluding (w : Work) (s : State) (c : Nat) : Work :=
  match s.contextAt c with
  | .opened x _ _ =>
    match s.recordOf x with
    | some (i, _, _) => { w with evals := i :: w.evals, bumps := i :: w.bumps, marks := i :: w.marks }
    | none => w
  | _ => w

/-- Only this context has no site left to wait for: it is OPEN, and completes in the event, and no other does (R131). -/
def State.concludes (s : State) (c : Nat) : Prop :=
  ¬ (s.contextAt c).current ∧ ∀ c', c' ≠ c → (s.contextAt c').current

/-- A TRIP ORDER of an execution for a site (R127). -/
def State.orderFrame (s : State) (x : Execution) (t : Nat) (numbers : List Nat) : Queued :=
  s.originate .tripOrder t (tripOrderBody x.schemeId x.generation x.test numbers)
    (.order x.serial)

end Sys2Proof.Machine
end

