-- ==== Sys2Proof/WellFormed.lean ====
section
/-! DEFINITION. Which commands a sender can form: every operand within the field that carries it (R212 to R215), every
unit number one that exists. `exec` is total and does not need it. -/

namespace Sys2Proof

/-- The operand fits one byte. -/
def fits8 (n : Nat) : Bool := decide (n < 256)

/-- The operand fits two bytes. -/
def fits16 (n : Nat) : Bool := decide (n < 65536)

/-- The operand fits four bytes, signed. -/
def fitsSigned32 (v : Int) : Bool := decide (-2147483648 ≤ v ∧ v ≤ 2147483647)

/-- A trigger reference fits its byte. -/
def TrigRef.fits (r : TrigRef) : Bool := decide (r.terminal < 16 ∧ r.input < 16)

/-- An action reference fits its two bytes. -/
def ActionRef.fits (r : ActionRef) : Bool := fits8 r.site && fits8 r.number

/-- The body of RECORD LOAD fits a frame (R215). -/
def LoadBody.fits (b : LoadBody) : Bool :=
  fits8 b.schemeId && fits8 b.source && fits8 b.slot && fitsSigned32 b.onAt && fitsSigned32 b.offAt &&
  fitsSigned32 b.limit && fits16 b.k && fits16 b.m && fits16 b.f && fits8 b.mode && fits16 b.window &&
  fits8 b.refs.length && b.refs.all TrigRef.fits && fits8 b.actions.length && b.actions.all ActionRef.fits &&
  decide (32 + b.refs.length + 2 * b.actions.length ≤ 512) &&
  fits8 b.cap && fits8 b.posture && fits16 b.interval && fits8 b.group && fits8 b.autoDisarm

/-- A frame a port receives as valid: a port that exists, a source in range, a body that fits (R163). -/
def receivable (port source : Nat) (body : List Byte) : Bool :=
  decide (port < 4 ∧ 1 ≤ source ∧ source ≤ 14 ∧ body.length ≤ 56)

/-- Whether a command is well formed. -/
def Instr.wf : Instr → Bool
  | .fullReset => true
  | .commandTransaction _ => true
  | .fetch _ => true
  | .busyTransaction _ => true
  | .recordLoad b => b.fits
  | .recordTune id a o l k m f =>
    fits8 id && fitsSigned32 a && fitsSigned32 o && fitsSigned32 l && fits16 k && fits16 m && fits16 f
  | .arm id => fits8 id
  | .disarm id => fits8 id
  | .block id => fits8 id
  | .unblock id => fits8 id
  | .resetSpent id => fits8 id
  | .retire id => fits8 id
  | .refresh id => fits8 id
  | .refreshGroup g => fits8 g
  | .dropCopy id => fits8 id
  | .recordRead id => fits8 id
  | .recordList => true
  | .recordFindByAction s n => fits8 s && fits8 n
  | .recordFindByTrigger t i => fits8 t && fits8 i
  | .quantitySource a b c d l p => fits8 a && fits8 b && fits8 c && fits8 d && fits16 l && fits8 p
  | .quantityPost l => decide (l.length ≤ 102) && l.all (fun p => fits8 p.1 && fitsSigned32 p.2)
  | .quantityInvalidate l => fits8 l.length && l.all fits8
  | .quantityRead q => fits8 q
  | .actionLoad k s n o v nom p => fits8 k && fits8 s && fits8 n && fits8 o && fits8 v && fits16 nom && fits16 p
  | .actionBlock s n => fits8 s && fits8 n
  | .actionRestore s n => fits8 s && fits8 n
  | .actionRemove s n => fits8 s && fits8 n
  | .actionRead s n => fits8 s && fits8 n
  | .outputRead => true
  | .inputConfigure i e q d => fits8 i && fits8 e && fits16 q && decide (d < 4294967296)
  | .inputRead i => fits8 i
  | .remoteTriggerRead => true
  | .executionRead c k => fits8 c && fits8 k
  | .portOpen p => fits8 p
  | .portClose p => fits8 p
  | .portRead p => fits8 p
  | .routeWrite d p a => fits8 d && fits8 p && fits8 a
  | .routeRead => true
  | .portTest d => fits8 d
  | .portLoopback p => fits8 p
  | .eventRead => true
  | .eventEnable w => fits16 w
  | .eventClear w => fits16 w
  | .settingsWrite l =>
    decide ((l.map (fun i => 2 + i.2.length)).sum ≤ 512) && l.all (fun i => fits8 i.1 && fits8 i.2.length)
  | .settingsComplete => true
  | .settingsRead => true
  | .reconfigure => true
  | .tableClear => true
  | .maintenanceEnter => true
  | .maintenanceExit => true
  | .testFire id => fits8 id
  | .inputLevelChange i _ => decide (i < 16)
  | .qualifyTimerExpiry i => decide (i < 16)
  | .dropoutTimerExpiry i => decide (i < 16)
  | .repeatTimerExpiry i => decide (i < 16)
  | .holdTimerExpiry t i => decide (1 ≤ t ∧ t ≤ 14 ∧ i < 16)
  | .slotExpiry q => decide (q < 32)
  | .publicationTimerExpiry => true
  | .freshnessExpiry s n => decide (1 ≤ s ∧ s ≤ 14 ∧ 1 ≤ n ∧ n ≤ 96)
  | .pulseEnd o => decide (o < 16)
  | .refreshDeadlineExpiry id => decide (1 ≤ id) && fits8 id
  | .copyDeadlineExpiry id => decide (1 ≤ id) && fits8 id
  | .reportWaitExpiry c => decide (c < 8)
  | .executionDeadlineExpiry c => decide (c < 8)
  | .retryTimerExpiry id t => decide (1 ≤ id ∧ 1 ≤ t ∧ t ≤ 14) && fits8 id
  | .portTestExpiry => true
  | .startTimerExpiry p => decide (p < 4)
  | .windowEnd p _ => decide (p < 4)
  | .idleDue p => decide (p < 4)
  | .transmissionEnd p => decide (p < 4)
  | .frameFault p _ => decide (p < 4)
  | .relayedFrame p d s k h b =>
    receivable p s b && decide (1 ≤ d ∧ d ≤ 14 ∧ 1 ≤ h ∧ h ≤ 7) && !Machine.linkKind k
  | .start p s _ => receivable p s []
  | .idle p s => receivable p s []
  | .contingency p s b => receivable p s b
  | .firedReport p s b => receivable p s b
  | .tripOrder p s b => receivable p s b
  | .orderAck p s b => receivable p s b
  | .update p s b => receivable p s b
  | .updateReply p s b => receivable p s b
  | .refreshFrame p s b => receivable p s b
  | .refreshAck p s b => receivable p s b
  | .retireFrame p s b => receivable p s b
  | .retireAck p s b => receivable p s b
  | .disown p s b => receivable p s b
  | .quantityFrame p s b => receivable p s b
  | .actionStatus p s b => receivable p s b
  | .echo p s b => receivable p s b
  | .echoReply p s b => receivable p s b
  | .commandFrameRefused => true

end Sys2Proof
end

