-- ==== Sys2Proof/Certificates/Slice0/Obligations.lean ====
section
/-! DEFINITION. The statements for the provers: the step and its invariants, what the blocks compute, and for every command
what a part at rest holds once the command has completed. -/

section Statements

open Sys2Proof Sys2Proof.Machine

/-! ### The step -/

/-- Taking a command from the front of the queue is running it on the state with the rest of the queue. The model's
choice here: log entry 22. -/
def Obligations.StepTakesFrontCommand : Prop :=
  ∀ (i : Instr) (rest : List Instr) (s : State),
    step { s with pending := i :: rest } = exec i { s with pending := rest }

/-- With no command waiting, one tick passes (the model's choice, log entry 2): the clock goes on by one, the frames of
ports in loopback are taken from their transmitters, and what is then due waits, in order; nothing else changes. The
model's choice here: log entry 21. -/
def Obligations.IdleStepIsOneTick : Prop :=
  ∀ s : State, s.pending = [] → ∃ t, step s = .next t ∧ t.now = s.now + 1 ∧
    t.pending = { s with now := s.now + 1 }.dueEvents ∧
    (∀ p, (t.portAt p).looped = [] ∧ { t.portAt p with looped := (s.portAt p).looped } = s.portAt p) ∧
    t = { s with now := t.now, pending := t.pending, ports := t.ports }

/-- Every well-formed command completes with a next state: it neither faults nor is refused, takes no time of its own,
and leaves the commands that wait behind it as they stood. An event or a frame of a unit the part does not have, which no
sender can form, is a fault (the model's choice, log entry 27). The model's choice here: log entry 33. -/
def Obligations.EveryCommandCompletes : Prop :=
  (∀ (i : Instr) (s : State), i.wf = true →
    ∃ t, exec i s = .next t ∧ t.now = s.now ∧ t.pending = s.pending) ∧
  ∀ s : State,
    (∀ n, 16 ≤ n → (∀ a, exec (.inputLevelChange n a) s = .fault .noSuchUnit) ∧
      exec (.qualifyTimerExpiry n) s = .fault .noSuchUnit ∧ exec (.dropoutTimerExpiry n) s = .fault .noSuchUnit ∧
      exec (.repeatTimerExpiry n) s = .fault .noSuchUnit ∧ exec (.pulseEnd n) s = .fault .noSuchUnit) ∧
    (∀ n, 32 ≤ n → exec (.slotExpiry n) s = .fault .noSuchUnit) ∧
    (∀ n, 8 ≤ n → exec (.reportWaitExpiry n) s = .fault .noSuchUnit ∧
      exec (.executionDeadlineExpiry n) s = .fault .noSuchUnit) ∧
    (∀ n, 4 ≤ n → exec (.startTimerExpiry n) s = .fault .noSuchUnit ∧
      (∀ u, exec (.windowEnd n u) s = .fault .noSuchUnit) ∧ exec (.idleDue n) s = .fault .noSuchUnit ∧
      exec (.transmissionEnd n) s = .fault .noSuchUnit ∧ (∀ l, exec (.frameFault n l) s = .fault .noSuchUnit) ∧
      (∀ d src k h b, exec (.relayedFrame n d src k h b) s = .fault .noSuchUnit) ∧
      (∀ src f, exec (.start n src f) s = .fault .noSuchUnit) ∧ (∀ src, exec (.idle n src) s = .fault .noSuchUnit) ∧
      (∀ src b, ∀ i ∈ [Instr.contingency n src b, .firedReport n src b, .tripOrder n src b, .orderAck n src b,
        .update n src b, .updateReply n src b, .refreshFrame n src b, .refreshAck n src b, .retireFrame n src b,
        .retireAck n src b, .disown n src b, .quantityFrame n src b, .actionStatus n src b, .echo n src b,
        .echoReply n src b], exec i s = .fault .noSuchUnit))

/-- A full reset: CONFIG with the default settings, every table empty, every unit as after reset, the levels of the inputs
as they are presented; the buffer EMPTY and every flag clear. The model's choice here: log entry 26. -/
def Obligations.FullReset : Prop :=
  ∀ s : State, ∃ t, exec .fullReset s = .next t ∧ t.mode = .config ∧ t.settings = defaultSettings ∧ t.own = 0 ∧
    t.schemes = List.replicate 64 none ∧ t.slots = List.replicate 32 emptySlot ∧ t.publication = none ∧
    t.actions = [] ∧ t.outputs = List.replicate 16 { pulse := none, indication := false } ∧
    t.inputs = s.inputs.map (fun x => { enable := false, qualify := 4, dropout := 20, level := x.level, state := .released }) ∧
    t.remote = [] ∧ t.contexts = List.replicate 8 .idle ∧ t.ports = List.replicate 4 closedPort ∧
    t.routes = List.replicate 14 { primary := none, alternate := none } ∧ t.testNumber = 0 ∧ t.test = .none ∧
    t.buffer = .empty ∧ t.ready = false ∧ t.events = List.replicate 10 { item := none, enable := false } ∧
    t.attn = false ∧ t.now = s.now ∧ t.pending = s.pending

/-! ### Invariants -/

/-- The state after reset meets every invariant stated here. The model's choice here: log entry 1. -/
def Obligations.ResetMeetsInvariants : Prop :=
  State.reset.Shaped ∧ State.reset.QueuesFit ∧ State.reset.ValuesInRange ∧ State.reset.MaintenanceStill ∧
    State.reset.ConfigBare ∧ State.reset.AtRest ∧ State.reset.IdsUnique ∧ State.reset.SelectionsCurrent ∧
    State.reset.ArmedCalledFor

/-- Every step keeps the numbers of units, every transmit queue within its capacity, and every slot's value in
-60000..60000. -/
def Obligations.StepKeepsBounds : Prop :=
  ∀ s t : State, step s = .next t →
    (s.Shaped → t.Shaped) ∧ (s.QueuesFit → t.QueuesFit) ∧ (s.ValuesInRange → t.ValuesInRange)

/-- While the device is in MAINTENANCE, no trip output is energized and no record or copy is ARMED or FIRED. -/
def Obligations.StepKeepsMaintenanceStill : Prop :=
  ∀ s t : State, s.MaintenanceStill → step s = .next t → t.MaintenanceStill

/-- In CONFIG the tables are empty and every port is CLOSED, and every step leaves the part at rest between events. The
model's choice here: log entries 4 and 45. -/
def Obligations.StepKeepsAtRest : Prop :=
  ∀ s t : State, s.AtRest → s.ConfigBare → step s = .next t → t.AtRest ∧ t.ConfigBare

/-- At most one slot holds a scheme id. -/
def Obligations.StepKeepsIdsUnique : Prop := ∀ s t : State, s.IdsUnique → step s = .next t → t.IdsUnique

/-- Every home record's selection stays a sub-list of its action list, in rank order and within the cap, of actions
IN SERVICE with a value above 0; SHORTFALL stays set exactly where the selected sum is below the requirement. The
model's choice here: log entry 4. -/
def Obligations.StepKeepsSelectionsCurrent : Prop :=
  ∀ s t : State, s.SelectionsCurrent → step s = .next t → t.SelectionsCurrent

/-- A home record is ARMED only with its arming result set, and never STALE under posture DISARM. -/
def Obligations.StepKeepsArmedCalledFor : Prop :=
  ∀ s t : State, s.ArmedCalledFor → step s = .next t → t.ArmedCalledFor

/-! ### Modes and refusals -/

/-- The device mode changes by a full reset and the four mode commands alone, and no tick changes it. Each station command
whose frame passes its tests is refused with MODE, nothing else changed, in the modes that its row of the command table
leaves out, each mode command thus in all but the one it leaves; in the modes of its row it is answered with another
code. SETTINGS READ returns the mode. -/
def Obligations.DeviceMode : Prop :=
  (∀ (i : Instr) (s t : State), exec i s = .next t → t.mode ≠ s.mode →
    (i = .fullReset ∧ t.mode = .config) ∨
    (i = .settingsComplete ∧ s.mode = .config ∧ t.mode = .run) ∨
    (i = .reconfigure ∧ s.mode = .run ∧ t.mode = .config) ∨
    (i = .maintenanceEnter ∧ s.mode = .run ∧ t.mode = .maintenance) ∨
    (i = .maintenanceExit ∧ s.mode = .maintenance ∧ t.mode = .run)) ∧
  (∀ s t : State, s.pending = [] → step s = .next t → t.mode = s.mode) ∧
  (∀ (i : Instr) (modes : List Mode) (s : State), stationModes i = some modes → bodyStands i = true →
    (s.mode ∉ modes → exec i s = .next (s.respond .mode false [])) ∧
    (s.mode ∈ modes → ∃ (t : State) (c : Code) (adjusted : Bool) (body : List Byte),
      exec i s = .next (t.respond c adjusted body) ∧ c ≠ .mode)) ∧
  (stationModes .settingsComplete = some [.config] ∧ stationModes .reconfigure = some [.run] ∧
    stationModes .maintenanceEnter = some [.run] ∧ stationModes .maintenanceExit = some [.maintenance]) ∧
  ∃ code : Mode → Byte, (∀ m m', code m = code m' → m = m') ∧
    ∀ s : State, ∃ rest, exec .settingsRead s = .next (s.respond .done false (code s.mode :: rest))

/-- A command refused with any code other than DONE leaves every piece of state as it stood but the response held, whose
body is empty and whose ADJUSTED flag is clear. -/
def Obligations.RefusalsChangeNothing : Prop :=
  ∀ (i : Instr) (modes : List Mode) (s t : State) (c : Code) (adjusted : Bool) (body : List Byte),
    stationModes i = some modes → exec i s = .next (t.respond c adjusted body) → c ≠ .done →
    exec i s = .next (s.respond c false [])

/-- The checks of a record command before its own: mode, id 0, presence, role; then the life states in which R15 refuses
it, with the code each gives. The model's choice here: log entry 13. -/
def Obligations.RecordCommandChecks : Prop :=
  ∀ (s : State) (id : Nat) (onAt offAt limit : Int) (k m f : Nat),
    (∀ i ∈ [Instr.recordTune id onAt offAt limit k m f, .arm id, .disarm id, .block id, .unblock id, .resetSpent id,
        .retire id, .refresh id, .dropCopy id, .recordRead id],
      (s.mode = .config → exec i s = .next (s.respond .mode false [])) ∧
      (s.mode ≠ .config → id = 0 → exec i s = .next (s.respond .range false [])) ∧
      (s.mode ≠ .config → id ≠ 0 → s.findScheme id = none → exec i s = .next (s.respond .unknown false []))) ∧
    (∀ b : LoadBody, s.mode ≠ .config → b.schemeId = 0 → exec (.recordLoad b) s = .next (s.respond .range false [])) ∧
    (∀ slot sc, s.mode ≠ .config → id ≠ 0 → s.findScheme id = some (slot, sc) →
      (sc.isHome = false →
        (∀ b : LoadBody, b.schemeId = id → exec (.recordLoad b) s = .next (s.respond .notHome false [])) ∧
        ∀ i ∈ [Instr.recordTune id onAt offAt limit k m f, .arm id, .disarm id, .block id, .unblock id, .resetSpent id,
          .retire id, .refresh id], exec i s = .next (s.respond .notHome false [])) ∧
      (sc.isHome = true →
        exec (.dropCopy id) s = .next (s.respond .state false []) ∧
        (sc.life ∈ [Life.armed, .fired, .retiring] →
          (∀ b : LoadBody, b.schemeId = id → exec (.recordLoad b) s = .next (s.respond .state false [])) ∧
          exec (.retire id) s = .next (s.respond .state false [])) ∧
        (sc.life ∈ [Life.fired, .retiring] →
          ∀ i ∈ [Instr.recordTune id onAt offAt limit k m f, .arm id, .disarm id, .block id, .unblock id,
            .resetSpent id], exec i s = .next (s.respond .state false [])) ∧
        (sc.life ∈ [Life.spent, .blocked] → exec (.arm id) s = .next (s.respond .state false [])) ∧
        (sc.life ≠ .blocked → exec (.unblock id) s = .next (s.respond .state false [])) ∧
        (sc.life ≠ .spent → exec (.resetSpent id) s = .next (s.respond .state false [])) ∧
        (sc.life = .retiring → exec (.refresh id) s = .next (s.respond .state false [])) ∧
        (∀ h, sc.part = .home h → h.form.directed = false →
          exec (.arm id) s = .next (s.respond .state false []) ∧
          exec (.disarm id) s = .next (s.respond .state false []))))

/-! ### What the blocks compute -/

/-- The requirement at a GOOD quantity: the floor F where the excess is 0 or below; else the excess by K, scaled by 1024
and rounded up, the margin added after, the floor applied and then the ceiling; the held requirement becomes it. -/
def Obligations.RequirementOfGoodQuantity : Prop :=
  ∀ (s : State) (sc : Scheme) (h : HomePart) (slot : Nat) (q limit : Int) (k : Nat),
    h.form.monitored = some slot → h.form.limitAndK = some (limit, k) → s.goodValue slot = some q →
    ∃ h', (s.evaluate sc h).part = .home h' ∧
      (q - limit ≤ 0 → h'.requirement = h.floor ∧ h'.held = h.floor) ∧
      (0 < q - limit → ∃ p r0 r1 : Nat, (p : Int) = (q - limit) * k ∧ p ≤ 1024 * r0 ∧ 1024 * r0 < p + 1024 ∧
        r1 = r0 + h.margin ∧
        h'.requirement = (if r1 < h.floor then h.floor else if 65535 < r1 then 65535 else r1) ∧
        h'.held = h'.requirement ∧
        (-60000 ≤ limit → q ≤ 60000 → k ≤ 4095 → h.margin ≤ 10000 → h.floor ≤ 65535 →
          p ≤ 491400000 ∧ r0 ≤ 479883 ∧ r1 ≤ 489883 ∧ h.floor ≤ h'.requirement ∧ h'.requirement ≤ 65535))

/-- The requirement while the monitored quantity is not GOOD: the greater of the held requirement and F, the held
requirement unchanged; it is F at a load, and a tune keeps it. A record with no slot requires F. The model's choice
here: log entry 11. -/
def Obligations.RequirementHeld : Prop :=
  (∀ (s : State) (sc : Scheme) (h : HomePart) (slot : Nat) (onAt offAt limit : Int) (k m f : Nat),
    h.form.monitored = some slot → s.goodValue slot = none →
    (∃ h', (s.evaluate sc h).part = .home h' ∧ h'.requirement = max h.held h.floor ∧ h'.held = h.held) ∧
    ∃ h', (s.evaluate sc { h with form := h.form.tuned onAt offAt limit k, margin := m, floor := f }).part = .home h' ∧
      h'.requirement = max h.held f ∧ h'.held = h.held) ∧
  (∀ (s : State) (sc : Scheme) (h : HomePart), h.form.monitored = none →
    ∃ h', (s.evaluate sc h).part = .home h' ∧ h'.requirement = h.floor ∧ h'.held = h.floor) ∧
  ∀ (s : State) (b : LoadBody) (sc : Scheme) (h : HomePart),
    (∃ h', (loadRecord b s).part = .home h' ∧ h'.held = b.f ∧ h'.floor = b.f) ∧
    ∃ h', (loadReplacement b s sc h).part = .home h' ∧ h'.held = b.f ∧ h'.floor = b.f

/-- The arming result of a COMPUTED record is a latch on its GOOD quantity, whatever the life state; it is held, FROZEN
set, while the quantity is not GOOD; that of a DIRECTED record is its flag. -/
def Obligations.ArmingResult : Prop :=
  ∀ (s : State) (sc : Scheme) (h : HomePart), ∃ h', (s.evaluate sc h).part = .home h' ∧
    (∀ slot onAt offAt limit k, h.form = .computed slot onAt offAt limit k → offAt ≤ onAt →
      (∀ q, s.goodValue slot = some q → h'.frozen = false ∧
        (onAt ≤ q → h'.armingResult = true) ∧ (q < offAt → h'.armingResult = false) ∧
        (offAt ≤ q → q < onAt → h'.armingResult = h.armingResult)) ∧
      (s.goodValue slot = none → h'.frozen = true ∧ h'.armingResult = h.armingResult)) ∧
    (∀ flag slot limit k, h.form = .measured flag slot limit k →
      h'.armingResult = flag ∧ h'.frozen = (s.goodValue slot).isNone) ∧
    (∀ flag, h.form = .fixed flag → h'.armingResult = flag ∧ h'.frozen = false)

/-- The walk that derives a selection: of the actions up to some rank, the selectable ones, in rank order; it stops there
because the list ends, the sum has reached the requirement or the cap is taken up, and at no earlier rank did either hold;
SHORTFALL is set exactly where the sum falls short, and then the selection holds the cap or every selectable action. An
action is selectable, with its effective value, exactly where its entry is held, is IN SERVICE and has a value above 0. -/
def Obligations.SelectionWalk : Prop :=
  ∀ (s : State) (sc : Scheme) (h : HomePart), ∃ h' n, (s.evaluate sc h).part = .home h' ∧ n ≤ sc.actions.length ∧
    (let ok := fun r => (s.selectable r).isSome
     let sumOf := fun m => (((sc.actions.take m).filterMap s.selectable).sum)
     let countOf := fun m => ((sc.actions.take m).filter ok).length
     (s.evaluate sc h).selection = (sc.actions.take n).filter ok ∧ h'.sum = sumOf n ∧
     (n = sc.actions.length ∨ h'.requirement ≤ sumOf n ∨ h.cap ≤ countOf n) ∧
     (∀ m < n, sumOf m < h'.requirement ∧ countOf m < h.cap) ∧
     (h'.shortfall = true ↔ h'.sum < h'.requirement) ∧
     (h'.shortfall = true → h.cap ≤ (s.evaluate sc h).selection.length ∨
       (s.evaluate sc h).selection = sc.actions.filter ok) ∧
     (s.evaluate sc h).selection.Sublist sc.actions ∧ (s.evaluate sc h).selection.length ≤ h.cap ∧
     (∀ r ∈ (s.evaluate sc h).selection, ∃ a, s.findAction r = some a ∧ s.availability a = .inService ∧ 0 < s.effective a) ∧
     (∀ r v, s.selectable r = some v ↔
       ∃ a, s.findAction r = some a ∧ s.availability a = .inService ∧ 0 < s.effective a ∧ v = s.effective a) ∧
     (sc.actions.length ≤ 12 → (∀ a ∈ s.actions, s.effective a ≤ 65535) → h'.sum ≤ 786420))

/-- Stage 5: a DORMANT or ARMED record becomes ARMED where its arming result is set and neither inhibition holds, and
DORMANT otherwise; in every other life state the evaluation leaves it. -/
def Obligations.LifeStateCalledFor : Prop :=
  ∀ (s : State) (sc : Scheme) (h : HomePart), ∃ h', (s.evaluate sc h).part = .home h' ∧
    (sc.life = .dormant ∨ sc.life = .armed →
      ((s.evaluate sc h).life = .armed ↔
        h'.armingResult = true ∧ ¬ (sc.stale = true ∧ sc.posture = .disarm) ∧ s.mode ≠ .maintenance) ∧
      ((s.evaluate sc h).life = .armed ∨ (s.evaluate sc h).life = .dormant)) ∧
    (sc.life ≠ .dormant → sc.life ≠ .armed → (s.evaluate sc h).life = sc.life)

/-- A trip request: NO SUCH ACTION without a LOCAL entry; in MAINTENANCE, TEST with the output's test indication; with
the test flag in RUN, TEST alone; else TRIPPED with a pulse of at least its duration where IN SERVICE, ALREADY where
TRIPPED, REFUSED where BLOCKED. Nothing else changes. -/
def Obligations.TripRequest : Prop :=
  ∀ (s : State) (n : Nat) (test : Bool),
    (s.findLocal n = none → s.tripRequest n test = (s, .noSuchAction)) ∧
    ∀ a o slot pulse av, s.findLocal n = some a → a.kind = .localEntry o slot pulse av →
      (s.mode = .maintenance →
        s.tripRequest n test = (s.modOutput o (fun x => { x with indication := true }), .test)) ∧
      (s.mode ≠ .maintenance → test = true → s.tripRequest n test = (s, .test)) ∧
      (s.mode ≠ .maintenance → test = false →
        (av = .blocked → s.tripRequest n test = (s, .refused)) ∧
        (av = .tripped → s.tripRequest n test = (s, .already)) ∧
        (av = .inService → ∃ t, s.tripRequest n test = (t, .tripped) ∧
          t = { s with outputs := t.outputs, actions := t.actions } ∧
          (o < s.outputs.length → (t.outputAt o).pulse =
            some (max (((s.outputAt o).pulse).getD 0) (s.now + msTicks pulse)) ∧
            (t.outputAt o).indication = (s.outputAt o).indication) ∧
          (∀ p, p ≠ o → t.outputAt p = s.outputAt p) ∧
          t.findLocal n = some { a with kind := .localEntry o slot pulse .tripped } ∧
          ∀ r, r ≠ a.ref → t.findAction r = s.findAction r))

/-- Whether a trigger set is satisfied: with ANY, at least one reference is asserted; with ALL, every one is and, where
the window is not 0, no two assertion times lie further apart than the window. A local reference is asserted with its
input, a remote one with its entry. A record or copy is eligible in RUN while ARMED, a copy not while STALE under posture
DISARM. The notice list of an input and the entries of the remote trigger table are those the scheme table calls for; an
entry still named stays as it stood. -/
def Obligations.SatisfiedSets : Prop :=
  (∀ (s : State) (r : TrigRef),
    (r.terminal = s.own → ∀ x, s.inputs[r.input]? = some x →
      ∀ a, s.assertion r = some a ↔ ∃ drop rep, x.state = .asserted a drop rep) ∧
    (r.terminal ≠ s.own → (s.findRemote r = none → s.assertion r = none) ∧
      ∀ e, s.findRemote r = some e → ∀ a, s.assertion r = some a ↔ ∃ hold, e.asserted = some (a, hold))) ∧
  (∀ (s : State) (sc : Scheme), s.eligible sc = true ↔ s.mode = .run ∧ sc.life = .armed ∧
    ∀ c, sc.part = .copy c → ¬ (sc.stale = true ∧ sc.posture = .disarm)) ∧
  (∀ (s : State) (i : Nat), (s.noticeList i).Sublist terminals ∧
    ∀ t, t ∈ s.noticeList i ↔ t ∈ terminals ∧ t ≠ s.own ∧
      ∃ sc ∈ s.held, { terminal := s.own, input := i } ∈ sc.trigger.refs ∧
        (t ∈ sc.participants ∨ (sc.isHome = false ∧ t = sc.home))) ∧
  (∀ s : State, (s.remote.map RemoteEntry.ref).Nodup → ∃ kept fresh, s.syncRemote = { s with remote := kept ++ fresh } ∧
    kept.Sublist s.remote ∧ ((kept ++ fresh).map RemoteEntry.ref).Nodup ∧
    (∀ e ∈ fresh, e.asserted = none ∧ s.findRemote e.ref = none) ∧
    ∀ r, r ∈ (kept ++ fresh).map RemoteEntry.ref ↔ r.terminal ≠ s.own ∧ ∃ sc ∈ s.held, r ∈ sc.trigger.refs) ∧
  ∀ (s : State) (set : TriggerSet),
    (set.all = false → (s.satisfied set = true ↔ ∃ r ∈ set.refs, (s.assertion r).isSome = true)) ∧
    (set.all = true → (s.satisfied set = true ↔
      (∀ r ∈ set.refs, (s.assertion r).isSome = true) ∧
      (set.window ≠ 0 → ∀ r ∈ set.refs, ∀ r' ∈ set.refs, ∀ a b, s.assertion r = some a → s.assertion r' = some b →
        a ≤ b + 4 * set.window)))

/-! ### Frames on the line -/

/-- A frame as it is sent reads, between its markers, as that frame: transparency and check lose nothing. -/
def Obligations.LineRoundTrip : Prop :=
  ∀ f : Frame, f.source ∈ terminals → f.destination ∈ terminals → 1 ≤ f.hop → f.hop ≤ 7 → f.body.length ≤ 56 →
    ∃ line, lineBytes f = marker :: line ++ [marker] ∧ marker ∉ line ∧ judgeLine line = .valid f

/-- The body of UPDATE carries every carried field: what a record's UPDATE says is read as it stands. -/
def Obligations.UpdateBodyRoundTrip : Prop :=
  ∀ (sc : Scheme) (closes : Bool),
    1 ≤ sc.id → sc.id < 256 → 1 ≤ sc.generation → sc.generation < 65536 → sc.life ≠ .retiring →
    1 ≤ sc.trigger.refs.length → sc.trigger.refs.length ≤ 4 → (∀ r ∈ sc.trigger.refs, trigRefInRange r = true) →
    windowInRange sc.trigger.window = true → (sc.trigger.all = false → sc.trigger.window = 0) →
    1 ≤ sc.actions.length → sc.actions.length ≤ 12 → (∀ r ∈ sc.actions, actionRefInRange r = true) → sc.actions.Nodup →
    sc.selection.Sublist sc.actions → sc.participants.Sublist terminals → sc.interval ≤ 600 →
    (updateBody sc closes).length = 15 + sc.trigger.refs.length + 2 * sc.actions.length ∧
    readUpdate (updateBody sc closes) = some
      { id := sc.id, generation := sc.generation, life := sc.life, closes := closes, trigger := sc.trigger,
        actions := sc.actions, selection := sc.selection, participants := sc.participants, posture := sc.posture,
        interval := sc.interval, autoDisarm := sc.autoDisarm, stale := sc.stale }

/-- The bodies of the other kinds are read as they were written. -/
def Obligations.BodyRoundTrips : Prop :=
  (∀ n asserted, n ≤ 15 → readContingency (contingencyBody n asserted) = some (n, asserted)) ∧
  ∀ id g, 1 ≤ id → id < 256 → 1 ≤ g → g < 65536 →
    (∀ l : List (Nat × Result), l.length ≤ 12 → (∀ p ∈ l, 1 ≤ p.1 ∧ p.1 ≤ 96 ∧ p.2 ≠ .missing ∧ p.2 ≠ .trippedLate) →
      readFiredReport (firedReportBody id g l) = some (id, g, l) ∧
      (∀ test, readOrderAck (orderAckBody id g test l) = some (id, g, test, l)) ∧
      (∀ e, readReply (replyBody id g (.hold { generation := g, entry := e, results := l })) =
          some (id, g, .hold { generation := g, entry := e, results := l }) ∧
        readRetireAck (retireAckBody id (some { generation := g, entry := e, results := l })) =
          some (id, some { generation := g, entry := e, results := l }))) ∧
    (∀ test (l : List Nat), 1 ≤ l.length → l.length ≤ 12 → (∀ n ∈ l, 1 ≤ n ∧ n ≤ 96) →
      readTripOrder (tripOrderBody id g test l) = some (id, g, test, l)) ∧
    (∀ closes, readReply (replyBody id g (.accept closes)) = some (id, g, .accept closes)) ∧
    (∀ r, readReply (replyBody id g (.reject r)) = some (id, g, .reject r)) ∧
    readRetireAck (retireAckBody id none) = some (id, none) ∧ readId (u8 id) = some id ∧
    (∀ l : List (Nat × Nat), 1 ≤ l.length → l.length ≤ 16 → (∀ p ∈ l, p.1 < 256 ∧ p.2 < 65536) →
      readRefresh (refreshBody l) = some l) ∧
    (∀ l : List (Nat × Nat × Option Nat), 1 ≤ l.length → l.length ≤ 11 →
      (∀ p ∈ l, p.1 < 256 ∧ p.2.1 < 65536 ∧ ∀ c, p.2.2 = some c → 1 ≤ c ∧ c < 65536) →
      readRefreshAck (refreshAckBody l) = some l) ∧
    (∀ l : List (Nat × Int × Quality), 1 ≤ l.length → l.length ≤ 8 →
      (∀ p ∈ l, p.1 < 256 ∧ -60000 ≤ p.2.1 ∧ p.2.1 ≤ 60000 ∧ p.2.2 ≠ .unset) →
      (readQuantity (quantityBody l)).map (List.map (fun e => (e.1, e.2.1, qualityOfCode e.2.2))) =
        some (l.map (fun e => (e.1, e.2.1, some e.2.2)))) ∧
    (∀ l : List (Nat × SiteAvail × Nat), 1 ≤ l.length → l.length ≤ 12 →
      (∀ p ∈ l, p.1 < 256 ∧ p.2.2 < 65536) →
      (readActionStatus (actionStatusBody l)).map (List.map (fun e => (e.1, siteAvailOfCode e.2.1, e.2.2))) =
        some (l.map (fun e => (e.1, some e.2.1, e.2.2))))

/-- The frame tests of a command frame, in order, on the bytes stored and the count received: its length, whatever is stored
after its first three bytes, its check, its code, and the body length that the code allows; and what command a body that
passes is read as. The model's choice here: log entries 34 and 40. -/
def Obligations.CommandFrameTests : Prop :=
  (∀ (code l1 l0 : Byte) (rest : List Byte) (count : Nat), 512 < nat16 l1 l0 ∨ count ≠ nat16 l1 l0 + 5 →
    decodeFrame (code :: l1 :: l0 :: rest) count = .refused .length) ∧
  (∀ (code : Byte) (body check : List Byte) (count : Nat), check.length = 2 → body.length < 65536 →
    (let front := code :: u16 body.length ++ body
     (512 < body.length ∨ count ≠ body.length + 5 → decodeFrame (front ++ check) count = .refused .length) ∧
     (body.length ≤ 512 → check ≠ crcBytes front →
       decodeFrame (front ++ check) (body.length + 5) = .refused .check) ∧
     (body.length ≤ 512 → check = crcBytes front →
       decodeFrame (front ++ check) (body.length + 5) = decodeCommand code.toNat body))) ∧
  (let bare : List (Nat × Instr) := [(0x1C, .recordList), (0x35, .outputRead), (0x42, .remoteTriggerRead),
     (0x56, .routeRead), (0x60, .eventRead), (0x71, .settingsComplete), (0x72, .settingsRead), (0x73, .reconfigure),
     (0x74, .tableClear), (0x75, .maintenanceEnter), (0x76, .maintenanceExit)]
   let one : List (Nat × (Nat → Instr)) := [(0x12, .arm), (0x13, .disarm), (0x14, .block), (0x15, .unblock),
     (0x16, .resetSpent), (0x17, .retire), (0x18, .refresh), (0x19, .refreshGroup), (0x1A, .dropCopy),
     (0x1B, .recordRead), (0x23, .quantityRead), (0x41, .inputRead), (0x50, .portOpen), (0x51, .portClose),
     (0x52, .portRead), (0x53, .portLoopback), (0x54, .portTest), (0x77, .testFire)]
   let two : List (Nat × (Nat → Nat → Instr)) := [(0x1D, .recordFindByAction), (0x1E, .recordFindByTrigger),
     (0x31, .actionBlock), (0x32, .actionRestore), (0x33, .actionRemove), (0x34, .actionRead), (0x48, .executionRead)]
   let rest := [0x10, 0x11, 0x20, 0x21, 0x22, 0x30, 0x40, 0x55, 0x61, 0x62, 0x70]
   (∀ p ∈ bare, decodeCommand p.1 [] = .command p.2 ∧ ∀ body, body ≠ [] → decodeCommand p.1 body = .refused .length) ∧
   (∀ p ∈ one, (∀ a, decodeCommand p.1 [a] = .command (p.2 a.toNat)) ∧
     ∀ body, body.length ≠ 1 → decodeCommand p.1 body = .refused .length) ∧
   (∀ p ∈ two, (∀ a b, decodeCommand p.1 [a, b] = .command (p.2 a.toNat b.toNat)) ∧
     ∀ body, body.length ≠ 2 → decodeCommand p.1 body = .refused .length) ∧
   (∀ code body, code ∉ bare.map Prod.fst ++ one.map Prod.fst ++ two.map Prod.fst ++ rest →
     decodeCommand code body = .refused .range)) ∧
  (∀ (onAt offAt limit : Int) (id k m f : Nat), (∀ v ∈ [onAt, offAt, limit], -2147483648 ≤ v ∧ v < 2147483648) →
    id < 256 → (∀ n ∈ [k, m, f], n < 65536) →
    decodeCommand 0x11 (u8 id ++ i32 onAt ++ i32 offAt ++ i32 limit ++ u16 k ++ u16 m ++ u16 f) =
      .command (.recordTune id onAt offAt limit k m f)) ∧
  (∀ a b c d e : Byte, ∀ n m : Nat, n < 65536 → m < 65536 →
    decodeCommand 0x20 ([a, b, c, d] ++ u16 n ++ [e]) = .command (.quantitySource a.toNat b.toNat c.toNat d.toNat n e.toNat) ∧
    decodeCommand 0x30 ([a, b, c, d, e] ++ u16 n ++ u16 m) =
      .command (.actionLoad a.toNat b.toNat c.toNat d.toNat e.toNat n m) ∧
    decodeCommand 0x55 [a, b, c] = .command (.routeWrite a.toNat b.toNat c.toNat) ∧
    decodeCommand 0x61 (u16 n) = .command (.eventEnable n) ∧ decodeCommand 0x62 (u16 n) = .command (.eventClear n) ∧
    ∀ long, long < 4294967296 →
      decodeCommand 0x40 ([a, b] ++ u16 n ++ u32 long) = .command (.inputConfigure a.toNat b.toNat n long)) ∧
  (∀ entries : List (Nat × Int), entries.length < 256 →
    (∀ p ∈ entries, p.1 < 256 ∧ -2147483648 ≤ p.2 ∧ p.2 < 2147483648) →
    decodeCommand 0x21 (u8 entries.length ++ entries.flatMap (fun p => u8 p.1 ++ i32 p.2)) =
      .command (.quantityPost entries)) ∧
  (∀ slots : List Nat, slots.length < 256 → (∀ q ∈ slots, q < 256) →
    decodeCommand 0x22 (u8 slots.length ++ slots.flatMap u8) = .command (.quantityInvalidate slots)) ∧
  (∀ items : List (Nat × List Byte), (∀ i ∈ items, i.1 < 256 ∧ i.2.length < 256) →
    decodeCommand 0x70 (items.flatMap (fun i => u8 i.1 ++ u8 i.2.length ++ i.2)) =
      if items.all settingLengthOk then .command (.settingsWrite items) else .refused .length) ∧
  (∀ b : LoadBody, (∀ n ∈ [b.schemeId, b.source, b.slot, b.mode, b.cap, b.posture, b.group, b.autoDisarm], n < 256) →
    (∀ v ∈ [b.onAt, b.offAt, b.limit], -2147483648 ≤ v ∧ v < 2147483648) →
    (∀ n ∈ [b.k, b.m, b.f, b.window, b.interval], n < 65536) →
    b.refs.length < 256 → (∀ r ∈ b.refs, r.terminal < 16 ∧ r.input < 16) →
    b.actions.length < 256 → (∀ r ∈ b.actions, r.site < 256 ∧ r.number < 256) →
    decodeCommand 0x10 ([b.schemeId, b.source, b.slot].flatMap u8 ++ i32 b.onAt ++ i32 b.offAt ++ i32 b.limit ++
      u16 b.k ++ u16 b.m ++ u16 b.f ++ u8 b.refs.length ++ u8 b.mode ++ u16 b.window ++
      b.refs.flatMap (fun r => u8 (16 * r.terminal + r.input)) ++ u8 b.actions.length ++
      b.actions.flatMap (fun r => u8 r.site ++ u8 r.number) ++ u8 b.cap ++ u8 b.posture ++ u16 b.interval ++
      u8 b.group ++ u8 b.autoDisarm) = .command (.recordLoad b)) ∧
  ∀ body : List Byte,
    (let byte := fun n => (body[n]?).elim 0 BitVec.toNat
     (body.length ≠ 19 → decodeCommand 0x11 body = .refused .length) ∧
     (body.length ≠ 7 → decodeCommand 0x20 body = .refused .length) ∧
     (body.length ≠ 1 + 5 * byte 0 → decodeCommand 0x21 body = .refused .length) ∧
     (body.length ≠ 1 + byte 0 → decodeCommand 0x22 body = .refused .length) ∧
     (body.length ≠ 9 → decodeCommand 0x30 body = .refused .length) ∧
     (body.length ≠ 8 → decodeCommand 0x40 body = .refused .length) ∧
     (body.length ≠ 3 → decodeCommand 0x55 body = .refused .length) ∧
     (body.length ≠ 2 → decodeCommand 0x61 body = .refused .length ∧ decodeCommand 0x62 body = .refused .length) ∧
     (body.length ≠ 32 + byte 21 + 2 * byte (25 + byte 21) → decodeCommand 0x10 body = .refused .length) ∧
     ((∀ items : List (Nat × List Byte), body ≠ items.flatMap (fun i => u8 i.1 ++ u8 i.2.length ++ i.2)) →
       decodeCommand 0x70 body = .refused .length))
/-! ### The station port -/

/-- A fetch: the status byte, the response held from its first byte, then idle fill; the response is fetched where its
last byte was shifted out, and READY falls; a fetch while EMPTY sends NONE and idle fill. No whole byte, no change. A
transaction begun while PROCESSING, whatever its bytes, shows the BUSY marker in every byte and changes nothing else, also
where the processing has ended under way. The model's choice here: log entry 8. -/
def Obligations.FetchAndBusy : Prop :=
  (∀ (s : State) (stored : List Byte) (count due n : Nat) (mosi : List Byte),
    s.buffer = .processing stored count due → n = mosi.length → 1 ≤ n →
    exec (.commandTransaction mosi) s = .next { s with miso := List.replicate n 0xE5#8 } ∧
    exec (.fetch n) s = .next { s with miso := List.replicate n 0xE5#8 }) ∧
  (∀ (s : State) (n : Nat), 1 ≤ n →
    exec (.busyTransaction n) s = .next { s with miso := List.replicate n 0xE5#8 }) ∧
  (∀ (s : State) (r : List Byte) (seen : Bool) (rest : List Byte) (n : Nat), s.buffer = .held r seen →
    n = rest.length + 1 →
    exec (.fetch n) s = .next { s with
      miso := ((if seen then 2#8 else 1#8) :: r ++ List.replicate n 0#8).take n,
      buffer := .held r (seen || decide (r.length + 1 ≤ n)) } ∧
    exec (.commandTransaction (0xA0#8 :: rest)) s = exec (.fetch n) s ∧
    ∀ t, exec (.fetch n) s = .next t → (t.ready = true ↔ seen = false ∧ n ≤ r.length)) ∧
  (∀ (s : State) (n : Nat), s.buffer = .empty → 1 ≤ n →
    exec (.fetch n) s = .next { s with miso := List.replicate n 0#8 }) ∧
  (∀ s : State, exec (.fetch 0) s = .next s ∧ exec (.commandTransaction []) s = .next s ∧
    exec (.busyTransaction 0) s = .next s) ∧
  ∀ (c : Code) (adjusted : Bool) (body : List Byte), ∃ front, responseFrame c adjusted body = front ++ crcBytes front ∧
    front = [byteOf (codeByte c), if adjusted then 1#8 else 0#8] ++ u16 body.length ++ body

/-- A command transaction begun while not PROCESSING sends the status byte and idle fill. Fewer than three bytes change
nothing else; three or more are a command frame: the response held is discarded and the frame is in processing, at most
517 bytes of it stored, for a time of at most 1 ms. At its taking it is answered with the code of the frame test it fails,
and nothing else is done for it; a frame that passes is no such event. The model's choice here: log entries 5, 8 and
33. -/
def Obligations.CommandTransaction : Prop :=
  (∀ (s : State) (stored : List Byte) (count due : Nat), s.buffer = .processing stored count due →
    (∀ c, decodeFrame stored count = .refused c → exec .commandFrameRefused s = .next (s.respond c false [])) ∧
    (∀ i, decodeFrame stored count = .command i → exec .commandFrameRefused s = .next s)) ∧
  ∀ (s : State) (mosi : List Byte), s.isProcessing = false → mosi ≠ [] → mosi.head? ≠ some fetchCode →
    (let miso := (statusByte s.buffer :: List.replicate mosi.length 0#8).take mosi.length
     (mosi.length < 3 → exec (.commandTransaction mosi) s = .next { s with miso := miso }) ∧
     (3 ≤ mosi.length → ∃ due, s.now ≤ due ∧ due ≤ s.now + msTicks 1 ∧
      exec (.commandTransaction mosi) s = .next { s with
        miso := miso, buffer := .processing (mosi.take 517) mosi.length due, freeIndex := s.freeIndex + 1 })) ∧
    (s.buffer = .empty → statusByte s.buffer = 0#8) ∧
    ∀ r seen, s.buffer = .held r seen → statusByte s.buffer = if seen then 2#8 else 1#8

/-- The commands on the event flags, in every mode: EVENT READ shows every flag and ATTN and changes nothing; EVENT ENABLE
replaces the enables; EVENT CLEAR shows the flags named as they stood and clears them, with item none, the others kept.
A flag beyond the ten gives RANGE. The model's choice here: log entry 15. -/
def Obligations.EventCommands : Prop :=
  (∀ s : State, exec .eventRead s = .next (s.respond .done false
    (s.events.flatMap (fun f => flagView f ++ flagByte f.enable) ++ flagByte s.attn))) ∧
  (∀ (s : State) (bits : Nat), bits < 1024 → ∃ t : State, t = { s with events := t.events } ∧
    t.events.length = s.events.length ∧
    (∀ (n : Nat) (f : EventFlag), s.events[n]? = some f → t.events[n]? = some { f with enable := bit bits n }) ∧
    (t.attn = true ↔ ∃ (n : Nat) (f : EventFlag), s.events[n]? = some f ∧ f.item.isSome = true ∧ bit bits n = true) ∧
    exec (.eventEnable bits) s = .next (t.respond .done false
      (t.events.flatMap (fun f => flagByte f.enable) ++ flagByte t.attn))) ∧
  (∀ (s : State) (bits : Nat), bits < 1024 → ∃ t : State, t = { s with events := t.events } ∧
    t.events.length = s.events.length ∧
    (∀ (n : Nat) (f : EventFlag), s.events[n]? = some f → t.events[n]? = some (if bit bits n then { f with item := none } else f)) ∧
    exec (.eventClear bits) s = .next (t.respond .done false
      (((List.range s.events.length).filter (bit bits)).flatMap (fun n => ((s.events[n]?).map flagView).getD [])))) ∧
  ∀ (s : State) (bits : Nat), 1024 ≤ bits →
    exec (.eventEnable bits) s = .next (s.respond .range false []) ∧
    exec (.eventClear bits) s = .next (s.respond .range false [])

/-! ### Reads -/

/-- The reads answer DONE with the values as they stand, and change no state but the response held; a number or reference
out of range gives RANGE, an action reference not held UNKNOWN. What an entry of each holds, byte by byte: the items of its
rule in their order, and, where the rule leaves the layout open, as log entries 14, 15 and 36 say; RECORD READ of a home
record ends with the published availability and live value of its mirrors (R56, in the layout of log entry 46). The
model's choice here: log entry 3. -/
def Obligations.ReadsChangeNothing : Prop :=
  (∀ s : State, s.mode ≠ .config →
    (∀ id i sc, id ≠ 0 → s.findScheme id = some (i, sc) → ∃ body,
      exec (.recordRead id) s = .next (s.respond .done false (u8 i ++ u8 (if sc.isHome then 1 else 2) ++ body)) ∧
      (∀ h, sc.part = .home h → body = s.homeBytes sc h) ∧ (∀ c, sc.part = .copy c → body = s.copyBytes sc c)) ∧
    (∃ entries : List (List Byte), entries.length = s.held.length ∧
      exec .recordList s = .next (s.respond .done false (byteOf s.held.length :: entries.flatten)) ∧
      ∀ (n : Nat) (sc : Scheme), s.held[n]? = some sc → ∃ i, s.schemeAt i = some sc ∧
        entries[n]? = some (u8 i ++ u8 sc.id ++ u8 (if sc.isHome then 1 else 2) ++ u8 (lifeCode sc.life) ++
          u16 sc.generation ++ [if sc.stale then 1#8 else 0#8])) ∧
    (∀ site number,
      (let l := s.held.filter (fun sc => sc.actions.contains { site := site, number := number })
       let inRange := 1 ≤ site ∧ site ≤ 14 ∧ 1 ≤ number ∧ number ≤ 96
       (inRange → exec (.recordFindByAction site number) s = .next (s.respond .done false
        (byteOf l.length :: l.flatMap (fun sc => u8 sc.id ++ u8 (if sc.isHome then 1 else 2))))) ∧
       (¬ inRange → exec (.recordFindByAction site number) s = .next (s.respond .range false [])))) ∧
    (∀ terminal input,
      (let l := s.held.filter (fun sc => sc.trigger.refs.contains { terminal := terminal, input := input })
       let inRange := 1 ≤ terminal ∧ terminal ≤ 14 ∧ input ≤ 15
       (inRange → exec (.recordFindByTrigger terminal input) s = .next (s.respond .done false
        (byteOf l.length :: l.flatMap (fun sc => u8 sc.id ++ u8 (if sc.isHome then 1 else 2))))) ∧
       (¬ inRange → exec (.recordFindByTrigger terminal input) s = .next (s.respond .range false []))))) ∧
  (∀ s : State,
    (∀ q, q ≤ 31 → exec (.quantityRead q) s = .next (s.respond .done false (s.slotEntry q))) ∧
    (∀ q, 31 < q → q ≠ 255 → exec (.quantityRead q) s = .next (s.respond .range false [])) ∧
    exec (.quantityRead 255) s =
      .next (s.respond .done false ((List.range s.slots.length).flatMap s.slotEntry)) ∧
    (∀ site number a, 1 ≤ site ∧ site ≤ 14 ∧ 1 ≤ number ∧ number ≤ 96 →
      s.findAction { site := site, number := number } = some a →
      exec (.actionRead site number) s = .next (s.respond .done false (s.actionEntryBytes a))) ∧
    (∀ site number, 1 ≤ site ∧ site ≤ 14 ∧ 1 ≤ number ∧ number ≤ 96 →
      s.findAction { site := site, number := number } = none →
      exec (.actionRead site number) s = .next (s.respond .unknown false [])) ∧
    (∀ site number, ¬ (1 ≤ site ∧ site ≤ 14 ∧ 1 ≤ number ∧ number ≤ 96) → ¬ (site = 255 ∧ number = 255) →
      exec (.actionRead site number) s = .next (s.respond .range false [])) ∧
    exec (.actionRead 255 255) s =
      .next (s.respond .done false (byteOf s.actions.length :: s.actions.flatMap s.actionEntryBytes)) ∧
    exec .outputRead s = .next (s.respond .done false ((List.range s.outputs.length).flatMap s.outputEntry)) ∧
    (∀ i, i ≤ 15 → exec (.inputRead i) s = .next (s.respond .done false (s.inputEntry i))) ∧
    (∀ i, 15 < i → i ≠ 255 → exec (.inputRead i) s = .next (s.respond .range false [])) ∧
    exec (.inputRead 255) s =
      .next (s.respond .done false ((List.range s.inputs.length).flatMap s.inputEntry)) ∧
    exec .remoteTriggerRead s =
      .next (s.respond .done false (byteOf s.remote.length :: s.remote.flatMap s.remoteEntryBytes)) ∧
    (∀ p, p ≤ 3 → exec (.portRead p) s = .next (s.respond .done false (s.portEntry p ++ s.testBytes))) ∧
    (∀ p, 3 < p → p ≠ 255 → exec (.portRead p) s = .next (s.respond .range false [])) ∧
    exec (.portRead 255) s =
      .next (s.respond .done false ((List.range s.ports.length).flatMap s.portEntry ++ s.testBytes)) ∧
    exec .routeRead s = .next (s.respond .done false (terminals.flatMap s.routeEntry)) ∧
    exec .settingsRead s = .next (s.respond .done false (u8 (modePlace s.mode) ++ settingsBytes s.settings))) ∧
  ∀ s : State,
    (let flag := fun b : Bool => if b then [1#8] else [0#8]
     let opt := fun o : Option (List Byte) => o.elim [0#8] (fun l => 1#8 :: l)
     let counted := fun l : List (List Byte) => byteOf l.length :: l.flatten
     let leftMs := fun due : Nat => u32 ((due - s.now + 255) / 256)
     let leftQuarters := fun due : Nat => u32 ((due - s.now + 63) / 64)
     let refs := fun l : List ActionRef => counted (l.map (fun r => [byteOf r.site, byteOf r.number]))
     let deadline := fun d : Deadline => opt (match d with
       | .running due => some (leftMs due)
       | .pending => some [0, 0, 0, 0]
       | .stopped => none)
     let trigger := fun t : TriggerSet =>
       counted (t.refs.map (fun r => [byteOf (16 * r.terminal + r.input)])) ++ [if t.all then 2#8 else 1#8] ++ u16 t.window
     let life := fun l : Life => match l with
       | .dormant => 1#8 | .armed => 2#8 | .fired => 3#8 | .spent => 4#8 | .blocked => 5#8 | .retiring => 6#8
     let posture := fun p : Posture => match p with
       | .disarm => 1#8 | .hold => 2#8
     (∀ q x, s.slots[q]? = some x → s.slotEntry q = byteOf q ::
       (match x.source with
        | .none => [1#8] | .station => [2#8] | .peer t n => [3#8, byteOf t, byteOf n]) ++ i32 x.value ++
       [match x.quality with | .unset => 1#8 | .good => 2#8 | .stale => 3#8 | .invalid => 4#8] ++
       opt (x.goodAt.map (fun t => u32 (min 65535 ((s.now - t) / 256)))) ++ u16 x.limit ++ flag x.publish ++ flag x.clamped) ∧
     (∀ a, s.actionEntryBytes a = [byteOf a.ref.site, byteOf a.ref.number] ++
       (match a.kind with
        | .localEntry o v pulse _ => [1#8, byteOf o] ++ opt (v.map u8) ++ u16 pulse ++
          counted ((s.publishHomes a.ref.number).map u8) ++
          (match (s.outputAt o).pulse with | some due => 2#8 :: leftMs due | none => [1, 0, 0, 0, 0]) ++
          flag (s.outputAt o).indication
        | .mirror p _ fresh taken => 2#8 ::
          opt (p.map (fun v => [match v with | .inService => 1#8 | .blocked => 2#8 | .tripped => 3#8])) ++
          [if fresh.isSome then 1#8 else 2#8] ++
          opt (taken.map (fun t => u32 (min 4294967295 ((s.now - t) / 256))))) ++
       u16 a.nominal ++ opt ((s.liveValue a).map u16) ++ u16 (s.effective a) ++
       [match s.availability a with
        | .inService => 1#8 | .blocked => 2#8 | .tripped => 3#8 | .unreachable => 4#8 | .unknown => 5#8]) ∧
     (∀ o x, s.outputs[o]? = some x → s.outputEntry o =
       (match x.pulse with | some due => 2#8 :: leftMs due | none => [1, 0, 0, 0, 0]) ++
       opt ((s.actions.find? (fun a => a.output == some o)).map (fun a => u8 a.ref.number)) ++ flag x.indication) ∧
     (∀ n x, s.inputs[n]? = some x → s.inputEntry n = flag x.enable ++ u32 x.qualify ++ u32 x.dropout ++
       [if x.level then 1#8 else 2#8] ++
       (match x.state with
        | .released => [1, 0, 0]
        | .qualifying due => 2#8 :: 1#8 :: leftQuarters due ++ [0#8]
        | .asserted t drop _ => 3#8 :: opt (drop.map leftQuarters) ++ 1#8 :: u32 (min 262140 (s.now / 64 - t))) ++
       counted ((s.noticeList n).map u8)) ∧
     (∀ e, s.remoteEntryBytes e = byteOf (16 * e.ref.terminal + e.ref.input) ::
       (match e.asserted with
        | none => [1, 0, 0]
        | some (t, hold) => 2#8 :: 1#8 :: u32 (min 262140 (s.now / 64 - t)) ++ 1#8 :: leftMs hold)) ∧
     (∀ p x, s.ports[p]? = some x → s.portEntry p =
       [match x.state with | .closed => 1#8 | .starting => 2#8 | .up => 3#8] ++ flag x.loopback ++
       opt (x.neighbour.map u8) ++ flag x.clash ++ flag (x.peer.any (fun m => decide (s.now ≤ m.1 + 30 * 256))) ++
       opt (x.health.map (fun h => [match h with | .normal => 1#8 | .degraded => 2#8 | .failed => 3#8])) ++
       [byteOf x.good, byteOf x.bad, byteOf x.silent, byteOf x.urgent.length, byteOf x.routine.length] ++
       opt (x.kindInTransmission.map (fun k => u8 (kindPlace k))) ++ u16 (s.rateOf p) ++
       opt (x.lastFault.map (fun f => [match f.1 with | .malformed => 1#8 | .check => 2#8] ++ u8 f.2.1 ++
         [match f.2.2 with | .closed => 1#8 | .starting => 2#8 | .up => 3#8]))) ∧
     s.testBytes = byteOf s.testNumber ::
       (match s.test with
        | .none => [0]
        | .outstanding _ _ _ => [1, 1]
        | .replied t => [1, 2] ++ u32 t
        | .noReply => [1, 3]
        | .notSent => [1, 4]) ∧
     (∀ d, s.routeEntry d = opt ((s.routeTo d).primary.map u8) ++ opt ((s.routeTo d).alternate.map u8) ++
       flag (s.reachable d)) ∧
     (∀ sc h, s.homeBytes sc h = [byteOf sc.id, byteOf sc.home] ++ u16 sc.generation ++ [life sc.life] ++
       (match h.form with
        | .computed q on off l k => [1, 0, 1] ++ u8 q ++ 1 :: i32 on ++ 1 :: i32 off ++ 1 :: i32 l ++ 1 :: u16 k
        | .measured f q l k => [2, 1] ++ flag f ++ 1 :: u8 q ++ [0, 0] ++ 1 :: i32 l ++ 1 :: u16 k
        | .fixed f => [2, 1] ++ flag f ++ [0, 0, 0, 0, 0]) ++
       u16 h.margin ++ u16 h.floor ++ trigger sc.trigger ++ refs sc.actions ++ u8 h.cap ++ refs sc.selection ++
       u16 h.requirement ++ u16 h.held ++ u32 h.sum ++ counted (sc.participants.map u8) ++
       counted (h.statuses.map (fun p => [byteOf p.terminal,
         match p.status with | .current => 1#8 | .behind => 2#8 | .held => 3#8 | .rejected => 4#8 | .lost => 5#8] ++
         opt (p.acked.map u16) ++ u8 p.tries ++ flag p.owesClose ++
         opt (p.reason.map (fun r => [match r with | .noSlot => 1#8 | .missingAction => 2#8 | .triggerTableFull => 3#8])))) ++
       [if h.statuses = [] then 1#8 else if h.round ≠ .none then 3#8
        else if ∀ p ∈ h.statuses, p.status = .current then 2#8 else 4#8] ++
       [posture sc.posture] ++ u16 sc.interval ++ u8 h.group ++ flag sc.autoDisarm ++ flag h.shortfall ++ flag h.frozen ++
       flag h.unsettled ++ flag sc.stale ++ flag sc.releaseNeeded ++
       [match h.outcome with
        | .none => 1#8 | .full => 2#8 | .partTripped => 3#8 | .failed => 4#8 | .empty => 5#8 | .untracked => 6#8
        | .stray => 7#8] ++ flag (h.round != .none) ++ flag h.dirty ++ deadline sc.deadline ++ flag h.armingResult ++
       counted (sc.actions.filterMap (fun r =>
         match s.findAction r with
         | some { ref := _, nominal := _, kind := .mirror published live _ _ } =>
           some ([byteOf r.site, byteOf r.number] ++
             opt (published.map (fun av => [match av with | .inService => 1#8 | .blocked => 2#8 | .tripped => 3#8])) ++
             opt (live.map u16))
         | _ => none))) ∧
     ∀ sc c, s.copyBytes sc c = [byteOf sc.id, byteOf sc.home] ++ u16 sc.generation ++ [life sc.life] ++
       trigger sc.trigger ++ refs sc.actions ++ refs sc.selection ++ counted (sc.participants.map u8) ++
       [posture sc.posture] ++ u16 sc.interval ++ flag sc.autoDisarm ++ flag sc.stale ++ flag sc.releaseNeeded ++
       opt (c.withheld.map (fun l => [life l])) ++
       opt (c.summary.map (fun f => u16 f.generation ++
         [match f.entry with | .firing => 1#8 | .order => 2#8 | .carried => 3#8] ++
         counted (f.results.map (fun r => [byteOf r.1, byteOf (resultCode r.2)])))) ++ deadline sc.deadline)

/-- EXECUTION READ returns one context or all as they stand, laid out as R137 lists them and, where it leaves the layout
open, as log entry 15 says; with collect set, each COMPLETE one becomes IDLE. A context above 7 gives RANGE, and so does a
collect byte above 1 (the model's choice, log entry 24). The model's choice here: log entry 3. -/
def Obligations.ExecutionRead : Prop :=
  (∀ (s : State) (context collect : Nat), context ≤ 7 ∨ context = 255 → collect ≤ 1 →
    (let named := if context = 255 then List.range s.contexts.length else [context]
     ∃ t, exec (.executionRead context collect) s = .next (t.respond .done false (named.flatMap s.contextEntry)) ∧
      t = { s with contexts := t.contexts } ∧ t.contexts.length = s.contexts.length ∧
      (collect = 0 → t = s) ∧
      (collect = 1 → ∀ c, t.contextAt c =
        if c ∈ named ∧ ((s.contextAt c).completedAt).isSome = true then .idle else s.contextAt c))) ∧
  (∀ (s : State) (context collect : Nat), (7 < context ∧ context ≠ 255) ∨ 1 < collect →
    exec (.executionRead context collect) s = .next (s.respond .range false [])) ∧
  ∀ (s : State) (c : Nat),
    (let opt := fun o : Option (List Byte) => o.elim [0#8] (fun l => 1#8 :: l)
     let counted := fun l : List (List Byte) => byteOf l.length :: l.flatten
     let leftMs := fun due : Nat => u32 ((due - s.now + 255) / 256)
     let result := fun r : Result => [match r with
       | .tripped => 1#8 | .already => 2#8 | .refused => 3#8 | .noSuchAction => 4#8 | .test => 5#8 | .missing => 6#8
       | .trippedLate => 7#8]
     let site := fun en : SiteEntry => [byteOf en.terminal, match en.status with
         | .awaiting => 1#8 | .reported => 2#8 | .ordered => 3#8 | .confirmed => 4#8 | .undelivered => 5#8
         | .missed => 6#8] ++ opt (en.generation.map u16) ++ opt (en.latency.map u32) ++
       counted (en.actions.map (fun a => byteOf a.1 :: opt (a.2.map result))) ++
       counted (en.extras.map (fun a => byteOf a.1 :: result a.2))
     let front := fun x : Execution => byteOf x.schemeId :: u16 x.generation ++
       (match x.cause with | .localFiring => [1#8] | .report t => [2#8, byteOf t] | .hold t => [3#8, byteOf t]) ++
       [if x.test then 1#8 else 0#8]
     let since := fun x : Execution => u32 (min 65535 ((s.now - x.firedAt) / 256))
     (s.contextAt c = .idle → s.contextEntry c = [byteOf c, 1]) ∧
     (∀ x w d, s.contextAt c = .opened x w d → s.contextEntry c = [byteOf c, 2] ++ front x ++ [0] ++ since x ++
       opt (w.map leftMs) ++ 1 :: leftMs d ++ counted (x.sites.map site)) ∧
     ∀ x t o, s.contextAt c = .complete x t o → s.contextEntry c = [byteOf c, 3] ++ front x ++
       [1, match o with | .full => 1#8 | .partTripped => 2#8 | .failed => 3#8 | .empty => 4#8] ++ since x ++ [0, 0] ++
       counted (x.sites.map site))

/-! ### Settings, modes, clearing -/

/-- SETTINGS WRITE in CONFIG: every named setting takes its value, clamped by its row, and the others stay; the deadline is
W + 10 where it would be below it; the response carries every setting, ADJUSTED where a value is stored otherwise or the
deadline raised (log entry 16). RANGE refuses a number that names no setting, a setting named twice, a terminal number
that is 0 or above 14, and a publish list of more than 14 or with such a terminal; a value of a wrong length, LENGTH.
The model's choice here: log entries 15 and 34. -/
def Obligations.SettingsWrite : Prop :=
  (∀ (s : State) (items : List (Nat × List Byte)), s.mode = .config → items.all settingLengthOk = true →
    (let bad := (∃ i ∈ items, i.1 = 0 ∨ 17 < i.1) ∨ ¬ (items.map Prod.fst).Nodup ∨
       (∃ a : Byte, (1, [a]) ∈ items ∧ (a.toNat = 0 ∨ 14 < a.toNat)) ∨
       (∃ l : List Byte, (8, l) ∈ items ∧ (14 < l.length ∨ ∃ a ∈ l, a.toNat = 0 ∨ 14 < a.toNat))
     let w := items.foldl Settings.take s.settings
     let st := { w with deadline := max w.deadline (w.reportWait + 10) }
     (bad → exec (.settingsWrite items) s = .next (s.respond .range false [])) ∧
     (¬ bad → exec (.settingsWrite items) s = .next ({ s with settings := st }.respond .done
       (items.any itemAdjusted || decide (w.deadline < w.reportWait + 10)) (settingsBytes st))))) ∧
  (∀ (s : State) (items : List (Nat × List Byte)), items.all settingLengthOk = false →
    exec (.settingsWrite items) s = .next (s.respond .length false [])) ∧
  (∀ (n : Nat) (l : List Byte),
    (n ∈ [1, 2, 14, 15, 16, 17] → (settingLengthOk (n, l) = true ↔ l.length = 1)) ∧
    (n ∈ [3, 4, 5, 6, 7, 9, 10, 11, 12, 13] → (settingLengthOk (n, l) = true ↔ l.length = 2)) ∧
    (n = 0 ∨ n = 8 ∨ 17 < n → settingLengthOk (n, l) = true)) ∧
  (∀ (st : Settings) (a b : Byte) (l : List Byte),
    (let v := nat16 a b
     let range := fun lo hi : Nat => max lo (min hi v)
     st.take (1, [a]) = { st with terminal := a.toNat } ∧
     st.take (2, [a]) = { st with hopLimit := max 1 (min 7 a.toNat) } ∧
     (∀ p ∈ [0, 1, 2, 3], ∃ r, st.take (p + 3, [a, b]) = { st with rates := st.rates.set p r } ∧
       r ∈ [64, 128, 256, 512, 1024, 2048] ∧ (v ≤ 2048 → v ≤ r) ∧ (2048 < v → r = 2048) ∧ (64 < r → r < 2 * v) ∧
       itemAdjusted (p + 3, [a, b]) = decide (r ≠ v)) ∧
     st.take (7, [a, b]) = { st with publishInterval := range 20 1000 } ∧
     st.take (9, [a, b]) = { st with noticeRepeat := range 10 100 } ∧
     st.take (10, [a, b]) = { st with remoteHold := range 30 500 } ∧
     st.take (11, [a, b]) = { st with reportWait := range 2 100 } ∧
     st.take (12, [a, b]) = { st with deadline := range 20 1000 } ∧
     st.take (13, [a, b]) = { st with retryInterval := range 10 200 } ∧
     st.take (14, [a]) = { st with retryCount := max 1 (min 15 a.toNat) } ∧
     st.take (15, [a]) = { st with degrade := max 1 (min 100 a.toNat) } ∧
     st.take (16, [a]) = { st with fail := max 1 (min 100 a.toNat) } ∧
     st.take (17, [a]) = { st with clear := max 1 a.toNat } ∧
     (∃ pl : List Nat, st.take (8, l) = { st with publishList := pl } ∧ pl.Nodup ∧
       (∀ t, t ∈ pl ↔ t ∈ l.map BitVec.toNat) ∧ pl.Sublist (l.map BitVec.toNat) ∧
       pl.Pairwise (fun t t' => (l.map BitVec.toNat).idxOf t < (l.map BitVec.toNat).idxOf t') ∧
       itemAdjusted (8, l) = decide (pl ≠ l.map BitVec.toNat)) ∧
     settingsBytes st = [byteOf st.terminal, byteOf st.hopLimit] ++ st.rates.flatMap u16 ++ u16 st.publishInterval ++
       st.publishList.map byteOf ++ u16 st.noticeRepeat ++ u16 st.remoteHold ++ u16 st.reportWait ++ u16 st.deadline ++
       u16 st.retryInterval ++ [byteOf st.retryCount, byteOf st.degrade, byteOf st.fail, byteOf st.clear] ∧
     itemAdjusted (1, [a]) = false ∧
     (∀ r ∈ [(2, 1, 7), (14, 1, 15), (15, 1, 100), (16, 1, 100), (17, 1, 255)],
       itemAdjusted (r.1, [a]) = decide (a.toNat < r.2.1 ∨ r.2.2 < a.toNat)) ∧
     ∀ r ∈ [(7, 20, 1000), (9, 10, 100), (10, 30, 500), (11, 2, 100), (12, 20, 1000), (13, 10, 200)],
       itemAdjusted (r.1, [a, b]) = decide (v < r.2.1 ∨ r.2.2 < v)))

/-- SETTINGS COMPLETE moves CONFIG to RUN and starts the publication timer, with a terminal number; RECONFIGURE moves RUN
to CONFIG where the tables are empty and the ports CLOSED; TABLE CLEAR empties the tables where nothing is executing, and
counts what it removed; MAINTENANCE ENTER, taken by a part at rest in which nothing is ARMED, FIRED, OPEN or PULSING, changes
the mode alone. Else each is refused with STATE. The model's choice here: log entry 15. -/
def Obligations.ModeCommands : Prop :=
  ∀ s : State,
    (s.mode = .config → s.own ≠ 0 → exec .settingsComplete s =
      .next ({ s with mode := .run, publication := some (s.now + msTicks s.settings.publishInterval) }.respond
        .done false [2#8])) ∧
    (s.mode = .config → s.own = 0 → exec .settingsComplete s = .next (s.respond .state false [])) ∧
    (s.mode = .run → (∀ sc, sc ∉ s.held) → s.actions = [] → (∀ q ∈ s.slots, q.source = .none) →
      (∀ p ∈ s.ports, p.state = .closed) → ∃ t : State, exec .reconfigure s = .next (t.respond .done false []) ∧
        t = { s with mode := .config, publication := none, contexts := t.contexts } ∧
        t.contexts.length = s.contexts.length ∧
        ∀ c, t.contextAt c = if ((s.contextAt c).completedAt).isSome = true then .idle else s.contextAt c) ∧
    (s.mode = .run → (∃ sc, sc ∈ s.held) ∨ s.actions ≠ [] ∨ (∃ q ∈ s.slots, q.source ≠ .none) ∨
      (∃ p ∈ s.ports, p.state ≠ .closed) → exec .reconfigure s = .next (s.respond .state false [])) ∧
    (s.mode = .run → (∀ c ∈ s.contexts, c.isOpen = false) → (∀ o ∈ s.outputs, o.pulse = none) →
      ∃ t : State, exec .tableClear s = .next (t.respond .done false [byteOf s.held.length, byteOf s.actions.length]) ∧
        t = { s with
          schemes := List.replicate s.schemes.length none, actions := [], remote := [],
          slots := List.replicate s.slots.length emptySlot, contexts := List.replicate s.contexts.length .idle }) ∧
    (s.mode = .run → (∃ c ∈ s.contexts, c.isOpen = true) ∨ (∃ o ∈ s.outputs, o.pulse ≠ none) →
      exec .tableClear s = .next (s.respond .state false [])) ∧
    (s.mode = .run → s.AtRest → (∀ sc ∈ s.held, sc.life ≠ .armed ∧ sc.life ≠ .fired) →
      (∀ c ∈ s.contexts, c.isOpen = false) → (∀ o ∈ s.outputs, o.pulse = none) →
      exec .maintenanceEnter s = .next ({ s with mode := .maintenance }.respond .done false [])) ∧
    (s.mode = .run → (∃ sc ∈ s.held, sc.life = .armed ∨ sc.life = .fired) ∨ (∃ c ∈ s.contexts, c.isOpen = true) ∨
      (∃ o ∈ s.outputs, o.pulse ≠ none) → exec .maintenanceEnter s = .next (s.respond .state false []))

/-- MAINTENANCE EXIT is not refused in MAINTENANCE: the mode becomes RUN, every port in loopback is CLOSED and its loopback
clear, every other port stands but for its queues and transmitter, no output shows a test indication, no test context is
OPEN and no copy withholds a state. The model's choice here: log entry 20. -/
def Obligations.MaintenanceExitEffects : Prop :=
  ∀ s : State, s.mode = .maintenance → ∃ (t : State) (body : List Byte), exec .maintenanceExit s = .next (t.respond .done false body) ∧
    t.mode = .run ∧ t.ports.length = s.ports.length ∧
    (∀ (n : Nat) (x : Port), s.ports[n]? = some x →
      (x.loopback = true → ∃ y, t.ports[n]? = some y ∧ y.state = .closed ∧ (x.state ≠ .closed → y.loopback = false)) ∧
      (x.loopback = false → (t.ports[n]?).map Port.fixed = some x.fixed)) ∧
    t.outputs = s.outputs.map (fun o => { o with indication := false }) ∧
    (∀ c ∈ t.contexts, ∀ x, c.openData = some x → x.test = false) ∧
    (∀ sc ∈ t.held, ∀ c, sc.part = .copy c → c.withheld = none) ∧
    t.settings = s.settings ∧ t.slots = s.slots ∧ t.inputs = s.inputs

/-- MAINTENANCE EXIT of a part at rest with no port in loopback and no test context OPEN: in RUN each copy takes its
withheld state, FIRED with a summary of entry CARRIED, every home record is evaluated, and nothing fires. The model's
choice here: log entries 4 and 45. -/
def Obligations.MaintenanceExit : Prop :=
  ∀ s : State, s.mode = .maintenance → s.AtRest → (∀ p ∈ s.ports, p.loopback = false) →
    (∀ c ∈ s.contexts, ∀ x, c.openData = some x → x.test = false) →
    (let release := fun sc : Scheme =>
       match sc.part with
       | .home _ => sc
       | .copy c =>
         match c.withheld with
         | none => sc
         | some l => { sc with
             life := l,
             part := .copy {
               summary := if l = .fired then some { generation := sc.generation, entry := .carried, results := [] } else none,
               withheld := none } }
     let withheldFired := fun i => (s.schemeAt i).any (fun sc =>
       match sc.part with
       | .home _ => false
       | .copy c => c.withheld == some .fired)
     let homes := s.schemeSlots.filter (fun i => (s.schemeAt i).any Scheme.isHome)
     ∃ t, exec .maintenanceExit s = .next (t.respond .done false (u8 (t.armedHomes - s.armedHomes))) ∧
      Evaluated s { s with
        mode := .run, outputs := s.outputs.map (fun o => { o with indication := false }),
        schemes := s.schemes.map (Option.map release) } t
        { evals := homes.reverse, marks := (s.schemeSlots.filter withheldFired).reverse })

/-! ### Record commands -/

/-- RECORD LOAD: the checks in order; a load for an id that is not held creates the record in the lowest EMPTY slot, one for
a DORMANT, SPENT or BLOCKED home record replaces it in its slot; both are evaluated in that event. A creation wants a
round where there are participants; a replacement bumps the generation, keeps the entries of the terminals that stay and
sends DISOWN to each that leaves. The model's choice here: log entries 4, 17, 45 and 49. -/
def Obligations.RecordLoad : Prop :=
  ∀ (b : LoadBody) (s : State), s.mode ≠ .config → b.schemeId ≠ 0 →
    (let sat := fun v : Int => max (-60000) (min 60000 v)
     let window := if b.mode = 2 ∧ b.window ≠ 0 then max 5 (min 2000 b.window) else 0
     let form : Form :=
       if b.source = 1 then .computed b.slot (sat b.onAt) (sat b.offAt) (sat b.limit) (min 4095 b.k)
       else if b.slot = 255 then .fixed false
       else .measured false b.slot (sat b.limit) (min 4095 b.k)
     let parts := terminals.filter (fun t =>
       t != s.own && (b.refs.any (fun r => r.terminal == t) || b.actions.any (fun a => a.site == t)))
     let entry := fun t : Nat => ({
       terminal := t, status := .behind, acked := none, tries := 0, retry := none, owesClose := false,
       reason := none } : Participant)
     let part : HomePart := {
       form := form, margin := min 10000 b.m, floor := b.f, cap := min b.actions.length b.cap, group := b.group,
       armingResult := false, requirement := b.f, held := b.f, sum := 0, shortfall := false, frozen := false,
       unsettled := false, outcome := .none, statuses := parts.map entry, round := .none, dirty := false,
       lastFiring := 0 }
     let fresh : Scheme := {
       id := b.schemeId, home := s.own, generation := 1, life := .dormant,
       trigger := { refs := b.refs, all := decide (b.mode = 2), window := window },
       actions := b.actions, selection := [], participants := parts,
       posture := if b.posture = 1 then .disarm else .hold, interval := min 600 b.interval,
       autoDisarm := decide (b.autoDisarm ≠ 0), stale := false, releaseNeeded := false,
       deadline := if min 600 b.interval = 0 then .stopped
         else .running (s.now + msTicks (min 600 b.interval * 1000)),
       part := .home part }
     let adjusted := decide ((b.source = 1 ∧ (sat b.onAt ≠ b.onAt ∨ sat b.offAt ≠ b.offAt)) ∨
       ((b.source = 1 ∨ b.slot ≠ 255) ∧ (sat b.limit ≠ b.limit ∨ 4095 < b.k)) ∨ 10000 < b.m ∨
       (b.mode = 2 ∧ window ≠ b.window) ∨ b.actions.length < b.cap ∨ 600 < b.interval)
     let sound := (b.source = 1 ∨ b.source = 2) ∧ (b.slot ≤ 31 ∨ b.slot = 255) ∧ (b.source = 1 → b.slot ≠ 255) ∧
       1 ≤ b.refs.length ∧ b.refs.length ≤ 4 ∧
       (∀ r ∈ b.refs, 1 ≤ r.terminal ∧ r.terminal ≤ 14 ∧ r.input ≤ 15) ∧ b.refs.Nodup ∧ (b.mode = 1 ∨ b.mode = 2) ∧
       1 ≤ b.actions.length ∧ b.actions.length ≤ 12 ∧
       (∀ r ∈ b.actions, 1 ≤ r.site ∧ r.site ≤ 14 ∧ 1 ≤ r.number ∧ r.number ≤ 96) ∧ b.actions.Nodup ∧ b.cap ≠ 0 ∧
       (b.posture = 1 ∨ b.posture = 2) ∧ b.group ≤ 7 ∧ (b.source = 1 → sat b.offAt ≤ sat b.onAt)
     let resolved := ∀ r ∈ b.actions, (s.findAction r).isSome = true
     (s.findScheme b.schemeId = none →
       (¬ sound → exec (.recordLoad b) s = .next (s.respond .range false [])) ∧
       (sound → ¬ resolved → exec (.recordLoad b) s = .next (s.respond .unknown false [])) ∧
       (sound → resolved → 32 < s.remoteCountWith none b.refs ∨ s.emptySlotNo = none →
         exec (.recordLoad b) s = .next (s.respond .full false [])) ∧
       ∀ i, sound → resolved → s.remoteCountWith none b.refs ≤ 32 → s.emptySlotNo = some i → s.AtRest →
         Answers (.recordLoad b) s (s.putScheme i (some fresh)).syncRemote
           { evals := [i], wants := if parts = [] then [] else [i] } adjusted (fun t => t.loadReply i)) ∧
     ∀ i sc h, s.findScheme b.schemeId = some (i, sc) → sc.part = .home h →
       sc.life = .dormant ∨ sc.life = .spent ∨ sc.life = .blocked →
       (¬ sound → exec (.recordLoad b) s = .next (s.respond .range false [])) ∧
       (sound → ¬ resolved → exec (.recordLoad b) s = .next (s.respond .unknown false [])) ∧
       (sound → resolved → 32 < s.remoteCountWith (some i) b.refs →
         exec (.recordLoad b) s = .next (s.respond .full false [])) ∧
       (sound → resolved → s.remoteCountWith (some i) b.refs ≤ 32 → s.AtRest →
         Answers (.recordLoad b) s (s.putScheme i (some { fresh with
             generation := sc.generation, life := if sc.life = .blocked then .blocked else .dormant,
             selection := sc.selection, deadline := if sc.life = .blocked then .stopped else fresh.deadline,
             part := .home { part with
               outcome := h.outcome, unsettled := h.unsettled, round := h.round, dirty := h.dirty,
               lastFiring := h.lastFiring, statuses := parts.map (fun t => (h.part t).getD (entry t)) } })).syncRemote
           { evals := [i], bumps := [i],
             out := (sc.participants.filter (fun t => !parts.contains t)).map (fun t => s.disownFrame t sc.id) }
           adjusted (fun t => t.loadReply i)))

/-- RECORD TUNE, ARM, DISARM, BLOCK, UNBLOCK and RESET SPENT on a home record of a part at rest: what each sets in the
record, which is then evaluated in the same event; ARM on an ARMED and BLOCK on a BLOCKED record change nothing. The
model's choice here: log entries 4, 45 and 49. -/
def Obligations.LifeCommands : Prop :=
  ∀ (s : State) (id i : Nat) (sc : Scheme) (h : HomePart), s.mode ≠ .config → s.AtRest → id ≠ 0 →
    s.findScheme id = some (i, sc) → sc.part = .home h →
    (let set := fun (sc1 : Scheme) (h1 : HomePart) => s.putScheme i (some { sc1 with part := .home h1 })
     let out := { h with form := h.form.withFlag false, armingResult := if h.form.directed then h.armingResult else false }
     let service := { sc with
       life := .dormant,
       deadline := if sc.interval = 0 then .stopped else .running (s.now + msTicks (sc.interval * 1000)) }
     (∀ onAt offAt limit k m f, sc.life ≠ .fired → sc.life ≠ .retiring →
       (let sat := fun v : Int => max (-60000) (min 60000 v)
        let form : Form :=
          match h.form with
          | .computed q _ _ _ _ => .computed q (sat onAt) (sat offAt) (sat limit) (min 4095 k)
          | .measured flag q _ _ => .measured flag q (sat limit) (min 4095 k)
          | .fixed flag => .fixed flag
        let adjusted := decide ((h.form.directed = false ∧ (sat onAt ≠ onAt ∨ sat offAt ≠ offAt)) ∨
          (h.form.monitored ≠ none ∧ (sat limit ≠ limit ∨ 4095 < k)) ∨ 10000 < m)
        (h.form.directed = false ∧ sat onAt < sat offAt →
          exec (.recordTune id onAt offAt limit k m f) s = .next (s.respond .range false [])) ∧
        (h.form.directed = true ∨ sat offAt ≤ sat onAt →
          Answers (.recordTune id onAt offAt limit k m f) s
            (set sc { h with form := form, margin := min 10000 m, floor := f }) { evals := [i] } adjusted
            (fun t => t.tuneReply i)))) ∧
     (h.form.directed = true → sc.life = .dormant →
       Answers (.arm id) s (set sc { h with form := h.form.withFlag true }) { evals := [i] } false (fun t => t.lifeReply i)) ∧
     (h.form.directed = true → sc.life = .armed →
       exec (.arm id) s = .next (s.respond .done false (2#8 :: u16 sc.generation))) ∧
     (h.form.directed = true → sc.life ≠ .fired → sc.life ≠ .retiring →
       Answers (.disarm id) s (set sc { h with form := h.form.withFlag false }) { evals := [i] } false
         (fun t => t.lifeReply i)) ∧
     (sc.life = .dormant ∨ sc.life = .armed ∨ sc.life = .spent →
       Answers (.block id) s (set { sc with life := .blocked, deadline := .stopped } out) { evals := [i] } false
         (fun t => t.lifeReply i)) ∧
     (sc.life = .blocked → exec (.block id) s = .next (s.respond .done false (5#8 :: u16 sc.generation))) ∧
     (sc.life = .blocked →
       Answers (.unblock id) s (set service h) { evals := [i] } false (fun t => t.lifeReply i)) ∧
     (sc.life = .spent →
       Answers (.resetSpent id) s (set service h) { evals := [i] } false (fun t => t.lifeReply i)) ∧
     ∀ (t : State) (sc1 : Scheme), t.schemeAt i = some sc1 →
       t.lifeReply i = byteOf (lifeCode sc1.life) :: u16 sc1.generation ∧
       t.tuneReply i = u16 sc1.generation ++ [byteOf (lifeCode sc1.life)])

/-- RETIRE: the record becomes RETIRING, its deadline stopped, every participant BEHIND and sent a RETIRE; where none is
reachable its slot is EMPTY at once, with RETIRE INCOMPLETE where there was one. RETIRE ACK from a participant: it is
done with, a summary is a stray report, and the last one to be awaited empties the slot. The model's choice here: log
entries 4, 6, 18 and 45. -/
def Obligations.RetireRound : Prop :=
  (∀ (s : State) (id i : Nat) (sc : Scheme) (h : HomePart), s.mode ≠ .config → s.AtRest → id ≠ 0 →
    s.findScheme id = some (i, sc) → sc.part = .home h → sc.life = .dormant ∨ sc.life = .spent ∨ sc.life = .blocked →
    ((∃ p ∈ h.statuses, s.reachable p.terminal = true) → ∃ t,
      exec (.retire id) s = .next ({ t with freeIndex := s.freeIndex + 1 }.respond .done false (6#8 :: u16 sc.generation)) ∧
      Evaluated s (s.putScheme i (some { sc with
          life := .retiring, deadline := .stopped,
          part := .home { h with
            round := .retire, dirty := false, statuses := h.statuses.map (fun p =>
              if s.reachable p.terminal then
                { p with status := .behind, tries := 1, reason := none,
                         retry := some (s.now + msTicks s.settings.retryInterval) }
              else { p with status := .lost, tries := 0, reason := none, retry := none }) } })) t
        { out := (h.statuses.filter (fun p => s.reachable p.terminal)).map (fun p =>
            s.originate .retire p.terminal (u8 sc.id) .block) }) ∧
    ((∀ p ∈ h.statuses, s.reachable p.terminal = false) → ∃ g : BitVec 16,
      exec (.retire id) s = .next ({ ((s.putScheme i none).raiseIf (!h.statuses.isEmpty) .retireIncomplete sc.id).syncRemote
        with freeIndex := s.freeIndex + 1 }.respond .done false (0#8 :: u16 g.toNat)))) ∧
  ∀ (s v : State) (port source : Nat) (body : List Byte) (id : Nat) (summary : Option FiringSummary),
    s.AtRest → Received s port source body v → readRetireAck body = some (id, summary) →
    (v.findHome id = none → exec (.retireAck port source body) s = .next (v.dispatchFrame (v.disownFrame source id))) ∧
    ∀ i sc h, v.findHome id = some (i, sc, h) →
      ((h.part source).isNone = true →
        exec (.retireAck port source body) s = .next (v.dispatchFrame (v.disownFrame source id))) ∧
      ((h.part source).isSome = true → sc.life ≠ .retiring → exec (.retireAck port source body) s = .next v) ∧
      ((h.part source).isSome = true → sc.life = .retiring →
        (let statuses := h.statuses.map (fun p =>
           if p.terminal = source then
             if p.status = .behind ∨ p.status = .lost then { p with status := .current, retry := none, reason := none }
             else { p with retry := none }
           else p)
         let h1 := { h with statuses := statuses, outcome := if summary.isSome then .stray else h.outcome }
         let u := (v.putScheme i (some { sc with part := .home h1 })).raiseIf summary.isSome .strayFiring sc.id
         (h.round ≠ .retire ∨ (∃ p ∈ statuses, p.status = .behind) →
           Happens (.retireAck port source body) s u {}) ∧
         (h.round = .retire → (∀ p ∈ statuses, p.status ≠ .behind) →
           exec (.retireAck port source body) s = .next (((u.putScheme i none).raiseIf
             (statuses.any (fun p => p.status == .lost)) .retireIncomplete sc.id).syncRemote))))

/-- REFRESH and REFRESH GROUP clear STALE, restart the deadline where it runs, evaluate each record and forward the
refresh. A home record's deadline expiry makes it STALE, with LAPSE and an evaluation, or leaves the lapse pending in
FIRED; a copy's makes it STALE, with LAPSE. An expiry that is not due does not happen. The model's choice here: log
entries 4, 33 and 45. -/
def Obligations.RefreshAndLapse : Prop :=
  (let refreshed := fun (s : State) (sc : Scheme) => { sc with
     stale := false,
     deadline := if sc.life = .dormant ∨ sc.life = .armed ∨ sc.life = .fired then
         (if sc.interval = 0 then .stopped else .running (s.now + msTicks (sc.interval * 1000)))
       else sc.deadline }
   (∀ (s : State) (id i : Nat) (sc : Scheme), s.mode ≠ .config → s.AtRest → id ≠ 0 →
     s.findScheme id = some (i, sc) → sc.isHome = true → sc.life ≠ .retiring →
     Answers (.refresh id) s (s.putScheme i (some (refreshed s sc))) { evals := [i], refreshed := [i] } false
       (fun t => t.lifeReply i)) ∧
   (∀ (s : State) (g : Nat), s.mode ≠ .config → 7 < g →
     exec (.refreshGroup g) s = .next (s.respond .range false [])) ∧
   ∀ (s : State) (g : Nat), s.mode ≠ .config → s.AtRest → g ≤ 7 →
     (let inGroup : Scheme → Bool := fun sc =>
        match sc.part with
        | .home h => h.group == g && sc.life != .retiring
        | .copy _ => false
      let slots := s.schemeSlots.filter (fun i => (s.schemeAt i).any inGroup)
      Answers (.refreshGroup g) s
        { s with schemes := s.schemes.map (Option.map (fun sc => if inGroup sc then refreshed s sc else sc)) }
        { evals := slots.reverse, refreshed := slots.reverse } false (fun _ => [byteOf slots.length]))) ∧
  (∀ (s : State) (id i : Nat) (sc : Scheme) (h : HomePart), s.findHome id = some (i, sc, h) →
    (s.lapsed sc.deadline = false → exec (.refreshDeadlineExpiry id) s = .next s) ∧
    (s.lapsed sc.deadline = true → sc.life = .fired →
      exec (.refreshDeadlineExpiry id) s = .next (s.putScheme i (some { sc with deadline := .pending }))) ∧
    (s.AtRest → s.lapsed sc.deadline = true → sc.life = .dormant ∨ sc.life = .armed →
      Happens (.refreshDeadlineExpiry id) s
        ((s.putScheme i (some { sc with stale := true, deadline := .stopped })).raise .lapse id) { evals := [i] })) ∧
  ∀ (s : State) (id i : Nat) (sc : Scheme) (c : CopyPart), s.findCopy id = some (i, sc, c) →
    (s.lapsed sc.deadline = false → exec (.copyDeadlineExpiry id) s = .next s) ∧
    (s.AtRest → s.lapsed sc.deadline = true → Happens (.copyDeadlineExpiry id) s
      ((s.putScheme i (some { sc with stale := true, deadline := .stopped })).raise .lapse id) {})

/-- The removal of a copy empties its slot: DROP COPY, but of a FIRED copy; DISOWN from its home, with COPY DISOWNED;
RETIRE from its home, acknowledged with the firing summary of a FIRED copy. A DISOWN or RETIRE of no such copy removes
nothing, and the RETIRE is acknowledged. The model's choice here: log entries 4 and 45. -/
def Obligations.CopyRemoval : Prop :=
  (∀ (s : State) (id i : Nat) (sc : Scheme), s.mode ≠ .config → id ≠ 0 → s.findScheme id = some (i, sc) →
    sc.isHome = false →
    (sc.life = .fired → exec (.dropCopy id) s = .next (s.respond .state false [])) ∧
    (sc.life ≠ .fired → s.AtRest → Answers (.dropCopy id) s (s.putScheme i none).syncRemote {} false (fun _ => []))) ∧
  ∀ (s v : State) (port source : Nat) (b : Byte), s.AtRest → Received s port source [b] v →
    (∀ i sc c, v.copyOf b.toNat source = some (i, sc, c) →
      Happens (.disown port source [b]) s ((v.putScheme i none).raise .copyDisowned b.toNat).syncRemote {} ∧
      Happens (.retireFrame port source [b]) s (v.putScheme i none).syncRemote
        { out := [v.originate .retireAck source (retireAckBody b.toNat
            (if sc.life = .fired then
              some (c.summary.getD { generation := 0, entry := .carried, results := [] }) else none)) .block] }) ∧
    (v.copyOf b.toNat source = none →
      exec (.disown port source [b]) s = .next v ∧
      exec (.retireFrame port source [b]) s =
        .next (v.dispatchFrame (v.originate .retireAck source (retireAckBody b.toNat none) .block)))

/-! ### Quantities, actions, inputs -/

/-- The commands and events of the quantity store on a part at rest: what each does to its slots, which it hands on in that
event; QUANTITY STALE for each change from GOOD to STALE. The model's choice here: log entries 4, 12, 15, 20, 33 and
45. -/
def Obligations.QuantityEvents : Prop :=
  let sat := fun v : Int => max (-60000) (min 60000 v)
  (∀ (s : State) (slot source terminal peerSlot limit publish : Nat), s.mode ≠ .config →
    (let bad := 31 < slot ∨ 2 < source ∨
       (source = 2 ∧ (terminal = 0 ∨ 15 ≤ terminal ∨ terminal = s.own ∨ 31 < peerSlot))
     let named := ∃ sc ∈ s.held, (sc.life = .armed ∨ sc.life = .fired) ∧
       ∃ h, sc.part = .home h ∧ h.form.monitored = some slot
     let fresh : QSlot := {
       source := if source = 0 then .none else if source = 1 then .station else .peer terminal peerSlot,
       value := 0, quality := .unset, goodAt := none,
       limit := if source = 0 then 1000 else max 20 (min 10000 limit),
       publish := decide (source ≠ 0 ∧ publish ≠ 0), clamped := false }
     (bad → exec (.quantitySource slot source terminal peerSlot limit publish) s = .next (s.respond .range false [])) ∧
     (¬ bad → named →
       exec (.quantitySource slot source terminal peerSlot limit publish) s = .next (s.respond .state false [])) ∧
     (¬ bad → ¬ named → s.AtRest →
       Answers (.quantitySource slot source terminal peerSlot limit publish) s (s.modSlot slot (fun _ => fresh))
         { quantities := [slot] } (decide (source ≠ 0 ∧ max 20 (min 10000 limit) ≠ limit)) (fun t => t.slotEntry slot)))) ∧
  (∀ (s : State) (entries : List (Nat × Int)), s.mode ≠ .config →
    (let slots := entries.map Prod.fst
     let sound := 1 ≤ slots.length ∧ slots.length ≤ 8 ∧ (∀ q ∈ slots, q ≤ 31) ∧ slots.Nodup
     (¬ sound → exec (.quantityPost entries) s = .next (s.respond .range false [])) ∧
     (sound → (∃ q ∈ slots, (s.slotAt q).source ≠ .station) →
       exec (.quantityPost entries) s = .next (s.respond .state false [])) ∧
     (sound → (∀ q ∈ slots, (s.slotAt q).source = .station) → s.AtRest →
       Answers (.quantityPost entries) s
         (entries.foldl (fun u p => u.modSlot p.1 (fun x => { x with
           value := sat p.2, quality := .good, goodAt := some s.now, clamped := decide (sat p.2 ≠ p.2) })) s)
         { quantities := slots } (entries.any (fun p => decide (sat p.2 ≠ p.2)))
         (fun t => entries.flatMap (fun p => i32 (t.slotAt p.1).value))))) ∧
  (∀ (s : State) (slots : List Nat), s.mode ≠ .config →
    (let sound := 1 ≤ slots.length ∧ slots.length ≤ 8 ∧ (∀ q ∈ slots, q ≤ 31) ∧ slots.Nodup
     (¬ sound → exec (.quantityInvalidate slots) s = .next (s.respond .range false [])) ∧
     (sound → (∃ q ∈ slots, (s.slotAt q).source = .none) →
       exec (.quantityInvalidate slots) s = .next (s.respond .state false [])) ∧
     (sound → (∀ q ∈ slots, (s.slotAt q).source ≠ .none) → s.AtRest →
       Answers (.quantityInvalidate slots) s
         (slots.foldl (fun u q => u.modSlot q (fun x => { x with quality := .invalid })) s)
         { quantities := slots.filter (fun q => (s.slotAt q).quality != .invalid) } false (fun _ => [])))) ∧
  (∀ (s : State) (slot : Nat), slot < 32 →
    (let due := (s.slotAt slot).quality = .good ∧
       ∃ t, (s.slotAt slot).goodAt = some t ∧ t + msTicks (s.slotAt slot).limit ≤ s.now
     (¬ due → exec (.slotExpiry slot) s = .next s) ∧
     (due → s.AtRest → Happens (.slotExpiry slot) s
       ((s.modSlot slot (fun x => { x with quality := .stale })).raise .quantityStale slot) { quantities := [slot] }))) ∧
  ∀ (s v : State) (port source : Nat) (body : List Byte) (entries : List (Nat × Int × Nat)), s.AtRest →
    Received s port source body v → readQuantity body = some entries →
    (let takers := fun m : Nat × Int × Nat =>
       if (qualityOfCode m.2.2).isSome ∧ m.1 ≤ 31 then
         (List.range v.slots.length).filter (fun q => (v.slotAt q).source == .peer source m.1)
       else []
     let apply := fun (m : Nat × Int × Nat) (u : State) (q : Nat) =>
       match qualityOfCode m.2.2 with
       | some .good => u.modSlot q (fun x => { x with
           value := sat m.2.1, quality := .good, goodAt := some s.now, clamped := decide (sat m.2.1 ≠ m.2.1) })
       | some .stale => (u.modSlot q (fun x => { x with
           value := sat m.2.1, quality := .stale, clamped := decide (sat m.2.1 ≠ m.2.1) })).raiseIf
             ((u.slotAt q).quality == .good) .quantityStale q
       | some .invalid => u.modSlot q (fun x => { x with quality := .invalid })
       | _ => u
     Happens (.quantityFrame port source body) s
       (entries.foldl (fun u m => (takers m).foldl (apply m) u) v) { quantities := entries.flatMap takers })

/-- At the publication timer's expiry the timer restarts; QUANTITY frames of the published slots go to each terminal of the
publish list, and ACTION STATUS frames to each home, of up to 8 and 12 entries; nothing else changes. The homes are those of
the copies whose action list names the action. The effective value of a LOCAL action is its GOOD slot's value, 0 where
negative, else the nominal value, that of a mirror the live value while FRESH, else the nominal one; a mirror is UNREACHABLE
with its site, UNKNOWN before its first publication, else as last published. The model's choice here: log entry 33. -/
def Obligations.Publication : Prop :=
  (∀ (s : State) (number : Nat), (s.publishHomes number).Sublist terminals ∧
    ∀ t, t ∈ s.publishHomes number ↔ t ∈ terminals ∧
      ∃ sc ∈ s.held, sc.isHome = false ∧ sc.home = t ∧ { site := s.own, number := number } ∈ sc.actions) ∧
  (∀ (s : State) (a : ActionEntry),
    (∀ o slot pulse av, a.kind = .localEntry o slot pulse av → (s.availability a = match av with
        | .inService => .inService | .blocked => .blocked | .tripped => .tripped) ∧
      (∀ q x, slot = some q → s.slots[q]? = some x → x.quality = .good → x.value ≤ 60000 →
        s.liveValue a = some x.value.toNat ∧ s.effective a = x.value.toNat) ∧
      ((∀ q x, slot = some q → s.slots[q]? = some x → x.quality ≠ .good) →
        s.liveValue a = none ∧ s.effective a = a.nominal)) ∧
    ∀ published live fresh taken, a.kind = .mirror published live fresh taken → s.liveValue a = live ∧
      (fresh = none → s.effective a = a.nominal) ∧
      (fresh ≠ none → ∀ v, live = some v → s.effective a = v) ∧
      (s.reachable a.ref.site = false → s.availability a = .unreachable) ∧
      (s.reachable a.ref.site = true → s.availability a = match published with
        | none => .unknown | some .inService => .inService | some .blocked => .blocked | some .tripped => .tripped)) ∧
  ∀ s : State, s.AtRest →
    (∀ due, s.publication = some due → due ≤ s.now →
      (let u := { s with publication := some (s.now + msTicks s.settings.publishInterval) }
       let slots := (List.range s.slots.length).filterMap (fun q =>
         if (s.slotAt q).publish = true ∧ (s.slotAt q).quality ≠ .unset then
           some (q, (s.slotAt q).value, (s.slotAt q).quality) else none)
       let quantities := (s.settings.publishList.filter (fun t => t != s.own)).flatMap (fun t =>
         (chunks 8 slots).map (fun l => s.originate .quantity t (quantityBody l) .block))
       let statuses := terminals.flatMap (fun t =>
         (chunks 12 ((s.actions.filter (fun a => a.isLocal && (s.publishHomes a.ref.number).contains t)).filterMap
           s.statusEntry)).map (fun l => s.originate .actionStatus t (actionStatusBody l) .block))
       exec .publicationTimerExpiry s = .next ((quantities ++ statuses).foldl State.dispatchFrame u))) ∧
    ((∀ due, s.publication = some due → s.now < due) → exec .publicationTimerExpiry s = .next s)

/-- The commands and events of the action table and the trip outputs on a part at rest: ACTION LOAD with its checks in order;
ACTION BLOCK, RESTORE and REMOVE, each with RANGE, UNKNOWN and STATE; the freshness expiry, an ACTION STATUS frame and the
end of a pulse. The model's choice here: log entries 4, 15, 33 and 45. -/
def Obligations.ActionEvents : Prop :=
  (∀ (s : State) (kind site number output valueSlot nominal pulse : Nat), s.mode ≠ .config →
    (let r : ActionRef := { site := site, number := number }
     let load : Instr := .actionLoad kind site number output valueSlot nominal pulse
     let held := (s.findAction r).isSome = true
     let locals := (s.actions.filter ActionEntry.isLocal).length
     let bad := (kind ≠ 1 ∧ kind ≠ 2) ∨ site = 0 ∨ 14 < site ∨ number = 0 ∨ 96 < number ∨
       (kind = 1 ∧ site ≠ s.own) ∨ (kind = 2 ∧ site = s.own) ∨
       (kind = 1 ∧ (15 < output ∨ (31 < valueSlot ∧ valueSlot ≠ 255))) ∨
       (kind = 1 ∧ ∃ a ∈ s.actions, a.output = some output ∧ a.ref ≠ r)
     let busy := (held ∧ ∃ sc ∈ s.held, sc.isHome = true ∧ (sc.life = .armed ∨ sc.life = .fired) ∧ r ∈ sc.actions) ∨
       ∃ a o, s.findAction r = some a ∧ a.output = some o ∧ (s.outputAt o).pulse ≠ none
     let full := ¬ held ∧ (96 ≤ s.actions.length ∨ (kind = 1 ∧ 16 ≤ locals))
     let duration := (max 20 (min 1000 pulse) + 9) / 10 * 10
     let entry : ActionEntry := {
       ref := r, nominal := nominal,
       kind := if kind = 1 then
           .localEntry output (if valueSlot = 255 then none else some valueSlot) duration .inService
         else
           match s.findAction r with
           | some { kind := .mirror p l f t, .. } => .mirror p l f t
           | _ => .mirror none none none none }
     (bad → exec load s = .next (s.respond .range false [])) ∧
     (¬ bad → busy → exec load s = .next (s.respond .state false [])) ∧
     (¬ bad → ¬ busy → full → exec load s = .next (s.respond .full false [])) ∧
     (¬ bad → ¬ busy → ¬ full → s.AtRest →
       Answers load s { s with actions := putEntry entry s.actions } {} (decide (kind = 1 ∧ duration ≠ pulse))
         (fun t => t.actionReply r)))) ∧
  (∀ (s : State) (site number : Nat), s.mode ≠ .config →
    (∀ cmd ∈ [Instr.actionBlock site number, .actionRestore site number, .actionRemove site number],
      (site = 0 ∨ 14 < site ∨ number = 0 ∨ 96 < number → exec cmd s = .next (s.respond .range false [])) ∧
      (1 ≤ site → site ≤ 14 → 1 ≤ number → number ≤ 96 → s.findAction { site := site, number := number } = none →
        exec cmd s = .next (s.respond .unknown false [])))) ∧
  (∀ (s : State) (site number : Nat) (a : ActionEntry), s.mode ≠ .config →
    1 ≤ site ∧ site ≤ 14 ∧ 1 ≤ number ∧ number ≤ 96 → s.findAction { site := site, number := number } = some a →
    (let r : ActionRef := { site := site, number := number }
     (a.isLocal = false → exec (.actionBlock site number) s = .next (s.respond .state false []) ∧
       exec (.actionRestore site number) s = .next (s.respond .state false [])) ∧
     (a.isLocal = true → s.AtRest →
       Answers (.actionBlock site number) s (s.modAction r (fun e => e.withAvail .blocked)) {} false (fun _ => []) ∧
       Answers (.actionRestore site number) s (s.modAction r (fun e => e.withAvail .inService)) {} false (fun _ => [])) ∧
     ((∃ sc ∈ s.held, r ∈ sc.actions) ∨ (∃ o, a.output = some o ∧ (s.outputAt o).pulse ≠ none) →
       exec (.actionRemove site number) s = .next (s.respond .state false [])) ∧
     ((∀ sc ∈ s.held, r ∉ sc.actions) → (∀ o, a.output = some o → (s.outputAt o).pulse = none) → s.AtRest →
       Answers (.actionRemove site number) s { s with actions := s.actions.filter (fun e => decide (e.ref ≠ r)) } {}
         false (fun _ => [])))) ∧
  (∀ (s : State) (site number : Nat),
    (let r : ActionRef := { site := site, number := number }
     let due := ∃ a p l t k, s.findAction r = some a ∧ a.kind = .mirror p l (some t) k ∧ t ≤ s.now
     (¬ due → exec (.freshnessExpiry site number) s = .next s) ∧
     (due → s.AtRest → Happens (.freshnessExpiry site number) s (s.modAction r ActionEntry.goStale) {}))) ∧
  (∀ (s v : State) (port source : Nat) (body : List Byte) (entries : List (Nat × Nat × Nat)), s.AtRest →
    Received s port source body v → readActionStatus body = some entries →
    Happens (.actionStatus port source body) s
      (entries.foldl (fun u m =>
        match siteAvailOfCode m.2.1 with
        | some av =>
          if 1 ≤ m.1 ∧ m.1 ≤ 96 then
            u.modAction { site := source, number := m.1 } (fun a =>
              match a.kind with
              | .mirror _ _ _ _ => { a with
                  kind := .mirror (some av) (some m.2.2) (some (s.now + msTicks (3 * s.settings.publishInterval)))
                    (some s.now) }
              | .localEntry _ _ _ _ => a)
          else u
        | none => u) v) {}) ∧
  ∀ (s : State) (o : Nat), o < 16 →
    (∀ due, (s.outputAt o).pulse = some due → due ≤ s.now →
      exec (.pulseEnd o) s = .next (s.modOutput o (fun x => { x with pulse := none }))) ∧
    ((∀ due, (s.outputAt o).pulse = some due → s.now < due) → exec (.pulseEnd o) s = .next s)

/-- The commands and events of the trigger inputs and the remote trigger table on a part at rest in which nothing fires on
them: the input's or entry's state, the notices to the notice list, and the release markers. The model's choice here:
log entries 3, 4, 12, 15, 33, 41 and 45. -/
def Obligations.TriggerEvents : Prop :=
  (∀ (s : State) (i enable qualifyUs dropoutUs : Nat), 15 < i →
    exec (.inputConfigure i enable qualifyUs dropoutUs) s = .next (s.respond .range false [])) ∧
  (∀ (s : State) (i enable qualifyUs dropoutUs : Nat), s.AtRest → i ≤ 15 →
    (let q := (min 10000 qualifyUs + 249) / 250
     let d := (min 100000 dropoutUs + 999) / 1000
     let after := (s.inputAt i).afterConfigure s (decide (enable ≠ 0)) q d
     let u := s.modInput i (fun x => { x with
       enable := decide (enable ≠ 0), qualify := q, dropout := d, state := after.1 })
     (after.2 ≠ none → u.heldBack { terminal := s.own, input := i }) →
     Answers (.inputConfigure i enable qualifyUs dropoutUs) s u { out := s.notices i after.2 }
       (decide (q * 250 ≠ qualifyUs ∨ d * 1000 ≠ dropoutUs)) (fun t => t.qualifierBytes i))) ∧
  (∀ (s : State) (i : Nat) (active : Bool), s.AtRest → i ≤ 15 →
    ((s.inputAt i).level = active → exec (.inputLevelChange i active) s = .next s) ∧
    ((s.inputAt i).level ≠ active →
      (let after := (s.inputAt i).levelled s active
       let u := s.modInput i (fun x => { x with level := active, state := after.1 })
       (after.2 ≠ none → u.heldBack { terminal := s.own, input := i }) →
       Happens (.inputLevelChange i active) s u { out := s.notices i after.2 }))) ∧
  (∀ (s : State) (i due : Nat), s.AtRest → i ≤ 15 → due ≤ s.now →
    (let u := fun st : InputState => s.modInput i (fun x => { x with state := st })
     ((s.inputAt i).state = .qualifying due → (u s.assertedNow).heldBack { terminal := s.own, input := i } →
       Happens (.qualifyTimerExpiry i) s (u s.assertedNow) { out := s.notices i (some true) }) ∧
     (∀ t rep, (s.inputAt i).state = .asserted t (some due) rep →
       (u .released).heldBack { terminal := s.own, input := i } →
       Happens (.dropoutTimerExpiry i) s (u .released) { out := s.notices i (some false) }) ∧
     (∀ t drop, (s.inputAt i).state = .asserted t drop due →
       exec (.repeatTimerExpiry i) s = .next ((s.notices i (some true)).foldl State.dispatchFrame
         (u (.asserted t drop (s.now + msTicks s.settings.noticeRepeat))))))) ∧
  (∀ (s : State) (i : Nat), i ≤ 15 →
    ((∀ due, (s.inputAt i).state = .qualifying due → s.now < due) → exec (.qualifyTimerExpiry i) s = .next s) ∧
    ((∀ t due rep, (s.inputAt i).state = .asserted t (some due) rep → s.now < due) →
      exec (.dropoutTimerExpiry i) s = .next s) ∧
    ((∀ t drop due, (s.inputAt i).state = .asserted t drop due → s.now < due) →
      exec (.repeatTimerExpiry i) s = .next s)) ∧
  (∀ (s : State) (terminal input : Nat),
    (let r : TrigRef := { terminal := terminal, input := input }
     (∀ e t due, s.AtRest → s.findRemote r = some e → e.asserted = some (t, due) → due ≤ s.now →
       (s.setRemote r none).heldBack r → Happens (.holdTimerExpiry terminal input) s (s.setRemote r none) {}) ∧
     ((∀ e t due, s.findRemote r = some e → e.asserted = some (t, due) → s.now < due) →
       exec (.holdTimerExpiry terminal input) s = .next s))) ∧
  ∀ (s v : State) (port source input : Nat) (asserted : Bool), s.AtRest → input ≤ 15 →
    Received s port source (contingencyBody input asserted) v →
    (let r : TrigRef := { terminal := source, input := input }
     let notice : Instr := .contingency port source (contingencyBody input asserted)
     let due := s.now + msTicks s.settings.remoteHold
     (v.findRemote r = none → exec notice s = .next v) ∧
     ∀ e, v.findRemote r = some e →
       (e.asserted = none → asserted = false → exec notice s = .next v) ∧
       (e.asserted = none → asserted = true → (v.setRemote r (some (s.quarters, due))).heldBack r →
         Happens notice s (v.setRemote r (some (s.quarters, due))) {}) ∧
       (∀ t old, e.asserted = some (t, old) → asserted = true →
         Happens notice s (v.setRemote r (some (t, due))) {}) ∧
       (∀ t old, e.asserted = some (t, old) → asserted = false → (v.setRemote r none).heldBack r →
         Happens notice s (v.setRemote r none) {}))

/-! ### Execution -/

/-- A copy that is eligible, its marker clear, fires in the event that finds its set satisfied: a local input that comes to
be ASSERTED, by its qualify expiry, a level change or INPUT CONFIGURE, or a remote notice. The assertion times are in whole
0.25 ms steps, rounded down. Its selected local actions that were IN SERVICE are TRIPPED and their outputs energized for at
least their pulse durations; it is FIRED with a firing summary of its generation, and its marker is set, whatever else fires
in that event. Where nothing else fires in that event of a part at rest, this is all: the trips, the summary with their
results, the notices, and a FIRED REPORT with the results to its home. The model's choice here: log entries 3, 4, 12,
15, 41 and 45. -/
def Obligations.CopyFires : Prop :=
  ∀ (s u : State) (cmd : Instr) (reply : Option (Bool × (State → List Byte))) (r : TrigRef) (notices : List Queued)
    (i : Nat) (sc : Scheme) (c : CopyPart),
    ((∃ input, Asserts s cmd input u reply ∧ r = { terminal := s.own, input := input } ∧
        notices = s.notices input (some true)) ∨
      (∃ port source input v e, input ≤ 15 ∧ Received s port source (contingencyBody input true) v ∧
        cmd = .contingency port source (contingencyBody input true) ∧ r = { terminal := source, input := input } ∧
        v.findRemote r = some e ∧ e.asserted = none ∧
        u = v.setRemote r (some (s.quarters, s.now + msTicks s.settings.remoteHold)) ∧ notices = [] ∧ reply = none)) →
    s.schemeAt i = some sc → sc.part = .copy c → r ∈ sc.trigger.refs → u.satisfied sc.trigger = true →
    s.eligible sc = true → sc.releaseNeeded = false →
    (∃ t f, exec cmd s = .next t ∧ t.schemeAt i = some { sc with
        life := .fired, releaseNeeded := true, part := .copy { c with summary := some f } } ∧
      f.generation = sc.generation ∧ f.entry = .firing ∧ f.results.map Prod.fst = numbersAt sc.selection s.own ∧
      ∀ n ∈ numbersAt sc.selection s.own, ∀ a o slot pulse, s.findLocal n = some a →
        a.kind = .localEntry o slot pulse .inService → o < s.outputs.length →
        ((n, Result.tripped) ∈ f.results ∨ (n, Result.already) ∈ f.results) ∧
        (t.findLocal n).map ActionEntry.kind = some (.localEntry o slot pulse .tripped) ∧
        ∃ ends, (t.outputAt o).pulse = some ends ∧ s.now + msTicks pulse ≤ ends) ∧
    (s.AtRest → (∀ j sc2, j ≠ i → s.schemeAt j = some sc2 → r ∈ sc2.trigger.refs → u.satisfied sc2.trigger = true →
        s.eligible sc2 = true → sc2.releaseNeeded = true) →
      (let trips := u.tripAll false (numbersAt sc.selection s.own)
       Ends cmd s (trips.1.putScheme i (some { sc with
           life := .fired,
           part := .copy { c with
             summary := some { generation := sc.generation, entry := .firing, results := trips.2 } } }))
         { marks := [i],
           out := notices ++
             [s.originate .firedReport sc.home (firedReportBody sc.id sc.generation trips.2) .block] } reply))

/-- An ARMED home record fires in the event that finds its set satisfied, its marker clear (a local input that comes to be
ASSERTED, by its qualify expiry, a level change or INPUT CONFIGURE, or a remote notice), or on a FIRED REPORT or a HOLD's
summary of a participant that owes no close while no context is OPEN for it. One firing is counted and the generation bumps
once; its selected local actions that were IN SERVICE are TRIPPED and their outputs energized; where the event leaves it
FIRED, a context is OPEN for this firing with its selection as it stood, grouped by site; the marker is as the set then is;
all this whatever else fires in that event. Where nothing else fires in that event of a part at rest: with a context free
the firing is tracked, the record FIRED and the context OPEN with both its timers and its own site REPORTED, the reporting
site filled from the report and sent an order for what it leaves out, or, where every site has answered, COMPLETE and the
record completed; with none free it is UNTRACKED, completed at once, and TRIP ORDERs go to the other sites but for what the
report names. A participant that sent HOLD is HELD, or BEHIND with a round wanted. The model's choice here: log
entries 3, 4, 12, 15, 19, 37, 41 and 45. -/
def Obligations.HomeFires : Prop :=
  (∀ (s u : State) (cmd : Instr) (i : Nat) (sc : Scheme) (h : HomePart), s.IdsUnique → s.mode = .run →
    s.schemeAt i = some sc → sc.part = .home h → sc.life = .armed →
    ((∃ input reply, Asserts s cmd input u reply ∧ { terminal := s.own, input := input } ∈ sc.trigger.refs ∧
        u.satisfied sc.trigger = true ∧ sc.releaseNeeded = false) ∨
      (∃ port source input v e, input ≤ 15 ∧ Received s port source (contingencyBody input true) v ∧
        cmd = .contingency port source (contingencyBody input true) ∧
        v.findRemote { terminal := source, input := input } = some e ∧ e.asserted = none ∧
        { terminal := source, input := input } ∈ sc.trigger.refs ∧
        u = v.setRemote { terminal := source, input := input }
          (some (s.quarters, s.now + msTicks s.settings.remoteHold)) ∧ u.satisfied sc.trigger = true ∧
        sc.releaseNeeded = false) ∨
      (∃ port source body generation results p, Received s port source body u ∧
        cmd = .firedReport port source body ∧ readFiredReport body = some (sc.id, generation, results) ∧
        h.part source = some p ∧ p.owesClose = false ∧ u.openContext sc.id false = none) ∨
      (∃ port source body generation m p, Received s port source body u ∧
        cmd = .updateReply port source body ∧ readReply body = some (sc.id, generation, .hold m) ∧
        h.part source = some p ∧ p.status ≠ .current ∧ p.owesClose = false ∧ u.openContext sc.id false = none)) →
    ∃ t sc' h', exec cmd s = .next t ∧ t.schemeAt i = some sc' ∧ sc'.part = .home h' ∧ sc'.id = sc.id ∧
      s.firings < h'.lastFiring ∧ sc'.generation = nextGeneration sc.generation ∧
      sc'.releaseNeeded = t.satisfied sc.trigger ∧
      (sc'.life = .fired → ∃ c x w d, t.contextAt c = .opened x w d ∧ x.schemeId = sc.id ∧ x.test = false ∧
        x.generation = sc.generation ∧ x.serial = h'.lastFiring ∧ x.firedAt = s.now ∧
        x.sites.map SiteEntry.terminal = terminals.filter (fun t => sc.selection.any (fun r => r.site == t)) ∧
        ∀ en ∈ x.sites, en.actions.map Prod.fst = numbersAt sc.selection en.terminal) ∧
      (sc'.life ≠ .fired → h'.outcome ≠ .none ∧ h'.outcome ≠ .stray) ∧
      ∀ n ∈ numbersAt sc.selection s.own, ∀ a o slot pulse, s.findLocal n = some a →
        a.kind = .localEntry o slot pulse .inService → o < s.outputs.length →
        (t.findLocal n).map ActionEntry.kind = some (.localEntry o slot pulse .tripped) ∧
        ∃ ends, (t.outputAt o).pulse = some ends ∧ s.now + msTicks pulse ≤ ends) ∧
  ∀ (s u : State) (cmd : Instr) (reply : Option (Bool × (State → List Byte))) (cause : Cause)
    (report : Option (Nat × Nat × List (Nat × Result))) (notices : List Queued) (i : Nat) (sc : Scheme)
    (h h0 : HomePart) (wants : List Nat), s.IdsUnique → s.mode = .run → s.AtRest →
    s.schemeAt i = some sc → sc.part = .home h → sc.life = .armed → s.openContext sc.id false = none →
    (let aloneOn := fun r : TrigRef => r ∈ sc.trigger.refs ∧ u.satisfied sc.trigger = true ∧ sc.releaseNeeded = false ∧
       ∀ j sc2, j ≠ i → s.schemeAt j = some sc2 → r ∈ sc2.trigger.refs → u.satisfied sc2.trigger = true →
         s.eligible sc2 = true → sc2.releaseNeeded = true
     ((∃ input, Asserts s cmd input u reply ∧ cause = .localFiring ∧ report = none ∧ h0 = h ∧ wants = [] ∧
         notices = s.notices input (some true) ∧ aloneOn { terminal := s.own, input := input }) ∨
       (∃ port source input v e, input ≤ 15 ∧ Received s port source (contingencyBody input true) v ∧
         cmd = .contingency port source (contingencyBody input true) ∧ cause = .localFiring ∧ report = none ∧
         v.findRemote { terminal := source, input := input } = some e ∧ e.asserted = none ∧
         u = v.setRemote { terminal := source, input := input }
           (some (s.quarters, s.now + msTicks s.settings.remoteHold)) ∧ h0 = h ∧ wants = [] ∧
         notices = [] ∧ reply = none ∧ aloneOn { terminal := source, input := input }) ∨
       (∃ port source body generation results p, Received s port source body u ∧
         cmd = .firedReport port source body ∧ readFiredReport body = some (sc.id, generation, results) ∧
         h.part source = some p ∧ p.owesClose = false ∧ cause = .report source ∧
         report = some (source, generation, results) ∧ h0 = h ∧ wants = [] ∧ notices = [] ∧ reply = none) ∨
       (∃ port source body generation m p, Received s port source body u ∧
         cmd = .updateReply port source body ∧ readReply body = some (sc.id, generation, .hold m) ∧
         h.part source = some p ∧ p.status ≠ .current ∧ p.owesClose = false ∧ cause = .hold source ∧
         report = some (source, m.generation, m.results) ∧
         h0 = { h with statuses := h.statuses.map (fun q =>
           if q.terminal ≠ source then q
           else if p.engaged = true then { q with status := .held }
           else { q with status := .behind, tries := 0, retry := none, reason := none }) } ∧
         wants = (if p.engaged = true then [] else [i]) ∧ notices = [] ∧ reply = none)) →
     (let trips := u.tripAll false (numbersAt sc.selection s.own)
      let base := { trips.1 with firings := s.firings + 1 }
      let sites := (siteList sc.selection).map (fun en =>
        if en.terminal = s.own then
          { en with status := .reported, latency := some 0, actions := takeResults trips.2 en.actions }
        else en)
      let left := fun en : SiteEntry => (en.actions.filter (fun a => a.2.isNone)).map Prod.fst
      let filled := match report with
        | none => sites
        | some (t, g, rs) => sites.map (fun en =>
            if en.terminal = t then
              (let actions := takeResults rs en.actions
               { en with
                 status := if en.status = .reported ∨ ∀ a ∈ actions, a.2 ≠ none then .reported else .ordered,
                 latency := some 0, generation := some g, actions := actions,
                 extras := addExtras en.actions rs en.extras })
            else en)
      let x : Execution := {
        schemeId := sc.id, generation := sc.generation, cause := cause, test := false, firedAt := s.now,
        serial := s.firings + 1, sites := filled }
      let h1 := { h0 with lastFiring := s.firings + 1 }
      let named := fun t n : Nat => report.any (fun r => r.1 == t && r.2.2.any (fun a => a.1 == n))
      let orders := (siteList sc.selection).filterMap (fun en =>
        let ns := (numbersAt sc.selection en.terminal).filter (fun n => !named en.terminal n)
        if en.terminal = s.own ∨ ns = [] then none
        else some (s.originate .tripOrder en.terminal (tripOrderBody sc.id sc.generation false ns) .block))
      let fired := base.putScheme i (some { sc with life := .fired, part := .home h1 })
      let work : Work := { bumps := [i], marks := [i], wants := wants, out := notices }
      (∀ c, s.freeContext = some c →
        (let opened := fired.setContext c
           (.opened x (some (s.now + msTicks s.settings.reportWait)) (s.now + msTicks s.settings.deadline))
         let ordered := (filled.filter (fun en => en.status == .ordered)).map (fun en =>
           s.orderFrame x en.terminal (left en))
         let t := ordered.foldl State.dispatchFrame opened
         ((∀ cx ∈ t.contexts, cx.current) → Ends cmd s t work reply) ∧
         (t.concludes c → Ends cmd s (t.concluded c) (work.concluding t c) reply))) ∧
      (s.freeContext = none →
        Ends cmd s (((base.putScheme i (some (sc.executed h1 .untracked))).raiseIf (decide (sc.deadline = .pending))
            .lapse sc.id).raise .executionDone sc.id)
          { work with evals := [i], out := notices ++ orders } reply)))

/-- The two timers of an OPEN context of a part at rest. At the report wait an order goes to each site AWAITING, which is
then ORDERED, or UNDELIVERED where the order is returned; where that leaves no site to wait for, the context completes in
the same event. At the deadline the silent sites are MISSED and the context
completes: its record leaves FIRED, its participants owe a close, EXECUTION DONE is raised. The outcome of a context is
worked from its snapshot actions. The model's choice here: log entries 4, 33 and 45. -/
def Obligations.ExecutionTimers : Prop :=
  (∀ (s : State) (c w d : Nat) (x : Execution), c < 8 → s.contextAt c = .opened x (some w) d →
    (s.now < w → exec (.reportWaitExpiry c) s = .next s) ∧
    (w ≤ s.now → s.AtRest →
      (let waiting := x.sites.filter (fun en => en.status == .awaiting)
       let t := (waiting.map (fun en => s.orderFrame x en.terminal (en.actions.map Prod.fst))).foldl State.dispatchFrame
         (s.setContext c (.opened { x with
           sites := x.sites.map (fun en => if en.status = .awaiting then { en with status := .ordered } else en) } none d))
       ((∀ cx ∈ t.contexts, cx.current) → exec (.reportWaitExpiry c) s = .next t) ∧
       (t.concludes c → Happens (.reportWaitExpiry c) s (t.concluded c) (({} : Work).concluding t c))))) ∧
  (∀ (s : State) (c d : Nat) (x : Execution) (w : Option Nat), c < 8 → s.contextAt c = .opened x w d →
    (s.now < d → exec (.executionDeadlineExpiry c) s = .next s) ∧
    (d ≤ s.now → s.AtRest →
      (let x1 := { x with sites := x.sites.map (fun en =>
         if en.status = .awaiting ∨ en.status = .ordered then
           { en with status := .missed, latency := none, actions := en.actions.map (fun a => (a.1, some (a.2.getD .missing))) }
         else { en with actions := en.actions.map (fun a => (a.1, some (a.2.getD .missing))) }) }
       let done := s.setContext c (.complete x1 s.now x1.outcome)
       (x.test = true → exec (.executionDeadlineExpiry c) s = .next (done.raise .executionDone x.schemeId)) ∧
       ∀ i sc h, x.test = false → s.findHome x.schemeId = some (i, sc, h) → sc.life = .fired →
         Happens (.executionDeadlineExpiry c) s
           (((done.putScheme i (some (sc.executed h x1.outcome.last))).raiseIf (decide (sc.deadline = .pending)) .lapse
             sc.id).raise .executionDone sc.id)
           { evals := [i], bumps := [i], marks := [i] }))) ∧
  ∀ x : Execution,
    (let actions := x.sites.flatMap (fun en => en.actions)
     let counts := fun a : Nat × Option Result =>
       if x.test then a.2 = some .test else a.2 = some .tripped ∨ a.2 = some .already ∨ a.2 = some .trippedLate
     (x.outcome = .empty ↔ actions = []) ∧
     (x.outcome = .full ↔ actions ≠ [] ∧ ∀ a ∈ actions, counts a) ∧
     (x.outcome = .partTripped ↔ (∃ a ∈ actions, counts a) ∧ ∃ a ∈ actions, ¬ counts a) ∧
     (x.outcome = .failed ↔ actions ≠ [] ∧ ∀ a ∈ actions, ¬ counts a))

/-- A TRIP ORDER taken by a part at rest: a trip request for each action named, in order; a copy of the order's source that
is not FIRED moves to FIRED, unless the order is a test order or the device is in MAINTENANCE; an ORDER ACK with the
results goes back. The model's choice here: log entries 4 and 45. -/
def Obligations.TripOrder : Prop :=
  (∀ (s v : State) (port source id generation : Nat) (body : List Byte) (test : Bool) (numbers : List Nat),
    s.AtRest → Received s port source body v → readTripOrder body = some (id, generation, test, numbers) →
    (let taken := v.tripAll test numbers
     let ack := v.originate .orderAck source (orderAckBody id generation test taken.2) .block
     (∀ i sc c, v.findCopy id = some (i, sc, c) → sc.home = source → sc.life ≠ .fired → test = false → s.mode = .run →
       Happens (.tripOrder port source body) s (taken.1.putScheme i (some { sc with
           life := .fired,
           part := .copy { c with
             summary := some { generation := sc.generation, entry := .order, results := taken.2 } } }))
         { marks := [i], out := [ack] }) ∧
     ((∀ i sc c, v.findCopy id = some (i, sc, c) → sc.home ≠ source ∨ sc.life = .fired ∨ test = true ∨ s.mode ≠ .run) →
       Happens (.tripOrder port source body) s taken.1 { out := [ack] }))) ∧
  ∀ (s : State) (test : Bool) (n : Nat) (rest : List Nat), s.tripAll test [] = (s, []) ∧
    s.tripAll test (n :: rest) =
      (((s.tripRequest n test).1.tripAll test rest).1,
        (n, (s.tripRequest n test).2) :: ((s.tripRequest n test).1.tripAll test rest).2)

/-- What a FIRED REPORT or an ORDER ACK does at the home, a part at rest. A report about no record that its source takes
part in is answered DISOWN. A report fills the source's entry in the OPEN context, with an order for what it leaves out;
an ack confirms its site; the last site to answer, or to be found out of reach, completes the context in either case. To a COMPLETE context whose site is MISSED
either is late. Any other report, where no close is owed and the record is not ARMED, is stray. The model's choice
here: log entries 3, 4, 18, 19, 37, 38, 45, 47 and 48. -/
def Obligations.AnswersAtHome : Prop :=
  ∀ (s v : State) (port source id generation : Nat) (body : List Byte) (results : List (Nat × Result)),
    s.AtRest → Received s port source body v →
    (let first := fun n : Nat => (results.find? (fun r => r.1 == n)).map Prod.snd
     let fill := fun (actions : List (Nat × Option Result)) => actions.map (fun a =>
       match a.2 with
       | some _ => a
       | none => (a.1, first a.1))
     let late := fun (x : Execution) (en : SiteEntry) (listExtras : Bool) =>
       let actions := en.actions.map (fun a =>
         if a.2 = some .missing ∧ x.test = false ∧ (first a.1 = some .tripped ∨ first a.1 = some .already) then
           (a.1, some .trippedLate)
         else if a.2 = some .missing ∧ x.test = true ∧ first a.1 = some .test then (a.1, some .test)
         else a)
       x.modSite source (fun _ => { en with
         actions := actions, extras := if listExtras then addExtras en.actions results en.extras else en.extras,
         latency := if actions = en.actions then en.latency else some (s.sinceQuarters x.firedAt) })
     let lateIs := fun (cmd : Instr) (c : Nat) (x x1 : Execution) (at0 : Nat) (before : Outcome) =>
       let u := v.setContext c (.complete x1 at0 x1.outcome)
       (x1.outcome = before ∨ x.test = true ∨ s.findHome x.schemeId = none → exec cmd s = .next u) ∧
       (x1.outcome ≠ before → x.test = false → ∀ i sc h, s.findHome x.schemeId = some (i, sc, h) →
         (h.lastFiring ≠ x.serial → exec cmd s = .next u) ∧
         (h.lastFiring = x.serial → Happens cmd s ((u.putScheme i (some { sc with
           part := .home { h with outcome := x1.outcome.last } })).raise .executionDone x.schemeId) {}))
     (readFiredReport body = some (id, generation, results) →
       (let report : Instr := .firedReport port source body
        ((v.findHome id = none ∨ ∃ i sc h, v.findHome id = some (i, sc, h) ∧ h.part source = none) →
          exec report s = .next (v.dispatchFrame (v.disownFrame source id))) ∧
        ∀ i sc h p, v.findHome id = some (i, sc, h) → h.part source = some p →
          (∀ c x w d, v.openContext id false = some (c, x) → v.contextAt c = .opened x w d →
            (x.site source = none → exec report s = .next v) ∧
            ∀ en, x.site source = some en →
              (let actions := fill en.actions
               let left := (actions.filter (fun a => a.2.isNone)).map Prod.fst
               let status := if en.status = .reported ∨ en.status = .confirmed then en.status
                 else if left = [] then .reported else .ordered
               let en1 := { en with
                 actions := actions, status := status, extras := addExtras en.actions results en.extras,
                 generation := some (en.generation.getD generation),
                 latency := some (en.latency.getD (s.sinceQuarters x.firedAt)) }
               let u := v.setContext c (.opened (x.modSite source (fun _ => en1)) w d)
               let t := if (en.status = .awaiting ∨ en.status = .undelivered) ∧ left ≠ [] then
                   u.dispatchFrame (v.orderFrame x source left) else u
               ((∀ cx ∈ t.contexts, cx.current) → exec report s = .next t) ∧
               (t.concludes c → Happens report s (t.concluded c) (({} : Work).concluding t c)))) ∧
          (v.openContext id false = none → sc.life = .retiring →
            Happens report s ((v.putScheme i (some { sc with part := .home { h with outcome := .stray } })).raise
              .strayFiring sc.id) {}) ∧
          (v.openContext id false = none → sc.life ≠ .retiring → p.owesClose = true →
            (let missed := v.missedContext source (fun x => x.schemeId == id && !x.test)
             (missed = none → exec report s = .next v) ∧
             ∀ c x at0 before en, missed = some c → v.contextAt c = .complete x at0 before →
               x.site source = some en → lateIs report c x (late x en true) at0 before)) ∧
          (v.openContext id false = none → sc.life ≠ .retiring → sc.life ≠ .armed → p.owesClose = false →
            (let owing := fun q : Participant =>
               if q.terminal ≠ source then q
               else if q.engaged then { q with owesClose := true }
               else { q with owesClose := true, status := .behind, tries := 0, retry := none, reason := none }
             Happens report s ((v.putScheme i (some { sc with
                 part := .home { h with statuses := h.statuses.map owing, outcome := .stray } })).raise .strayFiring sc.id)
               { wants := if p.engaged then [] else [i] })))) ∧
     ∀ test, readOrderAck body = some (id, generation, test, results) →
       (let ack : Instr := .orderAck port source body
        (v.ackContext id generation test source = none → exec ack s = .next v) ∧
        (∀ c x w d en, v.ackContext id generation test source = some c → v.contextAt c = .opened x w d →
          x.site source = some en →
          (let answered := en.status = .reported ∨ en.status = .confirmed
           let x1 := x.modSite source (fun _ => { en with
             actions := fill en.actions, status := if answered then en.status else .confirmed,
             latency := if answered then en.latency else some (s.sinceQuarters x.firedAt) })
           (x1.sites.all SiteEntry.settled = false →
             exec ack s = .next (v.setContext c (.opened x1 w d))) ∧
           (let u := v.setContext c (.opened x1 w d)
            u.concludes c → Happens ack s (u.concluded c) (({} : Work).concluding u c)) ∧
           (x1.sites.all SiteEntry.settled = true →
             (let x2 := { x1 with sites := x1.sites.map (fun e => { e with
                actions := e.actions.map (fun a => (a.1, some (a.2.getD .missing))) }) }
              ∃ t, exec ack s = .next t ∧ t.contextAt c = .complete x2 s.now x2.outcome ∧
                ∀ i sc h, x.test = false → s.findHome x.schemeId = some (i, sc, h) → sc.life = .fired →
                  ∃ sc' h', t.schemeAt i = some sc' ∧ sc'.part = .home h' ∧ h'.outcome = x2.outcome.last ∧
                    sc'.generation = nextGeneration sc.generation ∧ (∀ q ∈ h'.statuses, q.owesClose = true) ∧
                    (sc.autoDisarm = true → sc'.life = .spent) ∧
                    (sc.autoDisarm = false → sc'.life = .dormant ∨ sc'.life = .armed))))) ∧
        (∀ c x at0 before, v.ackContext id generation test source = some c → v.contextAt c = .complete x at0 before →
          ((∀ en, x.site source = some en → en.status ≠ .missed) → exec ack s = .next v) ∧
          (∀ en, x.site source = some en → en.status = .missed → lateIs ack c x (late x en false) at0 before))))

/-- TEST FIRE of a DORMANT, BLOCKED or SPENT record of a part at rest in MAINTENANCE: the test requests here, a test order
at once to every other site, and an OPEN test context until its deadline; with no other site, or none in reach, it
completes at once. RANGE
for id 0, UNKNOWN for one that is not held, NOT HOME for a copy, STATE in another life state or with a test OPEN for the
record, FULL with no context free. The model's choice here: log entries 4 and 19. -/
def Obligations.TestFire : Prop :=
  (∀ (s : State) (id : Nat), s.mode = .maintenance →
    (id = 0 → exec (.testFire id) s = .next (s.respond .range false [])) ∧
    (id ≠ 0 → s.findScheme id = none → exec (.testFire id) s = .next (s.respond .unknown false [])) ∧
    ∀ i sc, id ≠ 0 → s.findScheme id = some (i, sc) → sc.isHome = false →
      exec (.testFire id) s = .next (s.respond .notHome false [])) ∧
  ∀ (s : State) (id i : Nat) (sc : Scheme), s.mode = .maintenance → id ≠ 0 → s.findScheme id = some (i, sc) →
    sc.isHome = true →
    (let allowed := sc.life = .dormant ∨ sc.life = .blocked ∨ sc.life = .spent
     (¬ allowed ∨ (s.openContext id true).isSome = true → exec (.testFire id) s = .next (s.respond .state false [])) ∧
     (allowed → s.openContext id true = none → s.freeContext = none →
       exec (.testFire id) s = .next (s.respond .full false [])) ∧
     ∀ c, allowed → s.openContext id true = none → s.freeContext = some c → s.AtRest →
       (let taken := s.tripAll true (numbersAt sc.selection s.own)
        let sites := siteList sc.selection
        let others := sites.filter (fun en => en.terminal != s.own)
        let x : Execution := {
          schemeId := sc.id, generation := sc.generation, cause := .localFiring, test := true, firedAt := s.now,
          serial := s.firings + 1,
          sites := sites.map (fun en =>
            if en.terminal = s.own then
              { en with status := .reported, latency := some 0, actions := takeResults taken.2 en.actions }
            else { en with status := .ordered }) }
        let base := { taken.1 with firings := s.firings + 1 }
        let u := base.setContext c (.opened x none (s.now + msTicks s.settings.deadline))
        let t := (others.map (fun en => s.orderFrame x en.terminal (en.actions.map Prod.fst))).foldl State.dispatchFrame u
        ((∀ cx ∈ t.contexts, cx.current) → exec (.testFire id) s = .next (t.respond .done false [byteOf c])) ∧
        (t.concludes c → exec (.testFire id) s = .next ((t.concluded c).respond .done false [byteOf c])) ∧
        (others = [] → (let x1 := { x with sites := x.sites.map SiteEntry.fillMissing }
          exec (.testFire id) s = .next (((base.setContext c (.complete x1 s.now x1.outcome)).raise
            .executionDone sc.id).respond .done false [byteOf c])))))

/-! ### Replication -/

/-- An UPDATE taken by a part at rest, by the first line that matches: another's id, and an id not held with no EMPTY slot,
are rejected; a FIRED copy is held, unless the UPDATE closes the firing or carries FIRED; a list naming a missing LOCAL
action, or too many remote references, is rejected; else the copy is created or replaced with all that is carried.
The model's choice here: log entries 4, 42 and 45. -/
def Obligations.UpdateFrame : Prop :=
  ∀ (s v : State) (port source : Nat) (body : List Byte) (x : Carried), s.AtRest → Received s port source body v →
    readUpdate body = some x →
    (let answer := fun r : Reply => v.originate .updateReply source (replyBody x.id x.generation r) .block
     let refused := fun r : Reply => exec (.update port source body) s = .next (v.dispatchFrame (answer r))
     let missing := ∃ a ∈ x.actions, a.site = s.own ∧ s.findLocal a.number = none
     let withheld := decide (s.mode = .maintenance ∧ (x.life = .armed ∨ x.life = .fired))
     let life : Life := if withheld then .dormant else x.life
     let carriedSummary : FiringSummary := { generation := x.generation, entry := .carried, results := [] }
     let copy := fun (marker : Bool) (summary : Option FiringSummary) => ({
       id := x.id, home := source, generation := x.generation, life := life, trigger := x.trigger, actions := x.actions,
       selection := x.selection, participants := x.participants, posture := x.posture, interval := x.interval,
       autoDisarm := x.autoDisarm, stale := x.stale, releaseNeeded := marker,
       deadline := if life = .spent ∨ life = .blocked ∨ life = .retiring ∨ x.interval = 0 then .stopped
         else .running (s.now + msTicks (x.interval * 1000)),
       part := .copy { summary := summary, withheld := if withheld then some x.life else none } } : Scheme)
     let taken := fun (i : Nat) (marker : Bool) (summary : Option FiringSummary) (marks : List Nat) =>
       Happens (.update port source body) s (v.putScheme i (some (copy marker summary))).syncRemote
         { marks := marks, out := [answer (.accept x.closes)] }
     (∀ i sc, v.findScheme x.id = some (i, sc) →
       (sc.isHome = true ∨ sc.home ≠ source → refused (.reject .noSlot)) ∧
       ∀ c, sc.part = .copy c → sc.home = source →
         (let guarded := sc.life = .fired ∧ x.closes = false ∧ x.life ≠ .fired
          (guarded → refused (.hold (c.summary.getD { generation := 0, entry := .carried, results := [] }))) ∧
          (¬ guarded → missing → refused (.reject .missingAction)) ∧
          (¬ guarded → ¬ missing → 32 < v.remoteCountWith (some i) x.trigger.refs →
            refused (.reject .triggerTableFull)) ∧
          (¬ guarded → ¬ missing → v.remoteCountWith (some i) x.trigger.refs ≤ 32 →
            taken i sc.releaseNeeded
              (if life ≠ .fired then none
               else if sc.life = .fired ∧ x.closes = false then c.summary else some carriedSummary)
              (if x.closes = true ∨ (life = .fired ∧ sc.life ≠ .fired) then [i] else [])))) ∧
     (v.findScheme x.id = none →
       (v.emptySlotNo = none → refused (.reject .noSlot)) ∧
       ∀ i, v.emptySlotNo = some i →
         (missing → refused (.reject .missingAction)) ∧
         (¬ missing → 32 < v.remoteCountWith none x.trigger.refs → refused (.reject .triggerTableFull)) ∧
         (¬ missing → v.remoteCountWith none x.trigger.refs ≤ 32 →
           taken i false (if life = .fired then some carriedSummary else none)
             (if x.closes = true ∨ life = .fired then [i] else []))))

/-- An UPDATE REPLY at the home, a part at rest. About no record that its source takes part in, or an ACCEPT of a RETIRING
record: DISOWN. ACCEPT of the present generation: CURRENT, and the close shown is owed no more; of another: BEHIND, and a
round is wanted. REJECT: REJECTED, with the reason. HOLD: HELD where engaged, else BEHIND with a round wanted; and its
summary fills the source's entry in the OPEN context, with an order for what it leaves out, and completes the context where
that leaves no site to wait for; it is a late answer where a close is owed; it fires an ARMED record, as O45 states; else it
is stray. A CURRENT participant's reply but an ACCEPT of the present one is discarded. The model's choice here: log
entries 3, 4, 18, 19, 37, 45, 47 and 48. -/
def Obligations.UpdateReply : Prop :=
  ∀ (s v : State) (port source : Nat) (body : List Byte) (id generation : Nat) (reply : Reply),
    s.AtRest → Received s port source body v → readReply body = some (id, generation, reply) →
    (let cmd : Instr := .updateReply port source body
     let disowned := exec cmd s = .next (v.dispatchFrame (v.disownFrame source id))
     (v.findHome id = none → disowned) ∧
     ∀ i sc h, v.findHome id = some (i, sc, h) →
       (h.part source = none → disowned) ∧
       ∀ p, h.part source = some p →
         (let part := fun (f : Participant → Participant) => { h with
            statuses := h.statuses.map (fun q => if q.terminal = source then f q else q) }
          let record := fun h1 : HomePart => v.putScheme i (some { sc with part := .home h1 })
          let waiting := fun q : Participant => { q with status := .behind, tries := 0, retry := none, reason := none }
          (sc.life = .retiring → ∀ echo, reply = .accept echo → disowned) ∧
          (sc.life = .retiring → ∀ r, reply = .reject r → exec cmd s = .next v) ∧
          (sc.life = .retiring → ∀ m, reply = .hold m → v.openContext id false = none →
            Happens cmd s ((record { h with outcome := .stray }).raise .strayFiring sc.id) {}) ∧
          (sc.life ≠ .retiring → ∀ echo, reply = .accept echo →
            (generation = sc.generation → Happens cmd s (record (part (fun q => { q with
              status := .current, acked := some generation, retry := none, reason := none,
              owesClose := q.owesClose && !echo }))) {}) ∧
            (generation ≠ sc.generation → p.status = .current → exec cmd s = .next v) ∧
            (generation ≠ sc.generation → p.status ≠ .current →
              Happens cmd s (record (part (fun q => { waiting q with acked := some generation }))) { wants := [i] })) ∧
          (sc.life ≠ .retiring → ∀ r, reply = .reject r →
            (p.status = .current → exec cmd s = .next v) ∧
            (p.status ≠ .current → Happens cmd s (record (part (fun q => { q with
              status := .rejected, retry := none, reason := some r }))) {})) ∧
          (sc.life ≠ .retiring → ∀ m, reply = .hold m →
            (p.status = .current → exec cmd s = .next v) ∧
            (p.status ≠ .current →
              (let held := fun q : Participant => if p.engaged then { q with status := .held } else waiting q
               let wants := if p.engaged then [] else [i]
               (∀ c x w d, v.openContext id false = some (c, x) → v.contextAt c = .opened x w d →
                 (x.site source = none → Happens cmd s (record (part held)) { wants := wants }) ∧
                 ∀ en, x.site source = some en →
                   (let actions := en.actions.map (fun a =>
                      match a.2 with
                      | some _ => a
                      | none => (a.1, (m.results.find? (fun r => r.1 == a.1)).map Prod.snd))
                    let left := (actions.filter (fun a => a.2.isNone)).map Prod.fst
                    let status := if en.status = .reported ∨ en.status = .confirmed then en.status
                      else if left = [] then .reported else .ordered
                    let u := (record (part held)).setContext c (.opened (x.modSite source (fun _ => { en with
                      actions := actions, status := status, extras := addExtras en.actions m.results en.extras,
                      generation := some (en.generation.getD m.generation),
                      latency := some (en.latency.getD (s.sinceQuarters x.firedAt)) })) w d)
                    let t := if (en.status = .awaiting ∨ en.status = .undelivered) ∧ left ≠ [] then
                        u.dispatchFrame (v.orderFrame x source left) else u
                    ((∀ cx ∈ t.contexts, cx.current) → Happens cmd s t { wants := wants }) ∧
                    (t.concludes c →
                      Happens cmd s (t.concluded c) (({ wants := wants } : Work).concluding t c)))) ∧
               (v.openContext id false = none → p.owesClose = true →
                 (let missed := v.missedContext source (fun x => x.schemeId == id && !x.test)
                  let late := fun (en : SiteEntry) => en.actions.map (fun (a : Nat × Option Result) =>
                    let given : Option Result := (m.results.find? (fun r => r.1 == a.1)).map Prod.snd
                    if a.2 = some .missing ∧ (given = some .tripped ∨ given = some .already) then
                      (a.1, some .trippedLate) else a)
                  (missed = none → Happens cmd s (record (part held)) { wants := wants }) ∧
                  ∀ c x at0 before en, missed = some c → v.contextAt c = .complete x at0 before →
                    x.site source = some en →
                    (let x1 := x.modSite source (fun _ => { en with
                       actions := late en, extras := addExtras en.actions m.results en.extras,
                       latency := if late en = en.actions then en.latency else some (s.sinceQuarters x.firedAt) })
                     let taken := fun h1 : HomePart => (record h1).setContext c (.complete x1 at0 x1.outcome)
                     (x1.outcome = before ∨ h.lastFiring ≠ x.serial →
                       Happens cmd s (taken (part held)) { wants := wants }) ∧
                     (x1.outcome ≠ before → h.lastFiring = x.serial →
                       Happens cmd s ((taken { part held with outcome := x1.outcome.last }).raise .executionDone
                         id) { wants := wants })))) ∧
               (v.openContext id false = none → p.owesClose = false → sc.life ≠ .armed →
                 Happens cmd s ((record { part (fun q => { held q with owesClose := true }) with
                   outcome := .stray }).raise .strayFiring sc.id) { wants := wants }))))))

/-- REFRESH at a copy of its source clears STALE and restarts the deadline where it runs; every pair, taken in order, is
answered in REFRESH ACK frames of up to 11, the copy's generation absent where the pair is not accepted. REFRESH ACK at the
home, entry by entry: the present generation makes a participant CURRENT, or BEHIND with a round wanted where it owes a
close; another, or none, makes one CURRENT or LOST BEHIND, with a round wanted; what names no participation is answered
DISOWN, unless no copy is shown. The model's choice here: log entries 4, 29 and 45. -/
def Obligations.RefreshFrames : Prop :=
  (∀ (s v : State) (port source : Nat) (body : List Byte) (pairs : List (Nat × Nat)), s.AtRest →
    Received s port source body v → readRefresh body = some pairs →
    (let take := fun (a : State × List (Nat × Nat × Option Nat)) (p : Nat × Nat) =>
       match a.1.copyOf p.1 source with
       | some (i, sc, _) =>
         (a.1.putScheme i (some { sc with
            stale := false,
            deadline := if sc.life = .spent ∨ sc.life = .blocked ∨ sc.life = .retiring then sc.deadline
              else if sc.interval = 0 then .stopped else .running (s.now + msTicks (sc.interval * 1000)) }),
          a.2 ++ [(p.1, p.2, some sc.generation)])
       | none => (a.1, a.2 ++ [(p.1, p.2, none)])
     let r := pairs.foldl take (v, [])
     Happens (.refreshFrame port source body) s r.1
       { out := (chunks 11 r.2).map (fun l => v.originate .refreshAck source (refreshAckBody l) .block) })) ∧
  ∀ (s v : State) (port source : Nat) (body : List Byte) (entries : List (Nat × Nat × Option Nat)), s.AtRest →
    Received s port source body v → readRefreshAck body = some entries →
    (let disown := fun (a : State × Work) (id : Nat) => (a.1, { a.2 with out := a.2.out ++ [v.disownFrame source id] })
     let put := fun (a : State × Work) (i : Nat) (sc : Scheme) (h : HomePart) (f : Participant → Participant)
         (wanted : Bool) =>
       (a.1.putScheme i (some { sc with part := .home { h with
          statuses := h.statuses.map (fun q => if q.terminal = source then f q else q) } }),
        { a.2 with wants := if wanted then i :: a.2.wants else a.2.wants })
     let waiting := fun q : Participant => { q with status := .behind, tries := 0, retry := none, reason := none }
     let take := fun (a : State × Work) (m : Nat × Nat × Option Nat) =>
       match a.1.findHome m.1 with
       | none => if m.2.2.isSome then disown a m.1 else a
       | some (i, sc, h) =>
         match h.part source with
         | none => disown a m.1
         | some p =>
           if sc.life = .retiring ∨ m.2.1 ≠ sc.generation ∨ p.status = .rejected then a
           else if m.2.2 = some sc.generation then
             if p.status = .current then a
             else if p.owesClose = true then
               put a i sc h (fun q => if q.owesClose then waiting q else
                 { q with status := .current, retry := none, reason := none, acked := some sc.generation }) true
             else put a i sc h (fun q => if q.owesClose then waiting q else
                 { q with status := .current, retry := none, reason := none, acked := some sc.generation }) false
           else if p.status = .current ∨ p.status = .lost then put a i sc h waiting true
           else a
     let r := entries.foldl take (v, {})
     Happens (.refreshAck port source body) s r.1 r.2)

/-- A retry timer's expiry at an engaged participant of a part at rest: while its tries are below the count, and it is
reachable, it is sent the round's frame again, a try spent and the timer started; else it is LOST. A retire round left with
none BEHIND empties its slot, with RETIRE INCOMPLETE where one is LOST. An expiry that is not due does not happen.
The model's choice here: log entries 4, 33 and 45. -/
def Obligations.RetryTimer : Prop :=
  ∀ (s : State) (id terminal i : Nat) (sc : Scheme) (h : HomePart) (p : Participant),
    s.findHome id = some (i, sc, h) → h.part terminal = some p →
    (p.engaged = false ∨ s.ranOut p.retry = false → exec (.retryTimerExpiry id terminal) s = .next s) ∧
    (s.AtRest → p.engaged = true → s.ranOut p.retry = true →
      (let again := decide (p.tries < s.settings.retryCount) && s.reachable terminal
       let statuses := h.statuses.map (fun q =>
         if q.terminal ≠ terminal then q
         else if again then
           { q with tries := q.tries + 1, retry := some (s.now + msTicks s.settings.retryInterval) }
         else { q with status := .lost, retry := none, reason := none })
       let frame := fun q : Participant =>
         if h.round = .retire then s.originate .retire q.terminal (u8 sc.id) .block else s.updateFrame sc q
       let ended := sc.life = .retiring ∧ h.round = .retire ∧ ∀ q ∈ statuses, q.status ≠ .behind
       (¬ ended → Happens (.retryTimerExpiry id terminal) s
         (s.putScheme i (some { sc with part := .home { h with statuses := statuses } }))
         { out := if again then (h.statuses.filter (fun q => q.terminal == terminal)).map frame else [] }) ∧
       (ended → exec (.retryTimerExpiry id terminal) s =
         .next ((s.putScheme i none).raiseIf (statuses.any (fun q => q.status == .lost)) .retireIncomplete
           sc.id).syncRemote)))

/-! ### Links -/

/-- PORT OPEN in RUN and PORT LOOPBACK in MAINTENANCE start the handshake on a CLOSED port: STARTING, a START at once, the
start timer at 10 ms. Each start timer's expiry sends a START; an IDLE goes out of an UP port whose transmitter is free
2 ms after its last frame; at the end of a transmission the frame leaves its queue and the transmitter chooses again. A
transmission lasts 8 bits for each of its bytes at the port's link rate, 2048 / rate ticks a byte. A frame that joins a
port's queue is begun at once where the transmitter sends fill; an urgent one preempts, below 512 kbit/s, what else is in
transmission, after the two bytes of an abort (log entry 35), which a port in loopback gives its own receiver. The
model's choice here: log entries 4, 10, 15, 21 and 33. -/
def Obligations.PortStarts : Prop :=
  (∀ (s : State) (p : Nat), 3 < p →
    (s.mode = .run → exec (.portOpen p) s = .next (s.respond .range false [])) ∧
    (s.mode = .maintenance → exec (.portLoopback p) s = .next (s.respond .range false []))) ∧
  ∀ (s : State) (p : Nat) (x : Port), p ≤ 3 → s.ports[p]? = some x →
    (let put := fun y : Port => { s with ports := s.ports.set p y }
     let until_ := fun l : List Byte => s.now + l.length * (2048 / s.rateOf p)
     let starting := { x with
       state := .starting, neighbour := none, peer := none, clash := false, startDue := some (s.now + msTicks 10),
       tx := .sending (.start false) (until_ (lineBytes (startFrame s.own false))) }
     (s.mode = .run →
       (x.state = .closed → exec (.portOpen p) s = .next ((put starting).respond .done false [2#8])) ∧
       (x.state = .starting → exec (.portOpen p) s = .next (s.respond .done false [2#8])) ∧
       (x.state = .up → exec (.portOpen p) s = .next (s.respond .done false [3#8]))) ∧
     (s.mode = .maintenance →
       (x.state = .closed →
         exec (.portLoopback p) s = .next ((put { starting with loopback := true }).respond .done false [])) ∧
       (x.state ≠ .closed → exec (.portLoopback p) s = .next (s.respond .state false []))) ∧
     (let due := x.state = .starting ∧ ∃ d, x.startDue = some d ∧ d ≤ s.now
      let heard := x.peer.any (fun q => decide (s.now ≤ q.1 + msTicks 30))
      (due → exec (.startTimerExpiry p) s = .next (put { x with
        startDue := some (s.now + msTicks 10),
        tx := .sending (.start heard) (until_ (lineBytes (startFrame s.own heard))) })) ∧
      (¬ due → exec (.startTimerExpiry p) s = .next s)) ∧
     (let due := x.state = .up ∧ x.tx = .fill ∧ x.lastEnd + msTicks 2 ≤ s.now
      (due → exec (.idleDue p) s =
        .next (put { x with tx := .sending .idle (until_ (lineBytes (idleFrame s.own))) })) ∧
      (¬ due → exec (.idleDue p) s = .next s)) ∧
     (∀ q : Queued,
       (let urgent := if urgentKind q.frame.kind = true then x.urgent ++ [q] else x.urgent
        let routine := if urgentKind q.frame.kind = true then x.routine else x.routine ++ [q]
        let y := { x with urgent := urgent, routine := routine }
        let preempted := ∃ what d, x.tx = .sending what d ∧ what ≠ .urgent ∧ urgentKind q.frame.kind = true ∧ s.rateOf p < 512
        (x.tx ≠ .fill → ¬ preempted → s.join p q = put y) ∧
        (∀ head rest, preempted → urgent = head :: rest → s.join p q = put { y with
          looped := if x.loopback then x.looped ++ [.aborted] else x.looped,
          tx := .sending .urgent (until_ ([escape, marker] ++ lineBytes head.frame)) }) ∧
        (x.tx = .fill → (∀ head rest, urgent = head :: rest →
            s.join p q = put { y with tx := .sending .urgent (until_ (lineBytes head.frame)) }) ∧
          ∀ head rest, urgent = [] → routine = head :: rest →
            s.join p q = put { y with tx := .sending .routine (until_ (lineBytes head.frame)) }))) ∧
     ((∀ what d, x.tx ≠ .sending what d) → exec (.transmissionEnd p) s = .next s) ∧
     ∀ what d, x.tx = .sending what d →
       (s.now < d → exec (.transmissionEnd p) s = .next s) ∧
       (d ≤ s.now →
         (let urgent := if what = .urgent then x.urgent.tail else x.urgent
          let routine := if what = .routine then x.routine.tail else x.routine
          let y := { x with
            urgent := urgent, routine := routine, lastEnd := s.now,
            looped := if x.loopback then x.looped ++ (x.sentFrame what).toList else x.looped }
          (x.state ≠ .up ∨ (urgent = [] ∧ routine = []) →
            exec (.transmissionEnd p) s = .next (put { y with tx := .fill })) ∧
          (∀ q rest, x.state = .up → urgent = q :: rest →
            exec (.transmissionEnd p) s = .next (put { y with tx := .sending .urgent (until_ (lineBytes q.frame)) })) ∧
          ∀ q rest, x.state = .up → urgent = [] → routine = q :: rest →
            exec (.transmissionEnd p) s = .next (put { y with tx := .sending .routine (until_ (lineBytes q.frame)) }))))

/-- PORT CLOSE, in every mode: a CLOSED port stands; a STARTING one becomes CLOSED, with PORT HEALTH where it was FAILED;
an UP one leaves UP and is CLOSED with its queues empty, and PORT HEALTH names it. The other ports change in their queues
and transmitters only, and nothing of the tables of actions, slots, inputs and outputs. On a part at rest, where no context
completes and no retirement ends, the whole of it: its urgent frames are routed again, or returned where originated here,
its originated routine frames returned, an order's return making its site UNDELIVERED and an ECHO's the test NOT SENT; each
engaged participant at a terminal no longer reachable is LOST. The model's choice here: log entries 4, 19 and 45. -/
def Obligations.PortClose : Prop :=
  (∀ (s : State) (p : Nat), 3 < p → exec (.portClose p) s = .next (s.respond .range false [])) ∧
  ∀ (s : State) (p : Nat) (x : Port), p ≤ 3 → s.ports[p]? = some x →
    (x.state = .closed → s.AtRest → exec (.portClose p) s = .next (s.respond .done false [1#8])) ∧
    (x.state = .starting → s.AtRest →
      exec (.portClose p) s = .next ((({ s with ports := s.ports.set p { x with
        state := .closed, startDue := none, tx := .quiet, clash := false, neighbour := none, peer := none,
        loopback := false, health := none, looped := [] } }).raiseIf (decide (x.health = some Health.failed)) .portHealth
          p).respond .done false [1#8])) ∧
    (x.state = .up → ∃ t, exec (.portClose p) s = .next (t.respond .done false [1#8]) ∧
      t.ports[p]? = some { closedPort with lastFault := x.lastFault, lastEnd := x.lastEnd } ∧
      (∀ q, q ≠ p → (t.ports[q]?).map Port.fixed = (s.ports[q]?).map Port.fixed) ∧ Keeps s t ∧
      ∀ f, s.events[eventPlace .portHealth]? = some f →
        t.events[eventPlace .portHealth]? = some { f with item := if x.health = none then f.item else some p }) ∧
    (x.state = .up → s.AtRest →
      (let u := s.leftUp p { closedPort with lastFault := x.lastFault, lastEnd := x.lastEnd } (decide (x.health ≠ none))
       (∀ cx ∈ u.contexts, cx.current) → (s.cutOff u).retirementsRun →
         Answers (.portClose p) s (s.cutOff u) {} false (fun _ => [1#8]))) ∧
    ∀ q : Queued,
      (s.rerouted q = match s.route q with
        | some t => t
        | none => if q.origin.originated then s.notSent q else s) ∧
      (q.origin.originated = true ↔ ∀ n, q.origin ≠ .relay n) ∧
      (∀ n, q.origin = .order n → ∃ t : State, s.notSent q = t ∧ t = { s with contexts := t.contexts } ∧
        t.contexts.length = s.contexts.length ∧
        ∀ (c : Nat) (cx : Context), s.contexts[c]? = some cx → t.contexts[c]? = some (match cx with
          | .opened e w d => if e.serial = n then .opened { e with sites := e.sites.map (fun en =>
                if en.terminal = q.frame.destination ∧ en.status = .ordered then { en with status := .undelivered }
                else en) } w d
              else cx
          | _ => cx)) ∧
      (∀ n, q.origin = .echoTest n → s.notSent q =
        if s.testing = true ∧ n = s.testNumber then { s with test := .notSent } else s) ∧
      (q.origin = .block ∨ (∃ n, q.origin = .relay n) → s.notSent q = s)

/-- A window's end at an UP port. The window is ERRORED with a fault, else GOOD with a valid frame, else ACTIVE, else
SILENT; the runs follow it, saturating at 255. A silent run of F fails the port, which leaves UP and goes back to STARTING
with a START at once, after the two bytes of an abort where a frame was in transmission; else a bad run of D makes NORMAL
DEGRADED; else a good run of C makes DEGRADED NORMAL; each change raises PORT HEALTH. The model's choice here: log
entries 4, 23, 33, 35 and 45. -/
def Obligations.WindowEnd : Prop :=
  ∀ (s : State) (p : Nat) (x : Port) (unfinished : Bool), p ≤ 3 → s.ports[p]? = some x →
    (let due := x.state = .up ∧ ∃ d, x.windowDue = some d ∧ d ≤ s.now
     let good := !x.winFault && x.winValid
     let silent := !x.winFault && !x.winValid && !x.winActive && !unfinished
     let y := { x with
       good := if good then min 255 (x.good + 1) else 0, bad := if good then 0 else min 255 (x.bad + 1),
       silent := if silent then min 255 (x.silent + 1) else 0, winFault := false, winValid := false,
       winActive := false, windowDue := some (s.now + msTicks 10) }
     let put := fun z : Port => { s with ports := s.ports.set p z }
     let st := s.settings
     (¬ due → exec (.windowEnd p unfinished) s = .next s) ∧
     (due → y.silent < st.fail → s.AtRest →
       (x.health = some .normal → st.degrade ≤ y.bad → exec (.windowEnd p unfinished) s =
         .next ((put { y with health := some .degraded }).raise .portHealth p)) ∧
       (x.health = some .degraded → st.clear ≤ y.good → exec (.windowEnd p unfinished) s =
         .next ((put { y with health := some .normal }).raise .portHealth p)) ∧
       (¬ (x.health = some .normal ∧ st.degrade ≤ y.bad) → ¬ (x.health = some .degraded ∧ st.clear ≤ y.good) →
         exec (.windowEnd p unfinished) s = .next (put y))) ∧
     (let abort := match x.tx with
        | .sending _ _ => [escape, marker]
        | _ => []
      let failed := { y with
        state := .starting, health := some .failed, good := 0, bad := 0, silent := 0, urgent := [], routine := [],
        neighbour := none, clash := false, peer := none, windowDue := none, startDue := some (s.now + msTicks 10),
        tx := .sending (.start false)
          (s.now + (abort ++ lineBytes (startFrame s.own false)).length * (2048 / s.rateOf p)) }
      due → st.fail ≤ y.silent →
        (∃ t, exec (.windowEnd p unfinished) s = .next t ∧ t.ports[p]? = some failed ∧
          (∀ q, q ≠ p → (t.ports[q]?).map Port.fixed = (s.ports[q]?).map Port.fixed) ∧ Keeps s t ∧
          ∀ f, s.events[eventPlace .portHealth]? = some f → t.events[eventPlace .portHealth]? =
            some { f with item := if x.health = some .failed then f.item else some p }) ∧
        (s.AtRest →
          (let u := s.leftUp p failed (decide (x.health ≠ some .failed))
           (∀ cx ∈ u.contexts, cx.current) → (s.cutOff u).retirementsRun →
             Happens (.windowEnd p unfinished) s (s.cutOff u) {}))))

/-- What a receiver makes of the bytes between two markers, by the first test that fails; a fault is recorded as the last
fault, with the length and state, and an abort or fault marks the window of an UP port. A CLOSED port ignores all.
The model's choice here: log entries 9, 39 and 43. -/
def Obligations.LineFaults : Prop :=
  (∀ (s : State) (p : Nat) (x : Port) (line : List Byte), p ≤ 3 → s.ports[p]? = some x →
    (let put := fun y : Port => { s with ports := s.ports.set p y }
     (x.state = .closed → exec (.frameFault p line) s = .next s) ∧
     (x.state ≠ .closed →
       (∀ f, judgeLine line = .fault f → exec (.frameFault p line) s = .next (put { x with
         lastFault := some (f, min 57 ((restore line).bytes.length - 8), x.state),
         winFault := x.winFault || decide (x.state = .up) })) ∧
       (judgeLine line = .aborted → exec (.frameFault p line) s =
         .next (put { x with winActive := x.winActive || decide (x.state = .up) })) ∧
       (∀ f, judgeLine line = .valid f → exec (.frameFault p line) s = .next s) ∧
       (judgeLine line = .nothing → exec (.frameFault p line) s = .next s)))) ∧
  ∀ line : List Byte,
    (let r := restore line
     let whole := line ≠ [] ∧ r.aborted = false ∧ r.bad = false ∧ 8 ≤ r.bytes.length ∧ r.bytes.length ≤ 64
     (line = [] → judgeLine line = .nothing) ∧
     (line ≠ [] → r.aborted = true → judgeLine line = .aborted) ∧
     (line ≠ [] → r.aborted = false → ¬ whole → judgeLine line = .fault .malformed) ∧
     ∀ (dest src kind ch l1 l0 c1 c0 : Byte) (body : List Byte),
       r.bytes = [dest, src, kind, ch, l1, l0] ++ body ++ [c1, c0] → whole →
       ([c1, c0] ≠ crcBytes ([dest, src, kind, ch, l1, l0] ++ body) → judgeLine line = .fault .check) ∧
       ([c1, c0] = crcBytes ([dest, src, kind, ch, l1, l0] ++ body) →
         (let ok := fun k : FrameKind => nat16 l1 l0 = body.length ∧ kindOfCode kind.toNat = some k ∧
            (ch.toNat / 128 = 1 ↔ urgentKind k = true) ∧ ch.toNat % 8 ≠ 0 ∧ 1 ≤ src.toNat ∧ src.toNat ≤ 14 ∧
            (linkKind k = true ∨ (1 ≤ dest.toNat ∧ dest.toNat ≤ 14))
          (∀ k, ok k → judgeLine line = .valid {
            destination := dest.toNat, source := src.toNat, kind := k, hop := ch.toNat % 8, body := body }) ∧
          ((∀ k, ¬ ok k) → judgeLine line = .fault .malformed))))

/-- START, IDLE and frames for other terminals. In STARTING a START under this terminal's own number is ADDRESS CLASH, any
other is the peer's, and with heard set brings the port UP, and what that makes reachable is resynchronised: a participant
LOST there is BEHIND with a round wanted, or in a retire round is sent RETIRE again, and records are evaluated for the
mirrors there. An IDLE or a frame to relay that brings the port UP does the same. In UP one with heard set from the neighbour counts as valid, any
other sends the port back to STARTING, heard, with a START at once, after the two bytes of an abort where a frame was in
transmission, and its queued frames as at any port that leaves UP. An IDLE counts as valid and no more. A frame for another
terminal is relayed with its hop limit one less, not through its arrival port, or discarded: at hop limit 1, under this
terminal's number without loopback, or where no port takes it. The model's choice here: log entries 4, 25, 30, 35 and
45. -/
def Obligations.LinkFrames : Prop :=
  (∀ (s : State) (p source : Nat) (flags : Byte) (x : Port), p ≤ 3 → 1 ≤ source ∧ source ≤ 14 → s.ports[p]? = some x →
    (let put := fun y : Port => { s with ports := s.ports.set p y }
     let heard := flags.toNat % 2 = 1
     let mine := source = s.own ∧ x.loopback = false
     let up := { x with
       state := .up, clash := false, peer := some (s.now, source), startDue := none, neighbour := some source,
       health := some .degraded, good := 0, bad := 0, silent := 0, windowDue := some (s.now + msTicks 10),
       winFault := false, winValid := false, winActive := false, lastEnd := s.now }
     let entered := (put up).raiseIf (decide (x.health ≠ some Health.degraded)) .portHealth p
     (x.state = .closed → exec (.start p source flags) s = .next s) ∧
     (x.state = .starting → mine → s.AtRest →
       exec (.start p source flags) s = .next (put { x with clash := true })) ∧
     (x.state = .starting → ¬ mine → ¬ heard → s.AtRest →
       exec (.start p source flags) s = .next (put { x with clash := false, peer := some (s.now, source) })) ∧
     (x.state = .starting → ¬ mine → heard → s.AtRest → (∀ d, entered.reachable d = s.reachable d) →
       exec (.start p source flags) s = .next entered) ∧
     (x.state = .starting → ¬ mine → heard → s.AtRest → HappensUp (.start p source flags) s entered {}) ∧
     (x.state = .starting → ¬ mine → heard → ∃ t, exec (.start p source flags) s = .next t ∧
       (t.ports[p]?).map Port.fixed = some up.fixed ∧ Keeps s t) ∧
     (x.state = .up → heard → x.neighbour = some source → s.AtRest →
       exec (.start p source flags) s = .next (put { x with winValid := true })) ∧
     (let abort := match x.tx with
        | .sending _ _ => [escape, marker]
        | _ => []
      let back := { x with
        state := .starting, health := none, good := 0, bad := 0, silent := 0, urgent := [], routine := [],
        neighbour := none, clash := false, peer := some (s.now, source), windowDue := none, winFault := false,
        winValid := false, winActive := false, startDue := some (s.now + msTicks 10),
        tx := .sending (.start true)
          (s.now + (abort ++ lineBytes (startFrame s.own true)).length * (2048 / s.rateOf p)) }
      x.state = .up → ¬ (heard ∧ x.neighbour = some source) →
        (∃ t, exec (.start p source flags) s = .next t ∧ t.ports[p]? = some back ∧ Keeps s t) ∧
        (s.AtRest →
          (let u := s.leftUp p back (decide (x.health ≠ none))
           (∀ cx ∈ u.contexts, cx.current) → (s.cutOff u).retirementsRun →
             Happens (.start p source flags) s (s.cutOff u) {}))))) ∧
  (∀ (s v : State) (p source : Nat), s.AtRest → Received s p source [] v → exec (.idle p source) s = .next v) ∧
  (∀ (s v : State) (p source : Nat), s.AtRest → Admitted s p source [] v → HappensUp (.idle p source) s v {}) ∧
  ∀ (s v : State) (p destination source hop : Nat) (kind : FrameKind) (body : List Byte), s.AtRest →
    Admitted s p source body v → 1 ≤ destination ∧ destination ≤ 14 → 1 ≤ hop ∧ hop ≤ 7 → linkKind kind = false →
    destination ≠ s.own →
    (let cmd : Instr := .relayedFrame p destination source kind hop body
     let q : Queued := {
       frame := { destination := destination, source := source, kind := kind, hop := hop - 1, body := body },
       origin := .relay p }
     let stopped := hop = 1 ∨ (source = s.own ∧ (v.portAt p).loopback = false)
     let takes := fun route : Option Nat => route.any (fun n =>
       (v.portAt n).usable && n != p && (v.portAt n).room kind)
     let relayed := fun u : State =>
       HappensUp cmd s u {} ∧ ((∀ d, v.reachable d = s.reachable d) → exec cmd s = .next u)
     (stopped → relayed v) ∧
     (¬ stopped → ∀ n, (s.routeTo destination).primary = some n → takes (some n) = true → relayed (v.join n q)) ∧
     (¬ stopped → takes (s.routeTo destination).primary = false →
       (takes (s.routeTo destination).alternate = false → relayed v) ∧
       ∀ n, (s.routeTo destination).alternate = some n → takes (some n) = true → relayed (v.join n q)))

/-- ROUTE WRITE replaces a destination's entry and refuses, with RANGE, what R173 lists. Where it changes the reachability of
its destination, on a part at rest, each record is resynchronised: a participant there is LOST where it was engaged and the
terminal is cut off; one that was LOST and can be reached again is BEHIND with a round wanted, or in a retire round is sent
RETIRE again. A frame originated here goes to the primary port, or the alternate, that is usable with room, else is returned
NOT SENT. PORT TEST counts its number up and sends an ECHO that carries it, the test outstanding for 100 ms or NOT SENT; the
matching ECHO REPLY makes it REPLIED, with the round trip in quarters of a millisecond, the expiry NO REPLY, any other reply
changes nothing. An ECHO is answered with its body. The model's choice here: log entries 3, 4, 15, 28, 33 and 45. -/
def Obligations.RoutesAndTests : Prop :=
  (∀ (s : State) (d primary alternate : Nat),
    (let bad := d = 0 ∨ 14 < d ∨ (3 < primary ∧ primary ≠ 255) ∨ (3 < alternate ∧ alternate ≠ 255) ∨
       (alternate ≠ 255 ∧ (primary = 255 ∨ alternate = primary))
     let u := { s with routes := s.routes.set (d - 1) {
       primary := if primary = 255 then none else some primary,
       alternate := if alternate = 255 then none else some alternate } }
     (bad → exec (.routeWrite d primary alternate) s = .next (s.respond .range false [])) ∧
     (¬ bad → ∃ t, exec (.routeWrite d primary alternate) s = .next (t.respond .done false (t.routeEntry d)) ∧
       t.routes = u.routes ∧ t.ports.map Port.fixed = s.ports.map Port.fixed ∧ Keeps s t ∧
       (s.AtRest → (∀ n, u.reachable n = s.reachable n) → t = u)) ∧
     (¬ bad → s.AtRest → u.reachable d ≠ s.reachable d →
       (let there := fun (h : HomePart) (f : Participant → Participant) =>
          { h with statuses := h.statuses.map (fun q => if q.terminal = d then f q else q) }
        let waiting := fun q : Participant => { q with status := .behind, tries := 0, retry := none, reason := none }
        let again := fun q : Participant => { q with
          status := .behind, tries := 1, retry := some (s.now + msTicks s.settings.retryInterval), reason := none }
        let lost : HomePart → Bool := fun h => decide ((h.part d).map Participant.status = some .lost)
        let resent : Scheme → Bool := fun sc => match sc.part with
          | .home h => lost h && sc.life == .retiring && h.round == .retire
          | .copy _ => false
        let wanted : Scheme → Bool := fun sc => match sc.part with
          | .home h => lost h && sc.life != .retiring
          | .copy _ => false
        let resync := fun sc : Scheme => match sc.part with
          | .home h =>
            if u.reachable d = false then sc.withHome (there h (fun q =>
                if q.engaged then { q with status := .lost, retry := none, reason := none } else q))
            else if wanted sc then sc.withHome (there h waiting)
            else if resent sc then sc.withHome (there h again)
            else sc
          | .copy _ => sc
        let back := fun i => if u.reachable d then s.schemeAt i else none
        let v := { u with schemes := s.schemes.map (Option.map resync) }
        v.retirementsRun → Answers (.routeWrite d primary alternate) s v
          { wants := s.schemeSlots.filter (fun i => (back i).any wanted),
            out := (s.schemeSlots.filterMap back).flatMap (fun sc =>
              match sc.part with
              | .home h => if resent sc then (h.statuses.filter (fun q => q.terminal == d)).map (fun q =>
                  s.originate .retire q.terminal (u8 sc.id) .block) else []
              | .copy _ => []) }
          false (fun t => t.routeEntry d))))) ∧
  (∀ (s : State) (q : Queued),
    (let takes := fun route : Option Nat => route.any (fun n =>
       (s.portAt n).usable && q.origin.arrival != some n && (s.portAt n).room q.frame.kind)
     let route := s.routeTo q.frame.destination
     (∀ n, route.primary = some n → takes (some n) = true → s.dispatchFrame q = s.join n q) ∧
     (takes route.primary = false →
       (∀ n, route.alternate = some n → takes (some n) = true → s.dispatchFrame q = s.join n q) ∧
       (takes route.alternate = false → s.dispatchFrame q = s.notSent q)))) ∧
  (∀ (s : State) (d : Nat), s.mode ≠ .config →
    (d = 0 ∨ 14 < d → exec (.portTest d) s = .next (s.respond .range false [])) ∧
    (1 ≤ d → d ≤ 14 → s.testing = true → exec (.portTest d) s = .next (s.respond .state false [])) ∧
    (1 ≤ d → d ≤ 14 → s.testing = false → s.AtRest →
      (let n := (s.testNumber + 1) % 256
       let u := { s with testNumber := n, test := .outstanding d s.now (s.now + msTicks 100) }
       let q := s.originate .echo d [byteOf n] (.echoTest n)
       (∀ t, u.route q = some t → exec (.portTest d) s = .next (t.respond .done false [byteOf n])) ∧
       (u.route q = none →
         exec (.portTest d) s = .next ({ u with test := .notSent }.respond .done false [byteOf n]))))) ∧
  (∀ (s : State) (d at0 due : Nat), s.test = .outstanding d at0 due →
    (due ≤ s.now → exec .portTestExpiry s = .next { s with test := .noReply }) ∧
    (s.now < due → exec .portTestExpiry s = .next s)) ∧
  ∀ (s v : State) (p source : Nat) (body : List Byte), s.AtRest → Received s p source body v →
    exec (.echo p source body) s = .next (v.dispatchFrame (v.originate .echoReply source body .block)) ∧
    (∀ d at0 due, s.test = .outstanding d at0 due →
      (d = source → body = [byteOf s.testNumber] → exec (.echoReply p source body) s =
        .next { v with test := .replied ((s.now - at0) / 64) }) ∧
      (d ≠ source ∨ body ≠ [byteOf s.testNumber] → exec (.echoReply p source body) s = .next v)) ∧
    (s.testing = false → exec (.echoReply p source body) s = .next v)

/-- A routed frame that its port does not take changes nothing: a CLOSED port's, a STARTING port's that is not heard, and
one under this terminal's own number in STARTING without loopback. A port that takes one is UP, or enters UP with it, and
counts it in the window; a body that cannot be read as its kind is then discarded, with no reply. Whatever its kind and
body, a frame that brings its port UP resynchronises the records with the terminals that this makes reachable: no
participant there is left LOST. The model's choice here: log entries 4, 12, 30, 44 and 45. -/
def Obligations.FramesIgnored : Prop :=
  (∀ (s : State) (p source : Nat) (body : List Byte) (cmd : Instr), p ≤ 3 → 1 ≤ source ∧ source ≤ 14 →
    body.length ≤ 56 → s.admitFrame p source = none →
    cmd ∈ [Instr.contingency p source body, .firedReport p source body, .tripOrder p source body,
      .orderAck p source body, .update p source body, .updateReply p source body, .refreshFrame p source body,
      .refreshAck p source body, .retireFrame p source body, .retireAck p source body, .disown p source body,
      .quantityFrame p source body, .actionStatus p source body, .echo p source body, .echoReply p source body,
      .idle p source] → exec cmd s = .next s) ∧
  (∀ (s v : State) (p source : Nat) (body : List Byte), s.AtRest → Admitted s p source body v →
    (let discards := fun cmd : Instr =>
       HappensUp cmd s v {} ∧ ((∀ d, v.reachable d = s.reachable d) → exec cmd s = .next v)
     (readContingency body = none → discards (.contingency p source body)) ∧
     (readFiredReport body = none → discards (.firedReport p source body)) ∧
     (readTripOrder body = none → discards (.tripOrder p source body)) ∧
     (readOrderAck body = none → discards (.orderAck p source body)) ∧
     (readUpdate body = none → discards (.update p source body)) ∧
     (readReply body = none → discards (.updateReply p source body)) ∧
     (readRefresh body = none → discards (.refreshFrame p source body)) ∧
     (readRefreshAck body = none → discards (.refreshAck p source body)) ∧
     (body.length ≠ 1 → discards (.retireFrame p source body) ∧ discards (.disown p source body)) ∧
     (readRetireAck body = none → discards (.retireAck p source body)) ∧
     (readQuantity body = none → discards (.quantityFrame p source body)) ∧
     (readActionStatus body = none → discards (.actionStatus p source body)))) ∧
  (∀ (s v : State) (p source : Nat) (body : List Byte) (cmd : Instr), Admitted s p source body v →
    cmd ∈ [Instr.contingency p source body, .firedReport p source body, .tripOrder p source body,
      .orderAck p source body, .update p source body, .updateReply p source body, .refreshFrame p source body,
      .refreshAck p source body, .retireFrame p source body, .retireAck p source body, .disown p source body,
      .quantityFrame p source body, .actionStatus p source body, .echo p source body, .echoReply p source body,
      .idle p source] →
    ∃ t, exec cmd s = .next t ∧ (∀ d, t.reachable d = v.reachable d) ∧
      ∀ sc ∈ t.held, ∀ h d q, sc.part = .home h → d ∈ terminals → s.reachable d = false → v.reachable d = true →
        h.part d = some q → sc.life ≠ .retiring ∨ h.round = .retire → q.status ≠ .lost) ∧
  ∀ (s : State) (p source : Nat) (x : Port), s.ports[p]? = some x →
    (let heard := ∃ q, x.peer = some q ∧ s.now ≤ q.1 + msTicks 30
     (s.admitFrame p source = none ↔
       x.state = .closed ∨ (x.state = .starting ∧ (¬ heard ∨ (source = s.own ∧ x.loopback = false)))) ∧
     (x.state = .up → s.admitFrame p source = some { s with ports := s.ports.set p { x with winValid := true } }) ∧
     ∀ v, x.state = .starting → s.admitFrame p source = some v → v.ports[p]? = some { x with
       state := .up, startDue := none, neighbour := x.peer.map Prod.snd, health := some .degraded, good := 0, bad := 0,
       silent := 0, windowDue := some (s.now + msTicks 10), winFault := false, winValid := true, winActive := false,
       lastEnd := s.now } ∧ v = { s with ports := v.ports, events := v.events } ∧
       (∀ q, q ≠ p → v.ports[q]? = s.ports[q]?) ∧
       ∀ f, s.events[eventPlace .portHealth]? = some f → v.events[eventPlace .portHealth]? =
         some { f with item := if x.health = some .degraded then f.item else some p })

end Statements
end

