-- ==== Sys2Proof/Laws/State.lean ====
section
/-! SUPPORT. What each update of the state does to each field: one lemma a field, true by unfolding. -/

namespace Sys2Proof.Machine

variable (s : State)

/-! ### modPort -/

@[simp] theorem State.modPort_now (p : Nat) (f : Port → Port) : (s.modPort p f).now = s.now := rfl
@[simp] theorem State.modPort_mode (p : Nat) (f : Port → Port) : (s.modPort p f).mode = s.mode := rfl
@[simp] theorem State.modPort_settings (p : Nat) (f : Port → Port) : (s.modPort p f).settings = s.settings := rfl
@[simp] theorem State.modPort_schemes (p : Nat) (f : Port → Port) : (s.modPort p f).schemes = s.schemes := rfl
@[simp] theorem State.modPort_slots (p : Nat) (f : Port → Port) : (s.modPort p f).slots = s.slots := rfl
@[simp] theorem State.modPort_actions (p : Nat) (f : Port → Port) : (s.modPort p f).actions = s.actions := rfl
@[simp] theorem State.modPort_outputs (p : Nat) (f : Port → Port) : (s.modPort p f).outputs = s.outputs := rfl
@[simp] theorem State.modPort_inputs (p : Nat) (f : Port → Port) : (s.modPort p f).inputs = s.inputs := rfl
@[simp] theorem State.modPort_remote (p : Nat) (f : Port → Port) : (s.modPort p f).remote = s.remote := rfl
@[simp] theorem State.modPort_contexts (p : Nat) (f : Port → Port) : (s.modPort p f).contexts = s.contexts := rfl
@[simp] theorem State.modPort_firings (p : Nat) (f : Port → Port) : (s.modPort p f).firings = s.firings := rfl
@[simp] theorem State.modPort_ports (p : Nat) (f : Port → Port) : (s.modPort p f).ports = s.ports.modify p f := rfl
@[simp] theorem State.modPort_routes (p : Nat) (f : Port → Port) : (s.modPort p f).routes = s.routes := rfl
@[simp] theorem State.modPort_testNumber (p : Nat) (f : Port → Port) : (s.modPort p f).testNumber = s.testNumber := rfl
@[simp] theorem State.modPort_test (p : Nat) (f : Port → Port) : (s.modPort p f).test = s.test := rfl
@[simp] theorem State.modPort_publication (p : Nat) (f : Port → Port) : (s.modPort p f).publication = s.publication := rfl
@[simp] theorem State.modPort_buffer (p : Nat) (f : Port → Port) : (s.modPort p f).buffer = s.buffer := rfl
@[simp] theorem State.modPort_miso (p : Nat) (f : Port → Port) : (s.modPort p f).miso = s.miso := rfl
@[simp] theorem State.modPort_events (p : Nat) (f : Port → Port) : (s.modPort p f).events = s.events := rfl
@[simp] theorem State.modPort_freeIndex (p : Nat) (f : Port → Port) : (s.modPort p f).freeIndex = s.freeIndex := rfl
@[simp] theorem State.modPort_pending (p : Nat) (f : Port → Port) : (s.modPort p f).pending = s.pending := rfl

/-! ### modOutput -/

@[simp] theorem State.modOutput_now (o : Nat) (f : TripOutput → TripOutput) : (s.modOutput o f).now = s.now := rfl
@[simp] theorem State.modOutput_mode (o : Nat) (f : TripOutput → TripOutput) : (s.modOutput o f).mode = s.mode := rfl
@[simp] theorem State.modOutput_settings (o : Nat) (f : TripOutput → TripOutput) : (s.modOutput o f).settings = s.settings := rfl
@[simp] theorem State.modOutput_schemes (o : Nat) (f : TripOutput → TripOutput) : (s.modOutput o f).schemes = s.schemes := rfl
@[simp] theorem State.modOutput_slots (o : Nat) (f : TripOutput → TripOutput) : (s.modOutput o f).slots = s.slots := rfl
@[simp] theorem State.modOutput_actions (o : Nat) (f : TripOutput → TripOutput) : (s.modOutput o f).actions = s.actions := rfl
@[simp] theorem State.modOutput_outputs (o : Nat) (f : TripOutput → TripOutput) : (s.modOutput o f).outputs = s.outputs.modify o f := rfl
@[simp] theorem State.modOutput_inputs (o : Nat) (f : TripOutput → TripOutput) : (s.modOutput o f).inputs = s.inputs := rfl
@[simp] theorem State.modOutput_remote (o : Nat) (f : TripOutput → TripOutput) : (s.modOutput o f).remote = s.remote := rfl
@[simp] theorem State.modOutput_contexts (o : Nat) (f : TripOutput → TripOutput) : (s.modOutput o f).contexts = s.contexts := rfl
@[simp] theorem State.modOutput_firings (o : Nat) (f : TripOutput → TripOutput) : (s.modOutput o f).firings = s.firings := rfl
@[simp] theorem State.modOutput_ports (o : Nat) (f : TripOutput → TripOutput) : (s.modOutput o f).ports = s.ports := rfl
@[simp] theorem State.modOutput_routes (o : Nat) (f : TripOutput → TripOutput) : (s.modOutput o f).routes = s.routes := rfl
@[simp] theorem State.modOutput_testNumber (o : Nat) (f : TripOutput → TripOutput) : (s.modOutput o f).testNumber = s.testNumber := rfl
@[simp] theorem State.modOutput_test (o : Nat) (f : TripOutput → TripOutput) : (s.modOutput o f).test = s.test := rfl
@[simp] theorem State.modOutput_publication (o : Nat) (f : TripOutput → TripOutput) : (s.modOutput o f).publication = s.publication := rfl
@[simp] theorem State.modOutput_buffer (o : Nat) (f : TripOutput → TripOutput) : (s.modOutput o f).buffer = s.buffer := rfl
@[simp] theorem State.modOutput_miso (o : Nat) (f : TripOutput → TripOutput) : (s.modOutput o f).miso = s.miso := rfl
@[simp] theorem State.modOutput_events (o : Nat) (f : TripOutput → TripOutput) : (s.modOutput o f).events = s.events := rfl
@[simp] theorem State.modOutput_freeIndex (o : Nat) (f : TripOutput → TripOutput) : (s.modOutput o f).freeIndex = s.freeIndex := rfl
@[simp] theorem State.modOutput_pending (o : Nat) (f : TripOutput → TripOutput) : (s.modOutput o f).pending = s.pending := rfl

/-! ### modInput -/

@[simp] theorem State.modInput_now (i : Nat) (f : Input → Input) : (s.modInput i f).now = s.now := rfl
@[simp] theorem State.modInput_mode (i : Nat) (f : Input → Input) : (s.modInput i f).mode = s.mode := rfl
@[simp] theorem State.modInput_settings (i : Nat) (f : Input → Input) : (s.modInput i f).settings = s.settings := rfl
@[simp] theorem State.modInput_schemes (i : Nat) (f : Input → Input) : (s.modInput i f).schemes = s.schemes := rfl
@[simp] theorem State.modInput_slots (i : Nat) (f : Input → Input) : (s.modInput i f).slots = s.slots := rfl
@[simp] theorem State.modInput_actions (i : Nat) (f : Input → Input) : (s.modInput i f).actions = s.actions := rfl
@[simp] theorem State.modInput_outputs (i : Nat) (f : Input → Input) : (s.modInput i f).outputs = s.outputs := rfl
@[simp] theorem State.modInput_inputs (i : Nat) (f : Input → Input) : (s.modInput i f).inputs = s.inputs.modify i f := rfl
@[simp] theorem State.modInput_remote (i : Nat) (f : Input → Input) : (s.modInput i f).remote = s.remote := rfl
@[simp] theorem State.modInput_contexts (i : Nat) (f : Input → Input) : (s.modInput i f).contexts = s.contexts := rfl
@[simp] theorem State.modInput_firings (i : Nat) (f : Input → Input) : (s.modInput i f).firings = s.firings := rfl
@[simp] theorem State.modInput_ports (i : Nat) (f : Input → Input) : (s.modInput i f).ports = s.ports := rfl
@[simp] theorem State.modInput_routes (i : Nat) (f : Input → Input) : (s.modInput i f).routes = s.routes := rfl
@[simp] theorem State.modInput_testNumber (i : Nat) (f : Input → Input) : (s.modInput i f).testNumber = s.testNumber := rfl
@[simp] theorem State.modInput_test (i : Nat) (f : Input → Input) : (s.modInput i f).test = s.test := rfl
@[simp] theorem State.modInput_publication (i : Nat) (f : Input → Input) : (s.modInput i f).publication = s.publication := rfl
@[simp] theorem State.modInput_buffer (i : Nat) (f : Input → Input) : (s.modInput i f).buffer = s.buffer := rfl
@[simp] theorem State.modInput_miso (i : Nat) (f : Input → Input) : (s.modInput i f).miso = s.miso := rfl
@[simp] theorem State.modInput_events (i : Nat) (f : Input → Input) : (s.modInput i f).events = s.events := rfl
@[simp] theorem State.modInput_freeIndex (i : Nat) (f : Input → Input) : (s.modInput i f).freeIndex = s.freeIndex := rfl
@[simp] theorem State.modInput_pending (i : Nat) (f : Input → Input) : (s.modInput i f).pending = s.pending := rfl

/-! ### modSlot -/

@[simp] theorem State.modSlot_now (q : Nat) (f : QSlot → QSlot) : (s.modSlot q f).now = s.now := rfl
@[simp] theorem State.modSlot_mode (q : Nat) (f : QSlot → QSlot) : (s.modSlot q f).mode = s.mode := rfl
@[simp] theorem State.modSlot_settings (q : Nat) (f : QSlot → QSlot) : (s.modSlot q f).settings = s.settings := rfl
@[simp] theorem State.modSlot_schemes (q : Nat) (f : QSlot → QSlot) : (s.modSlot q f).schemes = s.schemes := rfl
@[simp] theorem State.modSlot_slots (q : Nat) (f : QSlot → QSlot) : (s.modSlot q f).slots = s.slots.modify q f := rfl
@[simp] theorem State.modSlot_actions (q : Nat) (f : QSlot → QSlot) : (s.modSlot q f).actions = s.actions := rfl
@[simp] theorem State.modSlot_outputs (q : Nat) (f : QSlot → QSlot) : (s.modSlot q f).outputs = s.outputs := rfl
@[simp] theorem State.modSlot_inputs (q : Nat) (f : QSlot → QSlot) : (s.modSlot q f).inputs = s.inputs := rfl
@[simp] theorem State.modSlot_remote (q : Nat) (f : QSlot → QSlot) : (s.modSlot q f).remote = s.remote := rfl
@[simp] theorem State.modSlot_contexts (q : Nat) (f : QSlot → QSlot) : (s.modSlot q f).contexts = s.contexts := rfl
@[simp] theorem State.modSlot_firings (q : Nat) (f : QSlot → QSlot) : (s.modSlot q f).firings = s.firings := rfl
@[simp] theorem State.modSlot_ports (q : Nat) (f : QSlot → QSlot) : (s.modSlot q f).ports = s.ports := rfl
@[simp] theorem State.modSlot_routes (q : Nat) (f : QSlot → QSlot) : (s.modSlot q f).routes = s.routes := rfl
@[simp] theorem State.modSlot_testNumber (q : Nat) (f : QSlot → QSlot) : (s.modSlot q f).testNumber = s.testNumber := rfl
@[simp] theorem State.modSlot_test (q : Nat) (f : QSlot → QSlot) : (s.modSlot q f).test = s.test := rfl
@[simp] theorem State.modSlot_publication (q : Nat) (f : QSlot → QSlot) : (s.modSlot q f).publication = s.publication := rfl
@[simp] theorem State.modSlot_buffer (q : Nat) (f : QSlot → QSlot) : (s.modSlot q f).buffer = s.buffer := rfl
@[simp] theorem State.modSlot_miso (q : Nat) (f : QSlot → QSlot) : (s.modSlot q f).miso = s.miso := rfl
@[simp] theorem State.modSlot_events (q : Nat) (f : QSlot → QSlot) : (s.modSlot q f).events = s.events := rfl
@[simp] theorem State.modSlot_freeIndex (q : Nat) (f : QSlot → QSlot) : (s.modSlot q f).freeIndex = s.freeIndex := rfl
@[simp] theorem State.modSlot_pending (q : Nat) (f : QSlot → QSlot) : (s.modSlot q f).pending = s.pending := rfl

/-! ### setContext -/

@[simp] theorem State.setContext_now (c : Nat) (x : Context) : (s.setContext c x).now = s.now := rfl
@[simp] theorem State.setContext_mode (c : Nat) (x : Context) : (s.setContext c x).mode = s.mode := rfl
@[simp] theorem State.setContext_settings (c : Nat) (x : Context) : (s.setContext c x).settings = s.settings := rfl
@[simp] theorem State.setContext_schemes (c : Nat) (x : Context) : (s.setContext c x).schemes = s.schemes := rfl
@[simp] theorem State.setContext_slots (c : Nat) (x : Context) : (s.setContext c x).slots = s.slots := rfl
@[simp] theorem State.setContext_actions (c : Nat) (x : Context) : (s.setContext c x).actions = s.actions := rfl
@[simp] theorem State.setContext_outputs (c : Nat) (x : Context) : (s.setContext c x).outputs = s.outputs := rfl
@[simp] theorem State.setContext_inputs (c : Nat) (x : Context) : (s.setContext c x).inputs = s.inputs := rfl
@[simp] theorem State.setContext_remote (c : Nat) (x : Context) : (s.setContext c x).remote = s.remote := rfl
@[simp] theorem State.setContext_contexts (c : Nat) (x : Context) : (s.setContext c x).contexts = s.contexts.set c x := rfl
@[simp] theorem State.setContext_firings (c : Nat) (x : Context) : (s.setContext c x).firings = s.firings := rfl
@[simp] theorem State.setContext_ports (c : Nat) (x : Context) : (s.setContext c x).ports = s.ports := rfl
@[simp] theorem State.setContext_routes (c : Nat) (x : Context) : (s.setContext c x).routes = s.routes := rfl
@[simp] theorem State.setContext_testNumber (c : Nat) (x : Context) : (s.setContext c x).testNumber = s.testNumber := rfl
@[simp] theorem State.setContext_test (c : Nat) (x : Context) : (s.setContext c x).test = s.test := rfl
@[simp] theorem State.setContext_publication (c : Nat) (x : Context) : (s.setContext c x).publication = s.publication := rfl
@[simp] theorem State.setContext_buffer (c : Nat) (x : Context) : (s.setContext c x).buffer = s.buffer := rfl
@[simp] theorem State.setContext_miso (c : Nat) (x : Context) : (s.setContext c x).miso = s.miso := rfl
@[simp] theorem State.setContext_events (c : Nat) (x : Context) : (s.setContext c x).events = s.events := rfl
@[simp] theorem State.setContext_freeIndex (c : Nat) (x : Context) : (s.setContext c x).freeIndex = s.freeIndex := rfl
@[simp] theorem State.setContext_pending (c : Nat) (x : Context) : (s.setContext c x).pending = s.pending := rfl

/-! ### putScheme -/

@[simp] theorem State.putScheme_now (i : Nat) (o : Option Scheme) : (s.putScheme i o).now = s.now := rfl
@[simp] theorem State.putScheme_mode (i : Nat) (o : Option Scheme) : (s.putScheme i o).mode = s.mode := rfl
@[simp] theorem State.putScheme_settings (i : Nat) (o : Option Scheme) : (s.putScheme i o).settings = s.settings := rfl
@[simp] theorem State.putScheme_schemes (i : Nat) (o : Option Scheme) : (s.putScheme i o).schemes = s.schemes.set i o := rfl
@[simp] theorem State.putScheme_slots (i : Nat) (o : Option Scheme) : (s.putScheme i o).slots = s.slots := rfl
@[simp] theorem State.putScheme_actions (i : Nat) (o : Option Scheme) : (s.putScheme i o).actions = s.actions := rfl
@[simp] theorem State.putScheme_outputs (i : Nat) (o : Option Scheme) : (s.putScheme i o).outputs = s.outputs := rfl
@[simp] theorem State.putScheme_inputs (i : Nat) (o : Option Scheme) : (s.putScheme i o).inputs = s.inputs := rfl
@[simp] theorem State.putScheme_remote (i : Nat) (o : Option Scheme) : (s.putScheme i o).remote = s.remote := rfl
@[simp] theorem State.putScheme_contexts (i : Nat) (o : Option Scheme) : (s.putScheme i o).contexts = s.contexts := rfl
@[simp] theorem State.putScheme_firings (i : Nat) (o : Option Scheme) : (s.putScheme i o).firings = s.firings := rfl
@[simp] theorem State.putScheme_ports (i : Nat) (o : Option Scheme) : (s.putScheme i o).ports = s.ports := rfl
@[simp] theorem State.putScheme_routes (i : Nat) (o : Option Scheme) : (s.putScheme i o).routes = s.routes := rfl
@[simp] theorem State.putScheme_testNumber (i : Nat) (o : Option Scheme) : (s.putScheme i o).testNumber = s.testNumber := rfl
@[simp] theorem State.putScheme_test (i : Nat) (o : Option Scheme) : (s.putScheme i o).test = s.test := rfl
@[simp] theorem State.putScheme_publication (i : Nat) (o : Option Scheme) : (s.putScheme i o).publication = s.publication := rfl
@[simp] theorem State.putScheme_buffer (i : Nat) (o : Option Scheme) : (s.putScheme i o).buffer = s.buffer := rfl
@[simp] theorem State.putScheme_miso (i : Nat) (o : Option Scheme) : (s.putScheme i o).miso = s.miso := rfl
@[simp] theorem State.putScheme_events (i : Nat) (o : Option Scheme) : (s.putScheme i o).events = s.events := rfl
@[simp] theorem State.putScheme_freeIndex (i : Nat) (o : Option Scheme) : (s.putScheme i o).freeIndex = s.freeIndex := rfl
@[simp] theorem State.putScheme_pending (i : Nat) (o : Option Scheme) : (s.putScheme i o).pending = s.pending := rfl

/-! ### raise -/

@[simp] theorem State.raise_now (e : Event) (n : Nat) : (s.raise e n).now = s.now := rfl
@[simp] theorem State.raise_mode (e : Event) (n : Nat) : (s.raise e n).mode = s.mode := rfl
@[simp] theorem State.raise_settings (e : Event) (n : Nat) : (s.raise e n).settings = s.settings := rfl
@[simp] theorem State.raise_schemes (e : Event) (n : Nat) : (s.raise e n).schemes = s.schemes := rfl
@[simp] theorem State.raise_slots (e : Event) (n : Nat) : (s.raise e n).slots = s.slots := rfl
@[simp] theorem State.raise_actions (e : Event) (n : Nat) : (s.raise e n).actions = s.actions := rfl
@[simp] theorem State.raise_outputs (e : Event) (n : Nat) : (s.raise e n).outputs = s.outputs := rfl
@[simp] theorem State.raise_inputs (e : Event) (n : Nat) : (s.raise e n).inputs = s.inputs := rfl
@[simp] theorem State.raise_remote (e : Event) (n : Nat) : (s.raise e n).remote = s.remote := rfl
@[simp] theorem State.raise_contexts (e : Event) (n : Nat) : (s.raise e n).contexts = s.contexts := rfl
@[simp] theorem State.raise_firings (e : Event) (n : Nat) : (s.raise e n).firings = s.firings := rfl
@[simp] theorem State.raise_ports (e : Event) (n : Nat) : (s.raise e n).ports = s.ports := rfl
@[simp] theorem State.raise_routes (e : Event) (n : Nat) : (s.raise e n).routes = s.routes := rfl
@[simp] theorem State.raise_testNumber (e : Event) (n : Nat) : (s.raise e n).testNumber = s.testNumber := rfl
@[simp] theorem State.raise_test (e : Event) (n : Nat) : (s.raise e n).test = s.test := rfl
@[simp] theorem State.raise_publication (e : Event) (n : Nat) : (s.raise e n).publication = s.publication := rfl
@[simp] theorem State.raise_buffer (e : Event) (n : Nat) : (s.raise e n).buffer = s.buffer := rfl
@[simp] theorem State.raise_miso (e : Event) (n : Nat) : (s.raise e n).miso = s.miso := rfl
@[simp] theorem State.raise_events (e : Event) (n : Nat) : (s.raise e n).events = s.events.modify (eventPlace e) (fun f => { f with item := some n }) := rfl
@[simp] theorem State.raise_freeIndex (e : Event) (n : Nat) : (s.raise e n).freeIndex = s.freeIndex := rfl
@[simp] theorem State.raise_pending (e : Event) (n : Nat) : (s.raise e n).pending = s.pending := rfl

/-! ### respond -/

@[simp] theorem State.respond_now (c : Code) (a : Bool) (b : List Byte) : (s.respond c a b).now = s.now := rfl
@[simp] theorem State.respond_mode (c : Code) (a : Bool) (b : List Byte) : (s.respond c a b).mode = s.mode := rfl
@[simp] theorem State.respond_settings (c : Code) (a : Bool) (b : List Byte) : (s.respond c a b).settings = s.settings := rfl
@[simp] theorem State.respond_schemes (c : Code) (a : Bool) (b : List Byte) : (s.respond c a b).schemes = s.schemes := rfl
@[simp] theorem State.respond_slots (c : Code) (a : Bool) (b : List Byte) : (s.respond c a b).slots = s.slots := rfl
@[simp] theorem State.respond_actions (c : Code) (a : Bool) (b : List Byte) : (s.respond c a b).actions = s.actions := rfl
@[simp] theorem State.respond_outputs (c : Code) (a : Bool) (b : List Byte) : (s.respond c a b).outputs = s.outputs := rfl
@[simp] theorem State.respond_inputs (c : Code) (a : Bool) (b : List Byte) : (s.respond c a b).inputs = s.inputs := rfl
@[simp] theorem State.respond_remote (c : Code) (a : Bool) (b : List Byte) : (s.respond c a b).remote = s.remote := rfl
@[simp] theorem State.respond_contexts (c : Code) (a : Bool) (b : List Byte) : (s.respond c a b).contexts = s.contexts := rfl
@[simp] theorem State.respond_firings (c : Code) (a : Bool) (b : List Byte) : (s.respond c a b).firings = s.firings := rfl
@[simp] theorem State.respond_ports (c : Code) (a : Bool) (b : List Byte) : (s.respond c a b).ports = s.ports := rfl
@[simp] theorem State.respond_routes (c : Code) (a : Bool) (b : List Byte) : (s.respond c a b).routes = s.routes := rfl
@[simp] theorem State.respond_testNumber (c : Code) (a : Bool) (b : List Byte) : (s.respond c a b).testNumber = s.testNumber := rfl
@[simp] theorem State.respond_test (c : Code) (a : Bool) (b : List Byte) : (s.respond c a b).test = s.test := rfl
@[simp] theorem State.respond_publication (c : Code) (a : Bool) (b : List Byte) : (s.respond c a b).publication = s.publication := rfl
@[simp] theorem State.respond_buffer (c : Code) (a : Bool) (b : List Byte) : (s.respond c a b).buffer = .held (responseFrame c a b) false := rfl
@[simp] theorem State.respond_miso (c : Code) (a : Bool) (b : List Byte) : (s.respond c a b).miso = s.miso := rfl
@[simp] theorem State.respond_events (c : Code) (a : Bool) (b : List Byte) : (s.respond c a b).events = s.events := rfl
@[simp] theorem State.respond_freeIndex (c : Code) (a : Bool) (b : List Byte) : (s.respond c a b).freeIndex = s.freeIndex := rfl
@[simp] theorem State.respond_pending (c : Code) (a : Bool) (b : List Byte) : (s.respond c a b).pending = s.pending := rfl

/-! ### modAction -/

@[simp] theorem State.modAction_now (r : ActionRef) (f : ActionEntry → ActionEntry) : (s.modAction r f).now = s.now := rfl
@[simp] theorem State.modAction_mode (r : ActionRef) (f : ActionEntry → ActionEntry) : (s.modAction r f).mode = s.mode := rfl
@[simp] theorem State.modAction_settings (r : ActionRef) (f : ActionEntry → ActionEntry) : (s.modAction r f).settings = s.settings := rfl
@[simp] theorem State.modAction_schemes (r : ActionRef) (f : ActionEntry → ActionEntry) : (s.modAction r f).schemes = s.schemes := rfl
@[simp] theorem State.modAction_slots (r : ActionRef) (f : ActionEntry → ActionEntry) : (s.modAction r f).slots = s.slots := rfl
@[simp] theorem State.modAction_actions (r : ActionRef) (f : ActionEntry → ActionEntry) : (s.modAction r f).actions = s.actions.map (fun a => if a.ref = r then f a else a) := rfl
@[simp] theorem State.modAction_outputs (r : ActionRef) (f : ActionEntry → ActionEntry) : (s.modAction r f).outputs = s.outputs := rfl
@[simp] theorem State.modAction_inputs (r : ActionRef) (f : ActionEntry → ActionEntry) : (s.modAction r f).inputs = s.inputs := rfl
@[simp] theorem State.modAction_remote (r : ActionRef) (f : ActionEntry → ActionEntry) : (s.modAction r f).remote = s.remote := rfl
@[simp] theorem State.modAction_contexts (r : ActionRef) (f : ActionEntry → ActionEntry) : (s.modAction r f).contexts = s.contexts := rfl
@[simp] theorem State.modAction_firings (r : ActionRef) (f : ActionEntry → ActionEntry) : (s.modAction r f).firings = s.firings := rfl
@[simp] theorem State.modAction_ports (r : ActionRef) (f : ActionEntry → ActionEntry) : (s.modAction r f).ports = s.ports := rfl
@[simp] theorem State.modAction_routes (r : ActionRef) (f : ActionEntry → ActionEntry) : (s.modAction r f).routes = s.routes := rfl
@[simp] theorem State.modAction_testNumber (r : ActionRef) (f : ActionEntry → ActionEntry) : (s.modAction r f).testNumber = s.testNumber := rfl
@[simp] theorem State.modAction_test (r : ActionRef) (f : ActionEntry → ActionEntry) : (s.modAction r f).test = s.test := rfl
@[simp] theorem State.modAction_publication (r : ActionRef) (f : ActionEntry → ActionEntry) : (s.modAction r f).publication = s.publication := rfl
@[simp] theorem State.modAction_buffer (r : ActionRef) (f : ActionEntry → ActionEntry) : (s.modAction r f).buffer = s.buffer := rfl
@[simp] theorem State.modAction_miso (r : ActionRef) (f : ActionEntry → ActionEntry) : (s.modAction r f).miso = s.miso := rfl
@[simp] theorem State.modAction_events (r : ActionRef) (f : ActionEntry → ActionEntry) : (s.modAction r f).events = s.events := rfl
@[simp] theorem State.modAction_freeIndex (r : ActionRef) (f : ActionEntry → ActionEntry) : (s.modAction r f).freeIndex = s.freeIndex := rfl
@[simp] theorem State.modAction_pending (r : ActionRef) (f : ActionEntry → ActionEntry) : (s.modAction r f).pending = s.pending := rfl

/-! ### setRemote -/

@[simp] theorem State.setRemote_now (r : TrigRef) (a : Option (Nat × Nat)) : (s.setRemote r a).now = s.now := rfl
@[simp] theorem State.setRemote_mode (r : TrigRef) (a : Option (Nat × Nat)) : (s.setRemote r a).mode = s.mode := rfl
@[simp] theorem State.setRemote_settings (r : TrigRef) (a : Option (Nat × Nat)) : (s.setRemote r a).settings = s.settings := rfl
@[simp] theorem State.setRemote_schemes (r : TrigRef) (a : Option (Nat × Nat)) : (s.setRemote r a).schemes = s.schemes := rfl
@[simp] theorem State.setRemote_slots (r : TrigRef) (a : Option (Nat × Nat)) : (s.setRemote r a).slots = s.slots := rfl
@[simp] theorem State.setRemote_actions (r : TrigRef) (a : Option (Nat × Nat)) : (s.setRemote r a).actions = s.actions := rfl
@[simp] theorem State.setRemote_outputs (r : TrigRef) (a : Option (Nat × Nat)) : (s.setRemote r a).outputs = s.outputs := rfl
@[simp] theorem State.setRemote_inputs (r : TrigRef) (a : Option (Nat × Nat)) : (s.setRemote r a).inputs = s.inputs := rfl
@[simp] theorem State.setRemote_remote (r : TrigRef) (a : Option (Nat × Nat)) : (s.setRemote r a).remote = s.remote.map (fun e => if e.ref = r then { e with asserted := a } else e) := rfl
@[simp] theorem State.setRemote_contexts (r : TrigRef) (a : Option (Nat × Nat)) : (s.setRemote r a).contexts = s.contexts := rfl
@[simp] theorem State.setRemote_firings (r : TrigRef) (a : Option (Nat × Nat)) : (s.setRemote r a).firings = s.firings := rfl
@[simp] theorem State.setRemote_ports (r : TrigRef) (a : Option (Nat × Nat)) : (s.setRemote r a).ports = s.ports := rfl
@[simp] theorem State.setRemote_routes (r : TrigRef) (a : Option (Nat × Nat)) : (s.setRemote r a).routes = s.routes := rfl
@[simp] theorem State.setRemote_testNumber (r : TrigRef) (a : Option (Nat × Nat)) : (s.setRemote r a).testNumber = s.testNumber := rfl
@[simp] theorem State.setRemote_test (r : TrigRef) (a : Option (Nat × Nat)) : (s.setRemote r a).test = s.test := rfl
@[simp] theorem State.setRemote_publication (r : TrigRef) (a : Option (Nat × Nat)) : (s.setRemote r a).publication = s.publication := rfl
@[simp] theorem State.setRemote_buffer (r : TrigRef) (a : Option (Nat × Nat)) : (s.setRemote r a).buffer = s.buffer := rfl
@[simp] theorem State.setRemote_miso (r : TrigRef) (a : Option (Nat × Nat)) : (s.setRemote r a).miso = s.miso := rfl
@[simp] theorem State.setRemote_events (r : TrigRef) (a : Option (Nat × Nat)) : (s.setRemote r a).events = s.events := rfl
@[simp] theorem State.setRemote_freeIndex (r : TrigRef) (a : Option (Nat × Nat)) : (s.setRemote r a).freeIndex = s.freeIndex := rfl
@[simp] theorem State.setRemote_pending (r : TrigRef) (a : Option (Nat × Nat)) : (s.setRemote r a).pending = s.pending := rfl

/-! ### setRoute -/

@[simp] theorem State.setRoute_now (d : Nat) (r : Route) : (s.setRoute d r).now = s.now := rfl
@[simp] theorem State.setRoute_mode (d : Nat) (r : Route) : (s.setRoute d r).mode = s.mode := rfl
@[simp] theorem State.setRoute_settings (d : Nat) (r : Route) : (s.setRoute d r).settings = s.settings := rfl
@[simp] theorem State.setRoute_schemes (d : Nat) (r : Route) : (s.setRoute d r).schemes = s.schemes := rfl
@[simp] theorem State.setRoute_slots (d : Nat) (r : Route) : (s.setRoute d r).slots = s.slots := rfl
@[simp] theorem State.setRoute_actions (d : Nat) (r : Route) : (s.setRoute d r).actions = s.actions := rfl
@[simp] theorem State.setRoute_outputs (d : Nat) (r : Route) : (s.setRoute d r).outputs = s.outputs := rfl
@[simp] theorem State.setRoute_inputs (d : Nat) (r : Route) : (s.setRoute d r).inputs = s.inputs := rfl
@[simp] theorem State.setRoute_remote (d : Nat) (r : Route) : (s.setRoute d r).remote = s.remote := rfl
@[simp] theorem State.setRoute_contexts (d : Nat) (r : Route) : (s.setRoute d r).contexts = s.contexts := rfl
@[simp] theorem State.setRoute_firings (d : Nat) (r : Route) : (s.setRoute d r).firings = s.firings := rfl
@[simp] theorem State.setRoute_ports (d : Nat) (r : Route) : (s.setRoute d r).ports = s.ports := rfl
@[simp] theorem State.setRoute_routes (d : Nat) (r : Route) : (s.setRoute d r).routes = s.routes.set (d - 1) r := rfl
@[simp] theorem State.setRoute_testNumber (d : Nat) (r : Route) : (s.setRoute d r).testNumber = s.testNumber := rfl
@[simp] theorem State.setRoute_test (d : Nat) (r : Route) : (s.setRoute d r).test = s.test := rfl
@[simp] theorem State.setRoute_publication (d : Nat) (r : Route) : (s.setRoute d r).publication = s.publication := rfl
@[simp] theorem State.setRoute_buffer (d : Nat) (r : Route) : (s.setRoute d r).buffer = s.buffer := rfl
@[simp] theorem State.setRoute_miso (d : Nat) (r : Route) : (s.setRoute d r).miso = s.miso := rfl
@[simp] theorem State.setRoute_events (d : Nat) (r : Route) : (s.setRoute d r).events = s.events := rfl
@[simp] theorem State.setRoute_freeIndex (d : Nat) (r : Route) : (s.setRoute d r).freeIndex = s.freeIndex := rfl
@[simp] theorem State.setRoute_pending (d : Nat) (r : Route) : (s.setRoute d r).pending = s.pending := rfl

/-! ### raiseIf -/

@[simp] theorem State.raiseIf_now (c : Bool) (e : Event) (n : Nat) : (s.raiseIf c e n).now = s.now := by
  cases c <;> rfl
@[simp] theorem State.raiseIf_mode (c : Bool) (e : Event) (n : Nat) : (s.raiseIf c e n).mode = s.mode := by
  cases c <;> rfl
@[simp] theorem State.raiseIf_settings (c : Bool) (e : Event) (n : Nat) : (s.raiseIf c e n).settings = s.settings := by
  cases c <;> rfl
@[simp] theorem State.raiseIf_schemes (c : Bool) (e : Event) (n : Nat) : (s.raiseIf c e n).schemes = s.schemes := by
  cases c <;> rfl
@[simp] theorem State.raiseIf_slots (c : Bool) (e : Event) (n : Nat) : (s.raiseIf c e n).slots = s.slots := by
  cases c <;> rfl
@[simp] theorem State.raiseIf_actions (c : Bool) (e : Event) (n : Nat) : (s.raiseIf c e n).actions = s.actions := by
  cases c <;> rfl
@[simp] theorem State.raiseIf_outputs (c : Bool) (e : Event) (n : Nat) : (s.raiseIf c e n).outputs = s.outputs := by
  cases c <;> rfl
@[simp] theorem State.raiseIf_inputs (c : Bool) (e : Event) (n : Nat) : (s.raiseIf c e n).inputs = s.inputs := by
  cases c <;> rfl
@[simp] theorem State.raiseIf_remote (c : Bool) (e : Event) (n : Nat) : (s.raiseIf c e n).remote = s.remote := by
  cases c <;> rfl
@[simp] theorem State.raiseIf_contexts (c : Bool) (e : Event) (n : Nat) : (s.raiseIf c e n).contexts = s.contexts := by
  cases c <;> rfl
@[simp] theorem State.raiseIf_firings (c : Bool) (e : Event) (n : Nat) : (s.raiseIf c e n).firings = s.firings := by
  cases c <;> rfl
@[simp] theorem State.raiseIf_ports (c : Bool) (e : Event) (n : Nat) : (s.raiseIf c e n).ports = s.ports := by
  cases c <;> rfl
@[simp] theorem State.raiseIf_routes (c : Bool) (e : Event) (n : Nat) : (s.raiseIf c e n).routes = s.routes := by
  cases c <;> rfl
@[simp] theorem State.raiseIf_testNumber (c : Bool) (e : Event) (n : Nat) : (s.raiseIf c e n).testNumber = s.testNumber := by
  cases c <;> rfl
@[simp] theorem State.raiseIf_test (c : Bool) (e : Event) (n : Nat) : (s.raiseIf c e n).test = s.test := by
  cases c <;> rfl
@[simp] theorem State.raiseIf_publication (c : Bool) (e : Event) (n : Nat) : (s.raiseIf c e n).publication = s.publication := by
  cases c <;> rfl
@[simp] theorem State.raiseIf_buffer (c : Bool) (e : Event) (n : Nat) : (s.raiseIf c e n).buffer = s.buffer := by
  cases c <;> rfl
@[simp] theorem State.raiseIf_miso (c : Bool) (e : Event) (n : Nat) : (s.raiseIf c e n).miso = s.miso := by
  cases c <;> rfl
@[simp] theorem State.raiseIf_freeIndex (c : Bool) (e : Event) (n : Nat) : (s.raiseIf c e n).freeIndex = s.freeIndex := by
  cases c <;> rfl
@[simp] theorem State.raiseIf_pending (c : Bool) (e : Event) (n : Nat) : (s.raiseIf c e n).pending = s.pending := by
  cases c <;> rfl

end Sys2Proof.Machine
end

