-- ==== Sys2Proof/Laws/Still.lean ====
section
/-! SUPPORT. What bringing an event to its end leaves as it stood: the clock, the mode, the settings, the quantity slots,
the inputs, the routes, the link test's number, the publication timer, the response buffer, and the model's own items.
`State.still` is the state with everything else blanked; each shared operation keeps it. -/

namespace Sys2Proof.Machine

/-- The items that no shared operation of an event changes, the others blanked. -/
def State.still (s : State) : State :=
  { s with
    schemes := [], actions := [], outputs := [], remote := [], contexts := [], firings := 0, ports := [],
    test := .none, events := [] }

/-- A property of the accumulator that every step of a fold keeps is kept by the fold. -/
theorem foldl_keeps {α β γ : Type} (π : β → γ) (f : β → α → β) (h : ∀ b a, π (f b a) = π b) (l : List α) (b : β) :
    π (l.foldl f b) = π b := by
  induction l generalizing b with
  | nil => rfl
  | cons a l ih => rw [List.foldl_cons, ih, h]

variable (s : State) (e : Ev)

/-! ### Updates -/

@[simp] theorem still_modPort (p : Nat) (f : Port → Port) : (s.modPort p f).still = s.still := rfl
@[simp] theorem still_modOutput (o : Nat) (f : TripOutput → TripOutput) : (s.modOutput o f).still = s.still := rfl
@[simp] theorem still_setContext (c : Nat) (x : Context) : (s.setContext c x).still = s.still := rfl
@[simp] theorem still_putScheme (i : Nat) (o : Option Scheme) : (s.putScheme i o).still = s.still := rfl
@[simp] theorem still_raise (ev : Event) (n : Nat) : (s.raise ev n).still = s.still := rfl
@[simp] theorem still_raiseIf (c : Bool) (ev : Event) (n : Nat) : (s.raiseIf c ev n).still = s.still := by
  cases c <;> rfl
@[simp] theorem still_modAction (r : ActionRef) (f : ActionEntry → ActionEntry) :
    (s.modAction r f).still = s.still := rfl
@[simp] theorem still_setRemote (r : TrigRef) (a : Option (Nat × Nat)) : (s.setRemote r a).still = s.still := rfl
@[simp] theorem still_syncRemote : s.syncRemote.still = s.still := rfl

/-! ### Links -/

@[simp] theorem still_transmitAfter (p : Nat) (l : List Byte) (w : Sending) :
    (s.transmitAfter p l w).still = s.still := rfl
@[simp] theorem still_transmit (p : Nat) (w : Sending) : (s.transmit p w).still = s.still := rfl
@[simp] theorem still_preempt (p : Nat) : (s.preempt p).still = s.still := rfl

@[simp] theorem still_choose (p : Nat) : (s.choose p).still = s.still := by
  unfold State.choose; split <;> simp

@[simp] theorem still_sendStart (p : Nat) (l : List Byte) : (s.sendStart p l).still = s.still := rfl

@[simp] theorem still_join (p : Nat) (q : Queued) : (s.join p q).still = s.still := by
  unfold State.join; split <;> (try split) <;> simp

theorem still_route {q : Queued} {t : State} (h : s.route q = some t) : t.still = s.still := by
  unfold State.route at h
  split at h
  · cases h; simp
  · cases h

@[simp] theorem still_beginStarting (p : Nat) (l : List Byte) : (s.beginStarting p l).still = s.still := rfl
@[simp] theorem still_openPort (p : Nat) : (s.openPort p).still = s.still := rfl
@[simp] theorem still_enterUp (p : Nat) : (s.enterUp p).still = s.still := by simp [State.enterUp]

@[simp] theorem still_rerouteStep (acc : State × List Queued) (q : Queued) :
    (rerouteStep acc q).1.still = acc.1.still := by
  unfold rerouteStep
  split
  · exact still_route _ ‹_›
  · rfl

@[simp] theorem still_leaveUp (p : Nat) (failed : Bool) : (s.leaveUp p failed).1.still = s.still := by
  simp only [State.leaveUp]
  rw [foldl_keeps (fun a : State × List Queued => a.1.still) _ still_rerouteStep]
  simp

@[simp] theorem still_shutPort (p : Nat) : (s.shutPort p).still = s.still := by simp [State.shutPort]

@[simp] theorem still_closePort (p : Nat) : (s.closePort p).1.still = s.still := by
  unfold State.closePort; split <;> simp

@[simp] theorem still_markValid (p : Nat) : (s.markValid p).still = s.still := rfl

theorem still_admit {p src : Nat} {t : State} (h : s.admitFrame p src = some t) : t.still = s.still := by
  simp only [State.admitFrame] at h
  split at h
  · cases h
  · cases h; simp
  · split at h
    · cases h
    · split at h
      · cases h; simp
      · cases h

@[simp] theorem still_recordFault (p : Nat) (f : LineFault) (n : Nat) : (s.recordFault p f n).still = s.still := rfl

/-! ### Trip requests -/

@[simp] theorem still_pulseOutput (o ms : Nat) : (s.pulseOutput o ms).still = s.still := rfl

@[simp] theorem still_tripRequest (n : Nat) (test : Bool) : (s.tripRequest n test).1.still = s.still := by
  unfold State.tripRequest
  split
  · rfl
  · split
    · rfl
    · split
      · rfl
      · split
        · rfl
        · split <;> simp

@[simp] theorem still_tripAll (test : Bool) (l : List Nat) : (s.tripAll test l).1.still = s.still := by
  induction l generalizing s with
  | nil => rfl
  | cons n l ih => simp [State.tripAll, ih]

/-! ### Steps of an event -/

theorem still_on (f : State → State) (h : ∀ t : State, (f t).still = t.still) : (e.on f).s.still = e.s.still := h _

@[simp] theorem still_put (i : Nat) (sc : Scheme) : (e.put i sc).s.still = e.s.still := rfl
@[simp] theorem still_putHome (i : Nat) (sc : Scheme) (h : HomePart) : (e.putHome i sc h).s.still = e.s.still := rfl
@[simp] theorem still_evRaise (ev : Event) (n : Nat) : (e.raise ev n).s.still = e.s.still := rfl
@[simp] theorem s_evaluating (i : Nat) : (e.evaluating i).s = e.s := rfl
@[simp] theorem s_bumping (i : Nat) : (e.bumping i).s = e.s := rfl
@[simp] theorem s_wanting (i : Nat) : (e.wanting i).s = e.s := rfl
@[simp] theorem s_marking (i : Nat) : (e.marking i).s = e.s := rfl
@[simp] theorem s_forwarding (i : Nat) : (e.forwarding i).s = e.s := rfl
@[simp] theorem s_handingOn (l : List Nat) : (e.handingOn l).s = e.s := rfl
@[simp] theorem s_triggering (r : TrigRef) : (e.triggering r).s = e.s := rfl
@[simp] theorem s_sendAs (o : Origin) (k : FrameKind) (d : Nat) (b : List Byte) : (e.sendAs o k d b).s = e.s := rfl
@[simp] theorem s_send (k : FrameKind) (d : Nat) (b : List Byte) : (e.send k d b).s = e.s := rfl
@[simp] theorem s_on (f : State → State) : (e.on f).s = f e.s := rfl

@[simp] theorem s_notify (i : Nat) (a : Bool) : (e.notify i a).s = e.s := by
  unfold Ev.notify
  exact foldl_keeps (fun e : Ev => e.s) (fun e t => e.send .contingency t (contingencyBody i a)) (fun _ _ => rfl) _ _

/-! ### Replication -/

@[simp] theorem s_sendRound (sc : Scheme) (r : Round) (p : Participant) : (e.sendRound sc r p).s = e.s := by
  unfold Ev.sendRound
  split
  · split <;> rfl
  · rfl

@[simp] theorem still_sendRounds (i : Nat) (sc : Scheme) (h : HomePart) (w : Participant → Bool) :
    (e.sendRounds i sc h w).s.still = e.s.still := by
  simp only [Ev.sendRounds, still_putHome]
  exact foldl_keeps (fun e : Ev => e.s.still) _ (fun b a => by simp) _ _

@[simp] theorem still_startRound (i : Nat) (sc : Scheme) (h : HomePart) (b : Bool) :
    (e.startRound i sc h b).s.still = e.s.still := by simp [Ev.startRound]

@[simp] theorem still_startRetire (i : Nat) (sc : Scheme) (h : HomePart) :
    (e.startRetire i sc h).s.still = e.s.still := by simp [Ev.startRetire]

@[simp] theorem still_testRoundEnd (i : Nat) : (e.testRoundEnd i).s.still = e.s.still := by
  unfold Ev.testRoundEnd
  split
  · split
    · split
      · split <;> simp
      · rfl
    · rfl
  · rfl

@[simp] theorem still_testRetireEnd (i : Nat) : (e.testRetireEnd i).s.still = e.s.still := by
  unfold Ev.testRetireEnd
  split
  · split
    · split <;> simp
    · rfl
  · rfl

@[simp] theorem still_wantRound (i : Nat) (b : Bool) : (e.wantRound i b).s.still = e.s.still := by
  unfold Ev.wantRound
  split
  · split
    · split
      · rfl
      · dsimp only; repeat' split
        all_goals simp
    · rfl
  · rfl

@[simp] theorem still_deriveCopyState (i : Nat) : (e.deriveCopyState i).s.still = e.s.still := by
  unfold Ev.deriveCopyState
  split
  · split <;> simp
  · rfl

@[simp] theorem still_replicate (b : Nat → Bool) (i : Nat) : (e.replicate b i).s.still = e.s.still := by
  simp only [Ev.replicate, still_deriveCopyState, still_testRetireEnd, still_testRoundEnd]
  split <;> simp

@[simp] theorem still_resyncOne (d : Nat) (r : Bool) (i : Nat) : (e.resyncOne d r i).s.still = e.s.still := by
  unfold Ev.resyncOne
  split
  · split
    · split
      · rfl
      · repeat' split
        all_goals simp
    · rfl
  · rfl

@[simp] theorem still_resync : e.resync.s.still = e.s.still := by
  unfold Ev.resync
  exact foldl_keeps (fun e : Ev => e.s.still) _
    (fun b a => foldl_keeps (fun e : Ev => e.s.still) _ (fun b d => by simp) _ _) _ _

/-! ### Execution -/

@[simp] theorem still_completeRecord (i : Nat) (o : LastOutcome) : (e.completeRecord i o).s.still = e.s.still := by
  unfold Ev.completeRecord
  split
  · split <;> simp
  · rfl

@[simp] theorem still_complete (c : Nat) : (e.complete c).s.still = e.s.still := by
  unfold Ev.complete
  split
  · dsimp only
    split
    · simp
    · split <;> simp
  · rfl

@[simp] theorem still_completeIfSettled (c : Nat) : (e.completeIfSettled c).s.still = e.s.still := by
  unfold Ev.completeIfSettled
  split
  · split <;> simp
  · rfl

@[simp] theorem still_completeSettled : e.completeSettled.s.still = e.s.still := by
  unfold Ev.completeSettled
  exact foldl_keeps (fun e : Ev => e.s.still) _ (fun b c => by simp) _ _

@[simp] theorem s_order (x : Execution) (t : Nat) (l : List Nat) : (e.order x t l).s = e.s := rfl

@[simp] theorem still_fillReport (c t g : Nat) (r : List (Nat × Result)) (k : Bool) :
    (e.fillReport c t g r k).s.still = e.s.still := by
  unfold Ev.fillReport
  split
  · split
    · rfl
    · dsimp only; rw [apply_ite Ev.s, apply_ite State.still]; simp
  · rfl

@[simp] theorem still_toFired (i : Nat) (sc : Scheme) (h : HomePart) : (e.toFired i sc h).s.still = e.s.still := rfl

@[simp] theorem still_tripSelection (l : List ActionRef) : (s.tripSelection l).1.still = s.still := by
  simp [State.tripSelection]

@[simp] theorem still_fireUntracked (i : Nat) (sc : Scheme) (h : HomePart) (r : Option FiringReport) :
    (e.fireUntracked i sc h r).s.still = e.s.still := by
  simp only [Ev.fireUntracked, still_completeRecord, still_toFired]
  rw [foldl_keeps (fun e : Ev => e.s.still)]
  · simp
  · intro b a
    rw [apply_ite Ev.s, apply_ite State.still]
    simp

@[simp] theorem still_fireTracked (c i : Nat) (sc : Scheme) (h : HomePart) (k : Cause) (r : Option FiringReport) :
    (e.fireTracked c i sc h k r).s.still = e.s.still := by
  simp only [Ev.fireTracked, still_completeIfSettled]
  split <;> simp

@[simp] theorem still_fireHome (i : Nat) (k : Cause) (r : Option FiringReport) :
    (e.fireHome i k r).s.still = e.s.still := by
  unfold Ev.fireHome
  repeat' split
  all_goals simp

@[simp] theorem still_fireCopy (i : Nat) : (e.fireCopy i).s.still = e.s.still := by
  unfold Ev.fireCopy
  repeat' split
  all_goals simp

@[simp] theorem still_fire (i : Nat) : (e.fire i).s.still = e.s.still := by
  unfold Ev.fire
  repeat' split
  all_goals simp

@[simp] theorem still_fireAll : e.fireAll.s.still = e.s.still := by
  unfold Ev.fireAll
  exact foldl_keeps (fun e : Ev => e.s.still) _ (fun b c => by simp) _ _

@[simp] theorem still_notSent (q : Queued) : (s.notSent q).still = s.still := by
  unfold State.notSent
  repeat' split
  all_goals rfl

@[simp] theorem still_returnAll (l : List Queued) : (s.returnAll l).still = s.still := by
  unfold State.returnAll
  exact foldl_keeps State.still _ (fun b c => by simp) _ _

@[simp] theorem still_dispatchFrame (q : Queued) : (s.dispatchFrame q).still = s.still := by
  unfold State.dispatchFrame
  split
  · exact still_route _ ‹_›
  · simp

@[simp] theorem still_dispatchKinds (l : List FrameKind) : (e.dispatchKinds l).s.still = e.s.still := by
  simp only [Ev.dispatchKinds, s_on]
  exact foldl_keeps State.still _ (fun b c => by simp) _ _

@[simp] theorem still_lateAnswer (c t : Nat) (r : List (Nat × Result)) (x : Bool) :
    (e.lateAnswer c t r x).s.still = e.s.still := by
  unfold Ev.lateAnswer
  split
  · split
    · rfl
    · dsimp only
      repeat' split
      all_goals simp
  · rfl

@[simp] theorem still_stray (i : Nat) (sc : Scheme) (h : HomePart) : (e.stray i sc h).s.still = e.s.still := rfl

@[simp] theorem still_strayOwing (i : Nat) (sc : Scheme) (h : HomePart) (t : Nat) :
    (e.strayOwing i sc h t).s.still = e.s.still := by
  simp only [Ev.strayOwing]; split <;> simp

@[simp] theorem still_takeReport (i : Nat) (k : Cause) (t g : Nat) (r : List (Nat × Result)) :
    (e.takeReport i k t g r).s.still = e.s.still := by
  unfold Ev.takeReport
  repeat' split
  all_goals simp

@[simp] theorem still_takeAck (c t : Nat) (r : List (Nat × Result)) : (e.takeAck c t r).s.still = e.s.still := by
  unfold Ev.takeAck
  repeat' split
  all_goals simp

/-! ### The end of the event -/

@[simp] theorem still_evalSlot (i : Nat) : (e.evalSlot i).s.still = e.s.still := by
  unfold Ev.evalSlot
  split
  · split
    · split
      · simp
      · rfl
    · rfl
  · rfl

@[simp] theorem still_evaluateAll : e.evaluateAll.s.still = e.s.still := by
  unfold Ev.evaluateAll
  exact foldl_keeps (fun e : Ev => e.s.still) _ (fun b c => by simp) _ _

@[simp] theorem still_bumpSlot (i : Nat) : (e.bumpSlot i).s.still = e.s.still := by
  unfold Ev.bumpSlot; split <;> simp

theorem still_replicate_fold (b : Nat → Bool) (l : List Nat) :
    (l.foldl (fun e i => e.replicate b i) e).s.still = e.s.still := by
  induction l generalizing e with
  | nil => rfl
  | cons i l ih => rw [List.foldl_cons, ih, still_replicate]

theorem still_bump_fold (l : List Nat) : (l.foldl Ev.bumpSlot e).s.still = e.s.still := by
  induction l generalizing e with
  | nil => rfl
  | cons i l ih => rw [List.foldl_cons, ih, still_bumpSlot]

@[simp] theorem still_replicateAll : e.replicateAll.s.still = e.s.still := by
  rw [Ev.replicateAll, still_replicate_fold, still_bump_fold]

@[simp] theorem s_forwardRefresh : e.forwardRefresh.s = e.s := by
  unfold Ev.forwardRefresh
  refine foldl_keeps (fun e : Ev => e.s) _ (fun b t => ?_) _ _
  exact foldl_keeps (fun e : Ev => e.s) (fun b l => b.send .refresh t (refreshBody l)) (fun _ _ => rfl) _ _

@[simp] theorem still_markSlot (i : Nat) : (e.markSlot i).s.still = e.s.still := by
  unfold Ev.markSlot; split <;> simp

@[simp] theorem still_markAll : e.markAll.s.still = e.s.still := by
  unfold Ev.markAll
  exact foldl_keeps (fun e : Ev => e.s.still) _ (fun b c => by simp) _ _

@[simp] theorem s_publishTo (t : Nat) (l : List ActionEntry) : (e.publishTo t l).s = e.s := by
  unfold Ev.publishTo
  exact foldl_keeps (fun e : Ev => e.s) (fun e c => e.send .actionStatus t (actionStatusBody c)) (fun _ _ => rfl) _ _

@[simp] theorem s_publishChanges : e.publishChanges.s = e.s := by
  unfold Ev.publishChanges
  exact foldl_keeps (fun e : Ev => e.s) _ (fun b t => by simp) _ _


/-- Bringing an event to its end keeps the items of `State.still`. -/
@[simp] theorem still_finish : e.finish.still = e.s.still := by
  simp [Ev.finish]

@[simp] theorem still_settle : e.settle.still = e.s.still := by
  simp [Ev.settle]

/-- An event keeps the items of `State.still` where what the command does first keeps them. -/
theorem still_event (f : Ev → Ev) : (event s f).still = (f (Ev.begin s)).s.still := by simp [event]

/-! ### The items one by one -/

/-- Two states agree on the items of `State.still`. -/
structure SameStill (a b : State) : Prop where
  now : a.now = b.now
  mode : a.mode = b.mode
  settings : a.settings = b.settings
  slots : a.slots = b.slots
  inputs : a.inputs = b.inputs
  routes : a.routes = b.routes
  testNumber : a.testNumber = b.testNumber
  publication : a.publication = b.publication
  buffer : a.buffer = b.buffer
  miso : a.miso = b.miso
  freeIndex : a.freeIndex = b.freeIndex
  pending : a.pending = b.pending

theorem sameStill {a b : State} (h : a.still = b.still) : SameStill a b where
  now := (congrArg State.now h : a.still.now = b.still.now)
  mode := (congrArg State.mode h : a.still.mode = b.still.mode)
  settings := (congrArg State.settings h : a.still.settings = b.still.settings)
  slots := (congrArg State.slots h : a.still.slots = b.still.slots)
  inputs := (congrArg State.inputs h : a.still.inputs = b.still.inputs)
  routes := (congrArg State.routes h : a.still.routes = b.still.routes)
  testNumber := (congrArg State.testNumber h : a.still.testNumber = b.still.testNumber)
  publication := (congrArg State.publication h : a.still.publication = b.still.publication)
  buffer := (congrArg State.buffer h : a.still.buffer = b.still.buffer)
  miso := (congrArg State.miso h : a.still.miso = b.still.miso)
  freeIndex := (congrArg State.freeIndex h : a.still.freeIndex = b.still.freeIndex)
  pending := (congrArg State.pending h : a.still.pending = b.still.pending)

/-- An event keeps each of these items where what the command does first keeps them. -/
theorem event_sameStill (f : Ev → Ev) : SameStill (event s f) (f (Ev.begin s)).s := sameStill (still_event s f)

end Sys2Proof.Machine
end

