-- ==== Sys2Proof/Laws/Settle.lean ====
section
/-! SUPPORT. What an event does at its end where nothing fires and no context completes: `Evaluated`, proved once of
`Ev.settle` and cited by the claims about single commands. -/

namespace Sys2Proof.Machine

/-! ### Extras of a site -/

/-- A site entry's extras stay within the 12 of R119, whatever is reported. -/
theorem addExtras_length (actions : List (Nat × Option Result)) (results : List (Nat × Result)) :
    ∀ extras : List (Nat × Result), extras.length ≤ 12 → (addExtras actions results extras).length ≤ 12 := by
  unfold addExtras
  induction results with
  | nil => exact fun extras h => h
  | cons r results ih =>
    intro extras h
    rw [List.foldl_cons]
    apply ih
    split
    · exact h
    · next hc =>
      simp only [Bool.or_eq_true, decide_eq_true_eq, not_or] at hc
      rw [List.length_append, List.length_singleton]
      omega

/-! ### Slots of the table -/

theorem schemeAt_put (s : State) (i j : Nat) (o : Option Scheme) :
    (s.putScheme i o).schemeAt j = if i = j ∧ j < s.schemes.length then o else s.schemeAt j := by
  unfold State.schemeAt State.putScheme
  simp only [List.getElem?_set]
  by_cases h : i = j
  · subst h
    by_cases hl : i < s.schemes.length
    · simp [hl]
    · simp [hl]
  · simp [h]

theorem lt_of_schemeAt {s : State} {i : Nat} {sc : Scheme} (h : s.schemeAt i = some sc) : i < s.schemes.length := by
  unfold State.schemeAt at h
  by_contra hl
  simp [List.getElem?_eq_none (Nat.le_of_not_lt hl)] at h

theorem schemeAt_put_self {s : State} {i : Nat} {sc : Scheme} (h : s.schemeAt i = some sc) (o : Option Scheme) :
    (s.putScheme i o).schemeAt i = o := by
  rw [schemeAt_put]; simp [lt_of_schemeAt h]

theorem schemeAt_put_ne {s : State} {i j : Nat} (h : i ≠ j) (o : Option Scheme) :
    (s.putScheme i o).schemeAt j = s.schemeAt j := by
  rw [schemeAt_put]; simp [h]

@[simp] theorem putScheme_length (s : State) (i : Nat) (o : Option Scheme) :
    (s.putScheme i o).schemes.length = s.schemes.length := by simp [State.putScheme]

/-- Two states that differ in the scheme table and the event flags alone. -/
def State.frameless (s : State) : State := { s with schemes := [], events := [] }

@[simp] theorem frameless_put (s : State) (i : Nat) (o : Option Scheme) :
    (s.putScheme i o).frameless = s.frameless := rfl
@[simp] theorem frameless_raise (s : State) (e : Event) (n : Nat) : (s.raise e n).frameless = s.frameless := rfl
@[simp] theorem frameless_raiseIf (s : State) (c : Bool) (e : Event) (n : Nat) :
    (s.raiseIf c e n).frameless = s.frameless := by cases c <;> rfl

@[simp] theorem schemes_raise (s : State) (e : Event) (n : Nat) : (s.raise e n).schemes = s.schemes := rfl
@[simp] theorem schemes_raiseIf' (s : State) (c : Bool) (e : Event) (n : Nat) :
    (s.raiseIf c e n).schemes = s.schemes := by cases c <;> rfl
@[simp] theorem schemeAt_raise (s : State) (e : Event) (n i : Nat) : (s.raise e n).schemeAt i = s.schemeAt i := rfl
@[simp] theorem schemeAt_raiseIf (s : State) (c : Bool) (e : Event) (n i : Nat) :
    (s.raiseIf c e n).schemeAt i = s.schemeAt i := by cases c <;> rfl

theorem frameless_eq {s t : State} (h : t.frameless = s.frameless) :
    t = { s with schemes := t.schemes, events := t.events } := by
  cases s; cases t; simp_all [State.frameless]

/-- What is computed from the state without the table and the flags agrees where `frameless` does. -/
theorem frameless_congr {α : Type} (F : State → α)
    (hF : ∀ s : State, F s = F s.frameless) {s t : State} (h : t.frameless = s.frameless) : F t = F s := by
  rw [hF t, h, ← hF s]

/-! ### Event flags -/

theorem eventPlace_inj {a b : Event} (h : eventPlace a = eventPlace b) : a = b := by
  cases a <;> cases b <;> simp_all [eventPlace]

/-- The flags after some events were raised, each naming an item, in turn (R196). -/
def raiseAll (l : List EventFlag) (rs : List (Event × Nat)) : List EventFlag :=
  rs.foldl (fun l r => l.modify (eventPlace r.1) (fun f => { f with item := some r.2 })) l

theorem raiseAll_append (l : List EventFlag) (a b : List (Event × Nat)) :
    raiseAll l (a ++ b) = raiseAll (raiseAll l a) b := List.foldl_append

theorem after_nil (f : EventFlag) : f.after [] = f := rfl

theorem after_cons (f : EventFlag) (n : Nat) (l : List Nat) :
    ({ f with item := some n } : EventFlag).after l = f.after (n :: l) := by
  unfold EventFlag.after
  rw [List.getLast?_cons]
  cases l.getLast? <;> rfl

/-- What a flag shows after events were raised: the last item of its own. -/
theorem raiseAll_at (ev : Event) (rs : List (Event × Nat)) (l : List EventFlag) :
    (raiseAll l rs)[eventPlace ev]? =
      (l[eventPlace ev]?).map (fun f => f.after ((rs.filter (fun r => r.1 == ev)).map Prod.snd)) := by
  induction rs generalizing l with
  | nil => cases h : l[eventPlace ev]? <;> simp [raiseAll, h, after_nil]
  | cons r rs ih =>
    have h1 : raiseAll l (r :: rs) = raiseAll (l.modify (eventPlace r.1) (fun f => { f with item := some r.2 })) rs := rfl
    rw [h1, ih, List.getElem?_modify]
    by_cases hr : r.1 = ev
    · subst hr
      cases l[eventPlace r.1]? <;> simp [after_cons]
    · have hp : eventPlace r.1 ≠ eventPlace ev := fun h => hr (eventPlace_inj h)
      cases l[eventPlace ev]? <;> simp [hr, hp]

theorem events_raiseIf (s : State) (c : Bool) (ev : Event) (n : Nat) :
    (s.raiseIf c ev n).events = raiseAll s.events (if c then [(ev, n)] else []) := by
  cases c <;> rfl

/-! ### Folding over the slots -/

/-- What the steps over the slots do not change: all but the table, the flags and the frames handed over. -/
def Ev.ctx (e : Ev) : Ev := { e with s := e.s.frameless, out := [] }

theorem ctx_frameless {e e' : Ev} (h : e'.ctx = e.ctx) : e'.s.frameless = e.s.frameless :=
  congrArg Ev.s h
theorem ctx_start {e e' : Ev} (h : e'.ctx = e.ctx) : e'.start = e.start :=
  (congrArg Ev.start h : e'.ctx.start = e.ctx.start)
theorem ctx_evals {e e' : Ev} (h : e'.ctx = e.ctx) : e'.evals = e.evals :=
  (congrArg Ev.evals h : e'.ctx.evals = e.ctx.evals)
theorem ctx_quantities {e e' : Ev} (h : e'.ctx = e.ctx) : e'.quantities = e.quantities :=
  (congrArg Ev.quantities h : e'.ctx.quantities = e.ctx.quantities)
theorem ctx_bumps {e e' : Ev} (h : e'.ctx = e.ctx) : e'.bumps = e.bumps :=
  (congrArg Ev.bumps h : e'.ctx.bumps = e.ctx.bumps)
theorem ctx_wants {e e' : Ev} (h : e'.ctx = e.ctx) : e'.wants = e.wants :=
  (congrArg Ev.wants h : e'.ctx.wants = e.ctx.wants)
theorem ctx_marks {e e' : Ev} (h : e'.ctx = e.ctx) : e'.marks = e.marks :=
  (congrArg Ev.marks h : e'.ctx.marks = e.ctx.marks)

/-- A fold over distinct slots of a step that acts on its own slot: each slot ends as its one step leaves it. -/
theorem fold_slots (g : Ev → Nat → Ev) (hctx : ∀ e i, (g e i).ctx = e.ctx)
    (hne : ∀ e i j, j ≠ i → (g e i).s.schemeAt j = e.s.schemeAt j) :
    ∀ (l : List Nat), l.Nodup → ∀ (e : Ev) (i : Nat),
      (i ∉ l → (l.foldl g e).s.schemeAt i = e.s.schemeAt i) ∧
      (i ∈ l → ∃ e', e'.ctx = e.ctx ∧ e'.s.schemeAt i = e.s.schemeAt i ∧
        (l.foldl g e).s.schemeAt i = (g e' i).s.schemeAt i) := by
  intro l
  induction l with
  | nil => intro _ e i; simp
  | cons a l ih =>
    intro hn e i
    obtain ⟨ha, hl⟩ := List.nodup_cons.mp hn
    obtain ⟨h1, h2⟩ := ih hl (g e a) i
    constructor
    · intro hi
      simp only [List.mem_cons, not_or] at hi
      rw [List.foldl_cons, h1 hi.2, hne _ _ _ hi.1]
    · intro hi
      rw [List.foldl_cons]
      by_cases hia : i = a
      · subst hia
        exact ⟨e, rfl, rfl, h1 ha⟩
      · obtain ⟨e', hc, hs, hr⟩ := h2 (by simpa [hia] using hi)
        exact ⟨e', hc.trans (hctx _ _), hs.trans (hne _ _ _ hia), hr⟩

theorem fold_ctx (g : Ev → Nat → Ev) (hctx : ∀ e i, (g e i).ctx = e.ctx) (l : List Nat) (e : Ev) :
    (l.foldl g e).ctx = e.ctx := foldl_keeps Ev.ctx g hctx l e

theorem fold_size (g : Ev → Nat → Ev) (h : ∀ e i, (g e i).s.schemes.length = e.s.schemes.length) (l : List Nat)
    (e : Ev) : (l.foldl g e).s.schemes.length = e.s.schemes.length :=
  foldl_keeps (fun e : Ev => e.s.schemes.length) g h l e

theorem mem_slots {s : State} {i : Nat} {sc : Scheme} (h : s.schemeAt i = some sc) : i ∈ s.schemeSlots :=
  List.mem_range.mpr (lt_of_schemeAt h)

theorem slots_nodup (s : State) : s.schemeSlots.Nodup := List.nodup_range

theorem schemeAt_of_not_mem {s : State} {i : Nat} (h : i ∉ s.schemeSlots) : s.schemeAt i = none := by
  cases hs : s.schemeAt i with
  | none => rfl
  | some sc => exact absurd (mem_slots hs) h

/-- A step of an event on one slot: what the slot holds after it, the events raised, the frames handed over. -/
structure SlotStep (e e' : Ev) (i : Nat) (v : Option Scheme) (rs : List (Event × Nat)) (q : List Queued) : Prop where
  ctx : e'.ctx = e.ctx
  size : e'.s.schemes.length = e.s.schemes.length
  own : e'.s.schemeAt i = v
  ne : ∀ j, j ≠ i → e'.s.schemeAt j = e.s.schemeAt j
  events : e'.s.events = raiseAll e.s.events rs
  out : e'.out = e.out ++ q

theorem SlotStep.refl (e : Ev) (i : Nat) : SlotStep e e i (e.s.schemeAt i) [] [] :=
  ⟨rfl, rfl, rfl, fun _ _ => rfl, rfl, by simp⟩

theorem SlotStep.trans {a b c : Ev} {i : Nat} {v1 v2 : Option Scheme} {r1 r2 : List (Event × Nat)}
    {q1 q2 : List Queued} (h1 : SlotStep a b i v1 r1 q1) (h2 : SlotStep b c i v2 r2 q2) :
    SlotStep a c i v2 (r1 ++ r2) (q1 ++ q2) where
  ctx := h2.ctx.trans h1.ctx
  size := h2.size.trans h1.size
  own := h2.own
  ne := fun j hj => (h2.ne j hj).trans (h1.ne j hj)
  events := by rw [h2.events, h1.events, raiseAll_append]
  out := by rw [h2.out, h1.out, List.append_assoc]

theorem slotStep_put {e : Ev} {i : Nat} {sc : Scheme} (hs : e.s.schemeAt i = some sc) (sc' : Scheme) :
    SlotStep e (e.put i sc') i (some sc') [] [] where
  ctx := by simp [Ev.ctx, Ev.put, Ev.on]
  size := by simp [Ev.put, Ev.on]
  own := schemeAt_put_self hs _
  ne := fun j hj => schemeAt_put_ne (Ne.symm hj) _
  events := rfl
  out := by simp [Ev.put, Ev.on]

theorem slotStep_raiseIf (e : Ev) (i : Nat) (c : Bool) (ev : Event) (n : Nat) :
    SlotStep e (e.on (fun s => s.raiseIf c ev n)) i (e.s.schemeAt i) (if c then [(ev, n)] else []) [] where
  ctx := by simp [Ev.ctx, Ev.on]
  size := by simp [Ev.on]
  own := by simp [Ev.on]
  ne := fun j _ => by simp [Ev.on]
  events := events_raiseIf _ _ _ _
  out := by simp [Ev.on]

/-- A fold over distinct slots of a step that acts on its own slot: each slot as its own step leaves it, the events and
frames of the steps in turn. -/
theorem fold_exact {e0 : Ev} (g : Ev → Nat → Ev) (V : Nat → Option Scheme) (R : Nat → List (Event × Nat))
    (O : Nat → List Queued) : ∀ (l : List Nat), l.Nodup →
      (∀ i ∈ l, ∀ e : Ev, e.ctx = e0.ctx → e.s.schemeAt i = e0.s.schemeAt i → SlotStep e (g e i) i (V i) (R i) (O i)) →
      ∀ e : Ev, e.ctx = e0.ctx → (∀ i ∈ l, e.s.schemeAt i = e0.s.schemeAt i) →
        (l.foldl g e).ctx = e.ctx ∧ (l.foldl g e).s.schemes.length = e.s.schemes.length ∧
        (∀ i ∈ l, (l.foldl g e).s.schemeAt i = V i) ∧ (∀ i, i ∉ l → (l.foldl g e).s.schemeAt i = e.s.schemeAt i) ∧
        (l.foldl g e).s.events = raiseAll e.s.events (l.flatMap R) ∧ (l.foldl g e).out = e.out ++ l.flatMap O := by
  intro l
  induction l with
  | nil => intro _ _ e _ _; simp [raiseAll]
  | cons a l ih =>
    intro hn H e hc hs
    obtain ⟨ha, hl⟩ := List.nodup_cons.mp hn
    have st := H a (by simp) e hc (hs a (by simp))
    obtain ⟨c1, c2, c3, c4, c5, c6⟩ := ih hl (fun i hi => H i (List.mem_cons_of_mem _ hi)) (g e a) (st.ctx.trans hc)
      (fun i hi => (st.ne i (by rintro rfl; exact ha hi)).trans (hs i (List.mem_cons_of_mem _ hi)))
    refine ⟨c1.trans st.ctx, c2.trans st.size, ?_, ?_, ?_, ?_⟩
    · intro i hi
      rcases List.mem_cons.1 hi with rfl | hi
      · exact (c4 i ha).trans st.own
      · exact c3 i hi
    · intro i hi
      simp only [List.mem_cons, not_or] at hi
      exact (c4 i hi.2).trans (st.ne i hi.1)
    · rw [List.foldl_cons, c5, st.events, List.flatMap_cons, raiseAll_append]
    · rw [List.foldl_cons, c6, st.out, List.flatMap_cons, List.append_assoc]

/-! ### Evaluation of one slot -/

/-- Whether an event evaluates a record. -/
def Ev.evaluating? (e : Ev) (i : Nat) (sc : Scheme) (h : HomePart) : Bool := e.evals.contains i || e.handedOn sc h

/-- What the evaluations leave in a slot. -/
def Ev.evalled (e : Ev) (i : Nat) : Option Scheme :=
  (e.s.schemeAt i).map (fun sc =>
    match sc.part with
    | .home h => if e.evaluating? i sc h then e.s.evaluate sc h else sc
    | .copy _ => sc)

/-- The SHORTFALL flag of a home record. -/
def Scheme.short (sc : Scheme) : Bool :=
  match sc.part with
  | .home h => h.shortfall
  | .copy _ => false

/-- The events that the evaluation of a slot raises. -/
def Ev.evalRaises (e : Ev) (i : Nat) : List (Event × Nat) :=
  match e.s.schemeAt i with
  | some sc =>
    match sc.part with
    | .home h =>
      if e.evaluating? i sc h then
        (if (e.s.evaluate sc h).life != sc.life then [(.armingChange, sc.id)] else []) ++
        (if (e.s.evaluate sc h).short != e.shortBefore i sc.id then [(.shortfall, sc.id)] else [])
      else []
    | .copy _ => []
  | none => []

theorem evalSlot_step (e : Ev) (i : Nat) : SlotStep e (e.evalSlot i) i (e.evalled i) (e.evalRaises i) [] := by
  unfold Ev.evalSlot Ev.evalled Ev.evalRaises
  cases hs : e.s.schemeAt i with
  | none => simpa [hs] using SlotStep.refl e i
  | some sc =>
    simp only [Option.map_some]
    cases hp : sc.part with
    | copy c => simpa [hs] using SlotStep.refl e i
    | home h =>
      simp only []
      by_cases hc : e.evaluating? i sc h = true
      · have hc' : (e.evals.contains i || e.handedOn sc h) = true := hc
        rw [if_pos hc', if_pos hc, if_pos hc]
        have h1 := slotStep_put hs (e.s.evaluate sc h)
        have h2 := slotStep_raiseIf (e.put i (e.s.evaluate sc h)) i ((e.s.evaluate sc h).life != sc.life)
          .armingChange sc.id
        rw [h1.own] at h2
        have h3 := slotStep_raiseIf ((e.put i (e.s.evaluate sc h)).on (fun s =>
          s.raiseIf ((e.s.evaluate sc h).life != sc.life) .armingChange sc.id)) i
          ((e.s.evaluate sc h).short != e.shortBefore i sc.id) .shortfall sc.id
        rw [h2.own] at h3
        exact ((h1.trans h2).trans h3)
      · have hc' : ¬ (e.evals.contains i || e.handedOn sc h) = true := hc
        rw [if_neg hc', if_neg hc, if_neg hc]
        simpa [hs] using SlotStep.refl e i

theorem handedOn_congr {e e' : Ev} (h : e'.ctx = e.ctx) (sc : Scheme) (p : HomePart) :
    e'.handedOn sc p = e.handedOn sc p := by
  have h1 : e'.handedOn sc p = e'.ctx.handedOn sc p := rfl
  have h2 : e.handedOn sc p = e.ctx.handedOn sc p := rfl
  rw [h1, h2, h]

theorem evaluate_congr {s t : State} (h : t.frameless = s.frameless) (sc : Scheme) (p : HomePart) :
    t.evaluate sc p = s.evaluate sc p :=
  frameless_congr (fun s => s.evaluate sc p) (fun _ => rfl) h

theorem evaluating_congr {e e' : Ev} (h : e'.ctx = e.ctx) (i : Nat) (sc : Scheme) (p : HomePart) :
    e'.evaluating? i sc p = e.evaluating? i sc p := by
  unfold Ev.evaluating?
  rw [ctx_evals h, handedOn_congr h]

theorem evalled_congr {e e' : Ev} {i : Nat} (h : e'.ctx = e.ctx) (hs : e'.s.schemeAt i = e.s.schemeAt i) :
    e'.evalled i = e.evalled i ∧ e'.evalRaises i = e.evalRaises i := by
  unfold Ev.evalled Ev.evalRaises
  rw [hs]
  have hb : e'.shortBefore i = e.shortBefore i := by
    funext id
    unfold Ev.shortBefore Ev.homeBefore
    rw [ctx_start h]
  simp only [evaluating_congr h, evaluate_congr (ctx_frameless h), hb, and_self]

/-- All evaluations: each slot as its own evaluation leaves it, the environment as at the start of the stage. -/
theorem evaluateAll_exact (e : Ev) :
    e.evaluateAll.ctx = e.ctx ∧ e.evaluateAll.s.schemes.length = e.s.schemes.length ∧
    (∀ i, e.evaluateAll.s.schemeAt i = e.evalled i) ∧
    e.evaluateAll.s.events = raiseAll e.s.events (e.s.schemeSlots.flatMap e.evalRaises) ∧
    e.evaluateAll.out = e.out := by
  obtain ⟨c1, c2, c3, c4, c5, c6⟩ := fold_exact (e0 := e) Ev.evalSlot e.evalled e.evalRaises (fun _ => [])
    e.s.schemeSlots (slots_nodup _) (fun i _ e' hc hs => by
      obtain ⟨h1, h2⟩ := evalled_congr hc hs
      have h3 := evalSlot_step e' i
      rw [h1, h2] at h3
      exact h3) e rfl (fun _ _ => rfl)
  refine ⟨c1, c2, fun i => ?_, c5, ?_⟩
  · by_cases hi : i ∈ e.s.schemeSlots
    · exact c3 i hi
    · refine (c4 i hi).trans ?_
      rw [schemeAt_of_not_mem hi]
      unfold Ev.evalled
      rw [schemeAt_of_not_mem hi]; rfl
  · refine c6.trans ?_
    simp

end Sys2Proof.Machine
end

