-- ==== Sys2Proof/Laws/Frames.lean ====
section
/-! SUPPORT. What the routing of frames changes: transmit queues and transmitters alone, and what of the state it
depends on. -/

namespace Sys2Proof.Machine

/-- The state without its ports. -/
def State.portless (s : State) : State := { s with ports := [] }

theorem portless_eq {s t : State} (h : t.portless = s.portless) : t = { s with ports := t.ports } := by
  cases s; cases t; simp_all [State.portless]

theorem map_modify_same {α β : Type} (f : α → β) (g : α → α) (h : ∀ a, f (g a) = f a) (l : List α) (n : Nat) :
    (l.modify n g).map f = l.map f := by
  apply List.ext_getElem?
  intro k
  simp only [List.getElem?_map, List.getElem?_modify]
  split
  · cases l[k]? <;> simp [h]
  · simp

/-! ### A frame joins a queue -/

theorem enqueue_fixed (p : Port) (q : Queued) : (p.enqueue q).fixed = p.fixed := by
  unfold Port.enqueue Port.fixed; split <;> rfl

theorem abortLooped_fixed (p : Port) : p.abortLooped.fixed = p.fixed := by
  unfold Port.abortLooped Port.fixed; cases p.loopback <;> simp

theorem transmitAfter_fixed (s : State) (p : Nat) (l : List Byte) (w : Sending) :
    (s.transmitAfter p l w).ports.map Port.fixed = s.ports.map Port.fixed := by
  unfold State.transmitAfter
  exact map_modify_same Port.fixed (fun port => { port with
    tx := .sending w (s.now + (l ++ port.sendBytes s.own w).length * s.byteTicks p) }) (fun _ => rfl) _ _

theorem transmit_fixed (s : State) (p : Nat) (w : Sending) :
    (s.transmit p w).ports.map Port.fixed = s.ports.map Port.fixed := transmitAfter_fixed s p [] w

theorem preempt_fixed (s : State) (p : Nat) : (s.preempt p).ports.map Port.fixed = s.ports.map Port.fixed :=
  (transmitAfter_fixed _ _ _ _).trans (map_modify_same _ _ abortLooped_fixed _ _)

theorem choose_fixed (s : State) (p : Nat) : (s.choose p).ports.map Port.fixed = s.ports.map Port.fixed := by
  unfold State.choose
  split
  · exact transmit_fixed _ _ _
  · exact map_modify_same Port.fixed (fun port => { port with tx := .fill }) (fun _ => rfl) _ _

theorem choose_portless (s : State) (p : Nat) : (s.choose p).portless = s.portless := by
  unfold State.choose; split <;> rfl

theorem join_portless (s : State) (p : Nat) (q : Queued) : (s.join p q).portless = s.portless := by
  unfold State.join
  split
  · rfl
  · exact choose_portless _ _
  · split <;> rfl

theorem join_fixed (s : State) (p : Nat) (q : Queued) :
    (s.join p q).ports.map Port.fixed = s.ports.map Port.fixed := by
  have h0 : (s.modPort p (fun port => port.enqueue q)).ports.map Port.fixed = s.ports.map Port.fixed :=
    map_modify_same _ _ (fun a => enqueue_fixed a q) _ _
  unfold State.join
  split
  · exact h0
  · exact (choose_fixed _ _).trans h0
  · split
    · exact (preempt_fixed _ _).trans h0
    · exact h0

/-- A frame that a port takes leaves all but the ports. -/
theorem route_portless {s t : State} {q : Queued} (h : s.route q = some t) : t.portless = s.portless := by
  unfold State.route at h
  split at h
  · cases h; exact join_portless _ _ _
  · cases h

theorem route_fixed {s t : State} {q : Queued} (h : s.route q = some t) :
    t.ports.map Port.fixed = s.ports.map Port.fixed := by
  unfold State.route at h
  split at h
  · cases h; exact join_fixed _ _ _
  · cases h

theorem notSent_ports (s : State) (q : Queued) : (s.notSent q).ports = s.ports := by
  unfold State.notSent
  repeat' split
  all_goals rfl

theorem notSent_block {s : State} {q : Queued} (h : q.origin = .block) : s.notSent q = s := by
  unfold State.notSent; rw [h]

theorem dispatch_fixed (s : State) (q : Queued) :
    (s.dispatchFrame q).ports.map Port.fixed = s.ports.map Port.fixed := by
  unfold State.dispatchFrame
  split
  · exact route_fixed ‹_›
  · rw [notSent_ports]

theorem dispatch_portless {s : State} {q : Queued} (h : q.origin = .block) :
    (s.dispatchFrame q).portless = s.portless := by
  unfold State.dispatchFrame
  split
  · exact route_portless ‹_›
  · rw [notSent_block h]

theorem dispatchAll_fixed (s : State) (l : List Queued) :
    (l.foldl State.dispatchFrame s).ports.map Port.fixed = s.ports.map Port.fixed :=
  foldl_keeps (fun s : State => s.ports.map Port.fixed) _ dispatch_fixed l s

theorem dispatchAll_portless {l : List Queued} (h : ∀ q ∈ l, q.origin = .block) (s : State) :
    (l.foldl State.dispatchFrame s).portless = s.portless := by
  induction l generalizing s with
  | nil => rfl
  | cons q l ih =>
    rw [List.foldl_cons, ih (fun q hq => h q (List.mem_cons_of_mem _ hq)), dispatch_portless (h q (by simp))]

theorem portless_schemes {s t : State} (h : t.portless = s.portless) : t.schemes = s.schemes :=
  (congrArg State.schemes h : t.portless.schemes = s.portless.schemes)

theorem portless_events {s t : State} (h : t.portless = s.portless) : t.events = s.events :=
  (congrArg State.events h : t.portless.events = s.portless.events)

theorem notSent_table (s : State) (q : Queued) : (s.notSent q).schemes = s.schemes ∧ (s.notSent q).events = s.events := by
  unfold State.notSent
  repeat' split
  all_goals exact ⟨rfl, rfl⟩

theorem dispatch_table (s : State) (q : Queued) :
    (s.dispatchFrame q).schemes = s.schemes ∧ (s.dispatchFrame q).events = s.events := by
  unfold State.dispatchFrame
  split
  · have h := route_portless ‹_›
    exact ⟨portless_schemes h, portless_events h⟩
  · exact notSent_table s q

theorem dispatchAll_schemes (l : List Queued) (s : State) :
    (l.foldl State.dispatchFrame s).schemes = s.schemes :=
  foldl_keeps State.schemes _ (fun s q => (dispatch_table s q).1) l s

theorem dispatchAll_events (l : List Queued) (s : State) :
    (l.foldl State.dispatchFrame s).events = s.events :=
  foldl_keeps State.events _ (fun s q => (dispatch_table s q).2) l s

theorem schemeAt_of_schemes {s t : State} (h : s.schemes = t.schemes) (i : Nat) : s.schemeAt i = t.schemeAt i := by
  unfold State.schemeAt; rw [h]

/-! ### What routing depends on -/

/-- What the routing of a frame reads of a state besides its ports. -/
structure SameRouting (s t : State) : Prop where
  ports : t.ports = s.ports
  settings : t.settings = s.settings
  routes : t.routes = s.routes
  now : t.now = s.now

theorem portAt_congr {s t : State} (h : SameRouting s t) (p : Nat) : t.portAt p = s.portAt p := by
  unfold State.portAt; rw [h.ports]

theorem modPort_congr {s t : State} (h : SameRouting s t) (p : Nat) (f : Port → Port) :
    SameRouting (s.modPort p f) (t.modPort p f) :=
  ⟨by simp [h.ports], h.settings, h.routes, h.now⟩

theorem transmitAfter_congr {s t : State} (h : SameRouting s t) (p : Nat) (l : List Byte) (w : Sending) :
    SameRouting (s.transmitAfter p l w) (t.transmitAfter p l w) := by
  unfold State.transmitAfter State.own State.byteTicks State.rateOf
  rw [h.settings, h.now]
  exact modPort_congr h _ _

theorem transmit_congr {s t : State} (h : SameRouting s t) (p : Nat) (w : Sending) :
    SameRouting (s.transmit p w) (t.transmit p w) := transmitAfter_congr h p [] w

theorem preempt_congr {s t : State} (h : SameRouting s t) (p : Nat) : SameRouting (s.preempt p) (t.preempt p) :=
  transmitAfter_congr (modPort_congr h p _) p _ _

theorem choose_congr {s t : State} (h : SameRouting s t) (p : Nat) : SameRouting (s.choose p) (t.choose p) := by
  unfold State.choose
  rw [portAt_congr h, h.now]
  split
  · exact transmit_congr h _ _
  · exact modPort_congr h _ _

theorem join_congr {s t : State} (h : SameRouting s t) (p : Nat) (q : Queued) :
    SameRouting (s.join p q) (t.join p q) := by
  have h0 := modPort_congr h p (fun port => port.enqueue q)
  unfold State.join
  rw [portAt_congr h]
  split
  · exact h0
  · exact choose_congr h0 _
  · have hr : t.rateOf p = s.rateOf p := by unfold State.rateOf; rw [h.settings]
    rw [hr]
    split
    · exact preempt_congr h0 _
    · exact h0

theorem findPort_congr {s t : State} (h : SameRouting s t) (a : Option Nat) (d : Nat) (k : FrameKind) :
    t.findPort a d k = s.findPort a d k := by
  have h1 : t.routeTo d = s.routeTo d := by unfold State.routeTo; rw [h.routes]
  have h2 : ∀ o, t.takes a k o = s.takes a k o := by
    intro o; unfold State.takes; cases o with
    | none => rfl
    | some p => simp only [portAt_congr h]
  unfold State.findPort
  rw [h1, h2, h2]

theorem notSent_routing (s : State) (q : Queued) : SameRouting s (s.notSent q) := by
  unfold State.notSent
  repeat' split
  all_goals exact ⟨rfl, rfl, rfl, rfl⟩

theorem SameRouting.symm {s t : State} (h : SameRouting s t) : SameRouting t s :=
  ⟨h.ports.symm, h.settings.symm, h.routes.symm, h.now.symm⟩

theorem SameRouting.trans {s t u : State} (h : SameRouting s t) (k : SameRouting t u) : SameRouting s u :=
  ⟨k.ports.trans h.ports, k.settings.trans h.settings, k.routes.trans h.routes, k.now.trans h.now⟩

theorem dispatch_congr {s t : State} (h : SameRouting s t) (q : Queued) :
    SameRouting (s.dispatchFrame q) (t.dispatchFrame q) := by
  unfold State.dispatchFrame State.route
  rw [findPort_congr h]
  cases s.findPort q.origin.arrival q.frame.destination q.frame.kind with
  | some p => exact join_congr h p q
  | none => exact ((notSent_routing s q).symm.trans h).trans (notSent_routing t q)

theorem dispatchAll_congr (l : List Queued) {s t : State} (h : SameRouting s t) :
    SameRouting (l.foldl State.dispatchFrame s) (l.foldl State.dispatchFrame t) := by
  induction l generalizing s t with
  | nil => exact h
  | cons q l ih => exact ih (dispatch_congr h q)

/-! ### Reachability, and what an evaluation depends on -/

theorem fixed_usable (p : Port) : p.fixed.usable = p.usable := rfl

theorem reachable_congr {s t : State} (hp : t.ports.map Port.fixed = s.ports.map Port.fixed)
    (hr : t.routes = s.routes) (d : Nat) : t.reachable d = s.reachable d := by
  have key : ∀ n, (t.portAt n).usable = (s.portAt n).usable := by
    intro n
    have h1 : (t.ports.map Port.fixed)[n]? = (s.ports.map Port.fixed)[n]? := by rw [hp]
    simp only [List.getElem?_map] at h1
    unfold State.portAt
    cases ht : t.ports[n]? with
    | none =>
      cases hs : s.ports[n]? with
      | none => rfl
      | some b => rw [ht, hs] at h1; cases h1
    | some a =>
      cases hs : s.ports[n]? with
      | none => rw [ht, hs] at h1; cases h1
      | some b =>
        rw [ht, hs] at h1
        have : a.fixed = b.fixed := by simpa using h1
        show a.usable = b.usable
        rw [← fixed_usable a, this, fixed_usable]
  unfold State.reachable State.usableThrough State.routeTo
  rw [hr]
  simp only [key]

/-- What availabilities, effective values and evaluations read of a state: the quantity slots, the actions, the mode
and the reachability of terminals. -/
structure SameValues (s t : State) : Prop where
  slots : t.slots = s.slots
  actions : t.actions = s.actions
  mode : t.mode = s.mode
  reach : ∀ d, t.reachable d = s.reachable d

theorem availability_congr {s t : State} (h : SameValues s t) (a : ActionEntry) :
    t.availability a = s.availability a := by
  unfold State.availability
  cases a.kind with
  | localEntry o v p av => rfl
  | mirror p l f k => simp only [h.reach]

theorem effective_congr {s t : State} (h : SameValues s t) (a : ActionEntry) : t.effective a = s.effective a := by
  unfold State.effective State.liveValue State.goodValue State.slotAt
  rw [h.slots]

theorem shown_congr {s t : State} (h : SameValues s t) (r : ActionRef) : t.shown r = s.shown r := by
  unfold State.shown State.findAction
  rw [h.actions]
  cases s.actions.find? (fun a => decide (a.ref = r)) with
  | none => rfl
  | some a => simp [availability_congr h, effective_congr h]

theorem evaluate_values {s t : State} (h : SameValues s t) (sc : Scheme) (p : HomePart) :
    t.evaluate sc p = s.evaluate sc p := by
  have hsel : t.selectable = s.selectable := by
    funext r
    unfold State.selectable State.findAction
    rw [h.actions]
    cases s.actions.find? (fun a => decide (a.ref = r)) with
    | none => rfl
    | some a => simp [availability_congr h, effective_congr h]
  have hread : t.reading p.form = s.reading p.form := by
    unfold State.reading State.goodValue State.slotAt; rw [h.slots]
  have hfroz : t.frozenNow p.form = s.frozenNow p.form := by
    unfold State.frozenNow; rw [hread]
  have hlife : ∀ b, t.lifeNow sc b = s.lifeNow sc b := by
    intro b; unfold State.lifeNow State.inhibited; rw [h.mode]
  unfold State.evaluate
  rw [hsel, hread, hfroz]
  simp only [hlife]

end Sys2Proof.Machine
end

