-- ==== Sys2Proof/Laws/Rounds.lean ====
section
/-! SUPPORT. What the Replication Unit does to one slot within an event in which no retirement ends: the record's
participants and round, its UNSETTLED flag, and the UPDATE frames it hands over. -/

namespace Sys2Proof.Machine

theorem withHome_self {sc : Scheme} {h : HomePart} (hp : sc.part = .home h) : sc.withHome h = sc := by
  cases sc; simp_all [Scheme.withHome]

/-! ### UPDATE frames of a round -/

theorem sendRound_fold (sc : Scheme) (l : List Participant) (e : Ev) :
    l.foldl (fun e p => e.sendRound sc .update p) e =
      { e with out := e.out ++ (l.filter (fun p => e.s.reachable p.terminal)).map (e.s.updateFrame sc) } := by
  induction l generalizing e with
  | nil => simp
  | cons p l ih =>
    rw [List.foldl_cons, ih, s_sendRound]
    unfold Ev.sendRound
    by_cases hr : e.s.reachable p.terminal = true
    · rw [if_pos hr]
      simp [Ev.send, Ev.sendAs, hr, State.updateFrame]
    · rw [if_neg hr]
      simp [hr]

theorem sendRounds_step {e : Ev} {i : Nat} {sc : Scheme} (hs : e.s.schemeAt i = some sc) {h : HomePart}
    (hr : h.round = .update) (w : Participant → Bool) :
    SlotStep e (e.sendRounds i sc h w) i
      (some (sc.withHome { h with statuses := h.statuses.map (fun p => if w p then e.s.sentTo p else p) })) []
      (((h.statuses.filter w).filter (fun p => e.s.reachable p.terminal)).map (e.s.updateFrame sc)) := by
  unfold Ev.sendRounds
  simp only [hr]
  rw [sendRound_fold]
  have h1 : SlotStep e { e with out := e.out ++
      ((h.statuses.filter w).filter (fun p => e.s.reachable p.terminal)).map (e.s.updateFrame sc) } i (some sc) []
      (((h.statuses.filter w).filter (fun p => e.s.reachable p.terminal)).map (e.s.updateFrame sc)) :=
    ⟨rfl, rfl, hs, fun _ _ => rfl, rfl, rfl⟩
  have h2 := h1.trans (slotStep_put h1.own
    (sc.withHome { h with statuses := h.statuses.map (fun p => if w p then e.s.sentTo p else p) }))
  simpa [Ev.putHome, hr] using h2

/-! ### Retirements that do not end -/

/-- A home record whose retire round stands: one that is RETIRING in a retire round has a participant BEHIND. -/
def Scheme.steady (sc : Scheme) (h : HomePart) : Prop :=
  sc.life = .retiring → h.round = .retire → h.statuses.any (fun p => p.status == .behind) = true

theorem testRetireEnd_id {e : Ev} {i : Nat} {sc : Scheme} {h : HomePart} (hs : e.s.schemeAt i = some sc)
    (hp : sc.part = .home h) (hr : sc.steady h) : e.testRetireEnd i = e := by
  unfold Ev.testRetireEnd
  rw [hs]; simp only []; rw [hp]; simp only []
  rw [if_neg]
  intro hc
  simp only [Bool.and_eq_true, beq_iff_eq, Bool.not_eq_true'] at hc
  rw [hr hc.1.1 hc.1.2] at hc
  cases hc.2

/-! ### A round wanted -/

theorem due_again (s : State) (b : Bool) (l : List Participant) :
    (((if b then l.map (fun p => if p.status == .current then p.waiting else p) else l).map (fun p =>
      if p.status == .behind || (b && (p.status == .rejected || p.status == .lost)) then p.waiting else p)).map
        (fun p => if p.status == .behind then s.sentTo p else p)) =
      l.map (fun p => if p.dueIn b then s.sentTo p.waiting else p) := by
  induction l with
  | nil => cases b <;> rfl
  | cons p l ih =>
    cases b
    · simp only [Bool.false_eq_true, if_false, List.map_cons] at ih ⊢
      rw [ih]
      congr 1
      unfold Participant.dueIn
      cases hst : p.status <;> simp [Participant.waiting, hst]
    · simp only [if_true, List.map_cons] at ih ⊢
      rw [ih]
      congr 1
      unfold Participant.dueIn
      cases hst : p.status <;> simp [Participant.waiting, hst]

theorem due_frames (s : State) (sc : Scheme) (b : Bool) (l : List Participant) :
    (((((if b then l.map (fun p => if p.status == .current then p.waiting else p) else l).map (fun p =>
      if p.status == .behind || (b && (p.status == .rejected || p.status == .lost)) then p.waiting else p)).filter
        (fun p => p.status == .behind)).filter (fun p => s.reachable p.terminal)).map (s.updateFrame sc)) =
      (l.filter (fun p => p.dueIn b && s.reachable p.terminal)).map (s.updateFrame sc) := by
  induction l with
  | nil => cases b <;> rfl
  | cons p l ih =>
    have key : ∀ (q : Participant) (d : Bool) (k m : List Participant),
        (q.status == .behind) = d → (d = true → s.updateFrame sc q = s.updateFrame sc p ∧ q.terminal = p.terminal) →
        ((k.filter (fun p => p.status == .behind)).filter (fun p => s.reachable p.terminal)).map (s.updateFrame sc) =
          (m.filter (fun p => p.dueIn b && s.reachable p.terminal)).map (s.updateFrame sc) → p.dueIn b = d →
        (((q :: k).filter (fun p => p.status == .behind)).filter (fun p => s.reachable p.terminal)).map
          (s.updateFrame sc) =
          ((p :: m).filter (fun p => p.dueIn b && s.reachable p.terminal)).map (s.updateFrame sc) := by
      intro q d k m h1 h2 h3 h4
      cases d
      · rw [List.filter_cons_of_neg (by simp [h1]), List.filter_cons_of_neg (by simp [h4])]
        exact h3
      · obtain ⟨h5, h6⟩ := h2 rfl
        rw [List.filter_cons_of_pos (by simpa using h1)]
        cases hr : s.reachable p.terminal
        · rw [List.filter_cons_of_neg (by simp [h6, hr]), List.filter_cons_of_neg (by simp [hr])]
          exact h3
        · rw [List.filter_cons_of_pos (by simp [h6, hr]), List.filter_cons_of_pos (by simp [hr, h4]), List.map_cons,
            List.map_cons, h5, h3]
    cases b
    · simp only [Bool.false_eq_true, if_false, List.map_cons] at ih ⊢
      refine key _ (p.dueIn false) _ _ ?_ ?_ ih rfl
      · unfold Participant.dueIn; cases hst : p.status <;> simp [Participant.waiting, hst]
      · intro _
        split <;> exact ⟨rfl, rfl⟩
    · simp only [if_true, List.map_cons] at ih ⊢
      refine key _ (p.dueIn true) _ _ ?_ ?_ ih rfl
      · unfold Participant.dueIn; cases hst : p.status <;> simp [Participant.waiting, hst]
      · intro _
        repeat' split
        all_goals exact ⟨rfl, rfl⟩

/-- A bump or a wanted round. -/
theorem wantRound_step {e : Ev} {i : Nat} {sc : Scheme} {h : HomePart} (hs : e.s.schemeAt i = some sc)
    (hp : sc.part = .home h) (b w : Bool) :
    SlotStep e (if b || w then e.wantRound i b else e) i
      (some (sc.withHome (h.inRound e.s b w (sc.life == .retiring)))) [] (e.s.startFrames sc h b w) := by
  have hid : SlotStep e e i (some (sc.withHome h)) [] [] := by
    rw [withHome_self hp, ← hs]
    exact SlotStep.refl e i
  unfold HomePart.inRound State.startFrames
  cases hw : (b || w)
  · simp only [Bool.false_eq_true, if_false, Bool.not_false, Bool.or_true, if_true]
    have h0 : ¬ (b = true ∨ w = true) := by
      rw [← Bool.or_eq_true, hw]; simp
    rw [if_neg (by tauto)]
    exact hid
  · simp only [if_true, Bool.not_true, Bool.or_false]
    have h0 : b = true ∨ w = true := by rw [← Bool.or_eq_true]; exact hw
    by_cases hl : sc.life = .retiring
    · have h1 : e.wantRound i b = e := by
        unfold Ev.wantRound; rw [hs]; simp only []; rw [hp]; simp [hl]
      have hn : ¬ (h.round = .none ∧ sc.life ≠ .retiring ∧ (b = true ∨ w = true)) := fun hx => hx.2.1 hl
      have hl' : (sc.life == Life.retiring) = true := by simpa using hl
      rw [h1, if_neg hn, if_pos hl']
      exact hid
    · have hl' : (sc.life == Life.retiring) = false := by simpa using hl
      simp only [hl', Bool.false_eq_true, if_false]
      by_cases hr : h.round = .none
      · have hr' : (h.round == Round.none) = true := by simpa using hr
        have hn : h.round = .none ∧ sc.life ≠ .retiring ∧ (b = true ∨ w = true) := ⟨hr, hl, h0⟩
        rw [if_pos hr', if_pos hn]
        have h1 : e.wantRound i b = e.sendRounds i sc
            { h with
              statuses := (if b then h.statuses.map (fun p => if p.status == .current then p.waiting else p)
                else h.statuses).map (fun p =>
                  if p.status == .behind || (b && (p.status == .rejected || p.status == .lost)) then p.waiting else p),
              dirty := false, round := .update } (fun p => p.status == .behind) := by
          unfold Ev.wantRound
          rw [hs]; simp only []; rw [hp]; simp only [hl', Bool.false_eq_true, if_false]
          cases b
          · simp only [Bool.false_eq_true, if_false, hr', if_true]; rfl
          · simp only [if_true, hr']; rfl
        have h2 := sendRounds_step hs (h := { h with
              statuses := (if b then h.statuses.map (fun p => if p.status == .current then p.waiting else p)
                else h.statuses).map (fun p =>
                  if p.status == .behind || (b && (p.status == .rejected || p.status == .lost)) then p.waiting else p),
              dirty := false, round := .update }) rfl (fun p => p.status == .behind)
        rw [← h1] at h2
        simp only [due_again, due_frames] at h2
        exact h2
      · have hr' : (h.round == Round.none) = false := by simpa using hr
        have hn : ¬ (h.round = .none ∧ sc.life ≠ .retiring ∧ (b = true ∨ w = true)) := fun hx => hr hx.1
        rw [if_neg hn]
        simp only [hr', Bool.false_eq_true, if_false]
        have h1 : e.wantRound i b = e.put i (sc.withHome { h with
            statuses := if b then h.statuses.map (fun p => if p.status == .current then p.waiting else p)
              else h.statuses,
            dirty := true }) := by
          unfold Ev.wantRound
          rw [hs]; simp only []; rw [hp]; simp only [hl', Bool.false_eq_true, if_false]
          cases b
          · simp only [Bool.false_eq_true, if_false, hr']; rfl
          · simp only [if_true, hr', Bool.false_eq_true, if_false]; rfl
        have h2 := slotStep_put hs (sc.withHome { h with
            statuses := if b then h.statuses.map (fun p => if p.status == .current then p.waiting else p)
              else h.statuses,
            dirty := true })
        rw [← h1] at h2
        exact h2

/-! ### Ends of rounds -/

theorem again_statuses (s : State) (l : List Participant) :
    (l.map (fun p => if p.status == .behind || (true && (p.status == .rejected || p.status == .lost)) then p.waiting
      else p)).map (fun p => if p.status == .behind then s.sentTo p else p) =
      l.map (fun p => if p.dueAgain then s.sentTo p.waiting else p) := by
  rw [List.map_map]
  refine List.map_congr_left (fun p _ => ?_)
  unfold Participant.dueAgain
  cases hst : p.status <;> simp [Participant.waiting, hst]

theorem again_frames (s : State) (sc : Scheme) (l : List Participant) :
    ((((l.map (fun p => if p.status == .behind || (true && (p.status == .rejected || p.status == .lost)) then p.waiting
      else p)).filter (fun p => p.status == .behind)).filter (fun p => s.reachable p.terminal)).map (s.updateFrame sc)) =
      (l.filter (fun p => p.dueAgain && s.reachable p.terminal)).map (s.updateFrame sc) := by
  induction l with
  | nil => rfl
  | cons p l ih =>
    rw [List.map_cons]
    by_cases hd : p.dueAgain = true
    · have h1 : (p.status == .behind || (true && (p.status == .rejected || p.status == .lost))) = true := by
        unfold Participant.dueAgain at hd
        simpa [Bool.or_assoc] using hd
      rw [if_pos h1, List.filter_cons_of_pos (by rfl)]
      cases hr : s.reachable p.terminal
      · rw [List.filter_cons_of_neg (by show ¬ s.reachable p.terminal = true; simp [hr]),
          List.filter_cons_of_neg (by simp [hr])]
        exact ih
      · rw [List.filter_cons_of_pos (by exact hr), List.filter_cons_of_pos (by simp [hd, hr]), List.map_cons,
          List.map_cons, ih]
        rfl
    · have h1 : ¬ (p.status == .behind || (true && (p.status == .rejected || p.status == .lost))) = true := by
        unfold Participant.dueAgain at hd
        simpa [Bool.or_assoc] using hd
      have h2 : ¬ (p.status == .behind) = true := by
        intro hb
        apply hd
        unfold Participant.dueAgain
        rw [hb]; rfl
      rw [if_neg h1, List.filter_cons_of_neg (p := fun p : Participant => p.status == .behind) h2,
        List.filter_cons_of_neg (by simp [hd])]
      exact ih

/-- The end of an update round with no participant engaged. -/
theorem testRoundEnd_step {e : Ev} {i : Nat} {sc : Scheme} {h : HomePart} (hs : e.s.schemeAt i = some sc)
    (hp : sc.part = .home h) :
    SlotStep e (e.testRoundEnd i) i (some (sc.withHome (h.endRound e.s))) [] (e.s.againFrames sc h) := by
  unfold Ev.testRoundEnd HomePart.endRound State.againFrames
  rw [hs]; simp only []; rw [hp]; simp only []
  by_cases hc : h.ending = true
  · have hc' : (h.round == .update && !h.statuses.any Participant.engaged) = true := hc
    rw [if_pos hc', if_pos hc]
    by_cases hd : h.dirty = true
    · rw [if_pos hd, if_pos hd, if_pos ⟨hc, hd⟩]
      have h2 := sendRounds_step hs (h := { h with
        statuses := h.statuses.map (fun p =>
          if p.status == .behind || (true && (p.status == .rejected || p.status == .lost)) then p.waiting else p),
        dirty := false, round := .update }) rfl (fun p => p.status == .behind)
      simp only [again_statuses, again_frames] at h2
      exact h2
    · rw [if_neg hd, if_neg hd, if_neg (fun hx => hd hx.2)]
      exact slotStep_put hs (sc.withHome { h with round := .none })
  · have hc' : ¬ (h.round == .update && !h.statuses.any Participant.engaged) = true := hc
    rw [if_neg hc', if_neg hc, if_neg (fun hx => hc hx.1), withHome_self hp, ← hs]
    exact SlotStep.refl e i

theorem endRound_clean (h : HomePart) (u : State) : ¬ ((h.endRound u).ending = true ∧ (h.endRound u).dirty = true) := by
  unfold HomePart.endRound
  split
  · split
    · rintro ⟨-, hx⟩; cases hx
    · rintro ⟨hx, -⟩; cases hx
  · rintro ⟨hx, -⟩; contradiction

theorem inRound_congr {s t : State} (h : ∀ p, t.sentTo p = s.sentTo p) (p : HomePart) (b w r : Bool) :
    p.inRound t b w r = p.inRound s b w r := by
  unfold HomePart.inRound
  simp only [h]

theorem endRound_congr {s t : State} (h : ∀ p, t.sentTo p = s.sentTo p) (p : HomePart) :
    p.endRound t = p.endRound s := by
  unfold HomePart.endRound
  simp only [h]

theorem rounds_congr {s t : State} (h : ∀ p, t.sentTo p = s.sentTo p) (p : HomePart) (b w r : Bool) :
    p.rounds t b w r = p.rounds s b w r := by
  unfold HomePart.rounds
  simp only [inRound_congr h, endRound_congr h]

@[simp] theorem inRound_shortfall (h : HomePart) (u : State) (b w r : Bool) :
    (h.inRound u b w r).shortfall = h.shortfall := by
  unfold HomePart.inRound; repeat' split
  all_goals rfl

@[simp] theorem endRound_shortfall (h : HomePart) (u : State) : (h.endRound u).shortfall = h.shortfall := by
  unfold HomePart.endRound; repeat' split
  all_goals rfl

/-- Sending to a participant reads the reachability of terminals, the time and the settings alone. -/
theorem sentTo_congr {s t : State} (hr : ∀ d, t.reachable d = s.reachable d) (hn : t.now = s.now)
    (hs : t.settings = s.settings) (p : Participant) : t.sentTo p = s.sentTo p := by
  unfold State.sentTo
  rw [hr, hn, hs]

theorem updateFrame_congr {s t : State} (hs : t.settings = s.settings) (sc : Scheme) (p : Participant) :
    t.updateFrame sc p = s.updateFrame sc p := by
  unfold State.updateFrame State.originate State.own
  rw [hs]

theorem startFrames_congr {s t : State} (hr : ∀ d, t.reachable d = s.reachable d) (hs : t.settings = s.settings)
    (sc : Scheme) (h : HomePart) (b w : Bool) : t.startFrames sc h b w = s.startFrames sc h b w := by
  unfold State.startFrames
  have : t.updateFrame sc = s.updateFrame sc := funext (updateFrame_congr hs sc)
  simp only [hr, this]

theorem againFrames_congr {s t : State} (hr : ∀ d, t.reachable d = s.reachable d) (hs : t.settings = s.settings)
    (sc : Scheme) (h : HomePart) : t.againFrames sc h = s.againFrames sc h := by
  unfold State.againFrames
  have : t.updateFrame sc = s.updateFrame sc := funext (updateFrame_congr hs sc)
  simp only [hr, this]

theorem ctx_reach {e e' : Ev} (hc : e'.ctx = e.ctx) (d : Nat) : e'.s.reachable d = e.s.reachable d :=
  frameless_congr (fun s => s.reachable d) (fun _ => rfl) (ctx_frameless hc)
theorem ctx_now {e e' : Ev} (hc : e'.ctx = e.ctx) : e'.s.now = e.s.now :=
  frameless_congr State.now (fun _ => rfl) (ctx_frameless hc)
theorem ctx_settings {e e' : Ev} (hc : e'.ctx = e.ctx) : e'.s.settings = e.s.settings :=
  frameless_congr State.settings (fun _ => rfl) (ctx_frameless hc)
theorem ctx_sent {e e' : Ev} (hc : e'.ctx = e.ctx) (p : Participant) : e'.s.sentTo p = e.s.sentTo p :=
  sentTo_congr (ctx_reach hc) (ctx_now hc) (ctx_settings hc) p

theorem againFrames_with (s : State) (sc : Scheme) (h x : HomePart) :
    s.againFrames (sc.withHome x) h = s.againFrames sc h := rfl

theorem rounds_steady {sc : Scheme} {h : HomePart} (hst : sc.steady h) (u : State) (b w : Bool) :
    sc.steady (h.rounds u b w (sc.life == .retiring)) := by
  intro hl hr
  have h1 : h.inRound u b w (sc.life == .retiring) = h := by
    unfold HomePart.inRound; simp [hl]
  unfold HomePart.rounds at hr ⊢
  rw [h1] at hr ⊢
  have key : ∀ x : HomePart, (x.endRound u).round = .retire → x.endRound u = x ∧ x.round = .retire := by
    intro x hx
    unfold HomePart.endRound at hx ⊢
    split at hx
    · split at hx <;> cases hx
    · rename_i hc
      rw [if_neg hc]; exact ⟨rfl, hx⟩
  obtain ⟨k1, k2⟩ := key _ hr
  obtain ⟨k3, k4⟩ := key _ k2
  rw [k1, k3]
  exact hst hl k4

/-- A bump or a wanted round, and the ends of rounds after it. -/
theorem rounds_step {e : Ev} {i : Nat} {sc : Scheme} {h : HomePart} (hs : e.s.schemeAt i = some sc)
    (hp : sc.part = .home h) (hst : sc.steady h) (b w : Bool) :
    SlotStep e ((((if b || w then e.wantRound i b else e).testRoundEnd i).testRoundEnd i).testRetireEnd i) i
      (some (sc.withHome (h.rounds e.s b w (sc.life == .retiring)))) []
      (e.s.startFrames sc h b w ++ e.s.againFrames sc (h.inRound e.s b w (sc.life == .retiring))) := by
  have h1 := wantRound_step hs hp b w
  generalize (if b || w then e.wantRound i b else e) = e1 at h1 ⊢
  have h2 := h1.trans (testRoundEnd_step h1.own rfl)
  rw [endRound_congr (ctx_sent h1.ctx), againFrames_congr (ctx_reach h1.ctx) (ctx_settings h1.ctx)] at h2
  have h3 := h2.trans (testRoundEnd_step h2.own rfl)
  rw [endRound_congr (ctx_sent h2.ctx)] at h3
  have h4 : (e1.testRoundEnd i).s.againFrames ((sc.withHome (h.inRound e.s b w (sc.life == .retiring))).withHome
      ((h.inRound e.s b w (sc.life == .retiring)).endRound e.s))
        ((h.inRound e.s b w (sc.life == .retiring)).endRound e.s) = [] := by
    unfold State.againFrames
    rw [if_neg (endRound_clean _ _)]
  rw [h4] at h3
  rw [testRetireEnd_id h3.own rfl (rounds_steady hst e.s b w)]
  simp only [List.append_nil] at h3
  exact h3

/-! ### The copy state -/

/-- The UNSETTLED event of a record, where it ends UNSETTLED and did not start so. -/
def Ev.unsettledRaises (e : Ev) (i : Nat) (sc : Scheme) (h : HomePart) : List (Event × Nat) :=
  if h.copyState == .unsettled && e.start.copyStateOf i sc.id != some .unsettled then [(.unsettled, sc.id)] else []

theorem deriveCopyState_step {e : Ev} {i : Nat} {sc : Scheme} {h : HomePart} (hs : e.s.schemeAt i = some sc)
    (hp : sc.part = .home h) :
    SlotStep e (e.deriveCopyState i) i (some (sc.withHome h.flagged)) (e.unsettledRaises i sc h) [] := by
  unfold Ev.deriveCopyState
  rw [hs]; simp only []; rw [hp]; simp only []
  have h1 := slotStep_put hs (sc.withHome h.flagged)
  have h2 := slotStep_raiseIf (e.put i (sc.withHome h.flagged)) i
    (h.copyState == .unsettled && e.start.copyStateOf i sc.id != some .unsettled) .unsettled sc.id
  rw [h1.own] at h2
  exact h1.trans h2

/-! ### The whole of RPU's part -/

/-- What RPU's part of an event leaves in a slot, bumped or not. -/
def Ev.rounded (e : Ev) (b : Bool) (i : Nat) : Option Scheme :=
  (e.s.schemeAt i).map (fun sc =>
    match sc.part with
    | .home h => sc.withHome (h.rounds e.s b (e.wants.contains i) (sc.life == .retiring)).flagged
    | .copy _ => sc)

/-- The UNSETTLED event that RPU's part raises for a slot. -/
def Ev.roundRaises (e : Ev) (b : Bool) (i : Nat) : List (Event × Nat) :=
  match e.s.schemeAt i with
  | some sc =>
    match sc.part with
    | .home h => e.unsettledRaises i sc (h.rounds e.s b (e.wants.contains i) (sc.life == .retiring))
    | .copy _ => []
  | none => []

/-- The frames that RPU's part hands over for a slot. -/
def Ev.roundOut (e : Ev) (b : Bool) (i : Nat) : List Queued :=
  match e.s.schemeAt i with
  | some sc =>
    match sc.part with
    | .home h => e.s.startFrames sc h b (e.wants.contains i) ++
        e.s.againFrames sc (h.inRound e.s b (e.wants.contains i) (sc.life == .retiring))
    | .copy _ => []
  | none => []

/-- No retirement at a slot ends by itself. -/
def Ev.steadyAt (e : Ev) (i : Nat) : Prop := ∀ sc h, e.s.schemeAt i = some sc → sc.part = .home h → sc.steady h

theorem replicate_step {e : Ev} {i : Nat} (b : Nat → Bool) (hst : e.steadyAt i) :
    SlotStep e (e.replicate b i) i (e.rounded (b i) i) (e.roundRaises (b i) i) (e.roundOut (b i) i) := by
  unfold Ev.replicate Ev.rounded Ev.roundRaises Ev.roundOut
  simp only []
  cases hs : e.s.schemeAt i with
  | none =>
    have h1 : (if b i || e.wants.contains i then e.wantRound i (b i) else e) = e := by
      unfold Ev.wantRound; rw [hs]; simp
    have h2 : e.testRoundEnd i = e := by unfold Ev.testRoundEnd; rw [hs]
    have h3 : e.testRetireEnd i = e := by unfold Ev.testRetireEnd; rw [hs]
    have h4 : e.deriveCopyState i = e := by unfold Ev.deriveCopyState; rw [hs]
    rw [h1, h2, h2, h3, h4]
    simpa [hs] using SlotStep.refl e i
  | some sc =>
    simp only [Option.map_some]
    cases hp : sc.part with
    | copy c =>
      have h1 : (if b i || e.wants.contains i then e.wantRound i (b i) else e) = e := by
        unfold Ev.wantRound; rw [hs]; simp [hp]
      have h2 : e.testRoundEnd i = e := by unfold Ev.testRoundEnd; rw [hs]; simp only []; rw [hp]
      have h3 : e.testRetireEnd i = e := by unfold Ev.testRetireEnd; rw [hs]; simp only []; rw [hp]
      have h4 : e.deriveCopyState i = e := by unfold Ev.deriveCopyState; rw [hs]; simp only []; rw [hp]
      rw [h1, h2, h2, h3, h4]
      simpa [hs] using SlotStep.refl e i
    | home h =>
      simp only []
      have h1 := rounds_step hs hp (hst sc h hs hp) (b i) (e.wants.contains i)
      have h2 := deriveCopyState_step (e := (((if b i || e.wants.contains i then e.wantRound i (b i) else e).testRoundEnd
        i).testRoundEnd i).testRetireEnd i) h1.own rfl
      have h3 := h1.trans h2
      have h4 : ∀ e' : Ev, e'.start = e.start → ∀ x y, e'.unsettledRaises i (sc.withHome x) y = e.unsettledRaises i sc y := by
        intro e' he x y
        unfold Ev.unsettledRaises
        rw [he]; rfl
      rw [h4 _ (ctx_start h1.ctx), List.append_nil] at h3
      exact h3

/-! ### What it depends on -/

theorem rounded_congr {e e' : Ev} {i : Nat} (hc : e'.ctx = e.ctx) (hs : e'.s.schemeAt i = e.s.schemeAt i) (b : Bool) :
    e'.rounded b i = e.rounded b i ∧ e'.roundRaises b i = e.roundRaises b i ∧ e'.roundOut b i = e.roundOut b i := by
  unfold Ev.rounded Ev.roundRaises Ev.roundOut
  rw [hs, ctx_wants hc]
  have h5 : ∀ sc h, e'.unsettledRaises i sc h = e.unsettledRaises i sc h := by
    intro sc h; unfold Ev.unsettledRaises; rw [ctx_start hc]
  simp only [rounds_congr (ctx_sent hc), inRound_congr (ctx_sent hc),
    startFrames_congr (ctx_reach hc) (ctx_settings hc), againFrames_congr (ctx_reach hc) (ctx_settings hc), h5,
    and_self]

end Sys2Proof.Machine
end

