-- ==== Sys2Proof/Laws/Quiet.lean ====
section
/-! SUPPORT. An event in which nothing fires and no context completes ends as `Evaluated` says. -/

namespace Sys2Proof.Machine

/-! ### Generations -/

theorem bumpSlot_ctx (e : Ev) (i : Nat) : (e.bumpSlot i).ctx = e.ctx := by
  unfold Ev.bumpSlot; split <;> simp [Ev.ctx, Ev.put, Ev.on]

theorem bumpSlot_ne (e : Ev) (i j : Nat) (h : j ≠ i) : (e.bumpSlot i).s.schemeAt j = e.s.schemeAt j := by
  unfold Ev.bumpSlot; split
  · simp [Ev.put, Ev.on, schemeAt_put_ne (Ne.symm h)]
  · rfl

theorem bumpSlot_size (e : Ev) (i : Nat) : (e.bumpSlot i).s.schemes.length = e.s.schemes.length := by
  unfold Ev.bumpSlot; split <;> simp [Ev.put, Ev.on]

theorem bumpSlot_out (e : Ev) (i : Nat) : (e.bumpSlot i).out = e.out := by
  unfold Ev.bumpSlot; split <;> rfl

theorem bumpSlot_at (e : Ev) (i : Nat) : (e.bumpSlot i).s.schemeAt i =
    (e.s.schemeAt i).map (fun sc => { sc with generation := nextGeneration sc.generation }) := by
  unfold Ev.bumpSlot
  cases hs : e.s.schemeAt i with
  | none => simpa using hs
  | some sc => simp [Ev.put, Ev.on, schemeAt_put_self hs]

theorem bumpSlot_events (e : Ev) (i : Nat) : (e.bumpSlot i).s.events = e.s.events := by
  unfold Ev.bumpSlot; split <;> rfl

/-- After the bumps, each slot listed has its generation bumped, once. -/
theorem bumps_at {l : List Nat} (hl : l.Nodup) (e : Ev) (i : Nat) : (l.foldl Ev.bumpSlot e).s.schemeAt i =
    if i ∈ l then (e.s.schemeAt i).map (fun sc => { sc with generation := nextGeneration sc.generation })
    else e.s.schemeAt i := by
  obtain ⟨h1, h2⟩ := fold_slots _ bumpSlot_ctx bumpSlot_ne l hl e i
  split
  · obtain ⟨e', -, hs, hr⟩ := h2 ‹_›
    rw [hr, bumpSlot_at, hs]
  · exact h1 ‹_›

/-! ### Release markers -/

theorem markSlot_ctx (e : Ev) (i : Nat) : (e.markSlot i).ctx = e.ctx := by
  unfold Ev.markSlot; split <;> simp [Ev.ctx, Ev.put, Ev.on]

theorem markSlot_ne (e : Ev) (i j : Nat) (h : j ≠ i) : (e.markSlot i).s.schemeAt j = e.s.schemeAt j := by
  unfold Ev.markSlot; split
  · simp [Ev.put, Ev.on, schemeAt_put_ne (Ne.symm h)]
  · rfl

theorem markSlot_size (e : Ev) (i : Nat) : (e.markSlot i).s.schemes.length = e.s.schemes.length := by
  unfold Ev.markSlot; split <;> simp [Ev.put, Ev.on]

theorem markSlot_out (e : Ev) (i : Nat) : (e.markSlot i).out = e.out := by
  unfold Ev.markSlot; split <;> rfl

theorem markSlot_events (e : Ev) (i : Nat) : (e.markSlot i).s.events = e.s.events := by
  unfold Ev.markSlot; split <;> rfl

/-- A record or copy with the marker the end of an event gives it. -/
def Ev.marked (e : Ev) (i : Nat) (sc : Scheme) : Scheme :=
  { sc with releaseNeeded := e.s.satisfied sc.trigger && (sc.releaseNeeded || e.setsMarker i sc) }

theorem markSlot_at (e : Ev) (i : Nat) : (e.markSlot i).s.schemeAt i = (e.s.schemeAt i).map (e.marked i) := by
  unfold Ev.markSlot
  cases hs : e.s.schemeAt i with
  | none => simpa using hs
  | some sc => simp [Ev.put, Ev.on, schemeAt_put_self hs, Ev.marked]

theorem marked_congr {e e' : Ev} (h : e'.ctx = e.ctx) (i : Nat) (sc : Scheme) : e'.marked i sc = e.marked i sc := by
  have h1 : e'.marked i sc = e'.ctx.marked i sc := rfl
  have h2 : e.marked i sc = e.ctx.marked i sc := rfl
  rw [h1, h2, h]

theorem markAll_at (e : Ev) (i : Nat) : e.markAll.s.schemeAt i = (e.s.schemeAt i).map (e.marked i) := by
  obtain ⟨h1, h2⟩ := fold_slots _ markSlot_ctx markSlot_ne _ (slots_nodup e.s) e i
  by_cases hi : i ∈ e.s.schemeSlots
  · obtain ⟨e', hc, hs, hr⟩ := h2 hi
    refine hr.trans ?_
    rw [markSlot_at, hs]
    congr 1
    funext sc
    exact marked_congr hc i sc
  · exact (h1 hi).trans (by rw [schemeAt_of_not_mem hi]; rfl)

/-! ### The remote trigger table -/

theorem namedRefs_triggers (l : List (Option Scheme)) : namedRefs l =
    (l.map (Option.map Scheme.trigger)).flatMap (fun o => match o with
      | some t => t.refs
      | none => []) := by
  unfold namedRefs
  rw [List.flatMap_map]
  congr 1
  funext o
  cases o <;> rfl

theorem map_ext_schemeAt {α : Type} (f : Scheme → α) {s t : State} (hl : t.schemes.length = s.schemes.length)
    (h : ∀ i, (t.schemeAt i).map f = (s.schemeAt i).map f) :
    t.schemes.map (Option.map f) = s.schemes.map (Option.map f) := by
  apply List.ext_getElem?
  intro i
  have := h i
  unfold State.schemeAt at this
  simp only [List.getElem?_map]
  by_cases hi : i < s.schemes.length
  · rw [List.getElem?_eq_getElem hi, List.getElem?_eq_getElem (by omega)] at this ⊢
    simpa using this
  · rw [List.getElem?_eq_none (by omega), List.getElem?_eq_none (by omega)]

theorem namedRefs_congr {s t : State} (hl : t.schemes.length = s.schemes.length)
    (h : ∀ i, (t.schemeAt i).map Scheme.trigger = (s.schemeAt i).map Scheme.trigger) :
    namedRefs t.schemes = namedRefs s.schemes := by
  rw [namedRefs_triggers, namedRefs_triggers, map_ext_schemeAt _ hl h]

/-! ### Frames handed over at the end -/

/-- A fold of steps that hand frames over and change nothing else. -/
theorem fold_sends {α : Type} (g : Ev → α → Ev) (O : α → List Queued) {c : Ev}
    (H : ∀ a (e : Ev), e.s = c.s → e.ctx = c.ctx → g e a = { e with out := e.out ++ O a }) :
    ∀ (l : List α) (e : Ev), e.s = c.s → e.ctx = c.ctx →
      l.foldl g e = { e with out := e.out ++ l.flatMap O } := by
  intro l
  induction l with
  | nil => intro e _ _; simp
  | cons a l ih =>
    intro e hs hc
    rw [List.foldl_cons, H a e hs hc, ih { e with out := e.out ++ O a } hs hc]
    simp

theorem sends_fold (k : FrameKind) (t : Nat) {β : Type} (body : List β → List Byte) (l : List (List β)) (e : Ev) :
    l.foldl (fun e c => e.send k t (body c)) e =
      { e with out := e.out ++ l.map (fun c => e.s.originate k t (body c) .block) } := by
  have h := fold_sends (c := e) (fun (e : Ev) c => e.send k t (body c))
    (fun c => [e.s.originate k t (body c) .block]) (fun a e' hs _ => by
      unfold Ev.send Ev.sendAs; rw [hs]) l e rfl rfl
  rw [h]
  clear h
  congr 2
  induction l with
  | nil => rfl
  | cons a l ih => simpa using ih

/-- REFRESH forwarding hands over frames alone (R151). -/
theorem forwardRefresh_exact (e : Ev) : e.forwardRefresh = { e with out := e.out ++ terminals.flatMap (fun t =>
    (chunks 16 (e.refreshPairs t)).map (fun l => e.s.originate .refresh t (refreshBody l) .block)) } := by
  unfold Ev.forwardRefresh
  refine fold_sends (c := e) _ _ (fun t e' hs hc => ?_) terminals e rfl rfl
  rw [sends_fold]
  have h1 : e'.refreshPairs t = e.refreshPairs t := by
    unfold Ev.refreshPairs
    rw [hs, show e'.refreshed = e.refreshed from (congrArg Ev.refreshed hc : e'.ctx.refreshed = e.ctx.refreshed)]
  rw [h1, hs]

/-- The entries that change publication sends to a terminal (R61). -/
def Ev.published (e : Ev) (t : Nat) : List ActionEntry :=
  (e.s.publishedTo t).filter (fun a => e.actionChanged a.ref || !(e.start.publishHomes a.ref.number).contains t)

/-- Change publication hands over frames alone (R61). -/
theorem publishChanges_exact (e : Ev) : e.publishChanges = { e with out := e.out ++ terminals.flatMap (fun t =>
    (chunks 12 ((e.published t).filterMap e.s.statusEntry)).map (fun l =>
      e.s.originate .actionStatus t (actionStatusBody l) .block)) } := by
  unfold Ev.publishChanges
  refine fold_sends (c := e) _ _ (fun t e' hs hc => ?_) terminals e rfl rfl
  unfold Ev.publishTo
  rw [sends_fold]
  have h1 : (e'.s.publishedTo t).filter (fun a => e'.actionChanged a.ref ||
      !(e'.start.publishHomes a.ref.number).contains t) = e.published t := by
    unfold Ev.published
    have h2 : ∀ r, e'.actionChanged r = e.actionChanged r := by
      intro r; unfold Ev.actionChanged; rw [hs, ctx_start hc]
    simp only [hs, ctx_start hc, h2]
  rw [h1, hs]

/-! ### Rounds of every slot -/

theorem isHome_iff {sc : Scheme} : sc.isHome = true ↔ ∃ h, sc.part = .home h := by
  unfold Scheme.isHome
  cases sc.part <;> simp

theorem isHome_of {sc : Scheme} {h : HomePart} (hp : sc.part = .home h) : sc.isHome = true := isHome_iff.2 ⟨h, hp⟩

theorem carriedDiffer_self (sc : Scheme) : carriedDiffer sc sc = false := by simp [carriedDiffer]

theorem homeBefore_homeIn (e : Ev) (i id : Nat) :
    (e.homeBefore i id).map Prod.fst = e.start.homeIn i id := by
  unfold Ev.homeBefore State.homeIn
  cases e.start.schemeAt i with
  | none => rfl
  | some sc =>
    simp only [Option.filter_some]
    cases hp : sc.part with
    | copy c => simp [Scheme.isHome, hp]
    | home h =>
      by_cases hid : sc.id = id
      · simp [Scheme.isHome, hp, hid]
      · simp [Scheme.isHome, hp, hid]

theorem shortBefore_eq (e : Ev) (i id : Nat) : e.shortBefore i id = e.start.shortIn i id := by
  unfold Ev.shortBefore State.shortIn Ev.homeBefore State.homeIn
  cases e.start.schemeAt i with
  | none => rfl
  | some sc =>
    simp only [Option.filter_some]
    cases hp : sc.part with
    | copy c => simp [Scheme.isHome, hp]
    | home h =>
      by_cases hid : sc.id = id
      · simp [Scheme.isHome, hp, hid]
      · simp [Scheme.isHome, hp, hid]

/-- What an event asks of its rest. -/
def Ev.work (e : Ev) : Work :=
  { evals := e.evals, quantities := e.quantities, bumps := e.bumps, wants := e.wants, marks := e.marks,
    refreshed := e.refreshed, out := e.out }

/-- Whether the event bumps a slot, in terms of the record it held at the start. -/
theorem bumped_eq {e : Ev} {i : Nat} {sc : Scheme} (hs : e.s.schemeAt i = some sc) :
    e.bumped i = bumps e.start e.work i sc := by
  unfold Ev.bumped bumps
  rw [hs]
  simp only [← homeBefore_homeIn]
  cases e.homeBefore i sc.id with
  | none => rfl
  | some p => obtain ⟨a, b⟩ := p; rfl

theorem mem_bumpedSlots {e : Ev} {i : Nat} {sc : Scheme} (hs : e.s.schemeAt i = some sc) :
    e.bumpedSlots.contains i = e.bumped i := by
  unfold Ev.bumpedSlots
  rw [Bool.eq_iff_iff]
  simp [mem_slots hs]

theorem bumpedSlots_nodup (e : Ev) : e.bumpedSlots.Nodup := (slots_nodup _).filter _

theorem bumps_ctx (l : List Nat) (e : Ev) : (l.foldl Ev.bumpSlot e).ctx = e.ctx := fold_ctx _ bumpSlot_ctx l e
theorem bumps_size (l : List Nat) (e : Ev) : (l.foldl Ev.bumpSlot e).s.schemes.length = e.s.schemes.length :=
  fold_size _ bumpSlot_size l e
theorem bumps_out (l : List Nat) (e : Ev) : (l.foldl Ev.bumpSlot e).out = e.out :=
  foldl_keeps (fun e : Ev => e.out) _ bumpSlot_out l e
theorem bumps_events (l : List Nat) (e : Ev) : (l.foldl Ev.bumpSlot e).s.events = e.s.events :=
  foldl_keeps (fun e : Ev => e.s.events) _ bumpSlot_events l e

/-- A record with the generation that a bump gives it. -/
def Scheme.bumpedIf (sc : Scheme) (b : Bool) : Scheme :=
  { sc with generation := if b then nextGeneration sc.generation else sc.generation }

theorem bumpedSlots_at {e : Ev} {i : Nat} {sc : Scheme} (hs : e.s.schemeAt i = some sc) :
    (e.bumpedSlots.foldl Ev.bumpSlot e).s.schemeAt i = some (sc.bumpedIf (e.bumped i)) := by
  rw [bumps_at (bumpedSlots_nodup e), hs]
  have h := mem_bumpedSlots hs
  cases hb : e.bumped i with
  | true =>
    rw [hb, List.contains_iff_mem] at h
    rw [if_pos h]; rfl
  | false =>
    have h' : i ∉ e.bumpedSlots := by
      intro hm; rw [← List.contains_iff_mem, h, hb] at hm; cases hm
    rw [if_neg h']; rfl

/-- The UNSETTLED event that the Replication Unit raises for a slot. -/
def Ev.replRaises (e : Ev) (i : Nat) : List (Event × Nat) :=
  match e.s.schemeAt i with
  | some sc =>
    match sc.part with
    | .home h => e.unsettledRaises i sc (h.rounds e.s (e.bumped i) (e.wants.contains i) (sc.life == .retiring))
    | .copy _ => []
  | none => []

/-- The UPDATE frames that the Replication Unit hands over for a slot. -/
def Ev.replOut (e : Ev) (i : Nat) : List Queued :=
  match e.s.schemeAt i with
  | some sc =>
    match sc.part with
    | .home h => e.s.startFrames (sc.bumpedIf (e.bumped i)) h (e.bumped i) (e.wants.contains i) ++
        e.s.againFrames (sc.bumpedIf (e.bumped i))
          (h.inRound e.s (e.bumped i) (e.wants.contains i) (sc.life == .retiring))
    | .copy _ => []
  | none => []

theorem replicated_copy {sc : Scheme} {c : CopyPart} (hp : sc.part = .copy c) (u : State) (b w : Bool) :
    sc.replicated u b w = sc := by
  unfold Scheme.replicated; rw [hp]

theorem replicated_home {sc : Scheme} {h : HomePart} (hp : sc.part = .home h) (u : State) (b w : Bool) :
    sc.replicated u b w =
      (sc.bumpedIf b).withHome (h.rounds u b w (sc.life == .retiring)).flagged := by
  unfold Scheme.replicated; rw [hp]; rfl

/-- Generations and rounds of every slot, for an event in which no retirement ends. -/
theorem replicateAll_exact {e : Ev} (hst : ∀ i, e.steadyAt i) :
    e.replicateAll.ctx = e.ctx ∧ e.replicateAll.s.schemes.length = e.s.schemes.length ∧
    (∀ i, e.replicateAll.s.schemeAt i =
      (e.s.schemeAt i).map (fun sc => sc.replicated e.s (e.bumped i) (e.wants.contains i))) ∧
    e.replicateAll.s.events = raiseAll e.s.events (e.s.schemeSlots.flatMap e.replRaises) ∧
    e.replicateAll.out = e.out ++ e.s.schemeSlots.flatMap e.replOut := by
  have hctx := bumps_ctx e.bumpedSlots e
  have hsl : (e.bumpedSlots.foldl Ev.bumpSlot e).s.frameless = e.s.frameless := ctx_frameless hctx
  have hreach : ∀ d, (e.bumpedSlots.foldl Ev.bumpSlot e).s.reachable d = e.s.reachable d :=
    fun d => frameless_congr (fun s => s.reachable d) (fun _ => rfl) hsl
  have hset : (e.bumpedSlots.foldl Ev.bumpSlot e).s.settings = e.s.settings :=
    frameless_congr State.settings (fun _ => rfl) hsl
  have hnow : (e.bumpedSlots.foldl Ev.bumpSlot e).s.now = e.s.now := frameless_congr State.now (fun _ => rfl) hsl
  have hsent := sentTo_congr hreach hnow hset
  have hw : (e.bumpedSlots.foldl Ev.bumpSlot e).wants = e.wants := ctx_wants hctx
  have hcopy : ∀ i sc c, e.s.schemeAt i = some sc → sc.part = .copy c → sc.bumpedIf (e.bumped i) = sc := by
    intro i sc c hs hp
    have : e.bumped i = false := by
      rw [bumped_eq hs]; unfold bumps Scheme.isHome; rw [hp]; rfl
    rw [this]; rfl
  have hone : ∀ i sc, e.s.schemeAt i = some sc →
      (e.bumpedSlots.foldl Ev.bumpSlot e).rounded (e.bumpedSlots.contains i) i =
        some (sc.replicated e.s (e.bumped i) (e.wants.contains i)) ∧
      (e.bumpedSlots.foldl Ev.bumpSlot e).roundRaises (e.bumpedSlots.contains i) i = e.replRaises i ∧
      (e.bumpedSlots.foldl Ev.bumpSlot e).roundOut (e.bumpedSlots.contains i) i = e.replOut i := by
    intro i sc hs
    rw [mem_bumpedSlots hs]
    unfold Ev.rounded Ev.roundRaises Ev.roundOut Ev.replRaises Ev.replOut
    rw [bumpedSlots_at hs, hs, hw]
    simp only [Option.map_some]
    cases hp : sc.part with
    | copy c =>
      have h1 : (sc.bumpedIf (e.bumped i)).part = .copy c := hp
      simp only [h1]
      rw [replicated_copy hp, hcopy i sc c hs hp]
      simp
    | home h =>
      have h1 : (sc.bumpedIf (e.bumped i)).part = .home h := hp
      simp only [h1]
      rw [replicated_home hp, rounds_congr hsent, inRound_congr hsent, startFrames_congr hreach hset,
        againFrames_congr hreach hset]
      refine ⟨rfl, ?_, rfl⟩
      unfold Ev.unsettledRaises
      rw [ctx_start hctx]; rfl
  obtain ⟨c1, c2, c3, c4, c5, c6⟩ := fold_exact (e0 := e.bumpedSlots.foldl Ev.bumpSlot e)
    (fun e' i => e'.replicate (fun i => e.bumpedSlots.contains i) i)
    (fun i => (e.bumpedSlots.foldl Ev.bumpSlot e).rounded (e.bumpedSlots.contains i) i)
    (fun i => (e.bumpedSlots.foldl Ev.bumpSlot e).roundRaises (e.bumpedSlots.contains i) i)
    (fun i => (e.bumpedSlots.foldl Ev.bumpSlot e).roundOut (e.bumpedSlots.contains i) i)
    e.s.schemeSlots (slots_nodup _) (fun i _ e' hc hs => by
      obtain ⟨h1, h2, h3⟩ := rounded_congr hc hs (e.bumpedSlots.contains i)
      have hst' : e'.steadyAt i := by
        intro sc h hs' hp
        rw [hs] at hs'
        cases hs0 : e.s.schemeAt i with
        | none =>
          rw [bumps_at (bumpedSlots_nodup e), hs0] at hs'
          split at hs' <;> cases hs'
        | some sc0 =>
          rw [bumpedSlots_at hs0] at hs'
          obtain rfl := Option.some.inj hs'
          exact hst i sc0 h hs0 hp
      have h4 := replicate_step (fun i => e.bumpedSlots.contains i) hst'
      simp only [h1, h2, h3] at h4
      exact h4) _ rfl (fun _ _ => rfl)
  have hdef : e.replicateAll =
      e.s.schemeSlots.foldl (fun e' i => e'.replicate (fun i => e.bumpedSlots.contains i) i)
        (e.bumpedSlots.foldl Ev.bumpSlot e) := rfl
  have hocc : ∀ i, e.s.schemeAt i = none →
      (e.bumpedSlots.foldl Ev.bumpSlot e).s.schemeAt i = none := by
    intro i hs
    rw [bumps_at (bumpedSlots_nodup e), hs]; split <;> rfl
  have hnone : ∀ i, e.s.schemeAt i = none →
      (e.bumpedSlots.foldl Ev.bumpSlot e).rounded (e.bumpedSlots.contains i) i = none ∧
      (e.bumpedSlots.foldl Ev.bumpSlot e).roundRaises (e.bumpedSlots.contains i) i = e.replRaises i ∧
      (e.bumpedSlots.foldl Ev.bumpSlot e).roundOut (e.bumpedSlots.contains i) i = e.replOut i := by
    intro i hs
    unfold Ev.rounded Ev.roundRaises Ev.roundOut Ev.replRaises Ev.replOut
    rw [hocc i hs, hs]
    exact ⟨rfl, rfl, rfl⟩
  have hr : ∀ i, (e.bumpedSlots.foldl Ev.bumpSlot e).roundRaises (e.bumpedSlots.contains i) i = e.replRaises i := by
    intro i
    cases hs : e.s.schemeAt i with
    | none => exact (hnone i hs).2.1
    | some sc => exact (hone i sc hs).2.1
  have ho : ∀ i, (e.bumpedSlots.foldl Ev.bumpSlot e).roundOut (e.bumpedSlots.contains i) i = e.replOut i := by
    intro i
    cases hs : e.s.schemeAt i with
    | none => exact (hnone i hs).2.2
    | some sc => exact (hone i sc hs).2.2
  rw [hdef]
  refine ⟨c1.trans hctx, c2.trans (bumps_size _ _), fun i => ?_, ?_, ?_⟩
  · cases hs : e.s.schemeAt i with
    | none =>
      by_cases hi : i ∈ e.s.schemeSlots
      · exact (c3 i hi).trans (hnone i hs).1
      · exact (c4 i hi).trans (hocc i hs)
    | some sc => exact (c3 i (mem_slots hs)).trans (hone i sc hs).1
  · rw [c5, bumps_events]
    simp only [hr]
  · rw [c6, bumps_out]
    simp only [ho]

theorem fireAll_id {e : Ev} (h : e.firingSlots = []) : e.fireAll = e := by
  unfold Ev.fireAll; rw [h]; rfl

theorem foldl_id {α β : Type} (f : β → α → β) (b : β) (l : List α) (h : ∀ a ∈ l, f b a = b) : l.foldl f b = b := by
  induction l with
  | nil => rfl
  | cons a l ih =>
    rw [List.foldl_cons, h a (by simp), ih (fun x hx => h x (List.mem_cons_of_mem _ hx))]

theorem completeSettled_id {e : Ev} (h : ∀ c ∈ e.s.contexts, c.current) : e.completeSettled = e := by
  unfold Ev.completeSettled
  refine foldl_id _ _ _ (fun c _ => ?_)
  unfold Ev.completeIfSettled
  split
  · rename_i x w d hx
    have hm : Context.opened x w d ∈ e.s.contexts := by
      unfold State.contextAt at hx
      cases hc : e.s.contexts[c]? with
      | none => rw [hc] at hx; cases hx
      | some y => rw [hc] at hx; cases hx; exact List.mem_of_getElem? hc
    rw [if_neg]
    rw [h _ hm x rfl]; simp
  · rfl

theorem resync_id {e : Ev} (h : ∀ d, e.s.reachable d = e.start.reachable d) : e.resync = e := by
  have hr : e.reachChanges = [] := by
    unfold Ev.reachChanges
    simp [h]
  unfold Ev.resync
  refine foldl_id _ _ _ (fun i _ => ?_)
  rw [hr]; rfl

/-- The frames of the kinds listed, in the order they are routed. -/
def Ev.framesOf (e : Ev) (kinds : List FrameKind) : List Queued :=
  kinds.flatMap (fun k => e.out.filter (fun q => q.frame.kind == k))

theorem dispatchKinds_s (e : Ev) (ks : List FrameKind) :
    (e.dispatchKinds ks).s = (e.framesOf ks).foldl State.dispatchFrame e.s := rfl

theorem mem_framesOf {e : Ev} {ks : List FrameKind} {q : Queued} :
    q ∈ e.framesOf ks ↔ q ∈ e.out ∧ q.frame.kind ∈ ks := by
  unfold Ev.framesOf
  simp only [List.mem_flatMap, List.mem_filter, beq_iff_eq]
  constructor
  · rintro ⟨k, hk, hq, rfl⟩; exact ⟨hq, hk⟩
  · rintro ⟨hq, hk⟩; exact ⟨_, hk, hq, rfl⟩

/-- What a state has besides its scheme table, ports and flags. -/
def State.inner (s : State) : State := { s with schemes := [], ports := [], events := [] }

theorem inner_eq {s t : State} (h : t.inner = s.inner) :
    t = { s with schemes := t.schemes, ports := t.ports, events := t.events } := by
  cases s; cases t; simp_all [State.inner]

theorem inner_of_portless {s t : State} (h : t.portless = s.portless) : t.inner = s.inner := by
  have h' : t.portless.inner = s.portless.inner := congrArg State.inner h
  exact h'

theorem inner_of_frameless {s t : State} (h : t.frameless = s.frameless) : t.inner = s.inner := by
  have h' : t.frameless.inner = s.frameless.inner := congrArg State.inner h
  exact h'

theorem satisfied_inner {s t : State} (h : t.inner = s.inner) (x : TriggerSet) : t.satisfied x = s.satisfied x := by
  have h' : t.inner.satisfied x = s.inner.satisfied x := by rw [h]
  exact h'

theorem eligible_inner {s t : State} (h : t.inner = s.inner) (sc : Scheme) : t.eligible sc = s.eligible sc := by
  have h' : t.inner.eligible sc = s.inner.eligible sc := by rw [h]
  exact h'

theorem firedByReport_inner {s t : State} (h : t.inner = s.inner) (sc : Scheme) :
    t.firedByReport sc = s.firedByReport sc := by
  have h' : t.inner.firedByReport sc = s.inner.firedByReport sc := by rw [h]
  exact h'

theorem actionChanged_iff {e : Ev} {u : State} (hv : SameValues e.s u) (r : ActionRef) :
    e.actionChanged r = true ↔ (u.findAction r).isSome = true ∧ e.start.shown r ≠ u.shown r := by
  rw [shown_congr hv]
  have hf : u.findAction r = e.s.findAction r := by unfold State.findAction; rw [hv.actions]
  rw [hf]
  unfold Ev.actionChanged State.shown
  cases e.s.findAction r with
  | none => simp
  | some a =>
    cases e.start.findAction r with
    | none => simp
    | some b =>
      simp only [decide_eq_true_eq, Option.isSome_some, Option.map_some, ne_eq, Option.some.injEq, Prod.mk.injEq,
        true_and]
      constructor
      · rintro (hx | hx) ⟨h1, h2⟩
        · exact hx h1.symm
        · exact hx h2.symm
      · intro hx
        by_cases h1 : e.s.availability a = e.start.availability b
        · right; intro h2; exact hx ⟨h1.symm, h2.symm⟩
        · left; exact h1

theorem evaluates_iff {e : Ev} {u : State} (hv : SameValues e.s u) (i : Nat) (sc : Scheme) (h : HomePart) :
    e.evaluating? i sc h = true ↔ evaluates e.start u e.work i sc h := by
  have hq : ((match h.form.monitored with
      | some q => e.quantities.contains q
      | none => false) = true) ↔ ∃ q ∈ e.quantities, h.form.monitored = some q := by
    cases h.form.monitored with
    | none => simp
    | some q => simp
  unfold evaluates Ev.evaluating? Ev.handedOn
  simp only [Bool.or_eq_true, List.any_eq_true, actionChanged_iff hv, List.contains_iff_mem]
  exact or_congr Iff.rfl (or_congr hq Iff.rfl)

end Sys2Proof.Machine
end

