-- ==== Sys2Proof/Laws/Calm.lean ====
section
/-! SUPPORT. Calm events: the conditions under which nothing fires, no context completes and no retirement ends, and
the proof that such an event ends as `Evaluated` says. -/

namespace Sys2Proof.Machine

/-- An event whose frames so far are of no order or test, which ends no retirement, whose untouched records are current,
and which evaluates each record whose SHORTFALL flag it moved: what the second half of its end needs for `Evaluated`. -/
structure Ev.Steady (e : Ev) : Prop where
  origin : ∀ q ∈ e.out, q.origin = .block
  steady : ∀ i, e.steadyAt i
  untouched : ∀ i sc h, e.s.schemeAt i = some sc → sc.part = .home h → e.start.schemeAt i = some sc →
    h.ending = false ∧ h.unsettled = (h.copyState == .unsettled)
  shorts : ∀ i sc h, e.s.schemeAt i = some sc → sc.part = .home h →
    e.start.shortIn i sc.id = h.shortfall ∨ i ∈ e.evals

/-- A steady event that fires nothing, completes no context, and changes no terminal's reachability. -/
structure Ev.Calm (e : Ev) : Prop extends e.Steady where
  fires : e.firingSlots = []
  contexts : ∀ c ∈ e.s.contexts, c.current
  reach : ∀ d, e.s.reachable d = e.start.reachable d

/-- The event once its urgent frames are routed. -/
def Ev.stageA (e : Ev) : Ev := e.dispatchKinds firstKinds

/-- The event once its records are evaluated. -/
def Ev.stageB (e : Ev) : Ev := e.stageA.evaluateAll

/-- The event before its release markers, the remote trigger table derived. -/
def Ev.stageD (e : Ev) : Ev := (e.stageB.replicateAll.forwardRefresh).on State.syncRemote

theorem stageD_s (e : Ev) : e.stageD.s = e.stageB.replicateAll.s.syncRemote := by
  unfold Ev.stageD
  rw [s_on, s_forwardRefresh]

theorem on_out (e : Ev) (f : State → State) : (e.on f).out = e.out := rfl

theorem on_start (e : Ev) (f : State → State) : (e.on f).start = e.start := rfl

theorem on_marks (e : Ev) (f : State → State) : (e.on f).marks = e.marks := rfl

theorem markAll_ctx (e : Ev) : e.markAll.ctx = e.ctx := by
  unfold Ev.markAll; exact fold_ctx _ markSlot_ctx _ _

theorem markAll_out (e : Ev) : e.markAll.out = e.out := by
  unfold Ev.markAll; exact foldl_keeps (fun e : Ev => e.out) Ev.markSlot markSlot_out _ _

theorem markAll_events (e : Ev) : e.markAll.s.events = e.s.events := by
  unfold Ev.markAll; exact foldl_keeps (fun e : Ev => e.s.events) Ev.markSlot markSlot_events _ _

theorem markAll_size (e : Ev) : e.markAll.s.schemes.length = e.s.schemes.length := by
  unfold Ev.markAll; exact fold_size _ markSlot_size _ _

theorem inner_routing {s t : State} (h : t.inner = s.inner) :
    t.settings = s.settings ∧ t.routes = s.routes ∧ t.now = s.now :=
  ⟨(congrArg State.settings h : t.inner.settings = s.inner.settings),
    (congrArg State.routes h : t.inner.routes = s.inner.routes), (congrArg State.now h : t.inner.now = s.inner.now)⟩

theorem ports_of_ctx {e e' : Ev} (h : e'.ctx = e.ctx) : e'.s.ports = e.s.ports :=
  (congrArg State.ports (ctx_frameless h) : e'.s.frameless.ports = e.s.frameless.ports)

theorem marked_unmarked (d : Ev) (i : Nat) (sc : Scheme) : (d.marked i sc).unmarked = sc.unmarked := rfl

/-! ### What replication keeps of a record -/

@[simp] theorem replicated_id (sc : Scheme) (u : State) (b w : Bool) : (sc.replicated u b w).id = sc.id := by
  unfold Scheme.replicated; split <;> rfl
@[simp] theorem replicated_life (sc : Scheme) (u : State) (b w : Bool) : (sc.replicated u b w).life = sc.life := by
  unfold Scheme.replicated; split <;> rfl
@[simp] theorem replicated_trigger (sc : Scheme) (u : State) (b w : Bool) :
    (sc.replicated u b w).trigger = sc.trigger := by
  unfold Scheme.replicated; split <;> rfl
@[simp] theorem replicated_marker (sc : Scheme) (u : State) (b w : Bool) :
    (sc.replicated u b w).releaseNeeded = sc.releaseNeeded := by
  unfold Scheme.replicated; split <;> rfl
@[simp] theorem replicated_participants (sc : Scheme) (u : State) (b w : Bool) :
    (sc.replicated u b w).participants = sc.participants := by
  unfold Scheme.replicated; split <;> rfl
@[simp] theorem replicated_isHome (sc : Scheme) (u : State) (b w : Bool) :
    (sc.replicated u b w).isHome = sc.isHome := by
  unfold Scheme.replicated; split
  · unfold Scheme.isHome; simp [*]
  · rfl
theorem replicated_carried (a sc : Scheme) (u : State) (b w : Bool) :
    carriedDiffer a (sc.replicated u b w) = carriedDiffer a sc := by
  unfold Scheme.replicated; split <;> rfl

theorem replicated_congr {s t : State} (h : ∀ p, t.sentTo p = s.sentTo p) (sc : Scheme) (b w : Bool) :
    sc.replicated t b w = sc.replicated s b w := by
  unfold Scheme.replicated
  simp only [rounds_congr h]

theorem bumps_replicated (s : State) (w : Work) (i : Nat) (sc : Scheme) (u : State) (b c : Bool) :
    bumps s w i (sc.replicated u b c) = bumps s w i sc := by
  unfold bumps
  simp only [replicated_isHome, replicated_id, replicated_carried]

theorem bumps_marked (s : State) (w : Work) (i : Nat) (d : Ev) (sc : Scheme) :
    bumps s w i (d.marked i sc) = bumps s w i sc := rfl

theorem updateFrame_replicated (s : State) (sc : Scheme) (u : State) (b w : Bool) (p : Participant) :
    s.updateFrame (sc.replicated u b w) p = s.updateFrame (sc.bumpedIf (sc.isHome && b)) p := by
  unfold Scheme.replicated
  cases hp : sc.part with
  | home h => rw [isHome_of hp]; rfl
  | copy c =>
    have : sc.isHome = false := by unfold Scheme.isHome; rw [hp]
    rw [this]; rfl

variable {e : Ev}

/-! ### The stages in turn -/

theorem Ev.Steady.stageA_portless (c : e.Steady) : e.stageA.s.portless = e.s.portless :=
  dispatchAll_portless (fun q hq => c.origin q (mem_framesOf.1 hq).1) _

/-- The end of an event from the routing of its urgent frames on, where nothing fires, completes or is resynchronised. -/
def Ev.ended (e : Ev) : State := e.stageA.finish

theorem ended_stages (e : Ev) : e.ended = ((e.stageD.markAll.publishChanges).dispatchKinds otherKinds).s := rfl

/-- An event whose firings leave it steady, every context current and reachability as it stood ends with its second half. -/
theorem settle_fired (c : e.fireAll.Steady) (contexts : ∀ x ∈ e.fireAll.s.contexts, x.current)
    (reach : ∀ d, e.fireAll.s.reachable d = e.fireAll.start.reachable d) : e.settle = e.fireAll.ended := by
  have hp := c.stageA_portless
  have hcs : (e.fireAll.dispatchKinds firstKinds).s.contexts = e.fireAll.s.contexts :=
    (congrArg State.contexts hp : e.fireAll.stageA.s.portless.contexts = e.fireAll.s.portless.contexts)
  have hro : (e.fireAll.dispatchKinds firstKinds).s.routes = e.fireAll.s.routes :=
    (congrArg State.routes hp : e.fireAll.stageA.s.portless.routes = e.fireAll.s.portless.routes)
  have h2 : (e.fireAll.dispatchKinds firstKinds).completeSettled = e.fireAll.dispatchKinds firstKinds :=
    completeSettled_id (by rw [hcs]; exact contexts)
  have h3 : (e.fireAll.dispatchKinds firstKinds).resync = e.fireAll.dispatchKinds firstKinds :=
    resync_id (fun d => (reachable_congr (dispatchAll_fixed _ _) hro d).trans (reach d))
  unfold Ev.settle
  rw [h2, h3]
  rfl

/-- An event that fires nothing, completes no context and changes no reachability ends with its second half. -/
theorem Ev.Calm.settle_eq (c : e.Calm) : e.settle = e.ended := by
  have h := fireAll_id c.fires
  rw [settle_fired (by rw [h]; exact c.toSteady) (by rw [h]; exact c.contexts) (by rw [h]; exact c.reach), h]

/-- An event that hands over no urgent frame, fires nothing and completes no context ends with its second half once its
records are resynchronised. -/
theorem settle_resynced (fires : e.firingSlots = []) (contexts : ∀ c ∈ e.s.contexts, c.current)
    (urgent : ∀ q ∈ e.out, q.frame.kind ∉ firstKinds) (after : ∀ q ∈ e.resync.out, q.frame.kind ∉ firstKinds) :
    e.settle = e.resync.ended := by
  have none_of : ∀ d : Ev, (∀ q ∈ d.out, q.frame.kind ∉ firstKinds) → d.dispatchKinds firstKinds = d := by
    intro d hd
    have h : d.framesOf firstKinds = [] :=
      List.eq_nil_iff_forall_not_mem.2 (fun q hq => hd q (mem_framesOf.1 hq).1 (mem_framesOf.1 hq).2)
    show { d with s := (d.framesOf firstKinds).foldl State.dispatchFrame d.s } = d
    rw [h]
    rfl
  unfold Ev.settle Ev.ended Ev.stageA
  rw [fireAll_id fires, none_of e urgent, completeSettled_id contexts, none_of _ after]

theorem Ev.Steady.stageA_schemes (c : e.Steady) : e.stageA.s.schemes = e.s.schemes := portless_schemes c.stageA_portless

theorem Ev.Steady.stageA_at (c : e.Steady) (i : Nat) : e.stageA.s.schemeAt i = e.s.schemeAt i :=
  schemeAt_of_schemes c.stageA_schemes i

theorem stageA_ctx_lists (e : Ev) : e.stageA.start = e.start ∧ e.stageA.work = e.work := ⟨rfl, rfl⟩

theorem stageB_ctx (e : Ev) : e.stageB.ctx = e.stageA.ctx := (evaluateAll_exact _).1

/-- The values that an evaluation reads are those of the state the event's own part left. -/
theorem Ev.Steady.stageA_values (c : e.Steady) : SameValues e.stageA.s e.s.syncRemote where
  slots := (congrArg State.slots c.stageA_portless.symm : e.s.portless.slots = e.stageA.s.portless.slots)
  actions := (congrArg State.actions c.stageA_portless.symm : e.s.portless.actions = e.stageA.s.portless.actions)
  mode := (congrArg State.mode c.stageA_portless.symm : e.s.portless.mode = e.stageA.s.portless.mode)
  reach := fun d => (reachable_congr (s := e.s) (dispatchAll_fixed _ _)
    (congrArg State.routes c.stageA_portless : e.stageA.s.portless.routes = e.s.portless.routes) d).symm

theorem Ev.Steady.evaluates_iff (c : e.Steady) (i : Nat) (sc : Scheme) (h : HomePart) :
    e.stageA.evaluating? i sc h = true ↔ evaluates e.start e.s.syncRemote e.work i sc h :=
  Machine.evaluates_iff (e := e.stageA) c.stageA_values i sc h

/-- What the evaluations of an event leave of a slot's content. -/
def Ev.evalledTo (e : Ev) (i : Nat) (sc : Scheme) : Scheme :=
  match sc.part with
  | .home h => if e.stageA.evaluating? i sc h then e.s.syncRemote.evaluate sc h else sc
  | .copy _ => sc

theorem evalledTo_home {i : Nat} {sc : Scheme} {h : HomePart} (hp : sc.part = .home h) :
    ∃ h1, (e.evalledTo i sc).part = .home h1 ∧ h1.statuses = h.statuses ∧ h1.round = h.round ∧
      ((e.evalledTo i sc).life = .retiring → sc.life = .retiring) ∧ h1.dirty = h.dirty := by
  unfold Ev.evalledTo
  rw [hp]
  simp only []
  split
  · refine ⟨_, rfl, rfl, rfl, fun hl => ?_, rfl⟩
    change e.s.syncRemote.lifeNow sc _ = .retiring at hl
    unfold State.lifeNow at hl
    cases hlife : sc.life <;> rw [hlife] at hl
    · simp only [] at hl; split at hl <;> cases hl
    · simp only [] at hl; split at hl <;> cases hl
    all_goals first | rfl | cases hl
  · exact ⟨h, hp, rfl, rfl, fun hl => hl, rfl⟩

theorem evalledTo_same {i : Nat} {sc : Scheme} (hn : sc.isHome = false) : e.evalledTo i sc = sc := by
  unfold Ev.evalledTo
  cases hp : sc.part with
  | home h => rw [isHome_of hp] at hn; cases hn
  | copy c => rfl

@[simp] theorem evalledTo_id (i : Nat) (sc : Scheme) : (e.evalledTo i sc).id = sc.id := by
  unfold Ev.evalledTo; repeat' split
  all_goals rfl
@[simp] theorem evalledTo_trigger (i : Nat) (sc : Scheme) : (e.evalledTo i sc).trigger = sc.trigger := by
  unfold Ev.evalledTo; repeat' split
  all_goals rfl
@[simp] theorem evalledTo_marker (i : Nat) (sc : Scheme) : (e.evalledTo i sc).releaseNeeded = sc.releaseNeeded := by
  unfold Ev.evalledTo; repeat' split
  all_goals rfl
@[simp] theorem evalledTo_isHome (i : Nat) (sc : Scheme) : (e.evalledTo i sc).isHome = sc.isHome := by
  unfold Ev.evalledTo
  cases hp : sc.part with
  | home h =>
    simp only []
    split
    · rw [isHome_of hp]; rfl
    · rfl
  | copy c => rfl

theorem Ev.Steady.stageB_at (c : e.Steady) (i : Nat) :
    e.stageB.s.schemeAt i = (e.s.schemeAt i).map (e.evalledTo i) := by
  refine ((evaluateAll_exact e.stageA).2.2.1 i).trans ?_
  unfold Ev.evalled
  rw [c.stageA_at]
  congr 1
  funext sc
  unfold Ev.evalledTo
  cases sc.part <;> simp only [← evaluate_values c.stageA_values]

theorem Ev.Steady.stageB_steady (c : e.Steady) (i : Nat) : e.stageB.steadyAt i := by
  intro sc h hs hp
  rw [c.stageB_at] at hs
  cases hs0 : e.s.schemeAt i with
  | none => rw [hs0] at hs; cases hs
  | some sc0 =>
    rw [hs0] at hs
    obtain rfl := Option.some.inj hs
    cases hp0 : sc0.part with
    | copy p =>
      rw [evalledTo_same (by unfold Scheme.isHome; rw [hp0])] at hp
      rw [hp0] at hp; cases hp
    | home h0 =>
      obtain ⟨h1, e1, e2, e3, e4, -⟩ := evalledTo_home (e := e) (i := i) hp0
      rw [hp] at e1
      obtain rfl := Part.home.inj e1
      unfold Scheme.steady
      rw [e2, e3]
      exact fun hl => c.steady i sc0 h0 hs0 hp0 (e4 hl)

theorem Ev.Steady.stageB_inner (c : e.Steady) : e.stageB.s.inner = e.s.inner :=
  (inner_of_frameless (ctx_frameless (stageB_ctx e))).trans (inner_of_portless c.stageA_portless)

theorem Ev.Steady.stageB_reach (c : e.Steady) (d : Nat) : e.stageB.s.reachable d = e.s.syncRemote.reachable d :=
  (frameless_congr (fun s => s.reachable d) (fun _ => rfl) (ctx_frameless (stageB_ctx e))).trans
    (c.stageA_values.reach d).symm

theorem Ev.Steady.stageB_sent (c : e.Steady) (p : Participant) : e.stageB.s.sentTo p = e.s.syncRemote.sentTo p := by
  obtain ⟨h1, h2, h3⟩ := inner_routing c.stageB_inner
  exact sentTo_congr c.stageB_reach h3 h1 p

/-- What the evaluations, generations and rounds of an event leave of a slot's content. -/
def Ev.left (e : Ev) (i : Nat) (sc : Scheme) : Scheme :=
  (e.evalledTo i sc).replicated e.s.syncRemote (Machine.bumps e.start e.work i (e.evalledTo i sc)) (decide (i ∈ e.wants))

theorem stageB_bumped {i : Nat} {sc : Scheme} (hs : e.stageB.s.schemeAt i = some sc) :
    e.stageB.bumped i = bumps e.start e.work i sc := by
  rw [bumped_eq hs]
  unfold bumps Ev.work
  rw [ctx_start (stageB_ctx e), ctx_bumps (stageB_ctx e)]
  rfl

theorem stageB_wants (i : Nat) : e.stageB.wants.contains i = decide (i ∈ e.wants) := by
  rw [ctx_wants (stageB_ctx e), List.contains_eq_mem]
  rfl

theorem Ev.Steady.stageC_at (c : e.Steady) (i : Nat) :
    e.stageB.replicateAll.s.schemeAt i = (e.s.schemeAt i).map (e.left i) := by
  rw [(replicateAll_exact c.stageB_steady).2.2.1 i, c.stageB_at]
  cases hs : e.s.schemeAt i with
  | none => rfl
  | some sc =>
    simp only [Option.map_some]
    have hb : e.stageB.s.schemeAt i = some (e.evalledTo i sc) := by rw [c.stageB_at, hs]; rfl
    rw [stageB_bumped hb, stageB_wants, replicated_congr c.stageB_sent]
    rfl

theorem Ev.Steady.stageD_at (c : e.Steady) (i : Nat) : e.stageD.s.schemeAt i = (e.s.schemeAt i).map (e.left i) := by
  rw [stageD_s]
  exact c.stageC_at i

theorem Ev.Steady.stageC_size (c : e.Steady) : e.stageB.replicateAll.s.schemes.length = e.s.schemes.length :=
  (replicateAll_exact c.stageB_steady).2.1.trans ((evaluateAll_exact e.stageA).2.1.trans
    (by rw [c.stageA_schemes]))

/-- Before the markers all but the table, the ports and the flags stand as the event's own part left them, the remote
trigger table derived. -/
theorem Ev.Steady.stageD_inner (c : e.Steady) : e.stageD.s.inner = e.s.syncRemote.inner := by
  have hfr : e.stageB.replicateAll.s.inner = e.s.inner :=
    (inner_of_frameless (ctx_frameless (replicateAll_exact c.stageB_steady).1)).trans c.stageB_inner
  have hn : namedRefs e.stageB.replicateAll.s.schemes = namedRefs e.s.schemes := by
    refine namedRefs_congr c.stageC_size (fun i => ?_)
    rw [c.stageC_at]
    cases e.s.schemeAt i with
    | none => rfl
    | some sc => simp [Ev.left]
  have hown : e.stageB.replicateAll.s.own = e.s.own := by
    have := congrArg State.own hfr; exact this
  have hrem : e.stageB.replicateAll.s.remote = e.s.remote := by
    have := congrArg State.remote hfr; exact this
  rw [stageD_s]
  unfold State.syncRemote
  rw [hn, hown, hrem]
  have key : ∀ (s t : State) (r : List RemoteEntry), t.inner = s.inner →
      ({ t with remote := r } : State).inner = ({ s with remote := r } : State).inner := by
    intro s t r h
    have h' := congrArg (fun s : State => ({ s with remote := r } : State)) h
    exact h'
  exact key _ _ _ hfr

/-- The end of a calm event, slot by slot. -/
theorem Ev.Steady.ended_at (c : e.Steady) (i : Nat) :
    e.ended.schemeAt i = (e.s.schemeAt i).map (fun sc => e.stageD.marked i (e.left i sc)) := by
  rw [ended_stages, dispatchKinds_s, schemeAt_of_schemes (dispatchAll_schemes _ _), s_publishChanges, markAll_at,
    c.stageD_at, Option.map_map]
  rfl

theorem Ev.Steady.ended_size (c : e.Steady) : e.ended.schemes.length = e.s.schemes.length := by
  rw [ended_stages, dispatchKinds_s, dispatchAll_schemes, s_publishChanges, markAll_size, stageD_s]
  exact c.stageC_size

theorem Ev.Steady.ended_slots (c : e.Steady) : e.ended.schemeSlots = e.s.schemeSlots := by
  unfold State.schemeSlots; rw [c.ended_size]

/-! ### The frames -/

/-- The UPDATE frames of the rounds that start (R142). -/
def Ev.roundQueued (e : Ev) : List Queued := e.stageB.s.schemeSlots.flatMap e.stageB.replOut

/-- The REFRESH frames (R151). -/
def Ev.refreshQueued (e : Ev) : List Queued := terminals.flatMap (fun t =>
  (chunks 16 (e.stageB.replicateAll.refreshPairs t)).map (fun l =>
    e.stageB.replicateAll.s.originate .refresh t (refreshBody l) .block))

/-- The ACTION STATUS frames (R61). -/
def Ev.statusQueued (e : Ev) : List Queued := terminals.flatMap (fun t =>
  (chunks 12 ((e.stageD.markAll.published t).filterMap e.stageD.markAll.s.statusEntry)).map (fun l =>
    e.stageD.markAll.s.originate .actionStatus t (actionStatusBody l) .block))

theorem forwardRefresh_out (e : Ev) : e.forwardRefresh.out = e.out ++ terminals.flatMap (fun t =>
    (chunks 16 (e.refreshPairs t)).map (fun l => e.s.originate .refresh t (refreshBody l) .block)) := by
  rw [forwardRefresh_exact]

theorem publishChanges_out (e : Ev) : e.publishChanges.out = e.out ++ terminals.flatMap (fun t =>
    (chunks 12 ((e.published t).filterMap e.s.statusEntry)).map (fun l =>
      e.s.originate .actionStatus t (actionStatusBody l) .block)) := by
  rw [publishChanges_exact]

theorem Ev.Steady.out (c : e.Steady) : e.stageD.markAll.publishChanges.out =
    e.out ++ e.roundQueued ++ e.refreshQueued ++ e.statusQueued := by
  have h1 : e.stageD.markAll.publishChanges.out = e.stageD.markAll.out ++ e.statusQueued :=
    publishChanges_out e.stageD.markAll
  have h2 : e.stageD.out = e.stageB.replicateAll.forwardRefresh.out := by
    unfold Ev.stageD; rw [on_out]
  have h3 : e.stageB.replicateAll.forwardRefresh.out = e.stageB.replicateAll.out ++ e.refreshQueued :=
    forwardRefresh_out e.stageB.replicateAll
  have h4 : e.stageB.replicateAll.out = e.stageB.out ++ e.roundQueued :=
    (replicateAll_exact c.stageB_steady).2.2.2.2
  have h5 : e.stageB.out = e.out := (evaluateAll_exact e.stageA).2.2.2.2
  rw [h1, markAll_out, h2, h3, h4, h5]

theorem flatMap_kind {α : Type} {k : FrameKind} {l : List α} {f : α → List Queued}
    (h : ∀ a, ∀ q ∈ f a, q.frame.kind = k ∧ q.origin = .block) : ∀ q ∈ l.flatMap f, q.frame.kind = k ∧ q.origin = .block := by
  intro q hq
  obtain ⟨a, -, ha⟩ := List.mem_flatMap.1 hq
  exact h a q ha

theorem roundQueued_kind : ∀ q ∈ e.roundQueued, q.frame.kind = .update ∧ q.origin = .block := by
  refine flatMap_kind (fun i q hq => ?_)
  unfold Ev.replOut State.startFrames State.againFrames at hq
  repeat' split at hq
  all_goals first
    | cases hq
    | (rcases List.mem_append.1 hq with hq | hq
       all_goals first
         | (obtain ⟨p, -, rfl⟩ := List.mem_map.1 hq; exact ⟨rfl, rfl⟩)
         | cases hq)

theorem refreshQueued_kind : ∀ q ∈ e.refreshQueued, q.frame.kind = .refresh ∧ q.origin = .block := by
  refine flatMap_kind (fun i q hq => ?_)
  obtain ⟨p, -, rfl⟩ := List.mem_map.1 hq
  exact ⟨rfl, rfl⟩

theorem statusQueued_kind : ∀ q ∈ e.statusQueued, q.frame.kind = .actionStatus ∧ q.origin = .block := by
  refine flatMap_kind (fun i q hq => ?_)
  obtain ⟨p, -, rfl⟩ := List.mem_map.1 hq
  exact ⟨rfl, rfl⟩

/-- The frames routed at the end of a calm event. -/
def Ev.routed (e : Ev) : List Queued :=
  e.framesOf firstKinds ++ (e.stageD.markAll.publishChanges).framesOf otherKinds

theorem kinds_all (k : FrameKind) : k ∈ firstKinds ∨ k ∈ otherKinds := by cases k <;> decide

theorem Ev.Steady.routed_origin (c : e.Steady) : ∀ q ∈ (e.stageD.markAll.publishChanges).framesOf otherKinds,
    q.origin = .block := by
  intro q h
  have h2 := (mem_framesOf.1 h).1
  rw [c.out] at h2
  simp only [List.mem_append] at h2
  rcases h2 with ((h2 | h2) | h2) | h2
  · exact c.origin q h2
  · exact (roundQueued_kind q h2).2
  · exact (refreshQueued_kind q h2).2
  · exact (statusQueued_kind q h2).2

theorem Ev.Steady.ended_inner (c : e.Steady) : e.ended.inner = e.s.syncRemote.inner := by
  rw [ended_stages, dispatchKinds_s]
  rw [inner_of_portless (dispatchAll_portless c.routed_origin _), s_publishChanges]
  exact (inner_of_frameless (ctx_frameless (markAll_ctx _))).trans c.stageD_inner

theorem Ev.Steady.stageD_ports (c : e.Steady) : e.stageD.s.ports = e.stageA.s.ports := by
  have h : e.stageD.s.ports = e.stageB.replicateAll.s.ports := by rw [stageD_s]; rfl
  rw [h, ports_of_ctx (replicateAll_exact c.stageB_steady).1, ports_of_ctx (stageB_ctx e)]

theorem Ev.Steady.ended_ports (c : e.Steady) :
    e.ended.ports = (e.routed.foldl State.dispatchFrame e.s.syncRemote).ports := by
  rw [ended_stages, dispatchKinds_s]
  unfold Ev.routed
  rw [List.foldl_append]
  refine (dispatchAll_congr _ ?_).ports
  have h1 : SameRouting ((e.framesOf firstKinds).foldl State.dispatchFrame e.s.syncRemote) e.stageA.s :=
    dispatchAll_congr _ ⟨rfl, rfl, rfl, rfl⟩
  have hi : e.stageD.markAll.publishChanges.s.inner = e.s.syncRemote.inner := by
    rw [s_publishChanges]
    exact (inner_of_frameless (ctx_frameless (markAll_ctx _))).trans c.stageD_inner
  obtain ⟨i1, i2, i3⟩ := inner_routing hi
  obtain ⟨j1, j2, j3⟩ := inner_routing (inner_of_portless c.stageA_portless)
  refine h1.trans ⟨?_, i1.trans j1.symm, i2.trans j2.symm, i3.trans j3.symm⟩
  rw [s_publishChanges, ports_of_ctx (markAll_ctx _), c.stageD_ports]

theorem filter_none {k : FrameKind} {l : List Queued} {j : FrameKind}
    (h : ∀ q ∈ l, q.frame.kind = j ∧ q.origin = .block) (hk : k ≠ j) :
    l.filter (fun q => q.frame.kind == k) = [] := by
  rw [List.filter_eq_nil_iff]
  intro q hq
  rw [(h q hq).1]
  simpa using Ne.symm hk

theorem flatMap_congr_mem {α β : Type} {f g : α → List β} {l : List α} (h : ∀ a ∈ l, f a = g a) :
    l.flatMap f = l.flatMap g := by
  induction l with
  | nil => rfl
  | cons a l ih =>
    rw [List.flatMap_cons, List.flatMap_cons, h a (by simp), ih (fun x hx => h x (List.mem_cons_of_mem _ hx))]

theorem Ev.Steady.routed_eq (c : e.Steady) :
    e.routed = byKind (e.out ++ e.roundQueued ++ e.refreshQueued ++ e.statusQueued) := by
  unfold Ev.routed Ev.framesOf byKind
  rw [c.out, List.flatMap_append]
  congr 1
  refine flatMap_congr_mem (fun k hk => ?_)
  have h2 : k ≠ .update ∧ k ≠ .refresh ∧ k ≠ .actionStatus := by revert hk; cases k <;> decide
  rw [List.filter_append, List.filter_append, List.filter_append, filter_none roundQueued_kind h2.1,
    filter_none refreshQueued_kind h2.2.1, filter_none statusQueued_kind h2.2.2]
  simp

end Sys2Proof.Machine
end

