-- ==== Sys2Proof/Laws/Ended.lean ====
section
/-! SUPPORT. The end of a calm event in the terms of `Evaluated`: release markers, flags and frames, and the theorem
itself. -/

namespace Sys2Proof.Machine

variable {e : Ev}

/-! ### Release markers -/

theorem before_sameIn (d : Ev) (i : Nat) (sc : Scheme) : d.before i sc = d.start.sameIn i sc := by
  unfold Ev.before State.sameIn
  cases d.start.schemeAt i with
  | none => rfl
  | some sc0 =>
    simp only [Option.filter_some, Bool.and_eq_true, beq_iff_eq, and_assoc]

/-- The release marker that the end of an event gives, in R112's and R123's terms. -/
theorem marked_iff {d : Ev} {s t : State} {m : List Nat} (hm : d.marks = m) (hs : d.start = s)
    (ht : t.inner = d.s.inner) (i : Nat) (sc : Scheme) :
    (d.marked i sc).releaseNeeded = true ↔ t.satisfied (d.marked i sc).trigger = true ∧
      (sc.releaseNeeded = true ∨ i ∈ m ∨ t.firedByReport (d.marked i sc) = true ∨
        becomesEligible s t i (d.marked i sc)) := by
  have h1 : t.satisfied (d.marked i sc).trigger = d.s.satisfied sc.trigger := satisfied_inner ht _
  have h2 : t.eligible (d.marked i sc) = d.s.eligible sc := eligible_inner ht _
  have h3 : s.sameIn i (d.marked i sc) = s.sameIn i sc := rfl
  rw [h1]
  unfold becomesEligible
  rw [h2, h3]
  show (d.s.satisfied sc.trigger && (sc.releaseNeeded || d.setsMarker i sc)) = true ↔ _
  unfold Ev.setsMarker
  rw [before_sameIn, hs, hm]
  have h4 : t.firedByReport (d.marked i sc) = d.s.firedByReport sc := firedByReport_inner ht _
  rw [h4]
  simp only [Bool.and_eq_true, Bool.or_eq_true, List.contains_iff_mem, or_assoc]
  refine and_congr Iff.rfl (or_congr Iff.rfl (or_congr Iff.rfl (or_congr Iff.rfl (and_congr Iff.rfl ?_))))
  cases s.sameIn i sc with
  | none => simp
  | some sc0 => simp [Ev.marked]

theorem stageD_lists (c : e.Steady) : e.stageD.start = e.start ∧ e.stageD.marks = e.marks := by
  have h : (e.stageB.replicateAll.forwardRefresh).ctx = e.stageA.ctx := by
    rw [forwardRefresh_exact]
    exact (replicateAll_exact c.stageB_steady).1.trans (stageB_ctx e)
  unfold Ev.stageD
  rw [on_start, on_marks, ctx_start h, ctx_marks h]
  exact ⟨rfl, rfl⟩

/-! ### Flags -/

theorem items_of {ev : Event} {R : Nat → List (Event × Nat)} {f : Nat → Option Nat} {l : List Nat}
    (h : ∀ i ∈ l, ((R i).filter (fun r => r.1 == ev)).map Prod.snd = (f i).toList) :
    ((l.flatMap R).filter (fun r => r.1 == ev)).map Prod.snd = l.filterMap f := by
  induction l with
  | nil => rfl
  | cons a l ih =>
    rw [List.flatMap_cons, List.filter_append, List.map_append, h a (by simp),
      ih (fun i hi => h i (List.mem_cons_of_mem _ hi)), List.filterMap_cons]
    cases f a <;> rfl

theorem items_none {ev : Event} {R : Nat → List (Event × Nat)} {l : List Nat}
    (h : ∀ i, ∀ r ∈ R i, r.1 ≠ ev) : ((l.flatMap R).filter (fun r => r.1 == ev)).map Prod.snd = [] := by
  have : (l.flatMap R).filter (fun r => r.1 == ev) = [] := by
    rw [List.filter_eq_nil_iff]
    intro r hr
    obtain ⟨i, -, hi⟩ := List.mem_flatMap.1 hr
    simpa using h i r hi
  rw [this]; rfl

theorem after_after (f : EventFlag) (a b : List Nat) : (f.after a).after b = f.after (a ++ b) := by
  unfold EventFlag.after
  rw [List.getLast?_append]
  cases b.getLast? <;> rfl

theorem Ev.Steady.ended_flags (c : e.Steady) : e.ended.events = raiseAll e.s.events
    (e.s.schemeSlots.flatMap e.stageA.evalRaises ++ e.s.schemeSlots.flatMap e.stageB.replRaises) := by
  have h1 : e.ended.events = e.stageB.replicateAll.s.events := by
    rw [ended_stages, dispatchKinds_s, dispatchAll_events, s_publishChanges, markAll_events, stageD_s]
    rfl
  have h2 : e.stageA.s.schemeSlots = e.s.schemeSlots := by unfold State.schemeSlots; rw [c.stageA_schemes]
  have h3 : e.stageB.s.schemeSlots = e.stageA.s.schemeSlots := by
    unfold State.schemeSlots; rw [show e.stageB.s.schemes.length = _ from (evaluateAll_exact e.stageA).2.1]
  have h4 : e.stageB.s.events = _ := (evaluateAll_exact e.stageA).2.2.2.1
  rw [h1, (replicateAll_exact c.stageB_steady).2.2.2.1, h4, raiseAll_append, h3, h2,
    portless_events c.stageA_portless]

theorem Ev.Steady.flag (c : e.Steady) (ev : Event) : e.ended.events[eventPlace ev]? =
    (e.s.events[eventPlace ev]?).map (fun f => f.after
      (((e.s.schemeSlots.flatMap e.stageA.evalRaises).filter (fun r => r.1 == ev)).map Prod.snd ++
        ((e.s.schemeSlots.flatMap e.stageB.replRaises).filter (fun r => r.1 == ev)).map Prod.snd)) := by
  rw [c.ended_flags, raiseAll_at, List.filter_append, List.map_append]

theorem evalRaises_kind (e : Ev) (i : Nat) : ∀ r ∈ e.evalRaises i, r.1 = .armingChange ∨ r.1 = .shortfall := by
  intro r hr
  unfold Ev.evalRaises at hr
  split at hr
  · split at hr
    · split at hr
      · rcases List.mem_append.1 hr with h | h
        · split at h
          · simp at h; subst h; exact .inl rfl
          · cases h
        · split at h
          · simp at h; subst h; exact .inr rfl
          · cases h
      · cases hr
    · cases hr
  · cases hr

theorem replRaises_kind (e : Ev) (i : Nat) : ∀ r ∈ e.replRaises i, r.1 = .unsettled := by
  intro r hr
  unfold Ev.replRaises Ev.unsettledRaises at hr
  repeat' split at hr
  all_goals first
    | (simp at hr; subst hr; rfl)
    | cases hr

theorem left_life (i : Nat) (sc : Scheme) : (e.stageD.marked i (e.left i sc)).life = (e.evalledTo i sc).life := by
  show (e.left i sc).life = _
  unfold Ev.left; simp

theorem left_id (i : Nat) (sc : Scheme) : (e.stageD.marked i (e.left i sc)).id = sc.id := by
  show (e.left i sc).id = _
  unfold Ev.left; simp

theorem left_isHome (i : Nat) (sc : Scheme) : (e.stageD.marked i (e.left i sc)).isHome = sc.isHome := by
  show (e.left i sc).isHome = _
  unfold Ev.left; simp

theorem left_short (i : Nat) (sc : Scheme) :
    (e.stageD.marked i (e.left i sc)).short = (e.evalledTo i sc).short := by
  show (e.left i sc).short = _
  unfold Ev.left Scheme.replicated Scheme.short
  cases hp : (e.evalledTo i sc).part with
  | home h =>
    simp only []
    unfold HomePart.flagged HomePart.rounds
    simp
  | copy c => simp only [hp]

theorem shortIn_short {s : State} {i : Nat} {sc : Scheme} (hs : s.schemeAt i = some sc) (hh : sc.isHome = true) :
    s.shortIn i sc.id = sc.short := by
  unfold State.shortIn State.homeIn Scheme.short
  rw [hs]
  cases hp : sc.part <;> simp only [hp, Option.filter_some, hh, beq_self_eq_true, Bool.and_self, if_true]

theorem evalledTo_pos {i : Nat} {sc : Scheme} {h : HomePart} (hp : sc.part = .home h)
    (hev : e.stageA.evaluating? i sc h = true) : e.evalledTo i sc = e.s.syncRemote.evaluate sc h := by
  unfold Ev.evalledTo; simp only [hp]; rw [if_pos hev]

theorem evalledTo_neg {i : Nat} {sc : Scheme} {h : HomePart} (hp : sc.part = .home h)
    (hev : ¬ e.stageA.evaluating? i sc h = true) : e.evalledTo i sc = sc := by
  unfold Ev.evalledTo; simp only [hp]; rw [if_neg hev]

theorem inner_values {s t : State} (h : t.inner = s.inner) :
    t.slots = s.slots ∧ t.actions = s.actions ∧ t.mode = s.mode :=
  ⟨(congrArg State.slots h : t.inner.slots = s.inner.slots),
    (congrArg State.actions h : t.inner.actions = s.inner.actions), (congrArg State.mode h : t.inner.mode = s.inner.mode)⟩

theorem Ev.Steady.arming_items (c : e.Steady) :
    ((e.s.schemeSlots.flatMap e.stageA.evalRaises).filter (fun r => r.1 == .armingChange)).map Prod.snd =
      lifeChanges e.s.syncRemote e.ended := by
  unfold lifeChanges
  rw [c.ended_slots]
  refine items_of (fun i _ => ?_)
  have hu : e.s.syncRemote.schemeAt i = e.s.schemeAt i := rfl
  rw [hu, c.ended_at]
  unfold Ev.evalRaises
  rw [c.stageA_at]
  cases hs : e.s.schemeAt i with
  | none => rfl
  | some sc =>
    simp only [Option.map_some]
    rw [left_life, left_id]
    cases hp : sc.part with
    | copy p =>
      have := evalledTo_same (e := e) (i := i) (sc := sc) (by unfold Scheme.isHome; rw [hp])
      simp [this]
    | home h =>
      simp only []
      rw [← evaluate_values c.stageA_values]
      by_cases hev : e.stageA.evaluating? i sc h = true
      · rw [if_pos hev]
        have hto := evalledTo_pos hp hev
        simp only [hto]
        by_cases hl : (e.s.syncRemote.evaluate sc h).life = sc.life
        · simp only [hl, bne_self_eq_false, Bool.false_eq_true, if_false, List.nil_append, if_true]
          split <;> rfl
        · have : ((e.s.syncRemote.evaluate sc h).life != sc.life) = true := by simpa using hl
          rw [if_pos this, if_neg hl]
          split <;> rfl
      · rw [if_neg hev]
        simp [evalledTo_neg hp hev]

theorem Ev.Steady.short_items (c : e.Steady) :
    ((e.s.schemeSlots.flatMap e.stageA.evalRaises).filter (fun r => r.1 == .shortfall)).map Prod.snd =
      shortChanges e.start e.ended := by
  unfold shortChanges
  rw [c.ended_slots]
  refine items_of (fun i _ => ?_)
  rw [c.ended_at]
  unfold Ev.evalRaises
  rw [c.stageA_at]
  cases hs : e.s.schemeAt i with
  | none => rfl
  | some sc =>
    simp only [Option.map_some]
    rw [left_isHome, left_id]
    have hat : e.ended.schemeAt i = some (e.stageD.marked i (e.left i sc)) := by rw [c.ended_at, hs]; rfl
    cases hp : sc.part with
    | copy p =>
      have hn : sc.isHome = false := by unfold Scheme.isHome; rw [hp]
      simp [hn]
    | home h =>
      have hh := isHome_of hp
      have hshort := shortIn_short hat ((left_isHome i sc).trans hh)
      rw [left_id, left_short] at hshort
      rw [hshort]
      simp only [hh, true_and]
      rw [shortBefore_eq]
      have hstart : e.stageA.start = e.start := rfl
      rw [hstart, ← evaluate_values c.stageA_values]
      by_cases hev : e.stageA.evaluating? i sc h = true
      · have hto := evalledTo_pos hp hev
        rw [if_pos hev]
        simp only [hto]
        by_cases hl : (e.s.syncRemote.evaluate sc h).short = e.start.shortIn i sc.id
        · simp only [hl, bne_self_eq_false, Bool.false_eq_true, if_false, List.append_nil, ne_eq, not_true_eq_false]
          split <;> rfl
        · have : ((e.s.syncRemote.evaluate sc h).short != e.start.shortIn i sc.id) = true := by simpa using hl
          rw [if_pos this, if_pos hl]
          split <;> rfl
      · rw [if_neg hev, evalledTo_neg hp hev]
        have hsc : sc.short = h.shortfall := by unfold Scheme.short; rw [hp]
        rcases c.shorts i sc h hs hp with hk | hk
        · rw [hsc, hk]; simp
        · exfalso
          apply hev
          unfold Ev.evaluating?
          have : e.stageA.evals.contains i = true := List.contains_iff_mem.2 hk
          rw [this]; rfl

theorem copyStateOf_home {s : State} {i : Nat} {sc : Scheme} {h : HomePart} (hs : s.schemeAt i = some sc)
    (hp : sc.part = .home h) : s.copyStateOf i sc.id = some h.copyState := by
  unfold State.copyStateOf
  rw [hs]; simp only []; rw [hp]; simp

theorem Ev.Steady.unsettled_items (c : e.Steady) :
    ((e.s.schemeSlots.flatMap e.stageB.replRaises).filter (fun r => r.1 == .unsettled)).map Prod.snd =
      newlyUnsettled e.start e.ended := by
  unfold newlyUnsettled
  rw [c.ended_slots]
  refine items_of (fun i _ => ?_)
  have hat := c.ended_at i
  unfold Ev.replRaises
  rw [c.stageB_at]
  cases hs : e.s.schemeAt i with
  | none => rw [hat, hs]; rfl
  | some sc =>
    rw [hs] at hat
    simp only [Option.map_some] at hat ⊢
    rw [hat]
    simp only []
    have hb : e.stageB.s.schemeAt i = some (e.evalledTo i sc) := by rw [c.stageB_at, hs]; rfl
    cases hp : (e.evalledTo i sc).part with
    | copy p =>
      have h1 : (e.stageD.marked i (e.left i sc)).part = .copy p := by
        show (e.left i sc).part = _
        unfold Ev.left; rw [replicated_copy hp]; exact hp
      have h2 : e.ended.copyStateOf i (e.stageD.marked i (e.left i sc)).id = none := by
        unfold State.copyStateOf
        rw [hat]; simp only []; rw [h1]
      rw [h2]; simp
    | home h =>
      simp only []
      have h1 : (e.stageD.marked i (e.left i sc)).part = .home (h.rounds e.s.syncRemote
          (Machine.bumps e.start e.work i (e.evalledTo i sc)) (decide (i ∈ e.wants))
            ((e.evalledTo i sc).life == .retiring)).flagged := by
        show (e.left i sc).part = _
        unfold Ev.left; rw [replicated_home hp]; rfl
      rw [copyStateOf_home hat h1, stageB_bumped hb, stageB_wants, rounds_congr c.stageB_sent, left_id]
      unfold Ev.unsettledRaises
      rw [ctx_start (stageB_ctx e), evalledTo_id]
      have h2 : e.stageA.start = e.start := rfl
      rw [h2]
      generalize h.rounds e.s.syncRemote _ _ _ = x
      have h3 : x.flagged.copyState = x.copyState := rfl
      rw [h3]
      by_cases hc : x.copyState = .unsettled
      · by_cases hk : e.start.copyStateOf i sc.id = some .unsettled
        · simp [hc, hk]
        · have hk' : (e.start.copyStateOf i sc.id != some .unsettled) = true := by simpa using hk
          rw [hc, hk']
          simp [hk]
      · have hc' : (x.copyState == CopyState.unsettled) = false := by simpa using hc
        rw [hc']
        simp [hc]

/-! ### The frames of rounds, of forwarding and of publication -/

theorem Ev.Steady.round_frames (c : e.Steady) :
    e.roundQueued = roundFrames e.start e.s.syncRemote e.ended e.work := by
  unfold Ev.roundQueued roundFrames
  have hsl : e.stageB.s.schemeSlots = e.ended.schemeSlots := by
    rw [c.ended_slots]
    unfold State.schemeSlots
    rw [show e.stageB.s.schemes.length = _ from (evaluateAll_exact e.stageA).2.1, c.stageA_schemes]
  rw [hsl]
  refine flatMap_congr_mem (fun i _ => ?_)
  have hu : e.s.syncRemote.schemeAt i = e.s.schemeAt i := rfl
  rw [hu, c.ended_at]
  unfold Ev.replOut
  rw [c.stageB_at]
  cases hs : e.s.schemeAt i with
  | none => rfl
  | some sc =>
    simp only [Option.map_some]
    have hb : e.stageB.s.schemeAt i = some (e.evalledTo i sc) := by rw [c.stageB_at, hs]; rfl
    cases hp : sc.part with
    | copy p =>
      rw [evalledTo_same (by unfold Scheme.isHome; rw [hp])]
      simp only [hp]
    | home h =>
      obtain ⟨h1, e1, e2, e3, -, e5⟩ := evalledTo_home (e := e) (i := i) hp
      simp only [e1]
      have hset : e.stageB.s.settings = e.s.syncRemote.settings := (inner_routing c.stageB_inner).1
      rw [stageB_bumped hb, stageB_wants, startFrames_congr c.stageB_reach hset]
      rw [bumps_marked, left_life]
      have hbl : Machine.bumps e.start e.work i (e.left i sc) =
          Machine.bumps e.start e.work i (e.evalledTo i sc) := bumps_replicated _ _ _ _ _ _ _
      rw [hbl, againFrames_congr c.stageB_reach hset, inRound_congr c.stageB_sent]
      have hh : (e.evalledTo i sc).isHome = true := by rw [evalledTo_isHome]; exact isHome_of hp
      have hframe : e.s.syncRemote.updateFrame ((e.evalledTo i sc).bumpedIf
          (Machine.bumps e.start e.work i (e.evalledTo i sc))) =
            e.s.syncRemote.updateFrame (e.stageD.marked i (e.left i sc)) := by
        funext p
        have := updateFrame_replicated e.s.syncRemote (e.evalledTo i sc) e.s.syncRemote
          (Machine.bumps e.start e.work i (e.evalledTo i sc)) (decide (i ∈ e.wants)) p
        rw [hh, Bool.true_and] at this
        exact this.symm
      have hin : ∀ b w r, (h1.inRound e.s.syncRemote b w r).ending = (h.inRound e.s.syncRemote b w r).ending ∧
          (h1.inRound e.s.syncRemote b w r).statuses = (h.inRound e.s.syncRemote b w r).statuses ∧
          (h1.inRound e.s.syncRemote b w r).dirty = (h.inRound e.s.syncRemote b w r).dirty := by
        intro b w r
        unfold HomePart.inRound
        rw [e2, e3]
        repeat' split
        all_goals unfold HomePart.ending
        all_goals simp [e2, e3, e5]
      unfold State.startFrames State.againFrames
      have hlife : ∀ b, ((e.evalledTo i sc).bumpedIf b).life = (e.evalledTo i sc).life := fun _ => rfl
      have hlife' : (e.stageD.marked i (e.left i sc)).life = (e.evalledTo i sc).life := left_life i sc
      simp only [e2, e3, hlife, hlife', hframe, (hin _ _ _).1, (hin _ _ _).2.1, (hin _ _ _).2.2]
      rfl

theorem Ev.Steady.refresh_frames (c : e.Steady) :
    e.refreshQueued = refreshFrames e.s.syncRemote e.ended e.refreshed := by
  unfold Ev.refreshQueued refreshFrames
  refine flatMap_congr_mem (fun d _ => ?_)
  have hctx : e.stageB.replicateAll.ctx = e.stageA.ctx := (replicateAll_exact c.stageB_steady).1.trans (stageB_ctx e)
  have hset : e.stageB.replicateAll.s.settings = e.s.settings :=
    (inner_routing ((inner_of_frameless (ctx_frameless (replicateAll_exact c.stageB_steady).1)).trans c.stageB_inner)).1
  have hp : e.stageB.replicateAll.refreshPairs d = e.ended.pairsTo e.refreshed d := by
    unfold Ev.refreshPairs State.pairsTo
    have hsl : e.stageB.replicateAll.s.schemeSlots = e.ended.schemeSlots := by
      rw [c.ended_slots]; unfold State.schemeSlots; rw [c.stageC_size]
    rw [hsl]
    refine List.filterMap_congr (fun i _ => ?_)
    rw [c.stageC_at, c.ended_at]
    have hr : e.stageB.replicateAll.refreshed = e.refreshed :=
      (congrArg Ev.refreshed hctx : e.stageB.replicateAll.ctx.refreshed = e.stageA.ctx.refreshed)
    rw [hr]
    cases e.s.schemeAt i with
    | none => rfl
    | some sc =>
      simp only [Option.map_some, Bool.and_eq_true, List.contains_iff_mem]
      rfl
  rw [hp]
  generalize chunks 16 (e.ended.pairsTo e.refreshed d) = ls
  refine List.map_congr_left (fun l _ => ?_)
  unfold State.originate State.own
  rw [hset]
  rfl

theorem markAll_schemeAt (c : e.Steady) (i : Nat) : e.stageD.markAll.s.schemeAt i = e.ended.schemeAt i := by
  rw [c.ended_at, markAll_at, c.stageD_at, Option.map_map]
  rfl

theorem held_of_schemes {s t : State} (h : s.schemes = t.schemes) : s.held = t.held := by
  unfold State.held; rw [h]

theorem Ev.Steady.status_frames (c : e.Steady) :
    e.statusQueued = statusFrames e.start e.s.syncRemote e.ended := by
  unfold Ev.statusQueued statusFrames
  have hin : e.stageD.markAll.s.inner = e.s.syncRemote.inner :=
    (inner_of_frameless (ctx_frameless (markAll_ctx _))).trans c.stageD_inner
  have hset : e.stageD.markAll.s.settings = e.s.syncRemote.settings := (inner_routing hin).1
  obtain ⟨hslots, hact, hmode⟩ := inner_values hin
  have hsch : e.stageD.markAll.s.schemes = e.ended.schemes := by
    rw [ended_stages, dispatchKinds_s, dispatchAll_schemes, s_publishChanges]
  have hreach : ∀ d, e.s.syncRemote.reachable d = e.stageD.markAll.s.reachable d := by
    intro d
    have h1 : e.stageD.markAll.s.ports = e.stageA.s.ports := by rw [ports_of_ctx (markAll_ctx _), c.stageD_ports]
    have h2 : e.stageD.markAll.s.routes = e.stageA.s.routes :=
      (inner_routing hin).2.1.trans (inner_routing (inner_of_portless c.stageA_portless)).2.1.symm
    exact (c.stageA_values.reach d).trans (reachable_congr (by rw [h1]) h2 d).symm
  have hv : SameValues e.stageD.markAll.s e.s.syncRemote := ⟨hslots.symm, hact.symm, hmode.symm, hreach⟩
  have hpub : ∀ n, e.stageD.markAll.s.publishHomes n = e.ended.publishHomes n := by
    intro n
    have h1 : e.ended.settings = e.s.syncRemote.settings := (inner_routing c.ended_inner).1
    unfold State.publishHomes State.own
    rw [held_of_schemes hsch, hset, h1]
  have hstart : e.stageD.markAll.start = e.start := by
    rw [ctx_start (markAll_ctx _), (stageD_lists c).1]
  refine flatMap_congr_mem (fun d _ => ?_)
  have hp : e.stageD.markAll.published d = changedFor e.start e.s.syncRemote e.ended d := by
    unfold Ev.published State.publishedTo changedFor
    rw [List.filter_filter, hact]
    refine List.filter_congr (fun a ha => ?_)
    have hsome : (e.s.syncRemote.findAction a.ref).isSome = true := by
      unfold State.findAction
      rw [List.find?_isSome]
      exact ⟨a, ha, by simp⟩
    have h1 := actionChanged_iff hv a.ref
    rw [hstart] at h1
    have h2 : e.stageD.markAll.actionChanged a.ref =
        decide (e.start.shown a.ref ≠ e.s.syncRemote.shown a.ref) := by
      rw [Bool.eq_iff_iff, h1, decide_eq_true_eq]
      exact and_iff_right hsome
    rw [hpub, hstart, h2, Bool.and_comm]
  have hentry : e.stageD.markAll.s.statusEntry = e.s.syncRemote.statusEntry := by
    funext a
    unfold State.statusEntry
    cases a.kind with
    | localEntry x y z w => simp only [← effective_congr hv]
    | mirror x y z w => rfl
  rw [hp, hentry]
  generalize chunks 12 ((changedFor e.start e.s.syncRemote e.ended d).filterMap e.s.syncRemote.statusEntry) = ls
  refine List.map_congr_left (fun l _ => ?_)
  unfold State.originate State.own
  rw [hset]

/-! ### The theorem -/

theorem rounds_untouched {h : HomePart} (he : h.ending = false) (u : State) (r : Bool) :
    h.rounds u false false r = h := by
  have h1 : h.inRound u false false r = h := by unfold HomePart.inRound; simp
  have h2 : h.endRound u = h := by unfold HomePart.endRound; simp [he]
  unfold HomePart.rounds
  rw [h1, h2, h2]

/-- The second half of a steady event ends it as `Evaluated` says, from the state its own part left with the remote trigger
table derived. -/
theorem ended_evaluated (c : e.Steady) : Evaluated e.start e.s.syncRemote e.ended e.work where
  rest := inner_eq c.ended_inner
  size := c.ended_size
  others := by
    intro i hi
    rw [c.ended_at, Option.map_map]
    have hu : e.s.syncRemote.schemeAt i = e.s.schemeAt i := rfl
    rw [hu] at hi ⊢
    cases hs : e.s.schemeAt i with
    | none => rfl
    | some sc =>
      have hn := hi sc hs
      simp only [Option.map_some, Function.comp_apply, marked_unmarked]
      unfold Ev.left
      rw [evalledTo_same hn]
      cases hp : sc.part with
      | home h => rw [isHome_of hp] at hn; cases hn
      | copy p => rw [replicated_copy hp]
  kept := by
    intro i sc h hs hp hs0 hb hw hev
    have hs1 : e.s.schemeAt i = some sc := hs
    rw [c.ended_at, hs1]
    simp only [Option.map_some, marked_unmarked]
    have hto : e.evalledTo i sc = sc := by
      unfold Ev.evalledTo
      simp only [hp]
      rw [if_neg (fun hx => hev ((c.evaluates_iff i sc h).1 hx))]
    have hbump : Machine.bumps e.start e.work i sc = false := by
      unfold Machine.bumps State.homeIn
      rw [hs0]
      have : e.work.bumps.contains i = false := by simpa using hb
      simp [Option.filter_some, isHome_of hp, carriedDiffer_self, hb]
    have hwant : decide (i ∈ e.wants) = false := decide_eq_false hw
    unfold Ev.left
    rw [hto, hbump, hwant, replicated_home hp, rounds_untouched (c.untouched i sc h hs1 hp hs0).1]
    have hf : h.flagged = h := by
      unfold HomePart.flagged
      rw [← (c.untouched i sc h hs1 hp hs0).2]
    rw [hf]
    have : (sc.bumpedIf false).withHome h = sc := withHome_self (sc := sc.bumpedIf false) hp
    rw [this]
  touched := by
    intro i sc h hs hp hev
    have hs1 : e.s.schemeAt i = some sc := hs
    rw [c.ended_at, hs1]
    simp only [Option.map_some, marked_unmarked]
    have hto : e.evalledTo i sc = sc := by
      unfold Ev.evalledTo
      simp only [hp]
      rw [if_neg (fun hx => hev ((c.evaluates_iff i sc h).1 hx))]
    unfold Ev.left
    rw [hto]
    rfl
  evaluated := by
    intro i sc h hs hp hev
    have hs1 : e.s.schemeAt i = some sc := hs
    rw [c.ended_at, hs1]
    simp only [Option.map_some, marked_unmarked]
    have hto : e.evalledTo i sc = e.s.syncRemote.evaluate sc h := by
      unfold Ev.evalledTo
      simp only [hp]
      rw [if_pos ((c.evaluates_iff i sc h).2 hev)]
    unfold Ev.left
    rw [hto]
    rfl
  markers := by
    intro i sc sc' hs hs'
    have hs1 : e.s.schemeAt i = some sc := hs
    rw [c.ended_at, hs1] at hs'
    obtain rfl := Option.some.inj hs'
    have h1 : (e.left i sc).releaseNeeded = sc.releaseNeeded := by unfold Ev.left; simp
    have h2 := marked_iff (stageD_lists c).2 (stageD_lists c).1 (c.ended_inner.trans c.stageD_inner.symm) i (e.left i sc)
    rw [h1] at h2
    exact h2
  frames := by
    rw [c.ended_ports, c.routed_eq, c.round_frames, c.refresh_frames, c.status_frames]
    rfl
  arming := by
    rw [c.flag, c.arming_items, items_none (fun i r hr => by rw [replRaises_kind _ _ r hr]; decide), List.append_nil]
    rfl
  shortfall := by
    rw [c.flag, c.short_items, items_none (fun i r hr => by rw [replRaises_kind _ _ r hr]; decide), List.append_nil]
    rfl
  unsettled := by
    rw [c.flag, c.unsettled_items, items_none (fun i r hr => by
      rcases evalRaises_kind _ _ r hr with h | h <;> rw [h] <;> decide), List.nil_append]
    rfl
  events := by
    intro ev h1 h2 h3
    rw [c.flag, items_none (fun i r hr => by
        rcases evalRaises_kind _ _ r hr with h | h <;> rw [h]
        · exact Ne.symm h1
        · exact Ne.symm h2),
      items_none (fun i r hr => by rw [replRaises_kind _ _ r hr]; exact Ne.symm h3)]
    show _ = e.s.events[eventPlace ev]?
    cases e.s.events[eventPlace ev]? <;> rfl

/-- An event in which records or copies fire, and no context then completes, ends as `Evaluated` says from what the
firings left. -/
theorem fired_evaluated (c : e.fireAll.Steady) (contexts : ∀ x ∈ e.fireAll.s.contexts, x.current)
    (reach : ∀ d, e.fireAll.s.reachable d = e.fireAll.start.reachable d) :
    Evaluated e.fireAll.start e.fireAll.s.syncRemote e.settle e.fireAll.work := by
  rw [settle_fired c contexts reach]; exact ended_evaluated c

/-- An event that changes reachability, fires nothing, completes no context and hands over no urgent frame ends as
`Evaluated` says from its resynchronised records. -/
theorem resynced_evaluated (c : e.resync.Steady) (fires : e.firingSlots = []) (contexts : ∀ c ∈ e.s.contexts, c.current)
    (urgent : ∀ q ∈ e.out, q.frame.kind ∉ firstKinds) (after : ∀ q ∈ e.resync.out, q.frame.kind ∉ firstKinds) :
    Evaluated e.resync.start e.resync.s.syncRemote e.settle e.resync.work := by
  rw [settle_resynced fires contexts urgent after]; exact ended_evaluated c

/-- What an event asks of its rest matters only as sets, but for the frames. -/
theorem Evaluated.sameWork {s u t : State} {w w' : Work} (h : Evaluated s u t w) (evals : ∀ i, i ∈ w'.evals ↔ i ∈ w.evals)
    (quantities : w'.quantities = w.quantities) (bumps : ∀ i, i ∈ w'.bumps ↔ i ∈ w.bumps)
    (wants : ∀ i, i ∈ w'.wants ↔ i ∈ w.wants) (marks : ∀ i, i ∈ w'.marks ↔ i ∈ w.marks)
    (refreshed : w'.refreshed = w.refreshed) (out : w'.out = w.out) : Evaluated s u t w' := by
  have hb : ∀ i sc, Machine.bumps s w' i sc = Machine.bumps s w i sc := by
    intro i sc
    have : w'.bumps.contains i = w.bumps.contains i := by
      rw [Bool.eq_iff_iff, List.contains_iff_mem, List.contains_iff_mem, bumps]
    unfold Machine.bumps
    rw [this]
  have he : ∀ i sc p, evaluates s u w' i sc p ↔ evaluates s u w i sc p := by
    intro i sc p
    unfold evaluates
    rw [evals, quantities]
  have hr : roundFrames s u t w' = roundFrames s u t w := by
    unfold roundFrames
    simp only [hb, wants]
  exact {
    h with
    kept := fun i sc p a b c d f g => h.kept i sc p a b c (by rwa [← bumps]) (by rwa [← wants]) (by rwa [← he])
    touched := fun i sc p a b c => by
      rw [hb, decide_eq_decide.2 (wants i)]; exact h.touched i sc p a b (by rwa [← he])
    evaluated := fun i sc p a b c => by
      rw [hb, decide_eq_decide.2 (wants i)]; exact h.evaluated i sc p a b ((he i sc p).1 c)
    markers := fun i sc sc' a b => by rw [marks]; exact h.markers i sc sc' a b
    frames := by rw [out, hr, refreshed]; exact h.frames }

/-- A calm event ends as `Evaluated` says, from the state its own part left with the remote trigger table derived. -/
theorem settle_evaluated (c : e.Calm) : Evaluated e.start e.s.syncRemote e.settle e.work := by
  rw [c.settle_eq]; exact ended_evaluated c.toSteady

end Sys2Proof.Machine
end

