-- ==== Sys2Proof/Laws/AtRest.lean ====
section
/-! SUPPORT. Events of a part at rest: when `Evaluated` describes their end, and when nothing but the frames they hand
over is left to do. -/

namespace Sys2Proof.Machine

theorem mem_held {s : State} {i : Nat} {sc : Scheme} (h : s.schemeAt i = some sc) : sc ∈ s.held := by
  unfold State.schemeAt at h
  unfold State.held
  cases hs : s.schemes[i]? with
  | none => rw [hs] at h; cases h
  | some o =>
    rw [hs] at h
    exact List.mem_filterMap.2 ⟨o, List.mem_of_getElem? hs, h⟩

theorem firingSlots_quiet {e : Ev} (h : e.trigs = []) : e.firingSlots = [] := by
  unfold Ev.firingSlots
  rw [List.filter_eq_nil_iff]
  intro i _
  cases e.s.schemeAt i with
  | none => simp
  | some sc => simp [h]

/-- No set fires where no record or copy is eligible. -/
theorem firingSlots_ineligible {e : Ev} (h : ∀ sc ∈ e.s.held, e.s.eligible sc = false) : e.firingSlots = [] := by
  unfold Ev.firingSlots
  rw [List.filter_eq_nil_iff]
  intro i _
  cases hs : e.s.schemeAt i with
  | none => simp
  | some sc => simp [h sc (mem_held hs)]

theorem steady_of_current {sc : Scheme} {h : HomePart} (hp : sc.part = .home h) (hc : sc.roundCurrent) : sc.steady h := by
  unfold Scheme.roundCurrent at hc
  rw [hp] at hc
  exact hc.2.1

theorem untouched_of_current {sc : Scheme} {h : HomePart} (hp : sc.part = .home h) (hc : sc.roundCurrent) :
    h.ending = false ∧ h.unsettled = (h.copyState == .unsettled) := by
  unfold Scheme.roundCurrent at hc
  rw [hp] at hc
  refine ⟨?_, hc.2.2⟩
  unfold HomePart.ending
  by_cases hr : h.round = .update
  · rw [hc.1 hr]; simp
  · simp [hr]

theorem shortIn_of {s : State} {i : Nat} {sc : Scheme} {h : HomePart} (hs : s.schemeAt i = some sc)
    (hp : sc.part = .home h) : s.shortIn i sc.id = h.shortfall := by
  unfold State.shortIn State.homeIn
  rw [hs]
  simp [Option.filter_some, isHome_of hp, hp]

theorem roundCurrent_copy {sc : Scheme} (h : sc.isHome = false) : sc.roundCurrent := by
  unfold Scheme.roundCurrent
  cases hp : sc.part with
  | home p => rw [isHome_iff.2 ⟨p, hp⟩] at h; cases h
  | copy c => trivial

/-- An event of a part at rest is steady where it hands over no order or test, and ends no retirement of a home record that
it changed, evaluating one whose SHORTFALL flag it moved. -/
theorem steady_of_atRest {s : State} (hr : s.AtRest) {e : Ev} (start : e.start = s)
    (origin : ∀ q ∈ e.out, q.origin = .block)
    (changed : ∀ i sc h, e.s.schemeAt i = some sc → sc.part = .home h → s.schemeAt i ≠ some sc →
      sc.steady h ∧ (s.shortIn i sc.id = h.shortfall ∨ i ∈ e.evals)) : e.Steady := by
  subst start
  refine ⟨origin, fun i sc h hs hp => ?_, fun i sc h _ hp hs => untouched_of_current hp (hr.rounds sc (mem_held hs)),
    fun i sc h hs hp => ?_⟩
  · by_cases hk : e.start.schemeAt i = some sc
    · exact steady_of_current hp (hr.rounds sc (mem_held hk))
    · exact (changed i sc h hs hp hk).1
  · by_cases hk : e.start.schemeAt i = some sc
    · exact .inl (shortIn_of hk hp)
    · exact (changed i sc h hs hp hk).2

/-- An event of a part at rest is calm where it fires nothing, leaves the contexts and every terminal's reachability as
they stood, and ends no retirement of a home record that it changed, evaluating one whose SHORTFALL flag it moved. -/
theorem calm_of_atRest {s : State} (hr : s.AtRest) {e : Ev} (start : e.start = s) (fires : e.firingSlots = [])
    (contexts : ∀ c ∈ e.s.contexts, c.current) (reach : ∀ d, e.s.reachable d = s.reachable d)
    (origin : ∀ q ∈ e.out, q.origin = .block)
    (changed : ∀ i sc h, e.s.schemeAt i = some sc → sc.part = .home h → s.schemeAt i ≠ some sc →
      sc.steady h ∧ (s.shortIn i sc.id = h.shortfall ∨ i ∈ e.evals)) : e.Calm :=
  ⟨steady_of_atRest hr start origin changed, fires, contexts, by rw [start]; exact reach⟩

/-- The remote trigger table of a part at rest stays as it is where the trigger sets do. -/
theorem syncRemote_of_triggers {s u : State} (hr : s.AtRest) (remote : u.remote = s.remote) (own : u.own = s.own)
    (size : u.schemes.length = s.schemes.length)
    (h : ∀ i, (u.schemeAt i).map Scheme.trigger = (s.schemeAt i).map Scheme.trigger) : u.syncRemote = u := by
  have h1 : s.syncRemote.remote = s.remote := congrArg State.remote hr.remote
  have h2 : u.syncRemote.remote = s.syncRemote.remote := by
    unfold State.syncRemote
    rw [namedRefs_congr size h, own, remote]
  have h3 : u.syncRemote.remote = u.remote := by rw [h2, h1, remote]
  have h4 : u.syncRemote = { u with remote := u.syncRemote.remote } := rfl
  rw [h4, h3]

theorem syncRemote_same {s u : State} (hr : s.AtRest) (remote : u.remote = s.remote) (own : u.own = s.own)
    (schemes : u.schemes = s.schemes) : u.syncRemote = u :=
  syncRemote_of_triggers hr remote own (by rw [schemes]) (fun i => by unfold State.schemeAt; rw [schemes])

end Sys2Proof.Machine
end

