-- ==== Sys2Proof/Laws/Exact.lean ====
section
/-! SUPPORT. An event of a part at rest that leaves its tables as they stood does nothing at its end but route the frames
it handed over. -/

namespace Sys2Proof.Machine

theorem putScheme_self {s : State} {i : Nat} {sc : Scheme} (h : s.schemeAt i = some sc) :
    s.putScheme i (some sc) = s := by
  have hl : s.schemes.set i (some sc) = s.schemes := by
    apply List.ext_getElem?
    intro j
    rw [List.getElem?_set]
    split
    · rename_i hij
      subst hij
      rw [if_pos (lt_of_schemeAt h)]
      unfold State.schemeAt at h
      cases hs : s.schemes[i]? with
      | none => rw [hs] at h; cases h
      | some o => rw [hs] at h; rw [← (show o = some sc from h)]
    · rfl
  unfold State.putScheme
  rw [hl]

theorem put_self {e : Ev} {i : Nat} {sc : Scheme} (h : e.s.schemeAt i = some sc) : e.put i sc = e := by
  have h1 : e.put i sc = { e with s := e.s.putScheme i (some sc) } := rfl
  rw [h1, putScheme_self h]

theorem putHome_self {e : Ev} {i : Nat} {sc : Scheme} {p : HomePart} (h : e.s.schemeAt i = some sc)
    (hp : sc.part = .home p) : e.putHome i sc p = e := by
  unfold Ev.putHome
  rw [withHome_self hp]
  exact put_self h

theorem evalSlot_id {e : Ev} {i : Nat} (hi : i ∉ e.evals) (hq : e.quantities = []) (ha : ∀ r, e.actionChanged r = false) :
    e.evalSlot i = e := by
  unfold Ev.evalSlot
  split
  · split
    · rename_i sc h hp
      rw [if_neg]
      unfold Ev.handedOn
      rw [hq]
      cases h.form.monitored <;> simp [hi, ha]
    · rfl
  · rfl

theorem evaluateAll_id {e : Ev} (he : e.evals = []) (hq : e.quantities = []) (ha : ∀ r, e.actionChanged r = false) :
    e.evaluateAll = e :=
  foldl_id _ _ _ (fun i _ => evalSlot_id (by simp [he]) hq ha)

/-- Where the round is current and the UNSETTLED flag with it, the Replication Unit does nothing to a slot. -/
theorem replicate_id {e : Ev} {i : Nat} {b : Nat → Bool} (hb : b i = false) (hw : e.wants.contains i = false)
    (hc : ∀ sc, e.s.schemeAt i = some sc → sc.roundCurrent) (hs : e.start.schemeAt i = e.s.schemeAt i) :
    e.replicate b i = e := by
  unfold Ev.replicate
  simp only [hb, hw, Bool.or_false, Bool.false_eq_true, if_false]
  have hround : e.testRoundEnd i = e := by
    unfold Ev.testRoundEnd
    split
    · rename_i sc hs'
      split
      · rename_i h hp
        have := hc sc hs'
        unfold Scheme.roundCurrent at this; rw [hp] at this
        rw [if_neg]
        intro hcond
        simp only [Bool.and_eq_true, beq_iff_eq, Bool.not_eq_true'] at hcond
        rw [this.1 hcond.1] at hcond
        cases hcond.2
      · rfl
    · rfl
  have hret : e.testRetireEnd i = e := by
    cases hs' : e.s.schemeAt i with
    | none => unfold Ev.testRetireEnd; rw [hs']
    | some sc =>
      cases hp : sc.part with
      | copy c => unfold Ev.testRetireEnd; rw [hs']; simp only []; rw [hp]
      | home h => exact testRetireEnd_id hs' hp (steady_of_current hp (hc sc hs'))
  rw [hround, hround, hret]
  unfold Ev.deriveCopyState
  split
  · rename_i sc hs'
    split
    · rename_i h hp
      have hcur := hc sc hs'
      unfold Scheme.roundCurrent at hcur; rw [hp] at hcur
      have h1 : ({ h with unsettled := h.copyState == .unsettled } : HomePart) = h := by
        rw [← hcur.2.2]
      simp only [h1]
      rw [putHome_self hs' hp]
      have h2 : e.start.copyStateOf i sc.id = some h.copyState := by
        unfold State.copyStateOf
        rw [hs, hs']
        simp [hp]
      unfold Ev.on
      rw [h2]
      have : (h.copyState == CopyState.unsettled && (some h.copyState != some CopyState.unsettled)) = false := by
        cases h.copyState <;> decide
      rw [this]
      rfl
    · rfl
  · rfl

theorem bumpedSlots_none {e : Ev} (hb : e.bumps = []) (hs : ∀ i, e.start.schemeAt i = e.s.schemeAt i) :
    e.bumpedSlots = [] := by
  unfold Ev.bumpedSlots
  rw [List.filter_eq_nil_iff]
  intro i _
  cases h : e.s.schemeAt i with
  | none => simp [Ev.bumped, h]
  | some sc =>
    rw [bumped_eq h]
    unfold bumps State.homeIn Ev.work
    rw [hs, h, hb]
    cases hh : sc.isHome <;> simp [Option.filter_some, hh, carriedDiffer_self]

theorem replicateAll_id {e : Ev} (hb : e.bumps = []) (hw : e.wants = []) (hs : ∀ i, e.start.schemeAt i = e.s.schemeAt i)
    (hc : ∀ i sc, e.s.schemeAt i = some sc → sc.roundCurrent) : e.replicateAll = e := by
  unfold Ev.replicateAll
  rw [bumpedSlots_none hb hs]
  exact foldl_id _ _ _ (fun i _ => replicate_id (by simp) (by simp [hw]) (hc i) (hs i))

theorem forwardRefresh_id {e : Ev} (h : e.refreshed = []) : e.forwardRefresh = e := by
  unfold Ev.forwardRefresh
  refine foldl_id _ _ _ (fun t _ => ?_)
  have hp : e.refreshPairs t = [] := by
    unfold Ev.refreshPairs
    rw [List.filterMap_eq_nil_iff]
    intro i _
    cases e.s.schemeAt i with
    | none => rfl
    | some sc => simp [h]
  rw [hp]
  rfl

theorem markAll_id {e : Ev} (h : ∀ i sc, e.s.schemeAt i = some sc → e.marked i sc = sc) : e.markAll = e := by
  unfold Ev.markAll
  refine foldl_id _ _ _ (fun i _ => ?_)
  unfold Ev.markSlot
  split
  · rename_i sc hs
    have hm := h i sc hs
    unfold Ev.marked at hm
    rw [hm]
    exact put_self hs
  · rfl

theorem publishChanges_id {e : Ev} (ha : ∀ r, e.actionChanged r = false)
    (hp : ∀ n, e.start.publishHomes n = e.s.publishHomes n) : e.publishChanges = e := by
  unfold Ev.publishChanges
  refine foldl_id _ _ _ (fun t _ => ?_)
  have hf : (e.s.publishedTo t).filter (fun a =>
      e.actionChanged a.ref || !(e.start.publishHomes a.ref.number).contains t) = [] := by
    rw [List.filter_eq_nil_iff]
    intro a hm
    unfold State.publishedTo at hm
    have := (List.mem_filter.1 hm).2
    simp only [Bool.and_eq_true] at this
    rw [ha, hp, this.2]
    decide
  rw [hf]
  rfl

theorem actionChanged_none {e : Ev} (hv : SameValues e.start e.s) (r : ActionRef) : e.actionChanged r = false := by
  unfold Ev.actionChanged
  have : e.s.findAction r = e.start.findAction r := by unfold State.findAction; rw [hv.actions]
  rw [this]
  cases e.start.findAction r with
  | none => rfl
  | some a => simp [availability_congr hv, effective_congr hv]

/-- What an event leaves as it stood, for nothing but its frames to be left to do at its end. -/
structure Ev.Idle (e : Ev) (s : State) : Prop where
  start : e.start = s
  fires : e.firingSlots = []
  lists : e.evals = [] ∧ e.quantities = [] ∧ e.bumps = [] ∧ e.wants = [] ∧ e.marks = [] ∧ e.refreshed = []
  schemes : e.s.schemes = s.schemes
  contexts : e.s.contexts = s.contexts
  remote : e.s.remote = s.remote
  actions : e.s.actions = s.actions
  values : ∀ a ∈ s.actions, e.s.availability a = s.availability a ∧ e.s.effective a = s.effective a
  own : e.s.own = s.own
  reach : ∀ d, e.s.reachable d = s.reachable d
  origin : ∀ q ∈ e.out, q.frame.kind ∈ firstKinds → q.origin = .block
  satisfied : ∀ sc ∈ s.held, e.s.satisfied sc.trigger = s.satisfied sc.trigger
  eligible : ∀ sc ∈ s.held, e.s.eligible sc = true → s.eligible sc = true

theorem settle_idle {s : State} (hr : s.AtRest) {e : Ev} (c : e.Idle s) :
    e.settle = (e.framesOf firstKinds ++ e.framesOf otherKinds).foldl State.dispatchFrame e.s := by
  obtain ⟨l1, l2, l3, l4, l5, l6⟩ := c.lists
  have hA : (e.dispatchKinds firstKinds).s.portless = e.s.portless :=
    dispatchAll_portless (fun q hq => c.origin q (mem_framesOf.1 hq).1 (mem_framesOf.1 hq).2) _
  have hAf := dispatchAll_fixed e.s (e.framesOf firstKinds)
  have fcontexts : (e.dispatchKinds firstKinds).s.contexts = e.s.contexts :=
    (congrArg State.contexts hA : e.stageA.s.portless.contexts = e.s.portless.contexts)
  have fschemes : (e.dispatchKinds firstKinds).s.schemes = e.s.schemes := portless_schemes hA
  have froutes : (e.dispatchKinds firstKinds).s.routes = e.s.routes :=
    (congrArg State.routes hA : e.stageA.s.portless.routes = e.s.portless.routes)
  have fremote : (e.dispatchKinds firstKinds).s.remote = e.s.remote :=
    (congrArg State.remote hA : e.stageA.s.portless.remote = e.s.portless.remote)
  have fown : (e.dispatchKinds firstKinds).s.own = e.s.own :=
    (congrArg State.own hA : e.stageA.s.portless.own = e.s.portless.own)
  have factions : (e.dispatchKinds firstKinds).s.actions = e.s.actions :=
    (congrArg State.actions hA : e.stageA.s.portless.actions = e.s.portless.actions)
  have hstart : (e.dispatchKinds firstKinds).start = s := c.start
  have hat : ∀ i, (e.dispatchKinds firstKinds).s.schemeAt i = s.schemeAt i := fun i =>
    schemeAt_of_schemes (fschemes.trans c.schemes) i
  have hreach : ∀ d, (e.dispatchKinds firstKinds).s.reachable d = e.s.reachable d :=
    fun d => reachable_congr hAf froutes d
  have hchanged : ∀ r, (e.dispatchKinds firstKinds).actionChanged r = false := by
    intro r
    unfold Ev.actionChanged
    have h1 : (e.dispatchKinds firstKinds).s.findAction r = s.findAction r := by
      unfold State.findAction; rw [factions, c.actions]
    rw [h1, hstart]
    cases hf : s.findAction r with
    | none => rfl
    | some a =>
      have hm : a ∈ s.actions := List.mem_of_find?_eq_some hf
      have hv : SameValues e.s (e.dispatchKinds firstKinds).s :=
        ⟨(congrArg State.slots hA : e.stageA.s.portless.slots = e.s.portless.slots), factions,
          (congrArg State.mode hA : e.stageA.s.portless.mode = e.s.portless.mode), hreach⟩
      obtain ⟨v1, v2⟩ := c.values a hm
      simp [availability_congr hv, effective_congr hv, v1, v2]
  have h1 : e.fireAll = e := fireAll_id c.fires
  have h2 : (e.dispatchKinds firstKinds).completeSettled = e.dispatchKinds firstKinds :=
    completeSettled_id (by rw [fcontexts, c.contexts]; exact hr.contexts)
  have h3 : (e.dispatchKinds firstKinds).resync = e.dispatchKinds firstKinds :=
    resync_id (fun d => by rw [hstart, hreach]; exact c.reach d)
  have h4 : (e.dispatchKinds firstKinds).evaluateAll = e.dispatchKinds firstKinds := evaluateAll_id l1 l2 hchanged
  have h5 : (e.dispatchKinds firstKinds).replicateAll = e.dispatchKinds firstKinds :=
    replicateAll_id l3 l4 (fun i => by rw [hstart]; exact (hat i).symm)
      (fun i sc h => hr.rounds sc (mem_held ((hat i).symm.trans h)))
  have h6 : (e.dispatchKinds firstKinds).forwardRefresh = e.dispatchKinds firstKinds := forwardRefresh_id l6
  have h7 : (e.dispatchKinds firstKinds).on State.syncRemote = e.dispatchKinds firstKinds := by
    unfold Ev.on
    rw [syncRemote_same hr (fremote.trans c.remote) (fown.trans c.own) (fschemes.trans c.schemes)]
  have hfl : (e.dispatchKinds firstKinds).s.portless = e.s.portless := hA
  have hsat : ∀ x, (e.dispatchKinds firstKinds).s.satisfied x = e.s.satisfied x := fun x =>
    satisfied_inner (inner_of_portless hA) x
  have helig : ∀ x, (e.dispatchKinds firstKinds).s.eligible x = e.s.eligible x := fun x =>
    eligible_inner (inner_of_portless hA) x
  have hfired : ∀ x, (e.dispatchKinds firstKinds).s.firedByReport x = s.firedByReport x := fun x => by
    unfold State.firedByReport State.openContext State.contextNos State.contextAt
    rw [fcontexts, c.contexts]
  have h8 : (e.dispatchKinds firstKinds).markAll = e.dispatchKinds firstKinds := by
    refine markAll_id (fun i sc hs => ?_)
    have hs' := (hat i).symm.trans hs
    have hm := mem_held hs'
    unfold Ev.marked
    rw [hsat, c.satisfied sc hm]
    have hset : (e.dispatchKinds firstKinds).setsMarker i sc = s.firedByReport sc := by
      unfold Ev.setsMarker
      rw [show (e.dispatchKinds firstKinds).marks = [] from l5, helig, hfired, before_sameIn, hstart]
      unfold State.sameIn
      rw [hs']
      simp only [Option.filter_some, beq_self_eq_true, Bool.and_self, if_true, List.contains_nil, Bool.false_or,
        ne_eq, not_true_eq_false, decide_false, Bool.or_false]
      cases he : e.s.eligible sc with
      | false => simp
      | true => rw [c.eligible sc hm he]; simp
    rw [hset]
    have hrel : (s.satisfied sc.trigger && (sc.releaseNeeded || s.firedByReport sc)) =
        sc.releaseNeeded := by
      cases hrn : sc.releaseNeeded with
      | true => rw [hr.markers sc hm hrn]; rfl
      | false =>
        cases hsx : s.satisfied sc.trigger with
        | false => rfl
        | true =>
          cases hf : s.firedByReport sc with
          | false => rfl
          | true =>
            rw [hr.firedMarkers sc hm hf hsx] at hrn
            cases hrn
    rw [hrel]
  have h9 : (e.dispatchKinds firstKinds).publishChanges = e.dispatchKinds firstKinds := by
    refine publishChanges_id hchanged (fun n => ?_)
    rw [hstart]
    unfold State.publishHomes State.held
    rw [fschemes, c.schemes, fown, c.own]
  unfold Ev.settle Ev.finish
  simp only [h1, h2, h3, h4, h5, h6, h7, h8, h9]
  rw [dispatchKinds_s, List.foldl_append]
  rfl

/-- An event that leaves everything as it stood but for items nothing else depends on, and hands over no frame. -/
theorem settle_nothing {s : State} (hr : s.AtRest) {e : Ev} (c : e.Idle s) (out : e.out = []) : e.settle = e.s := by
  rw [settle_idle hr c]
  have : ∀ k, e.framesOf k = [] := by
    intro k
    unfold Ev.framesOf
    rw [out]
    simp
  rw [this, this]
  rfl

end Sys2Proof.Machine
end

