-- ==== Sys2Proof/Tests/Slice0.lean ====
section
/-! SUPPORT. Tests: ill-formed commands that `wf` refuses; figures of the manual; one command on a small part; and for each
statement that has hypotheses, states and operands that meet them, clause by clause. -/

namespace Sys2Proof.Tests

open Sys2Proof Sys2Proof.Machine

/- One theorem is checked before the next is begun: side by side, the checks of this file take much memory. -/
set_option Elab.async false

/-! ### WellFormed: one ill-formed command for each check -/

/-- The largest load a frame spells. -/
def largestLoad : LoadBody := {
  schemeId := 255, source := 1, slot := 255, onAt := 2147483647, offAt := -2147483648, limit := 0, k := 65535, m := 65535,
  f := 65535, mode := 1, window := 65535, refs := [⟨15, 15⟩], actions := [⟨255, 255⟩], cap := 255, posture := 1,
  interval := 65535, group := 255, autoDisarm := 255 }

theorem test_wf_id : (Instr.arm 255).wf = true ∧ (Instr.arm 256).wf = false := by decide

theorem test_wf_load : (Instr.recordLoad largestLoad).wf = true ∧
    (Instr.recordLoad { largestLoad with schemeId := 256 }).wf = false ∧
    (Instr.recordLoad { largestLoad with onAt := 2147483648 }).wf = false ∧
    (Instr.recordLoad { largestLoad with k := 65536 }).wf = false ∧
    (Instr.recordLoad { largestLoad with refs := [⟨16, 0⟩] }).wf = false ∧
    (Instr.recordLoad { largestLoad with actions := [⟨1, 256⟩] }).wf = false ∧
    (Instr.recordLoad { largestLoad with actions := List.replicate 240 ⟨1, 1⟩ }).wf = false ∧
    (Instr.recordLoad { largestLoad with interval := 65536 }).wf = false := by decide +kernel

theorem test_wf_tune : (Instr.recordTune 7 0 0 (-2147483649) 0 0 0).wf = false ∧
    (Instr.recordTune 7 0 0 0 0 0 65536).wf = false := by decide

theorem test_wf_quantities : (Instr.quantityPost (List.replicate 103 (0, 0))).wf = false ∧
    (Instr.quantityPost [(256, 0)]).wf = false ∧ (Instr.quantityInvalidate [256]).wf = false ∧
    (Instr.quantitySource 0 0 0 0 65536 0).wf = false := by decide +kernel

theorem test_wf_actions : (Instr.actionLoad 1 1 1 0 0 65536 0).wf = false ∧ (Instr.actionBlock 256 1).wf = false ∧
    (Instr.inputConfigure 0 0 65536 0).wf = false ∧ (Instr.inputConfigure 0 0 0 4294967296).wf = false := by decide

theorem test_wf_settings : (Instr.settingsWrite [(256, [])]).wf = false ∧
    (Instr.settingsWrite [(8, List.replicate 511 0#8)]).wf = false ∧ (Instr.eventEnable 65536).wf = false := by
  decide +kernel

theorem test_wf_units : (Instr.inputLevelChange 16 true).wf = false ∧ (Instr.slotExpiry 32).wf = false ∧
    (Instr.pulseEnd 16).wf = false ∧ (Instr.reportWaitExpiry 8).wf = false ∧ (Instr.windowEnd 4 false).wf = false ∧
    (Instr.holdTimerExpiry 15 0).wf = false ∧ (Instr.freshnessExpiry 1 97).wf = false ∧
    (Instr.retryTimerExpiry 7 0).wf = false ∧ (Instr.copyDeadlineExpiry 0).wf = false := by decide

theorem test_wf_frames : (Instr.update 0 15 []).wf = false ∧ (Instr.echo 4 2 []).wf = false ∧
    (Instr.echo 0 2 (List.replicate 57 0#8)).wf = false ∧ (Instr.relayedFrame 0 0 2 .update 1 []).wf = false ∧
    (Instr.relayedFrame 0 3 2 .update 8 []).wf = false ∧ (Instr.relayedFrame 0 3 2 .start 1 []).wf = false := by decide

/-! ### Small parts for the tests -/

/-- An UP port to terminal 2, its window ending now. -/
def upPort : Port := {
  closedPort with
  state := .up, neighbour := some 2, health := some .normal, tx := .fill, windowDue := some 7680 }

/-- A STARTING port that heard terminal 3 exactly 30 ms ago, its start timer running out now. -/
def heardPort : Port := { closedPort with state := .starting, peer := some (0, 3), tx := .fill, startDue := some 7680 }

/-- A STARTING port that has heard nobody. -/
def deafPort : Port := { closedPort with state := .starting, tx := .fill, startDue := some 7681 }

/-- Terminal 1, 30 ms after its reset: port 0 UP, 1 and 2 STARTING, 3 CLOSED; terminal 2 routed through port 0. Slot 0 takes
station values, slot 30 is GOOD until now, slot 31 follows terminal 2. Action 1 is LOCAL at output 0, action 96 of terminal 2
a mirror FRESH until now. Input 13 is RELEASED, 14 ASSERTED, 15 QUALIFYING; output 15 is PULSING; timers run out now. -/
def small (m : Mode) : State := {
  State.reset with
  mode := m, now := 7680, settings := { defaultSettings with terminal := 1 }, publication := some 7680,
  ports := [upPort, heardPort, deafPort, closedPort],
  routes := State.reset.routes.set 1 { primary := some 0, alternate := none },
  slots := ((State.reset.slots.set 0 { emptySlot with source := .station }).set 30
    { emptySlot with source := .station, value := 100, quality := .good, goodAt := some 0, limit := 30 }).set 31
    { emptySlot with source := .peer 2 31 },
  actions := [{ ref := ⟨1, 1⟩, nominal := 100, kind := .localEntry 0 none 20 .inService },
    { ref := ⟨2, 96⟩, nominal := 50, kind := .mirror (some .inService) (some 50) (some 7680) (some 0) }],
  inputs := ((State.reset.inputs.set 13 { enable := true, qualify := 0, dropout := 0, level := false, state := .released }).set
    14 { enable := true, qualify := 4, dropout := 20, level := false, state := .asserted 0 (some 7680) 7680 }).set
    15 { enable := true, qualify := 4, dropout := 20, level := true, state := .qualifying 7680 },
  outputs := State.reset.outputs.set 15 { pulse := some 7680, indication := false } }

/-- A participant that is CURRENT. -/
def there (t : Nat) : Participant := {
  terminal := t, status := .current, acked := some 1, tries := 0, retry := none, owesClose := false, reason := none }

/-- A participant engaged in a round, its retry timer running out now. -/
def engagedAt (t tries : Nat) : Participant := { there t with status := .behind, tries := tries, retry := some 7680 }

/-- The home part of scheme 7. -/
def homeOf7 : HomePart := {
  form := .fixed true, margin := 0, floor := 5, cap := 1, group := 7, armingResult := true, requirement := 5, held := 5,
  sum := 0, shortfall := true, frozen := false, unsettled := false, outcome := .none, statuses := [there 2],
  round := .none, dirty := false, lastFiring := 0 }

/-- Scheme 7, at home here: fires on input 15, trips action 96 of terminal 2. -/
def record7 (life : Life) (h : HomePart) : Scheme := {
  id := 7, home := 1, generation := 1, life := life, trigger := { refs := [⟨1, 15⟩], all := false, window := 0 },
  actions := [⟨2, 96⟩], selection := [], participants := [2], posture := .hold, interval := 600, autoDisarm := false,
  stale := false, releaseNeeded := false, deadline := .running 7680, part := .home h }

/-- Scheme 9, a copy of terminal 2's: fires on input 15 there or here, trips action 1 here. -/
def copy9 (life : Life) : Scheme := {
  id := 9, home := 2, generation := 3, life := life, trigger := { refs := [⟨2, 15⟩, ⟨1, 15⟩], all := false, window := 0 },
  actions := [⟨1, 1⟩], selection := [⟨1, 1⟩], participants := [1], posture := .hold, interval := 600, autoDisarm := false,
  stale := false, releaseNeeded := false, deadline := .running 7680, part := .copy { summary := none, withheld := none } }

/-- The small part with scheme 7 in slot 0 and scheme 9 in slot 1. -/
def with7 (m : Mode) (r c : Scheme) : State := (((small m).putScheme 0 (some r)).putScheme 1 (some c)).syncRemote

/-- Both schemes in given life states. -/
def both (m : Mode) (a c : Life) : State := with7 m (record7 a homeOf7) (copy9 c)

/-- Scheme 7 with its participant's entry and round. -/
def inRound (life : Life) (p : Participant) (r : Round) : State :=
  with7 .run (record7 life { homeOf7 with statuses := [p], round := r, unsettled := r == .none && p.status != .current })
    (copy9 .armed)

/-- The state in which a port takes a frame. -/
def taken (s : State) (p source : Nat) : State := (s.admitFrame p source).getD s

/-- A home part's round and copy state are current. -/
def roundB (sc : Scheme) : Bool :=
  match sc.part with
  | .home h =>
    (h.round != .update || h.statuses.any Participant.engaged) &&
    (!(sc.life == .retiring && h.round == .retire) || h.statuses.any (fun p => p.status == .behind)) &&
    decide (h.unsettled = (h.copyState == .unsettled))
  | .copy _ => true

/-- A context is current. -/
def currentB (c : Context) : Bool := c.openData.all (fun x => !x.sites.all SiteEntry.settled)

/-- The part is at rest. -/
def restB (s : State) : Bool :=
  s.held.all roundB && s.contexts.all currentB && s.held.all (fun sc => !sc.releaseNeeded || s.satisfied sc.trigger) &&
    s.held.all (fun sc => !(s.firedByReport sc && s.satisfied sc.trigger) || sc.releaseNeeded) &&
    decide (s.syncRemote = s)

theorem roundCurrent_of {sc : Scheme} (h : roundB sc = true) : sc.roundCurrent := by
  unfold roundB at h
  unfold Scheme.roundCurrent
  cases hp : sc.part with
  | copy c => trivial
  | home p =>
    rw [hp] at h
    simp only [Bool.and_eq_true, Bool.or_eq_true, Bool.not_eq_true', bne_iff_ne, decide_eq_true_eq, Bool.and_eq_false_iff,
      beq_eq_false_iff_ne] at h
    obtain ⟨⟨h1, h2⟩, h3⟩ := h
    refine ⟨fun hr => h1.resolve_left (fun hne => hne hr), fun hl hr => ?_, h3⟩
    rcases h2 with (h2 | h2) | h2
    · exact absurd hl h2
    · exact absurd hr h2
    · exact h2

theorem current_of {c : Context} (h : currentB c = true) : c.current := by
  intro x hx
  unfold currentB at h
  rw [hx] at h
  simpa using h

theorem atRest_of {s : State} (h : restB s = true) : s.AtRest := by
  unfold restB at h
  simp only [Bool.and_eq_true, List.all_eq_true, Bool.or_eq_true, Bool.not_eq_true', decide_eq_true_eq] at h
  obtain ⟨⟨⟨⟨h1, h2⟩, h3⟩, h5⟩, h4⟩ := h
  refine ⟨fun sc hs => roundCurrent_of (h1 sc hs), fun c hc => current_of (h2 c hc),
    fun sc hs hr => (h3 sc hs).resolve_left (by rw [hr]; decide), fun sc hs hf hx => ?_, h4⟩
  refine (h5 sc hs).resolve_left (fun hn => ?_)
  rw [hf, hx] at hn
  simp at hn

theorem reach_of {s v : State} (hs : s.routes.length = 14) (hv : v.routes.length = 14)
    (h : terminals.all (fun d => v.reachable d == s.reachable d) = true) (d : Nat) : v.reachable d = s.reachable d := by
  by_cases hd : d ∈ terminals
  · have := List.all_eq_true.1 h d hd
    simpa using this
  · have none_of : ∀ u : State, u.routes.length = 14 → u.reachable d = false := by
      intro u hu
      have : u.routeTo d = { primary := none, alternate := none } := by
        cases d with
        | zero => rfl
        | succ n =>
          unfold State.routeTo
          have hn : 14 ≤ n := by
            by_contra hlt
            have : n < 14 := by omega
            interval_cases n <;> simp [terminals] at hd
          have : u.routes[n]? = none := by rw [List.getElem?_eq_none_iff]; omega
          simp [this]
      unfold State.reachable
      rw [this]
      rfl
    rw [none_of v hv, none_of s hs]

/-- What `Received` asks, to be decided. -/
def takesB (s : State) (p source : Nat) (body : List Byte) : Bool :=
  decide (p < 4 ∧ (1 ≤ source ∧ source ≤ 14) ∧ body.length ≤ 56 ∧ s.routes.length = 14 ∧ (taken s p source).routes.length = 14) &&
    (s.admitFrame p source).isSome && terminals.all (fun d => (taken s p source).reachable d == s.reachable d)

theorem received_of {s : State} {p source : Nat} {body : List Byte} (h : takesB s p source body = true) :
    Received s p source body (taken s p source) := by
  unfold takesB at h
  simp only [Bool.and_eq_true, decide_eq_true_eq] at h
  obtain ⟨⟨⟨h1, h2, h3, h4, h5⟩, h6⟩, h7⟩ := h
  refine ⟨h1, h2, h3, ?_, reach_of h4 h5 h7⟩
  unfold taken
  cases ha : s.admitFrame p source with
  | none => rw [ha] at h6; cases h6
  | some v => rfl

/-! ### The manual's own figures -/

/-- R212's CRC-16 (8005h, preset FFFFh, not reflected): its published figure for "123456789" is AEE7h. -/
theorem test_check : crcBytes [0x31, 0x32, 0x33, 0x34, 0x35, 0x36, 0x37, 0x38, 0x39] = [0xAE#8, 0xE7#8] := by
  decide +kernel

/-- R171's table: 10 bytes for an IDLE; a 56-byte body as it stands and with every byte escaped. -/
theorem test_line_lengths : (lineBytes (idleFrame 1)).length = 10 ∧
    (escaped (List.replicate 56 0x11#8)).length = 56 ∧ (escaped (List.replicate 56 0x5A#8)).length = 112 := by
  decide +kernel

/-- R48: 155 ms is stored as 160; R63: the range is 20..1000. -/
theorem test_pulse : clampPulse 155 = 160 ∧ clampPulse 995 = 1000 ∧ clampPulse 0 = 20 ∧ clampPulse 1001 = 1000 := by
  decide

/-- The worked example "the requirement at its limits". -/
theorem test_requirement : requirementOf 14000 15000 1536 200 500 = 500 ∧ requirementOf 15000 15000 1536 200 500 = 500 ∧
    requirementOf 15001 15000 1 0 0 = 1 ∧ requirementOf 16024 15000 1024 0 0 = 1024 ∧
    requirementOf 15200 15000 1536 0 500 = 500 ∧ requirementOf 20000 15000 0 3000 1200 = 3000 ∧
    requirementOf 60000 (-60000) 4095 10000 0 = 65535 ∧ requirementOf 60000 (-60000) 4095 10000 65535 = 65535 := by
  decide

/-- The record and the action table of the worked example "requirement and selection". -/
def example5356 (cap : Nat) (q : Int) : State × Scheme × HomePart :=
  let local_ := fun (n o v : Nat) (slot : Option Nat) (av : SiteAvail) =>
    ({ ref := ⟨1, n⟩, nominal := v, kind := .localEntry o slot 20 av } : ActionEntry)
  let mirror := fun (n v : Nat) =>
    ({ ref := ⟨2, n⟩, nominal := v, kind := .mirror (some .inService) (some v) (some 99999) (some 0) } : ActionEntry)
  let h : HomePart := {
    homeOf7 with
    form := .measured true 30 15000 1536, margin := 200, floor := 500, cap := cap }
  ({ small .run with
      actions := [local_ 1 0 2100 none .inService, mirror 2 1850, local_ 3 1 1700 none .tripped,
        local_ 4 2 100 (some 29) .inService, mirror 5 1400, local_ 6 3 900 none .inService],
      slots := ((small .run).slots.set 30 { emptySlot with source := .station, value := q, quality := .good, goodAt := some 0 }).set
        29 { emptySlot with source := .station, value := -35, quality := .good, goodAt := some 0 } },
   { record7 .armed h with actions := [⟨1, 1⟩, ⟨2, 2⟩, ⟨1, 3⟩, ⟨1, 4⟩, ⟨2, 5⟩, ⟨1, 6⟩] }, h)

/-- What an evaluation of the example shows: requirement, selection, sum, SHORTFALL. -/
def shown5356 (cap : Nat) (q : Int) : Option (Nat × List ActionRef × Nat × Bool) :=
  let x := example5356 cap q
  let sc := x.1.evaluate x.2.1 x.2.2
  match sc.part with
  | .home h => some (h.requirement, sc.selection, h.sum, h.shortfall)
  | .copy _ => none

/-- The worked example "requirement and selection": cap 4, cap 3, and the flow fallen to 16200. -/
theorem test_selection :
    shown5356 4 18437 = some (5356, [⟨1, 1⟩, ⟨2, 2⟩, ⟨2, 5⟩, ⟨1, 6⟩], 6250, false) ∧
    shown5356 3 18437 = some (5356, [⟨1, 1⟩, ⟨2, 2⟩, ⟨2, 5⟩], 5350, true) ∧
    shown5356 4 16200 = some (2000, [⟨1, 1⟩], 2100, false) := by
  decide +kernel

/-- R214, byte by byte: ARM is 12h, its body length 0001h, its body the scheme id; EXECUTION READ is 48h with two bytes. -/
theorem test_decode_command :
    decodeFrame ([0x12#8, 0x00#8, 0x01#8, 0x07#8] ++ crcBytes [0x12, 0x00, 0x01, 0x07]) 6 = .command (.arm 7) ∧
    decodeFrame ([0x48#8, 0x00#8, 0x02#8, 0xFF#8, 0x01#8] ++ crcBytes [0x48, 0x00, 0x02, 0xFF, 0x01]) 7 =
      .command (.executionRead 255 1) ∧
    decodeFrame ([0x12#8, 0x00#8, 0x01#8, 0x07#8] ++ crcBytes [0x13, 0x00, 0x01, 0x07]) 6 = .refused .check ∧
    decodeFrame ([0x12#8, 0x00#8, 0x00#8] ++ crcBytes [0x12, 0x00, 0x00]) 5 = .refused .length := by
  decide +kernel

/-- R213, byte by byte: a CONTINGENCY of input 15 ASSERTED; an UPDATE of scheme 7, generation 258, ARMED with closes-firing,
ALL of two references within 10 ms, one action, selected, terminals 1 and 2, posture HOLD, interval 600 s. -/
theorem test_read_bodies :
    readContingency [0x0F#8, 0x01#8] = some (15, true) ∧ readContingency [0x10#8, 0x01#8] = none ∧
    readUpdate [0x07#8, 0x01#8, 0x02#8, 0x82#8, 0x82#8, 0x00#8, 0x0A#8, 0x10#8, 0x2F#8, 0x01#8, 0x02#8, 0x60#8, 0x00#8,
        0x01#8, 0x00#8, 0x06#8, 0x02#8, 0x02#8, 0x58#8] = some {
      id := 7, generation := 258, life := .armed, closes := true,
      trigger := { refs := [⟨1, 0⟩, ⟨2, 15⟩], all := true, window := 10 }, actions := [⟨2, 96⟩], selection := [⟨2, 96⟩],
      participants := [1, 2], posture := .hold, interval := 600, autoDisarm := false, stale := false } := by
  decide +kernel

/-! ### One command on a small part -/

/-- What a command leaves. -/
def after (i : Instr) (s : State) : State :=
  match exec i s with
  | .next t => t
  | .fault _ => State.reset
  | .refused _ => State.reset

/-- A slot's life state and generation after a command. -/
def lifeAfter (i : Instr) (s : State) (slot : Nat) : Option (Life × Nat) :=
  ((after i s).schemeAt slot).map (fun sc => (sc.life, sc.generation))

/-- The event that a command leaves its item in. -/
def itemAfter (i : Instr) (s : State) (e : Event) : Option Nat :=
  ((after i s).events[eventPlace e]?).bind EventFlag.item

/-- The kinds of the frames that a command leaves in port 0's queues. -/
def queuedAfter (i : Instr) (s : State) : List FrameKind :=
  let p := (after i s).portAt 0
  (p.urgent ++ p.routine).map (fun q => q.frame.kind)

/-- The code of the response a command leaves. -/
def codeAfter (i : Instr) (s : State) : Option Byte :=
  match (after i s).buffer with
  | .held r _ => r.head?
  | _ => none

/-- ARM a DORMANT record: ARMED with one bump, an UPDATE to its participant (R16, R27, R142). -/
theorem test_arm : lifeAfter (.arm 7) (both .run .dormant .dormant) 0 = some (.armed, 2) ∧
    queuedAfter (.arm 7) (both .run .dormant .dormant) = [.update] := by decide +kernel

/-- BLOCK, UNBLOCK, RESET SPENT (R18 to R20); RETIRE sends RETIRE (R21). -/
theorem test_lives : lifeAfter (.block 7) (both .run .armed .dormant) 0 = some (.blocked, 2) ∧
    lifeAfter (.unblock 7) (both .run .blocked .dormant) 0 = some (.armed, 2) ∧
    lifeAfter (.retire 7) (both .run .spent .dormant) 0 = some (.retiring, 1) ∧
    queuedAfter (.retire 7) (both .run .spent .dormant) = [.retire] := by decide +kernel

/-- The qualify timer's expiry fires the record and the copy that name the input. The record's selection is empty, so its
execution completes at once and it is armed again, with one bump; the copy is FIRED, the output energized for 20 ms; the
notice, the FIRED REPORT, the UPDATE and the status go out by class and kind (R100, R113, R116, R120, R132, R175). -/
theorem test_firing :
    lifeAfter (.qualifyTimerExpiry 15) (both .run .armed .armed) 0 = some (.armed, 2) ∧
    lifeAfter (.qualifyTimerExpiry 15) (both .run .armed .armed) 1 = some (.fired, 3) ∧
    ((after (.qualifyTimerExpiry 15) (both .run .armed .armed)).outputAt 0).pulse = some (7680 + 5120) ∧
    queuedAfter (.qualifyTimerExpiry 15) (both .run .armed .armed) =
      [.contingency, .firedReport, .update, .actionStatus] := by decide +kernel

/-- The dropout timer's expiry releases input 14; the repeat timer's sends nothing where no scheme names it (R100, R103). -/
theorem test_inputs : ((after (.dropoutTimerExpiry 14) (small .run)).inputAt 14).state = .released ∧
    ((after (.repeatTimerExpiry 14) (small .run)).inputAt 14).state = .asserted 0 (some 7680) (7680 + 20 * 256) ∧
    ((after (.inputLevelChange 13 true) (small .run)).inputAt 13).state = .asserted 120 none (7680 + 20 * 256) := by
  decide +kernel

/-- QUANTITY POST saturates, with ADJUSTED; a peer's slot is refused with STATE (R36, R37, R193). -/
theorem test_post : ((after (.quantityPost [(0, 70000)]) (small .run)).slotAt 0).value = 60000 ∧
    ((after (.quantityPost [(0, 70000)]) (small .run)).slotAt 0).quality = .good ∧
    codeAfter (.quantityPost [(31, 5)]) (small .run) = some 7#8 := by decide +kernel

/-- SLOT EXPIRY makes the slot STALE and raises QUANTITY STALE with its number (R39). -/
theorem test_slot_expiry : ((after (.slotExpiry 30) (small .run)).slotAt 30).quality = .stale ∧
    itemAfter (.slotExpiry 30) (small .run) .quantityStale = some 30 := by decide +kernel

/-- A CONTINGENCY asserts the remote entry for 60 ms and fires the copy (R107, R116). -/
theorem test_contingency : ((after (.contingency 0 2 [0x0F, 0x01]) (both .run .dormant .armed)).findRemote ⟨2, 15⟩).bind
      RemoteEntry.asserted = some (120, 7680 + 60 * 256) ∧
    lifeAfter (.contingency 0 2 [0x0F, 0x01]) (both .run .dormant .armed) 1 = some (.fired, 3) := by decide +kernel

/-- A TRIP ORDER trips the action and is acknowledged, the copy FIRED; a test order leaves it (R129, R59). -/
theorem test_trip_order : lifeAfter (.tripOrder 0 2 [9, 0, 3, 0, 1, 1]) (both .run .dormant .dormant) 1 = some (.fired, 3) ∧
    queuedAfter (.tripOrder 0 2 [9, 0, 3, 0, 1, 1]) (both .run .dormant .dormant) = [.orderAck, .actionStatus] ∧
    lifeAfter (.tripOrder 0 2 [9, 0, 3, 1, 1, 1]) (both .run .dormant .dormant) 1 = some (.dormant, 3) := by
  decide +kernel

/-- A RETIRE from the copy's home empties the slot and is acknowledged; a DISOWN raises COPY DISOWNED (R156, R159). -/
theorem test_removal : lifeAfter (.retireFrame 0 2 [9]) (both .run .dormant .dormant) 1 = none ∧
    queuedAfter (.retireFrame 0 2 [9]) (both .run .dormant .dormant) = [.retireAck] ∧
    lifeAfter (.disown 0 2 [9]) (both .run .dormant .dormant) 1 = none ∧
    itemAfter (.disown 0 2 [9]) (both .run .dormant .dormant) .copyDisowned = some 9 := by decide +kernel

/-- A FIRED REPORT about no record here is answered DISOWN (R124, R158); an ECHO with its body (R184). -/
theorem test_answers : queuedAfter (.firedReport 0 2 [8, 0, 1, 0]) (both .run .dormant .dormant) = [.disown] ∧
    queuedAfter (.echo 0 2 [5]) (small .run) = [.echoReply] := by decide +kernel

/-- An ACCEPT of the present generation ends the round: CURRENT, nothing in flight (R143, R145). -/
theorem test_accept : ((after (.updateReply 0 2 [7, 0, 1, 1, 0]) (inRound .dormant (engagedAt 2 1) .update)).findHome 7).map
    (fun x => (x.2.2.statuses.map Participant.status, x.2.2.round)) = some ([.current], .none) := by decide +kernel

/-- The fifth silent window of an UP port fails it: STARTING, FAILED, PORT HEALTH (R181). -/
theorem test_window_end :
    (let s : State := { small .run with ports := [{ upPort with silent := 4 }, closedPort, closedPort, closedPort] }
     ((after (.windowEnd 0 false) s).portAt 0).state = .starting ∧
     ((after (.windowEnd 0 false) s).portAt 0).health = some .failed ∧
     itemAfter (.windowEnd 0 false) s .portHealth = some 0) := by decide +kernel

/-- A START with heard set takes a STARTING port to UP; one under this terminal's own number is ADDRESS CLASH (R166, R167). -/
theorem test_start : ((after (.start 2 3 1) (small .run)).portAt 2).state = .up ∧
    ((after (.start 2 3 1) (small .run)).portAt 2).health = some .degraded ∧
    ((after (.start 2 1 1) (small .run)).portAt 2).clash = true ∧
    ((after (.start 2 1 1) (small .run)).portAt 2).state = .starting := by decide +kernel

/-- An IDLE goes out of an UP port 2 ms after its last frame; at 256 kbit/s its 10 bytes last 80 ticks (R171). -/
theorem test_idle_due : ((after (.idleDue 0) (small .run)).portAt 0).tx = .sending .idle (7680 + 80) := by decide +kernel

/-- PORT OPEN on a CLOSED port; PORT TEST counts its number from 0 to 1 (R165, R183). -/
theorem test_links : ((after (.portOpen 3) (small .run)).portAt 3).state = .starting ∧
    codeAfter (.portOpen 4) (small .run) = some 3#8 ∧ (after (.portTest 2) (small .run)).testNumber = 1 ∧
    (after (.portTest 2) (small .run)).test = .outstanding 2 7680 (7680 + 25600) ∧
    (after (.portTest 3) (small .run)).test = .notSent := by decide +kernel

/-- MODE before anything else (R193): ARM in CONFIG; PORT LOOPBACK in RUN. UNKNOWN without the record. -/
theorem test_refusals : codeAfter (.arm 0) State.reset = some 4#8 ∧ codeAfter (.portLoopback 9) (small .run) = some 4#8 ∧
    codeAfter (.arm 8) (both .run .dormant .dormant) = some 5#8 ∧
    codeAfter (.arm 9) (both .run .dormant .dormant) = some 6#8 := by decide +kernel

/-- A FULL RESET puts the part in CONFIG with no terminal number and an empty buffer (R203). -/
theorem test_full_reset : (after .fullReset (both .run .armed .armed)).mode = .config ∧
    (after .fullReset (both .run .armed .armed)).own = 0 ∧ (after .fullReset (both .run .armed .armed)).held = [] := by
  decide +kernel

/-! ### Witnesses: the hypotheses of the statements, clause by clause -/

/-- Scheme 7 at home and scheme 9 as a copy, DORMANT; ARMED; DORMANT in MAINTENANCE. -/
def idle79 : State := both .run .dormant .dormant
def armed79 : State := both .run .armed .armed
def tested79 : State := both .maintenance .dormant .dormant

/-- A RUN part with nothing in its tables and its ports CLOSED. -/
def bareRun : State := { State.reset with mode := .run, settings := { defaultSettings with terminal := 1 } }

theorem idle79_rest : idle79.AtRest := atRest_of (by decide +kernel)
theorem armed79_rest : armed79.AtRest := atRest_of (by decide +kernel)
theorem tested79_rest : tested79.AtRest := atRest_of (by decide +kernel)
theorem small_rest : (small .run).AtRest := atRest_of (by decide +kernel)

theorem idle79_takes (body : List Byte) (h : body.length ≤ 56) : Received idle79 0 2 body (taken idle79 0 2) := by
  obtain ⟨h1, h2, _, h4, h5⟩ := received_of (s := idle79) (p := 0) (source := 2) (body := []) (by decide +kernel)
  exact ⟨h1, h2, h, h4, h5⟩

theorem homes_of {s : State} {P : Scheme → HomePart → Prop} [∀ sc h, Decidable (P sc h)]
    (hall : s.held.all (fun sc =>
      match sc.part with
      | .home h => decide (P sc h)
      | .copy _ => true) = true) : ∀ sc ∈ s.held, ∀ h, sc.part = .home h → P sc h := by
  intro sc hs h hp
  have := List.all_eq_true.1 hall sc hs
  rw [hp] at this
  exact of_decide_eq_true this

/-- Whether a step has a next state. -/
def steps (s : State) : Bool :=
  match step s with
  | .next _ => true
  | _ => false

theorem steps_of {s : State} (h : steps s = true) : ∃ t, step s = .next t := by
  unfold steps at h
  split at h
  · exact ⟨_, ‹_›⟩
  · cases h

/-- A part about to fire record and copy; one about to leave MAINTENANCE; one about to leave CONFIG. -/
def firingNext : State := { armed79 with pending := [.qualifyTimerExpiry 15] }
def exitNext : State := { tested79 with pending := [.maintenanceExit], outputs := State.reset.outputs }
def completeNext : State := {
  State.reset with
  settings := { defaultSettings with terminal := 14 }, pending := [.settingsComplete] }

theorem witness_IdleStepIsOneTick : idle79.pending = [] := by decide +kernel

theorem witness_EveryCommandCompletes : (Instr.recordLoad largestLoad).wf = true ∧ (Instr.inputLevelChange 15 true).wf = true ∧
    (Instr.fetch 0).wf = true ∧ Instr.contingency 4 2 [] ∈ [Instr.contingency 4 2 []] ∧ 16 ≤ 16 ∧ 32 ≤ 32 ∧ 8 ≤ 8 ∧ 4 ≤ 4 := by
  decide +kernel

theorem witness_StepKeepsBounds : ∃ t, step firingNext = .next t ∧ firingNext.Shaped ∧ firingNext.QueuesFit ∧
    firingNext.ValuesInRange := by
  obtain ⟨t, h⟩ := steps_of (s := firingNext) (by decide +kernel)
  refine ⟨t, h, ⟨?_, ?_, ?_, ?_, ?_, ?_, ?_, ?_, ?_⟩, ?_, ?_⟩
  all_goals first | (unfold State.QueuesFit; decide +kernel) | (unfold State.ValuesInRange; decide +kernel) | decide +kernel

theorem witness_StepKeepsMaintenanceStill : ∃ t, step exitNext = .next t ∧ exitNext.MaintenanceStill ∧
    exitNext.mode = .maintenance := by
  obtain ⟨t, h⟩ := steps_of (s := exitNext) (by decide +kernel)
  exact ⟨t, h, by unfold State.MaintenanceStill; decide +kernel, by decide +kernel⟩

theorem witness_StepKeepsAtRest : (∃ t, step firingNext = .next t ∧ firingNext.AtRest ∧ firingNext.ConfigBare) ∧
    ∃ t, step completeNext = .next t ∧ completeNext.AtRest ∧ completeNext.ConfigBare := by
  obtain ⟨t, h⟩ := steps_of (s := firingNext) (by decide +kernel)
  obtain ⟨u, h'⟩ := steps_of (s := completeNext) (by decide +kernel)
  exact ⟨⟨t, h, atRest_of (by decide +kernel), by unfold State.ConfigBare; decide +kernel⟩,
    u, h', atRest_of (by decide +kernel), by unfold State.ConfigBare; decide +kernel⟩

theorem witness_StepKeepsIdsUnique : ∃ t, step firingNext = .next t ∧ firingNext.IdsUnique := by
  obtain ⟨t, h⟩ := steps_of (s := firingNext) (by decide +kernel)
  exact ⟨t, h, by unfold State.IdsUnique; decide +kernel⟩

theorem witness_StepKeepsSelectionsCurrent : ∃ t, step firingNext = .next t ∧ firingNext.SelectionsCurrent := by
  obtain ⟨t, h⟩ := steps_of (s := firingNext) (by decide +kernel)
  exact ⟨t, h, homes_of (P := fun sc h => sc.selection.Sublist sc.actions ∧ sc.selection.length ≤ h.cap ∧
    (∀ r ∈ sc.selection, (firingNext.selectable r).isSome = true) ∧ h.shortfall = decide (h.sum < h.requirement))
    (by decide +kernel)⟩

theorem witness_StepKeepsArmedCalledFor : ∃ t, step firingNext = .next t ∧ firingNext.ArmedCalledFor := by
  obtain ⟨t, h⟩ := steps_of (s := firingNext) (by decide +kernel)
  exact ⟨t, h, homes_of (P := fun sc h => sc.life = .armed →
    h.armingResult = true ∧ ¬ (sc.stale = true ∧ sc.posture = .disarm)) (by decide +kernel)⟩

/-- Whether a command completes and changes the mode. -/
def moves (i : Instr) (s : State) : Bool :=
  match exec i s with
  | .next t => t.mode != s.mode
  | _ => false

theorem witness_DeviceMode :
    (moves .fullReset armed79 = true ∧ moves .settingsComplete completeNext = true ∧ moves .reconfigure bareRun = true ∧
      moves .maintenanceEnter bareRun = true ∧ moves .maintenanceExit tested79 = true) ∧
    (armed79.pending = [] ∧ steps armed79 = true) ∧
    (stationModes (.portLoopback 3) = some [.maintenance] ∧ bodyStands (.portLoopback 3) = true ∧
      armed79.mode ∉ [Mode.maintenance] ∧ tested79.mode ∈ [Mode.maintenance]) := by decide +kernel

theorem witness_RefusalsChangeNothing : stationModes (.arm 0) = some [.run, .maintenance] ∧
    exec (.arm 0) idle79 = .next (idle79.respond .range false []) ∧ Code.range ≠ .done :=
  ⟨by decide, by rfl, by decide⟩

/-- Scheme 7 with a COMPUTED form. -/
def computed7 : Scheme := record7 .dormant { homeOf7 with form := .computed 30 100 50 0 1024 }

theorem witness_RecordCommandChecks :
    State.reset.mode = .config ∧ idle79.mode ≠ .config ∧ idle79.findScheme 255 = none ∧ idle79.findScheme 0 = none ∧
    { largestLoad with schemeId := 0 }.schemeId = 0 ∧
    idle79.findScheme 9 = some (1, copy9 .dormant) ∧ (copy9 .dormant).isHome = false ∧
    (∀ l ∈ [Life.dormant, .armed, .fired, .spent, .blocked, .retiring],
      (both .run l .dormant).findScheme 7 = some (0, record7 l homeOf7) ∧ (record7 l homeOf7).isHome = true) ∧
    (with7 .run computed7 (copy9 .armed)).findScheme 7 = some (0, computed7) ∧
    computed7.part = .home { homeOf7 with form := .computed 30 100 50 0 1024 } := by decide +kernel

/-- The small part with one value in slot 31. -/
def valued (q : Int) : State := {
  small .run with
  slots := (small .run).slots.set 31 { emptySlot with source := .station, value := q, quality := .good, goodAt := some 0 } }

/-- Scheme 7's home part with another form. -/
def formed (f : Form) : HomePart := { homeOf7 with form := f, margin := 10000, floor := 65535 }

theorem witness_RequirementOfGoodQuantity :
    ((formed (.measured true 31 (-60000) 4095)).form.monitored = some 31 ∧
      (formed (.measured true 31 (-60000) 4095)).form.limitAndK = some (-60000, 4095) ∧ (valued 60000).goodValue 31 = some 60000 ∧
      (0 : Int) < 60000 - (-60000) ∧ (formed (.measured true 31 (-60000) 4095)).margin ≤ 10000) ∧
    (formed (.computed 31 5 5 100 0)).form.monitored = some 31 ∧
    (formed (.computed 31 5 5 100 0)).form.limitAndK = some (100, 0) ∧ (valued 100).goodValue 31 = some 100 ∧
    (valued 101).goodValue 31 = some 101 := by decide +kernel

theorem witness_RequirementHeld : (formed (.computed 31 5 5 100 0)).form.monitored = some 31 ∧
    (small .run).goodValue 31 = none ∧ (formed (.fixed true)).form.monitored = none := by decide +kernel

theorem witness_ArmingResult : (100 : Int) ≤ 100 ∧ (valued 100).goodValue 31 = some 100 ∧ (valued 99).goodValue 31 = some 99 ∧
    (valued 99).goodValue 31 = some 99 ∧ (valued 0).goodValue 31 = some 0 ∧ (small .run).goodValue 31 = none ∧
    (formed (.computed 31 100 100 0 0)).form = .computed 31 100 100 0 0 ∧
    (formed (.computed 31 100 99 0 0)).form = .computed 31 100 99 0 0 ∧
    (formed (.measured false 31 0 0)).form = .measured false 31 0 0 ∧ (formed (.fixed true)).form = .fixed true := by
  decide +kernel

theorem witness_SelectionWalk : (List.replicate 12 (⟨1, 1⟩ : ActionRef)).length ≤ 12 ∧
    ∀ a ∈ (small .run).actions, (small .run).effective a ≤ 65535 := by decide +kernel

theorem witness_LifeStateCalledFor : (record7 .dormant homeOf7).life = .dormant ∧ (record7 .armed homeOf7).life = .armed ∧
    (record7 .fired homeOf7).life ≠ .dormant ∧ (record7 .fired homeOf7).life ≠ .armed := by decide

/-- One LOCAL action, at the last output. -/
def lastAction (m : Mode) (av : SiteAvail) : State := {
  small m with
  actions := [{ ref := ⟨1, 96⟩, nominal := 50, kind := .localEntry 15 none 20 av }] }

theorem witness_TripRequest : (lastAction .run .inService).findLocal 95 = none ∧
    (∀ m ∈ [Mode.run, .maintenance], ∀ av ∈ [SiteAvail.inService, .blocked, .tripped],
      (lastAction m av).findLocal 96 = some { ref := ⟨1, 96⟩, nominal := 50, kind := .localEntry 15 none 20 av }) ∧
    (lastAction .maintenance .inService).mode = .maintenance ∧ (lastAction .run .inService).mode ≠ .maintenance ∧
    15 < (lastAction .run .inService).outputs.length := by decide +kernel

theorem witness_SatisfiedSets : (copy9 .armed).trigger.all = false ∧
    (⟨[⟨1, 14⟩], true, 2000⟩ : TriggerSet).all = true ∧ (⟨[⟨1, 14⟩], true, 2000⟩ : TriggerSet).window ≠ 0 ∧
    (small .run).satisfied ⟨[⟨1, 14⟩], true, 2000⟩ = true ∧
    ((⟨1, 14⟩ : TrigRef).terminal = idle79.own ∧ (idle79.inputs[14]?).map Input.state = some (.asserted 0 (some 7680) 7680)) ∧
    ((⟨2, 15⟩ : TrigRef).terminal ≠ idle79.own ∧ idle79.findRemote ⟨2, 14⟩ = none ∧
      idle79.findRemote ⟨2, 15⟩ = some { ref := ⟨2, 15⟩, asserted := none }) ∧
    (idle79.remote.map RemoteEntry.ref).Nodup := by decide +kernel

/-- The largest frame, at either end of the hop limit. -/
def largestFrame (hop : Nat) : Frame :=
  { destination := 14, source := 14, kind := .update, hop := hop, body := List.replicate 56 0x5A#8 }

theorem witness_LineRoundTrip : ∀ hop ∈ [1, 7], (largestFrame hop).source ∈ terminals ∧ (largestFrame hop).destination ∈ terminals ∧
    1 ≤ (largestFrame hop).hop ∧ (largestFrame hop).hop ≤ 7 ∧ (largestFrame hop).body.length ≤ 56 := by decide

/-- The record with the longest UPDATE. -/
def largestScheme : Scheme := {
  record7 .spent homeOf7 with
  id := 255, generation := 65535, trigger := { refs := List.replicate 4 ⟨14, 15⟩, all := true, window := 2000 },
  actions := (List.range 12).map (fun n => ⟨14, 96 - n⟩), selection := [⟨14, 96⟩, ⟨14, 85⟩], participants := terminals }

theorem witness_UpdateBodyRoundTrip : largestScheme.id < 256 ∧ 1 ≤ largestScheme.id ∧ 1 ≤ largestScheme.generation ∧
    largestScheme.generation < 65536 ∧ largestScheme.life ≠ .retiring ∧ 1 ≤ largestScheme.trigger.refs.length ∧
    largestScheme.trigger.refs.length ≤ 4 ∧ (∀ r ∈ largestScheme.trigger.refs, trigRefInRange r = true) ∧
    windowInRange largestScheme.trigger.window = true ∧ (largestScheme.trigger.all = false → largestScheme.trigger.window = 0) ∧
    1 ≤ largestScheme.actions.length ∧ largestScheme.actions.length ≤ 12 ∧
    (∀ r ∈ largestScheme.actions, actionRefInRange r = true) ∧ largestScheme.actions.Nodup ∧
    largestScheme.selection.Sublist largestScheme.actions ∧ largestScheme.participants.Sublist terminals ∧
    largestScheme.interval ≤ 600 := by decide +kernel

theorem witness_BodyRoundTrips : 15 ≤ 15 ∧ 1 ≤ 255 ∧ 255 < 256 ∧ 1 ≤ 65535 ∧ 65535 < 65536 ∧
    (∀ p ∈ List.replicate 12 (96, Result.test), 1 ≤ p.1 ∧ p.1 ≤ 96 ∧ p.2 ≠ .missing ∧ p.2 ≠ .trippedLate) ∧
    (∀ n ∈ List.replicate 12 96, 1 ≤ n ∧ n ≤ 96) ∧
    (∀ p ∈ List.replicate 16 (255, 65535), p.1 < 256 ∧ p.2 < 65536) ∧
    (∀ p ∈ List.replicate 11 ((255, 65535, some 65535) : Nat × Nat × Option Nat),
      p.1 < 256 ∧ p.2.1 < 65536 ∧ p.2.2.all (fun c => 1 ≤ c ∧ c < 65536) = true) ∧
    (∀ p ∈ List.replicate 8 ((31, -60000, Quality.invalid) : Nat × Int × Quality),
      p.1 < 256 ∧ -60000 ≤ p.2.1 ∧ p.2.1 ≤ 60000 ∧ p.2.2 ≠ .unset) ∧
    (∀ p ∈ List.replicate 12 ((96, SiteAvail.tripped, 65535) : Nat × SiteAvail × Nat), p.1 < 256 ∧ p.2.2 < 65536) := by
  decide

theorem witness_CommandFrameTests_bodies :
    (∀ v ∈ [-2147483648, 2147483647, (0 : Int)], -2147483648 ≤ v ∧ v < 2147483648) ∧ (∀ n ∈ [0, 65535], n < 65536) ∧
    255 < 256 ∧ 4294967295 < 4294967296 ∧ (List.replicate 255 (255, (-1 : Int))).length < 256 ∧
    (∀ i ∈ [(255, List.replicate 255 0#8)], i.1 < 256 ∧ i.2.length < 256) ∧
    (∀ n ∈ [largestLoad.schemeId, largestLoad.slot, largestLoad.cap, largestLoad.group], n < 256) ∧
    (∀ r ∈ largestLoad.refs, r.terminal < 16 ∧ r.input < 16) ∧
    (∀ r ∈ largestLoad.actions, r.site < 256 ∧ r.number < 256) ∧ (List.replicate 33 0#8).length ≠ 32 + 0 + 2 * 0 ∧
    ∀ items : List (Nat × List Byte), [1#8] ≠ items.flatMap (fun i => u8 i.1 ++ u8 i.2.length ++ i.2) := by
  refine ⟨by decide, by decide, by decide, by decide, ?_, ?_, by decide, by decide, by decide, by decide, ?_⟩
  · rw [List.length_replicate]; omega
  · intro i hi
    rw [List.mem_singleton] at hi
    rw [hi, List.length_replicate]
    omega
  intro items h
  have := congrArg List.length h
  cases items with
  | nil => simp at this
  | cons i l => simp [u8] at this

theorem witness_CommandFrameTests : (crcBytes [0x02, 0, 0]).length = 2 ∧ (List.replicate 512 0#8).length ≤ 512 ∧
    512 < (List.replicate 513 0#8).length ∧ (List.replicate 513 0#8).length < 65536 ∧ (6 ≠ 0 + 5) ∧
    512 < nat16 0x02 0x01 ∧ 6 ≠ nat16 0x00 0x00 + 5 ∧
    [0#8, 0#8] ≠ crcBytes [0x02, 0, 0] ∧ bareCommand 0xFF = none ∧ byteCommand 0xFF = none ∧ pairCommand 0xFF = none ∧
    0xFF ∉ [0x10, 0x11, 0x20, 0x21, 0x22, 0x30, 0x40, 0x55, 0x61, 0x62, 0x70] ∧ (byteCommand 0x12).isSome = true := by
  decide +kernel

/-- The small part with another buffer. -/
def buffered (b : Buffer) : State := { small .run with buffer := b }

theorem witness_FetchAndBusy : (buffered (.processing [0x12] 1 7680)).buffer = .processing [0x12] 1 7680 ∧
    1 = [(0xA0#8 : Byte)].length ∧ (buffered (.held [0x01] false)).buffer = .held [0x01] false ∧
    1 = ([] : List Byte).length + 1 ∧ 2 = [(0#8 : Byte)].length + 1 ∧ (small .run).buffer = .empty ∧ 1 ≤ 1 := by decide +kernel

theorem witness_CommandTransaction :
    decodeFrame ([0x12#8, 0x00#8, 0x01#8, 0x07#8] ++ crcBytes [0x12, 0x00, 0x01, 0x07]) 6 = .command (.arm 7) ∧
    decodeFrame [0x12#8, 0x00#8, 0x01#8] 3 = .refused .length ∧
    (buffered (.processing [0x12, 0x00, 0x01] 3 7680)).buffer = .processing [0x12, 0x00, 0x01] 3 7680 ∧
    (small .run).isProcessing = false ∧ [0x12#8, 0x00#8].head? ≠ some fetchCode ∧ [0x12#8, 0x00#8].length < 3 ∧
    3 ≤ [0x12#8, 0x00#8, 0x01#8].length ∧ (buffered (.held [0x01] true)).buffer = .held [0x01] true := by decide +kernel

theorem witness_EventCommands : 1023 < 1024 ∧ 1024 ≤ 1024 ∧ (small .run).events[9]? = some { item := none, enable := false } := by
  decide +kernel

theorem witness_ReadsChangeNothing : idle79.mode ≠ .config ∧ idle79.findScheme 7 = some (0, record7 .dormant homeOf7) ∧
    idle79.findScheme 9 = some (1, copy9 .dormant) ∧ (1 ≤ 14 ∧ 14 ≤ 14 ∧ 1 ≤ 96 ∧ 96 ≤ 96) ∧ (15 ≤ 15) ∧ 31 ≤ 31 ∧ 3 ≤ 3 ∧
    (idle79.findAction ⟨2, 96⟩).isSome = true ∧ idle79.held[1]? = some (copy9 .dormant) ∧ (31 < 32 ∧ 32 ≠ 255) ∧
    (15 < 16 ∧ 16 ≠ 255) ∧ (3 < 4 ∧ 4 ≠ 255) ∧ idle79.findAction ⟨14, 96⟩ = none ∧
    ¬ (1 ≤ 15 ∧ 15 ≤ 14 ∧ 1 ≤ 96 ∧ 96 ≤ 96) ∧ ¬ (255 = 255 ∧ 96 = 255) ∧ (idle79.slots[31]?).isSome = true ∧
    (idle79.outputs[15]?).isSome = true ∧ (idle79.inputs[15]?).isSome = true ∧ idle79.ports[3]? = some closedPort := by
  decide +kernel

theorem witness_ExecutionRead : (7 ≤ 7 ∨ 7 = 255) ∧ (255 ≤ 7 ∨ 255 = 255) ∧ 0 ≤ 1 ∧ 1 ≤ 1 ∧ (7 < 8 ∧ 8 ≠ 255) ∧ 1 < 2 := by
  decide

/-- What R204 refuses with RANGE: a number that names no setting, one named twice, a bad terminal number, a bad list. -/
theorem witness_SettingsWrite_refused :
    [(0, []), (18, [0#8])].all settingLengthOk = true ∧ (∃ i ∈ [(18, [0#8])], i.1 = 0 ∨ 17 < i.1) ∧
    ¬ ([(2, [1#8]), (2, [1#8])].map Prod.fst).Nodup ∧ [(2, [1#8]), (2, [1#8])].all settingLengthOk = true ∧
    (1, [15#8]) ∈ [(1, [15#8])] ∧ 14 < (15#8).toNat ∧ (0#8).toNat = 0 ∧
    (8, List.replicate 15 1#8) ∈ [(8, List.replicate 15 1#8)] ∧ 14 < (List.replicate 15 1#8).length ∧
    (∃ a ∈ [14#8, 15#8], a.toNat = 0 ∨ 14 < a.toNat) ∧ [(1, [])].all settingLengthOk = false := by decide +kernel

/-- What it takes: W 90 with X 50, whose deadline is raised to 100, and a list with a terminal twice. -/
theorem witness_SettingsWrite : State.reset.mode = .config ∧
    (let items : List (Nat × List Byte) := [(11, [0, 90]), (12, [0, 50]), (1, [14]), (8, [14, 1, 14])]
     items.all settingLengthOk = true ∧ (∀ i ∈ items, ¬ (i.1 = 0 ∨ 17 < i.1)) ∧ (items.map Prod.fst).Nodup ∧
     (items.foldl Settings.take State.reset.settings).deadline = 50 ∧
     (items.foldl Settings.take State.reset.settings).reportWait = 90 ∧
     (items.foldl Settings.take State.reset.settings).publishList = [14, 1]) ∧
    3 ∈ [0, 1, 2, 3] ∧ nat16 0x08 0x00 ≤ 2048 ∧ 2048 < nat16 0x08 0x01 := by
  decide +kernel

/-! ### Witnesses: modes and records -/

/-- An OPEN execution of scheme 7, test or not, with site 2 in a given status; its timers run out now. -/
def exec7 (test : Bool) (st : SiteStatus) : Execution := {
  schemeId := 7, generation := 1, cause := .localFiring, test := test, firedAt := 5120, serial := 1,
  sites := [{ terminal := 2, status := st, actions := [(96, if st = .missed then some .missing else none)], extras := [],
              generation := none, latency := none }] }

def opened7 (test : Bool) (st : SiteStatus) : Context := .opened (exec7 test st) (some 7680) 7680
def complete7 (test : Bool) : Context := .complete (exec7 test .missed) 7000 .failed

/-- A part with a context in its last place. -/
def withContext (s : State) (c : Context) : State := s.setContext 7 c

/-- The RUN part with its outputs OPEN. -/
def openOutputs (m : Mode) (r c : Life) : State := { both m r c with outputs := State.reset.outputs }

theorem witness_ModeCommands :
    (completeNext.mode = .config ∧ completeNext.own ≠ 0 ∧ State.reset.mode = .config ∧ State.reset.own = 0) ∧
    (bareRun.mode = .run ∧ bareRun.held = [] ∧ bareRun.actions = [] ∧ (∀ q ∈ bareRun.slots, q.source = .none) ∧
      (∀ p ∈ bareRun.ports, p.state = .closed)) ∧
    ((∃ sc, sc ∈ idle79.held) ∧ (small .run).actions ≠ [] ∧ (∃ q ∈ (small .run).slots, q.source ≠ .none) ∧
      ∃ p ∈ (small .run).ports, p.state ≠ .closed) ∧
    ((openOutputs .run .dormant .dormant).mode = .run ∧
      (∀ c ∈ (openOutputs .run .dormant .dormant).contexts, c.isOpen = false) ∧
      (∀ o ∈ (openOutputs .run .dormant .dormant).outputs, o.pulse = none) ∧
      ∀ sc ∈ (openOutputs .run .dormant .dormant).held, sc.life ≠ .armed ∧ sc.life ≠ .fired) ∧
    (openOutputs .run .dormant .dormant).AtRest ∧
    ((∃ c ∈ (withContext idle79 (opened7 false .ordered)).contexts, c.isOpen = true) ∧
      (∃ o ∈ idle79.outputs, o.pulse ≠ none) ∧ ∃ sc ∈ armed79.held, sc.life = .armed ∨ sc.life = .fired) := by
  refine ⟨by decide +kernel, by decide +kernel, ⟨⟨copy9 .dormant, by decide +kernel⟩, by decide +kernel⟩, by decide +kernel,
    atRest_of (by decide +kernel), by decide +kernel⟩

/-- The MAINTENANCE part whose copy withholds FIRED. -/
def withheld9 : State := {
  with7 .maintenance (record7 .dormant homeOf7)
    { copy9 .dormant with part := .copy { summary := none, withheld := some .fired } } with
  outputs := State.reset.outputs.set 15 { pulse := none, indication := true } }

/-- The same with port 0 UP in loopback. -/
def looped9 : State := { withheld9 with ports := withheld9.ports.set 0 { upPort with loopback := true } }

theorem witness_MaintenanceExitEffects : withheld9.mode = .maintenance ∧ looped9.mode = .maintenance ∧
    (looped9.ports[0]? = some { upPort with loopback := true } ∧ upPort.state ≠ .closed) ∧
    (looped9.ports[3]? = some closedPort ∧ closedPort.loopback = false) := by decide +kernel

theorem witness_MaintenanceExit : (withheld9.mode = .maintenance ∧ (∀ p ∈ withheld9.ports, p.loopback = false)) ∧
    withheld9.AtRest ∧ ∀ c ∈ withheld9.contexts, ∀ x, c.openData = some x → x.test = false := by
  refine ⟨by decide +kernel, atRest_of (by decide +kernel), ?_⟩
  have h : ∀ c ∈ withheld9.contexts, c.openData = none := by decide +kernel
  intro c hc x hx
  rw [h c hc] at hx
  cases hx

/-- A load for scheme 8, or another id. -/
def load8 (id : Nat) (refs : List TrigRef) : LoadBody := {
  schemeId := id, source := 1, slot := 31, onAt := 60001, offAt := 60000, limit := -60001, k := 4096, m := 10001, f := 65535,
  mode := 2, window := 2001, refs := refs, actions := [⟨2, 96⟩, ⟨1, 1⟩], cap := 255, posture := 2, interval := 601, group := 7,
  autoDisarm := 1 }

def sat16 (v : Int) : Int := max (-60000) (min 60000 v)

/-- The range checks of RECORD LOAD, as its statement lists them. -/
def soundLoad (b : LoadBody) : Bool :=
  decide ((b.source = 1 ∨ b.source = 2) ∧ (b.slot ≤ 31 ∨ b.slot = 255) ∧ (b.source = 1 → b.slot ≠ 255)) &&
    decide (1 ≤ b.refs.length ∧ b.refs.length ≤ 4 ∧ (∀ r ∈ b.refs, 1 ≤ r.terminal ∧ r.terminal ≤ 14 ∧ r.input ≤ 15) ∧
      b.refs.Nodup ∧ (b.mode = 1 ∨ b.mode = 2)) &&
    decide (1 ≤ b.actions.length ∧ b.actions.length ≤ 12 ∧
      (∀ r ∈ b.actions, 1 ≤ r.site ∧ r.site ≤ 14 ∧ 1 ≤ r.number ∧ r.number ≤ 96) ∧ b.actions.Nodup) &&
    decide (b.cap ≠ 0 ∧ (b.posture = 1 ∨ b.posture = 2) ∧ b.group ≤ 7 ∧ (b.source = 1 → sat16 b.offAt ≤ sat16 b.onAt))

/-- The four references of a number: inputs 12 to 15 of a terminal above 2, or 8 to 11. -/
def fourRefs (n : Nat) : List TrigRef := (List.range 4).map (fun k => ⟨3 + n / 2, (if n % 2 = 0 then 12 else 8) + k⟩)

/-- The part with seven more copies, 29 remote references in all. -/
def crowded : State :=
  ((List.range 7).foldl (fun s n => s.putScheme (n + 2)
    (some { copy9 .dormant with id := n + 10, trigger := { refs := fourRefs n, all := false, window := 0 } })) idle79).syncRemote

/-- The part with a copy in every slot. -/
def full64 : State := {
  idle79 with schemes := (List.range 64).map (fun n => some { copy9 .dormant with id := n + 10 }) }

theorem witness_RecordLoad :
    (idle79.mode ≠ .config ∧ (load8 8 [⟨1, 15⟩]).schemeId ≠ 0 ∧ idle79.findScheme 8 = none) ∧
    (soundLoad (load8 8 (fourRefs 7)) = true ∧ soundLoad (load8 8 ((fourRefs 7).take 3)) = true ∧ soundLoad { load8 8 [⟨1, 15⟩] with slot := 32 } = false ∧
      soundLoad { load8 8 [⟨1, 15⟩] with group := 8 } = false ∧ soundLoad { load8 8 [⟨1, 15⟩] with offAt := 60000, onAt := 59999 } = false) ∧
    ((∀ r ∈ (load8 8 []).actions, (idle79.findAction r).isSome = true) ∧
      ¬ ∀ r ∈ (load8 8 []).actions, (bareRun.findAction r).isSome = true) ∧
    (crowded.remoteCountWith none ((fourRefs 7).take 3) = 32 ∧ crowded.emptySlotNo = some 9 ∧
      32 < crowded.remoteCountWith none (fourRefs 7) ∧ full64.emptySlotNo = none ∧ full64.findScheme 8 = none) ∧
    crowded.AtRest ∧
    (∀ l ∈ [Life.dormant, .spent, .blocked], (both .run l .dormant).findScheme 7 = some (0, record7 l homeOf7)) ∧
    (crowded.findScheme 7 = some (0, record7 .dormant homeOf7) ∧ crowded.remoteCountWith (some 0) ((fourRefs 7).take 3) ≤ 32 ∧
      32 < crowded.remoteCountWith (some 0) (fourRefs 7)) := by
  refine ⟨by decide +kernel, by decide +kernel, by decide +kernel, by decide +kernel, atRest_of (by decide +kernel),
    by decide +kernel, by decide +kernel⟩

theorem witness_LifeCommands :
    (idle79.mode ≠ .config ∧ idle79.findScheme 7 = some (0, record7 .dormant homeOf7) ∧
      (record7 .dormant homeOf7).part = .home homeOf7 ∧ homeOf7.form.directed = true) ∧
    armed79.findScheme 7 = some (0, record7 .armed homeOf7) ∧
    (∀ l ∈ [Life.spent, .blocked], (both .run l .dormant).findScheme 7 = some (0, record7 l homeOf7)) ∧
    ((with7 .run computed7 (copy9 .armed)).findScheme 7 = some (0, computed7) ∧
      (formed (.computed 30 100 50 0 1024)).form.directed = false ∧
      sat16 59999 < sat16 60000 ∧ sat16 60000 ≤ sat16 60001) ∧
    idle79.AtRest ∧ armed79.AtRest ∧ (both .run .spent .dormant).AtRest ∧ (both .run .blocked .dormant).AtRest ∧
    (with7 .run computed7 (copy9 .armed)).AtRest := by
  refine ⟨by decide +kernel, by decide +kernel, by decide +kernel, by decide +kernel, idle79_rest, armed79_rest,
    atRest_of (by decide +kernel), atRest_of (by decide +kernel), atRest_of (by decide +kernel)⟩

/-- A RETIRING record 7 in its retire round, and one whose participant no port leads to. -/
def retiring7 : State := inRound .retiring (engagedAt 2 1) .retire
def lonely7 : State := with7 .run { record7 .dormant { homeOf7 with statuses := [there 14] } with participants := [14] } (copy9 .armed)

theorem takes_of {s : State} {p source : Nat} (h : takesB s p source [] = true) {body : List Byte}
    (hb : body.length ≤ 56 := by decide) : Received s p source body (taken s p source) := by
  obtain ⟨h1, h2, _, h4, h5⟩ := received_of h
  exact ⟨h1, h2, hb, h4, h5⟩

theorem idle79_two : takesB idle79 0 2 [] = true := by decide +kernel
theorem retiring7_two : takesB retiring7 0 2 [] = true := by decide +kernel

theorem witness_RetireRound :
    (idle79.mode ≠ .config ∧ idle79.findScheme 7 = some (0, record7 .dormant homeOf7) ∧ (∃ p ∈ homeOf7.statuses, idle79.reachable p.terminal = true)) ∧
    (lonely7.findScheme 7 = some (0, { record7 .dormant { homeOf7 with statuses := [there 14] } with participants := [14] }) ∧
      ∀ p ∈ [there 14], lonely7.reachable p.terminal = false) ∧
    lonely7.AtRest ∧ retiring7.AtRest ∧
    Received retiring7 0 2 [7, 0] (taken retiring7 0 2) ∧ Received idle79 0 2 [8, 0] (taken idle79 0 2) ∧
    (readRetireAck [7, 0] = some (7, none) ∧ readRetireAck [8, 0] = some (8, none) ∧ (taken idle79 0 2).findHome 8 = none ∧
      ((taken idle79 0 2).findHome 7).map (fun x => x.2.2.part 2) = some (some (there 2)) ∧
      ((taken lonely7 0 2).findHome 7).map (fun x => x.2.2.part 2) = some none ∧
      ((taken retiring7 0 2).findHome 7).map (fun x => (x.2.1.life, x.2.2.round)) = some (.retiring, .retire) ∧
      ∃ p ∈ [{ engagedAt 2 1 with status := .current, retry := none }, engagedAt 14 1], p.status = .behind) := by
  refine ⟨by decide +kernel, by decide +kernel, atRest_of (by decide +kernel), atRest_of (by decide +kernel),
    takes_of retiring7_two, takes_of idle79_two, by decide +kernel⟩

theorem witness_RefreshAndLapse :
    (idle79.mode ≠ .config ∧ idle79.findScheme 7 = some (0, record7 .dormant homeOf7) ∧ 7 < 8 ∧ 7 ≤ 7) ∧ idle79.AtRest ∧
    (idle79.findHome 7 = some (0, record7 .dormant homeOf7, homeOf7) ∧
      armed79.findHome 7 = some (0, record7 .armed homeOf7, homeOf7) ∧
      idle79.lapsed (record7 .dormant homeOf7).deadline = true ∧ idle79.lapsed (.running 7681) = false ∧
      (both .run .fired .dormant).findHome 7 = some (0, record7 .fired homeOf7, homeOf7)) ∧
    idle79.findCopy 9 = some (1, copy9 .dormant, { summary := none, withheld := none }) := by
  refine ⟨by decide +kernel, idle79_rest, by decide +kernel, by decide +kernel⟩

theorem witness_CopyRemoval :
    (idle79.findScheme 9 = some (1, copy9 .dormant) ∧ (copy9 .dormant).isHome = false ∧
      (both .run .dormant .fired).findScheme 9 = some (1, copy9 .fired)) ∧
    idle79.AtRest ∧ Received idle79 0 2 [9] (taken idle79 0 2) ∧
    ((taken idle79 0 2).copyOf 9 2).isSome = true ∧ (taken idle79 0 2).copyOf 9 3 = none ∧ (taken idle79 0 2).copyOf 8 2 = none := by
  refine ⟨by decide +kernel, idle79_rest, takes_of idle79_two, by decide +kernel⟩

theorem witness_QuantityEvents :
    ((small .run).mode ≠ .config ∧ (31 ≤ 31 ∧ 2 ≤ 2 ∧ 31 < 32 ∧ 2 < 3) ∧ (1 ≤ 14 ∧ 14 < 15 ∧ 14 ≠ (small .run).own) ∧
      (∀ sc ∈ (small .run).held, sc.life ≠ .armed)) ∧
    (∃ sc ∈ (with7 .run { computed7 with life := .armed } (copy9 .armed)).held, sc.life = .armed ∧ sc.isHome = true) ∧
    ((small .run).AtRest ∧ ([(0, (60001 : Int))].map Prod.fst).Nodup ∧ ((small .run).slotAt 0).source = .station ∧
      ((small .run).slotAt 31).source ≠ .station ∧ ((small .run).slotAt 31).source ≠ .none ∧
      ((small .run).slotAt 29).source = .none ∧ ¬ ((List.range 9).length ≤ 8)) ∧
    (((small .run).slotAt 30).quality = .good ∧ ((small .run).slotAt 30).goodAt = some 0 ∧
      0 + msTicks ((small .run).slotAt 30).limit = (small .run).now ∧ ((small .run).slotAt 31).quality ≠ .good) ∧
    Received idle79 0 2 [1, 31, 0xFF, 0xFF, 0x15, 0xA0, 2] (taken idle79 0 2) ∧
    readQuantity [1, 31, 0xFF, 0xFF, 0x15, 0xA0, 2] = some [(31, -60000, 2)] := by
  refine ⟨by decide +kernel, by decide +kernel, ⟨small_rest, by decide +kernel⟩, by decide +kernel, takes_of idle79_two,
    by decide +kernel⟩

theorem witness_Publication : (small .run).AtRest ∧ (small .run).publication = some 7680 ∧ 7680 ≤ (small .run).now ∧
    { small .run with publication := some 7681 }.now < 7681 := ⟨small_rest, by decide +kernel⟩

/-- Entries of each kind whose values are live, and whose sites are reachable or not. -/
theorem witness_Publication_values :
    ((small .run).slots[30]?).map (fun x => (x.quality, x.value)) = some (.good, 100) ∧ (100 : Int) ≤ 60000 ∧
    ((small .run).slots[31]?).map QSlot.quality = some .unset ∧ (some 7680 : Option Nat) ≠ none ∧
    (small .run).reachable 2 = true ∧ (small .run).reachable 3 = false := by decide +kernel

/-- A part with all 96 actions. -/
def actions96 : State := {
  small .run with
  actions := (List.range 96).map (fun n => { ref := ⟨2, n + 1⟩, nominal := 1, kind := .mirror none none none none }) }

/-- A part with 16 LOCAL actions, at outputs that repeat. -/
def locals16 : State := {
  small .run with
  actions := (List.range 16).map (fun n => { ref := ⟨1, n + 1⟩, nominal := 1, kind := .localEntry (n % 15) none 20 .inService }) }

theorem witness_ActionEvents :
    ((small .run).mode ≠ .config ∧ (small .run).AtRest) ∧
    ((1 ≤ 14 ∧ 14 ≤ 14 ∧ 1 ≤ 96 ∧ 96 ≤ 96 ∧ 96 < 97 ∧ 14 < 15) ∧ (small .run).findAction ⟨1, 96⟩ = none ∧
      (∀ a ∈ (small .run).actions, a.output ≠ some 15) ∧
      (∃ a ∈ (small .run).actions, a.output = some 0 ∧ a.ref ≠ ⟨1, 96⟩)) ∧
    ((∃ sc ∈ armed79.held, sc.isHome = true ∧ (sc.life = .armed ∨ sc.life = .fired) ∧ (⟨2, 96⟩ : ActionRef) ∈ sc.actions) ∧
      ((lastAction .run .inService).findAction ⟨1, 96⟩).bind ActionEntry.output = some 15 ∧
      ((lastAction .run .inService).outputAt 15).pulse ≠ none) ∧
    (96 ≤ actions96.actions.length ∧ actions96.findAction ⟨1, 96⟩ = none ∧
      16 ≤ (locals16.actions.filter ActionEntry.isLocal).length ∧ locals16.findAction ⟨1, 96⟩ = none) ∧
    (((small .run).findAction ⟨2, 96⟩).map ActionEntry.isLocal = some false ∧
      ((small .run).findAction ⟨1, 1⟩).map ActionEntry.isLocal = some true ∧
      (∀ sc ∈ (small .run).held, (⟨1, 1⟩ : ActionRef) ∉ sc.actions) ∧ ((small .run).outputAt 0).pulse = none ∧
      ∃ sc ∈ idle79.held, (⟨1, 1⟩ : ActionRef) ∈ sc.actions) ∧
    ((small .run).findAction ⟨2, 96⟩ =
      some { ref := ⟨2, 96⟩, nominal := 50, kind := .mirror (some .inService) (some 50) (some 7680) (some 0) } ∧
      7680 ≤ (small .run).now) ∧
    Received idle79 0 2 [1, 96, 1, 0xFF, 0xFF] (taken idle79 0 2) ∧
    (readActionStatus [1, 96, 1, 0xFF, 0xFF] = some [(96, 1, 65535)] ∧ 15 < 16 ∧
      ((small .run).outputAt 15).pulse = some 7680 ∧ ((small .run).outputAt 14).pulse = none) ∧
    (small .run).findAction ⟨14, 96⟩ = none := by
  refine ⟨⟨by decide +kernel, small_rest⟩, by decide +kernel, by decide +kernel, by decide +kernel, by decide +kernel,
    by decide +kernel, takes_of idle79_two, by decide +kernel, by decide +kernel⟩

/-! ### Witnesses: inputs and executions -/

/-- The small part after an input took a state, with a level. -/
def inputIs (i : Nat) (st : InputState) (level : Bool) : State :=
  (small .run).modInput i (fun x => { x with state := st, level := level })

theorem quiet_of {u : State} {r : TrigRef}
    (h : u.held.all (fun sc => !sc.trigger.refs.contains r || !u.satisfied sc.trigger || !u.eligible sc || sc.releaseNeeded) = true) :
    u.heldBack r := by
  intro sc hs hr ht he
  have := List.all_eq_true.1 h sc hs
  rw [ht, he, List.contains_iff_mem.2 hr] at this
  simpa using this

theorem witness_TriggerEvents :
    (15 < 16 ∧ 15 ≤ 15) ∧ idle79.AtRest ∧
    (idle79.modInput 13 (fun x => { x with level := true, state := idle79.assertedNow })).heldBack ⟨1, 13⟩ ∧
    ((idle79.inputAt 13).level = false ∧ ((idle79.inputAt 13).levelled idle79 true).2 = some true ∧
      (idle79.inputAt 15).level = true) ∧
    ((idle79.inputAt 15).state = .qualifying 7680 ∧ 7680 ≤ idle79.now) ∧
    (idle79.modInput 15 (fun x => { x with state := idle79.assertedNow })).heldBack ⟨1, 15⟩ ∧
    ((idle79.inputAt 14).state = .asserted 0 (some 7680) 7680 ∧
      (inputIs 14 (.asserted 0 (some 7681) 7681) false).now < 7681 ∧
      (inputIs 14 (.qualifying 7681) true).now < 7681) ∧
    (idle79.modInput 14 (fun x => { x with state := .released })).heldBack ⟨1, 14⟩ ∧
    Received idle79 0 2 (contingencyBody 15 true) (taken idle79 0 2) ∧
    ((taken idle79 0 2).findRemote ⟨2, 15⟩ = some { ref := ⟨2, 15⟩, asserted := none } ∧
      (taken idle79 0 2).findRemote ⟨2, 14⟩ = none) ∧
    ((taken idle79 0 2).setRemote ⟨2, 15⟩ (some (120, 23040))).heldBack ⟨2, 15⟩ ∧
    (idle79.setRemote ⟨2, 15⟩ (some (119, 7680))).findRemote ⟨2, 15⟩ = some { ref := ⟨2, 15⟩, asserted := some (119, 7680) } ∧
    ((idle79.setRemote ⟨2, 15⟩ (some (119, 7680))).setRemote ⟨2, 15⟩ none).heldBack ⟨2, 15⟩ ∧
    (idle79.setRemote ⟨2, 15⟩ (some (119, 7680))).AtRest := by
  refine ⟨by decide, idle79_rest, quiet_of (by decide +kernel), by decide +kernel, by decide +kernel,
    quiet_of (by decide +kernel), by decide +kernel, quiet_of (by decide +kernel), takes_of idle79_two, by decide +kernel,
    quiet_of (by decide +kernel), by decide +kernel, quiet_of (by decide +kernel), atRest_of (by decide +kernel)⟩

theorem armed79_two : takesB armed79 0 2 [] = true := by decide +kernel

theorem witness_CopyFires :
    (15 ≤ 15 ∧ (armed79.inputAt 15).state = .qualifying 7680 ∧ 7680 ≤ armed79.now ∧ armed79.schemeAt 1 = some (copy9 .armed) ∧
      (⟨armed79.own, 15⟩ : TrigRef) ∈ (copy9 .armed).trigger.refs ∧
      (armed79.modInput 15 (fun x => { x with state := armed79.assertedNow })).satisfied (copy9 .armed).trigger = true ∧
      armed79.eligible (copy9 .armed) = true ∧ (copy9 .armed).releaseNeeded = false) ∧
    Received armed79 0 2 (contingencyBody 15 true) (taken armed79 0 2) ∧
    ((taken armed79 0 2).findRemote ⟨2, 15⟩ = some { ref := ⟨2, 15⟩, asserted := none } ∧
      ((taken armed79 0 2).setRemote ⟨2, 15⟩
        (some (armed79.quarters, armed79.now + msTicks armed79.settings.remoteHold))).satisfied (copy9 .armed).trigger = true) ∧
    ((armed79.findLocal 1).map ActionEntry.kind = some (.localEntry 0 none 20 .inService) ∧ 0 < armed79.outputs.length) := by
  refine ⟨by decide +kernel, takes_of armed79_two, by decide +kernel, by decide +kernel⟩

/-- Scheme 7 ARMED, fired by terminal 2's input 15, with local action 1 selected. -/
def remote7 : Scheme := {
  record7 .armed homeOf7 with
  trigger := { refs := [⟨2, 15⟩], all := false, window := 0 }, actions := [⟨1, 1⟩, ⟨2, 96⟩], selection := [⟨1, 1⟩, ⟨2, 96⟩] }

def remoteArmed : State := with7 .run remote7 (copy9 .armed)

theorem remoteArmed_two : takesB remoteArmed 0 2 [] = true := by decide +kernel

theorem witness_HomeFires :
    (armed79.IdsUnique ∧ remoteArmed.IdsUnique) ∧
    (armed79.mode = .run ∧ armed79.schemeAt 0 = some (record7 .armed homeOf7) ∧
      (record7 .armed homeOf7).part = .home homeOf7 ∧ (⟨armed79.own, 15⟩ : TrigRef) ∈ (record7 .armed homeOf7).trigger.refs ∧
      (armed79.inputAt 15).state = .qualifying 7680 ∧
      (armed79.modInput 15 (fun x => { x with state := armed79.assertedNow })).satisfied (record7 .armed homeOf7).trigger = true) ∧
    Received remoteArmed 0 2 (contingencyBody 15 true) (taken remoteArmed 0 2) ∧
    (remoteArmed.schemeAt 0 = some remote7 ∧
      (taken remoteArmed 0 2).findRemote ⟨2, 15⟩ = some { ref := ⟨2, 15⟩, asserted := none } ∧
      ((taken remoteArmed 0 2).setRemote ⟨2, 15⟩
        (some (remoteArmed.quarters, remoteArmed.now + msTicks remoteArmed.settings.remoteHold))).satisfied remote7.trigger = true) ∧
    Received armed79 0 2 [7, 0, 1, 0] (taken armed79 0 2) ∧
    (readFiredReport [7, 0, 1, 0] = some (7, 1, []) ∧ homeOf7.part 2 = some (there 2) ∧ (there 2).owesClose = false ∧
      (taken armed79 0 2).openContext 7 false = none) := by
  refine ⟨⟨by unfold State.IdsUnique; decide +kernel, by unfold State.IdsUnique; decide +kernel⟩, by decide +kernel,
    takes_of remoteArmed_two, by decide +kernel, takes_of armed79_two, by decide +kernel⟩

/-- Whether nothing but slot `i` fires on a reference. -/
def aloneB (s u : State) (i : Nat) (r : TrigRef) : Bool :=
  (List.range 64).all (fun j => j == i || (s.schemeAt j).all (fun sc =>
    !sc.trigger.refs.contains r || !u.satisfied sc.trigger || !s.eligible sc || sc.releaseNeeded))

theorem alone_of {s u : State} {i : Nat} {r : TrigRef} (hl : s.schemes.length = 64) (h : aloneB s u i r = true) :
    ∀ j sc, j ≠ i → s.schemeAt j = some sc → r ∈ sc.trigger.refs → u.satisfied sc.trigger = true →
      s.eligible sc = true → sc.releaseNeeded = true := by
  intro j sc hj hs hr hu he
  have hlt : j < 64 := by
    by_contra hge
    have : s.schemes[j]? = none := by rw [List.getElem?_eq_none_iff]; omega
    simp [State.schemeAt, this] at hs
  have := List.all_eq_true.1 h j (List.mem_range.2 hlt)
  rw [hs, Option.all_some, List.contains_iff_mem.2 hr, hu, he, beq_eq_false_iff_ne.2 hj] at this
  simpa using this

/-- Scheme 9 alone is ARMED; scheme 7 alone is, its selection empty; scheme 7 alone is, with two sites; every context OPEN. -/
def copyArmed : State := both .run .dormant .armed
def homeArmed : State := both .run .armed .dormant
def sitesArmed : State := with7 .run remote7 (copy9 .dormant)
def sitesFull : State := { sitesArmed with contexts := List.replicate 8 (opened7 true .ordered) }

theorem witness_CopyFires_alone : copyArmed.AtRest ∧ armed79.AtRest ∧
    (∀ j sc, j ≠ 1 → copyArmed.schemeAt j = some sc → ⟨1, 15⟩ ∈ sc.trigger.refs →
      (copyArmed.modInput 15 (fun x => { x with state := copyArmed.assertedNow })).satisfied sc.trigger = true →
      copyArmed.eligible sc = true → sc.releaseNeeded = true) ∧
    (∀ j sc, j ≠ 1 → armed79.schemeAt j = some sc → ⟨2, 15⟩ ∈ sc.trigger.refs →
      ((taken armed79 0 2).setRemote ⟨2, 15⟩
        (some (armed79.quarters, armed79.now + msTicks armed79.settings.remoteHold))).satisfied sc.trigger = true →
      armed79.eligible sc = true → sc.releaseNeeded = true) ∧
    copyArmed.schemeAt 1 = some (copy9 .armed) ∧ copyArmed.eligible (copy9 .armed) = true :=
  ⟨atRest_of (by decide +kernel), armed79_rest, alone_of (by decide +kernel) (by decide +kernel),
    alone_of (by decide +kernel) (by decide +kernel), by decide +kernel, by decide +kernel⟩

theorem sitesArmed_two : takesB sitesArmed 0 2 [] = true := by decide +kernel
theorem sitesFull_two : takesB sitesFull 0 2 [] = true := by decide +kernel

theorem witness_HomeFires_alone :
    (homeArmed.AtRest ∧ sitesArmed.AtRest ∧ sitesFull.AtRest) ∧
    (homeArmed.IdsUnique ∧ sitesArmed.IdsUnique ∧ sitesFull.IdsUnique) ∧
    (homeArmed.mode = .run ∧ homeArmed.schemeAt 0 = some (record7 .armed homeOf7) ∧ homeArmed.openContext 7 false = none ∧
      homeArmed.freeContext = some 0 ∧ (siteList (record7 .armed homeOf7).selection).all SiteEntry.settled = true) ∧
    (sitesArmed.mode = .run ∧ sitesArmed.schemeAt 0 = some remote7 ∧ sitesArmed.openContext 7 false = none ∧
      sitesArmed.freeContext = some 0 ∧ sitesFull.openContext 7 false = none ∧ sitesFull.freeContext = none ∧
      (siteList remote7.selection).all SiteEntry.settled = false) ∧
    (∀ j sc, j ≠ 0 → homeArmed.schemeAt j = some sc → ⟨1, 15⟩ ∈ sc.trigger.refs →
      (homeArmed.modInput 15 (fun x => { x with state := homeArmed.assertedNow })).satisfied sc.trigger = true →
      homeArmed.eligible sc = true → sc.releaseNeeded = true) ∧
    (∀ j sc, j ≠ 0 → sitesArmed.schemeAt j = some sc → ⟨2, 15⟩ ∈ sc.trigger.refs →
      ((taken sitesArmed 0 2).setRemote ⟨2, 15⟩
        (some (sitesArmed.quarters, sitesArmed.now + msTicks sitesArmed.settings.remoteHold))).satisfied sc.trigger = true →
      sitesArmed.eligible sc = true → sc.releaseNeeded = true) ∧
    Received sitesArmed 0 2 [7, 0, 1, 1, 96, 1] (taken sitesArmed 0 2) ∧
    Received sitesFull 0 2 [7, 0, 1, 1, 96, 1] (taken sitesFull 0 2) ∧
    (readFiredReport [7, 0, 1, 1, 96, 1] = some (7, 1, [(96, .tripped)]) ∧
      ∀ a ∈ takeResults [(96, .tripped)] [(96, none)], a.2 ≠ none) := by
  refine ⟨⟨atRest_of (by decide +kernel), atRest_of (by decide +kernel), atRest_of (by decide +kernel)⟩,
    ⟨by unfold State.IdsUnique; decide +kernel, by unfold State.IdsUnique; decide +kernel,
      by unfold State.IdsUnique; decide +kernel⟩, by decide +kernel, by decide +kernel,
    alone_of (by decide +kernel) (by decide +kernel), alone_of (by decide +kernel) (by decide +kernel),
    takes_of sitesArmed_two, takes_of sitesFull_two, by decide +kernel⟩

/-- Schemes 7 and 9 ARMED and fired by input 13, which is RELEASED with a qualify time of 0. -/
def levelArmed (a c : Life) : State :=
  let on13 : TriggerSet := { refs := [⟨1, 13⟩], all := false, window := 0 }
  with7 .run { record7 a homeOf7 with trigger := on13 } { copy9 c with trigger := on13 }

theorem asserts_of_level (s : State) (h13 : (s.inputAt 13).level = false)
    (h : ((s.inputAt 13).levelled s true).2 = some true) :
    Asserts s (.inputLevelChange 13 true) 13 (s.modInput 13 (fun x => { x with level := true, state := s.assertedNow })) none :=
  ⟨by decide, .inr (.inl ⟨true, by rw [h13]; decide, h, rfl, rfl, rfl⟩)⟩

/-- A level change and INPUT CONFIGURE that fire the copy, and the home record, alone and together. -/
theorem witness_fires_by_input :
    (Asserts (levelArmed .armed .armed) (.inputLevelChange 13 true) 13 ((levelArmed .armed .armed).modInput 13 (fun x =>
        { x with level := true, state := (levelArmed .armed .armed).assertedNow })) none ∧
      Asserts (levelArmed .dormant .armed) (.inputLevelChange 13 true) 13 ((levelArmed .dormant .armed).modInput 13 (fun x =>
        { x with level := true, state := (levelArmed .dormant .armed).assertedNow })) none ∧
      Asserts armed79 (.inputConfigure 15 1 0 20000) 15 (armed79.modInput 15 (fun x => { x with
          enable := true, qualify := 0, dropout := 20, state := armed79.assertedNow }))
        (some (decide (0 * 250 ≠ 0 ∨ 20 * 1000 ≠ 20000), fun t => t.qualifierBytes 15))) ∧
    ((levelArmed .armed .armed).AtRest ∧ (levelArmed .dormant .armed).AtRest ∧ (levelArmed .armed .dormant).AtRest ∧
      (levelArmed .armed .armed).IdsUnique ∧ (levelArmed .dormant .armed).own = 1) ∧
    (∀ j sc, j ≠ 1 → (levelArmed .dormant .armed).schemeAt j = some sc → ⟨1, 13⟩ ∈ sc.trigger.refs →
      ((levelArmed .dormant .armed).modInput 13 (fun x =>
        { x with level := true, state := (levelArmed .dormant .armed).assertedNow })).satisfied sc.trigger = true →
      (levelArmed .dormant .armed).eligible sc = true → sc.releaseNeeded = true) ∧
    (∀ j sc, j ≠ 0 → (levelArmed .armed .dormant).schemeAt j = some sc → ⟨1, 13⟩ ∈ sc.trigger.refs →
      ((levelArmed .armed .dormant).modInput 13 (fun x =>
        { x with level := true, state := (levelArmed .armed .dormant).assertedNow })).satisfied sc.trigger = true →
      (levelArmed .armed .dormant).eligible sc = true → sc.releaseNeeded = true) ∧
    ((levelArmed .armed .armed).modInput 13 (fun x =>
        { x with level := true, state := (levelArmed .armed .armed).assertedNow })).satisfied
      { refs := [⟨1, 13⟩], all := false, window := 0 } = true ∧
    (armed79.modInput 15 (fun x => { x with
        enable := true, qualify := 0, dropout := 20, state := armed79.assertedNow })).satisfied
      (copy9 .armed).trigger = true := by
  refine ⟨⟨asserts_of_level _ (by decide +kernel) (by decide +kernel), asserts_of_level _ (by decide +kernel) (by decide +kernel),
      by decide, .inr (.inr ⟨1, 0, 20000, by decide +kernel, rfl, rfl, rfl⟩)⟩,
    ⟨atRest_of (by decide +kernel), atRest_of (by decide +kernel), atRest_of (by decide +kernel),
      by unfold State.IdsUnique; decide +kernel, by decide +kernel⟩,
    alone_of (by decide +kernel) (by decide +kernel), alone_of (by decide +kernel) (by decide +kernel), by decide +kernel,
    by decide +kernel⟩

/-- Scheme 7 ARMED, its participant engaged, so that a HOLD with a summary fires it. -/
def holdArmed : State := inRound .armed (engagedAt 2 1) .update

theorem holdArmed_two : takesB holdArmed 0 2 [] = true := by decide +kernel

theorem witness_HomeFires_hold : holdArmed.AtRest ∧ holdArmed.IdsUnique ∧ holdArmed.mode = .run ∧
    Received holdArmed 0 2 [7, 0, 1, 2, 0, 1, 1, 1, 96, 1] (taken holdArmed 0 2) ∧
    readReply [7, 0, 1, 2, 0, 1, 1, 1, 96, 1] =
      some (7, 1, .hold { generation := 1, entry := .firing, results := [(96, .tripped)] }) ∧
    (holdArmed.schemeAt 0).map (fun sc => (sc.id, sc.life)) = some (7, .armed) ∧
    ((engagedAt 2 1).status ≠ .current ∧ (engagedAt 2 1).owesClose = false ∧ (engagedAt 2 1).engaged = true) ∧
    (taken holdArmed 0 2).openContext 7 false = none ∧ holdArmed.openContext 7 false = none ∧
    holdArmed.freeContext = some 0 :=
  ⟨atRest_of (by decide +kernel), by unfold State.IdsUnique; decide +kernel, by decide +kernel, takes_of holdArmed_two,
    by decide +kernel, by decide +kernel, by decide +kernel, by decide +kernel, by decide +kernel, by decide +kernel⟩

/-- Scheme 7 FIRED, its execution OPEN and site 2 AWAITING; the same ORDERED; COMPLETE with site 2 MISSED. -/
def executing (c : Context) : State :=
  withContext (with7 .run (record7 .fired { homeOf7 with lastFiring := 1 }) (copy9 .armed)) c
def awaiting7 : State := executing (opened7 false .awaiting)
def ordered7 : State := executing (opened7 false .ordered)
def missed7 (owes : Bool) : State :=
  withContext (inRound .dormant { there 2 with owesClose := owes } .none) (complete7 false)

theorem awaiting7_two : takesB awaiting7 0 2 [] = true := by decide +kernel
theorem ordered7_two : takesB ordered7 0 2 [] = true := by decide +kernel
theorem missed7_two : takesB (missed7 true) 0 2 [] = true := by decide +kernel

/-- Whether every OPEN context has a site to wait for. -/
def waitsB (s : State) : Bool := s.contexts.all currentB

theorem waits_of {s : State} (h : waitsB s = true) : ∀ c ∈ s.contexts, c.current := by
  intro c hc
  exact current_of (List.all_eq_true.1 h c hc)

/-- A local completion at a FIRED home record sets its marker where a report fired it, and not where its own firing did
(R112, R123). -/
theorem test_late_completion :
    ((after (.qualifyTimerExpiry 15) (executing (.opened { exec7 false .awaiting with cause := .report 2 } (some 7680) 7681))
      ).schemeAt 0).map Scheme.releaseNeeded = some true ∧
    ((after (.qualifyTimerExpiry 15) awaiting7).schemeAt 0).map Scheme.releaseNeeded = some false := by decide +kernel

/-- A site entry lists at most 12 extras (R119). -/
theorem test_extras : addExtras [(1, none)] ((List.range 20).map (fun n => (n + 1, .tripped))) [] =
    (List.range 12).map (fun n => (n + 2, .tripped)) := by decide +kernel

/-- RECORD READ of a home record shows a mirror's published availability and live value (R56). -/
theorem test_mirror_shown : (small .run).mirrorBytes ⟨2, 96⟩ = some [2, 96, 1, 1, 1, 0, 50] := by decide +kernel

theorem witness_ExecutionTimers :
    (7 < 8 ∧ awaiting7.contextAt 7 = opened7 false .awaiting ∧ 7680 ≤ awaiting7.now ∧ ordered7.now < 7681 ∧
      awaiting7.findHome 7 = some (0, record7 .fired { homeOf7 with lastFiring := 1 }, { homeOf7 with lastFiring := 1 })) ∧
    awaiting7.AtRest ∧
    (∀ c ∈ (State.dispatchFrame (awaiting7.setContext 7 (.opened (exec7 false .ordered) none 7680))
      (awaiting7.orderFrame (exec7 false .awaiting) 2 [96])).contexts, c.current) ∧
    (executing (opened7 true .ordered)).contextAt 7 = opened7 true .ordered := by
  refine ⟨by decide +kernel, atRest_of (by decide +kernel), waits_of (by decide +kernel), by decide +kernel⟩

theorem witness_TripOrder :
    idle79.AtRest ∧ Received idle79 0 2 [9, 0, 3, 0, 1, 1] (taken idle79 0 2) ∧
    (readTripOrder [9, 0, 3, 0, 1, 1] = some (9, 3, false, [1]) ∧
      (taken idle79 0 2).findCopy 9 = some (1, copy9 .dormant, { summary := none, withheld := none }) ∧
      (copy9 .dormant).home = 2 ∧ (copy9 .dormant).life ≠ .fired ∧ idle79.mode = .run ∧
      readTripOrder [8, 0, 3, 1, 1, 1] = some (8, 3, true, [1]) ∧ (taken idle79 0 2).findCopy 8 = none ∧
      (taken (both .run .dormant .fired) 0 2).findCopy 9 = some (1, copy9 .fired, { summary := none, withheld := none })) := by
  refine ⟨idle79_rest, takes_of idle79_two, by decide +kernel⟩

theorem witness_AnswersAtHome :
    (idle79.AtRest ∧ awaiting7.AtRest ∧ ordered7.AtRest ∧ (missed7 true).AtRest ∧ retiring7.AtRest) ∧
    (Received idle79 0 2 [7, 0, 1, 0] (taken idle79 0 2) ∧ Received awaiting7 0 2 [7, 0, 1, 0] (taken awaiting7 0 2) ∧
      Received ordered7 0 2 [7, 0, 1, 0, 1, 96, 1] (taken ordered7 0 2) ∧
      Received (missed7 true) 0 2 [7, 0, 1, 1, 96, 1] (taken (missed7 true) 0 2) ∧
      Received retiring7 0 2 [7, 0, 1, 0] (taken retiring7 0 2)) ∧
    (readFiredReport [7, 0, 1, 0] = some (7, 1, []) ∧ readFiredReport [7, 0, 1, 1, 96, 1] = some (7, 1, [(96, .tripped)]) ∧
      readOrderAck [7, 0, 1, 0, 1, 96, 1] = some (7, 1, false, [(96, .tripped)])) ∧
    ((taken idle79 0 2).findHome 8 = none ∧
      (taken idle79 0 2).findHome 7 = some (0, record7 .dormant homeOf7, homeOf7) ∧ homeOf7.part 2 = some (there 2) ∧
      homeOf7.part 3 = none ∧ (taken idle79 0 2).openContext 7 false = none ∧
      (taken idle79 0 2).ackContext 7 1 false 2 = none) ∧
    ((taken awaiting7 0 2).openContext 7 false = some (7, exec7 false .awaiting) ∧
      (taken awaiting7 0 2).contextAt 7 = opened7 false .awaiting ∧ ((exec7 false .awaiting).site 2).isSome = true ∧
      (exec7 false .awaiting).site 3 = none) ∧
    (∀ c ∈ (State.dispatchFrame ((taken awaiting7 0 2).setContext 7 (.opened (exec7 false .ordered) (some 7680) 7680))
      (awaiting7.orderFrame (exec7 false .awaiting) 2 [96])).contexts, c.current) ∧
    ((taken ordered7 0 2).ackContext 7 1 false 2 = some 7 ∧ (taken ordered7 0 2).contextAt 7 = opened7 false .ordered ∧
      ((taken ordered7 0 2).findHome 7).map (fun x => x.2.1.life) = some .fired) ∧
    ((taken (missed7 true) 0 2).openContext 7 false = none ∧
      (taken (missed7 true) 0 2).missedContext 2 (fun x => x.schemeId == 7 && !x.test) = some 7 ∧
      (taken (missed7 true) 0 2).contextAt 7 = complete7 false ∧
      (taken (missed7 true) 0 2).ackContext 7 1 false 2 = some 7 ∧
      ((exec7 false .missed).site 2).map SiteEntry.status = some .missed) ∧
    ((taken retiring7 0 2).findHome 7).map (fun x => x.2.1.life) = some .retiring := by
  refine ⟨⟨idle79_rest, atRest_of (by decide +kernel), atRest_of (by decide +kernel), atRest_of (by decide +kernel),
    atRest_of (by decide +kernel)⟩, ⟨takes_of idle79_two, takes_of awaiting7_two, takes_of ordered7_two,
    takes_of missed7_two, takes_of retiring7_two⟩, ⟨by decide +kernel, by decide +kernel, by rfl⟩, by decide +kernel,
    by decide +kernel,
    waits_of (by decide +kernel), by decide +kernel, by decide +kernel, by decide +kernel⟩

/-- The MAINTENANCE part whose record 7 has an action of terminal 2 selected. -/
def tester7 : State :=
  with7 .maintenance { record7 .dormant { homeOf7 with sum := 50, shortfall := false } with selection := [⟨2, 96⟩] } (copy9 .dormant)

/-- Every context OPEN. -/
def allOpen : State := { tested79 with contexts := List.replicate 8 (opened7 false .ordered) }

/-- Whether one context alone has no site to wait for. -/
def concludesB (s : State) (c : Nat) : Bool :=
  !currentB (s.contextAt c) && (List.range s.contexts.length).all (fun c' => c' == c || currentB (s.contextAt c'))

theorem concludes_of {s : State} {c : Nat} (h : concludesB s c = true) : s.concludes c := by
  unfold concludesB at h
  rw [Bool.and_eq_true, Bool.not_eq_true'] at h
  refine ⟨fun hc => ?_, fun c' hne => ?_⟩
  · have : currentB (s.contextAt c) = true := by
      unfold currentB
      cases hx : (s.contextAt c).openData with
      | none => rfl
      | some x => simp [hc x hx]
    rw [this] at h
    exact absurd h.1 (by decide)
  · by_cases hlt : c' < s.contexts.length
    · have := List.all_eq_true.1 h.2 c' (List.mem_range.2 hlt)
      rw [beq_eq_false_iff_ne.2 hne, Bool.false_or] at this
      exact current_of this
    · have : s.contextAt c' = .idle := by
        unfold State.contextAt
        rw [List.getElem?_eq_none (by omega)]; rfl
      rw [this]
      intro x hx
      cases hx

/-- The same parts with no route to terminal 2, so that an order to it is returned. -/
def cut (s : State) : State := { s with routes := State.reset.routes }

/-- The report wait, a FIRED REPORT, an ORDER ACK and TEST FIRE, each leaving no site to wait for. -/
theorem witness_completions :
    ((cut awaiting7).AtRest ∧ (cut awaiting7).contextAt 7 = opened7 false .awaiting ∧
      (State.dispatchFrame ((cut awaiting7).setContext 7 (.opened (exec7 false .ordered) none 7680))
        ((cut awaiting7).orderFrame (exec7 false .awaiting) 2 [96])).concludes 7) ∧
    ((taken awaiting7 0 2).setContext 7 (.opened ((exec7 false .awaiting).modSite 2 (fun en => { en with
      actions := [(96, some .tripped)], status := .reported, generation := some 1, latency := some 40 })) (some 7680)
        7680)).concludes 7 ∧
    ((taken ordered7 0 2).setContext 7 (.opened ((exec7 false .ordered).modSite 2 (fun en => { en with
      actions := [(96, some .tripped)], status := .confirmed, latency := some 40 })) (some 7680) 7680)).concludes 7 ∧
    (cut tester7).AtRest ∧
    (State.dispatchFrame ((cut tester7).setContext 0 (.opened (exec7 true .ordered) none (7680 + msTicks 100)))
      ((cut tester7).orderFrame (exec7 true .ordered) 2 [96])).concludes 0 :=
  ⟨⟨atRest_of (by decide +kernel), by decide +kernel, concludes_of (by decide +kernel)⟩, concludes_of (by decide +kernel),
    concludes_of (by decide +kernel), atRest_of (by decide +kernel), concludes_of (by decide +kernel)⟩

theorem witness_TestFire :
    (tester7.mode = .maintenance ∧ (tester7.findScheme 7).map (fun x => (x.1, x.2.isHome, x.2.life)) = some (0, true, .dormant) ∧
      tester7.openContext 7 true = none ∧ tester7.freeContext = some 0) ∧
    tester7.AtRest ∧ tested79.AtRest ∧
    ((both .maintenance .retiring .dormant).findScheme 7 = some (0, record7 .retiring homeOf7) ∧
      ((withContext tested79 (opened7 true .ordered)).openContext 7 true).isSome = true ∧
      allOpen.openContext 7 true = none ∧ allOpen.freeContext = none ∧ siteList (record7 .dormant homeOf7).selection = []) ∧
    (∀ c ∈ (State.dispatchFrame (tester7.setContext 0 (.opened (exec7 true .ordered) none (7680 + msTicks 100)))
      (tester7.orderFrame (exec7 true .ordered) 2 [96])).contexts, c.current) := by
  refine ⟨by decide +kernel, atRest_of (by decide +kernel), tested79_rest, by decide +kernel, waits_of (by decide +kernel)⟩

theorem witness_TestFire_refused : tested79.mode = .maintenance ∧ tested79.findScheme 8 = none ∧
    (tested79.findScheme 9).map (fun x => x.2.isHome) = some false := by decide +kernel

/-! ### Witnesses: replication and links -/

/-- The carried fields of an UPDATE for a scheme of terminal 2, as a body. -/
def updateOf (id : Nat) (life : Life) (closes : Bool) (actions : List ActionRef) : List Byte :=
  updateBody { copy9 life with id := id, actions := actions, selection := [] } closes

theorem guarded_rest : (both .run .dormant .fired).AtRest := atRest_of (by decide +kernel)
theorem guarded_two : takesB (both .run .dormant .fired) 0 2 [] = true := by decide +kernel
theorem full64_two : takesB full64.syncRemote 0 2 [] = true := by decide +kernel
theorem crowded_two : takesB crowded 0 2 [] = true := by decide +kernel

/-- The body of an UPDATE that names 4 more remote references. -/
def crowding : List Byte := updateBody { copy9 .dormant with id := 8, trigger := { refs := fourRefs 7, all := false, window := 0 } } false

theorem witness_UpdateFrame :
    (idle79.AtRest ∧ (both .run .dormant .fired).AtRest ∧ full64.syncRemote.AtRest ∧ crowded.AtRest) ∧
    (Received idle79 0 2 (updateOf 9 .armed false [⟨1, 1⟩]) (taken idle79 0 2) ∧
      Received (both .run .dormant .fired) 0 2 (updateOf 9 .armed false [⟨1, 1⟩]) (taken (both .run .dormant .fired) 0 2) ∧
      Received full64.syncRemote 0 2 (updateOf 8 .armed false [⟨1, 1⟩]) (taken full64.syncRemote 0 2) ∧
      Received crowded 0 2 crowding (taken crowded 0 2)) ∧
    ((readUpdate (updateOf 9 .armed false [⟨1, 1⟩])).map (fun x => (x.id, x.life, x.closes)) = some (9, .armed, false) ∧
      (readUpdate (updateOf 8 .fired true [⟨1, 96⟩])).map (fun x => (x.id, x.life, x.closes)) = some (8, .fired, true) ∧
      (readUpdate crowding).map (fun x => x.trigger.refs) = some (fourRefs 7)) ∧
    ((taken idle79 0 2).findScheme 9 = some (1, copy9 .dormant) ∧ (copy9 .dormant).home = 2 ∧
      (taken idle79 0 2).findScheme 7 = some (0, record7 .dormant homeOf7) ∧
      (taken idle79 0 2).findScheme 8 = none ∧ (taken idle79 0 2).emptySlotNo = some 2 ∧
      (taken idle79 0 2).findLocal 96 = none ∧ ((taken idle79 0 2).findLocal 1).isSome = true ∧
      (taken idle79 0 2).remoteCountWith (some 1) (copy9 .armed).trigger.refs ≤ 32) ∧
    ((taken (both .run .dormant .fired) 0 2).findScheme 9 = some (1, copy9 .fired) ∧
      (taken full64.syncRemote 0 2).findScheme 8 = none ∧ (taken full64.syncRemote 0 2).emptySlotNo = none) ∧
    ((taken crowded 0 2).findScheme 8 = none ∧ (taken crowded 0 2).emptySlotNo = some 9 ∧
      32 < (taken crowded 0 2).remoteCountWith none (fourRefs 7) ∧
      32 < (taken crowded 0 2).remoteCountWith (some 1) (fourRefs 7 ++ fourRefs 9) ∧
      (taken crowded 0 2).remoteCountWith none ((fourRefs 7).take 3) = 32) := by
  refine ⟨⟨idle79_rest, guarded_rest, atRest_of (by decide +kernel), atRest_of (by decide +kernel)⟩,
    ⟨takes_of idle79_two (by decide +kernel), takes_of guarded_two (by decide +kernel),
      takes_of full64_two (by decide +kernel), takes_of crowded_two (by decide +kernel)⟩,
    by decide +kernel, by decide +kernel, by decide +kernel, by decide +kernel⟩

/-- Scheme 7 in its update round, its participant engaged; the same ARMED; HELD with its execution OPEN. -/
def updating7 : State := inRound .dormant (engagedAt 2 1) .update
def lost7 (owes : Bool) : State := inRound .dormant { there 2 with status := .lost, owesClose := owes } .none

theorem updating7_two : takesB updating7 0 2 [] = true := by decide +kernel
theorem lost7_two : takesB (lost7 true) 0 2 [] = true := by decide +kernel

theorem witness_UpdateReply :
    (idle79.AtRest ∧ updating7.AtRest ∧ (lost7 true).AtRest ∧ retiring7.AtRest ∧ awaiting7.AtRest) ∧
    (Received idle79 0 2 [7, 0, 1, 1, 0] (taken idle79 0 2) ∧ Received updating7 0 2 [7, 0, 1, 1, 1] (taken updating7 0 2) ∧
      Received (lost7 true) 0 2 [7, 0, 1, 2, 0, 1, 3, 0] (taken (lost7 true) 0 2) ∧
      Received retiring7 0 2 [7, 0, 1, 3, 1] (taken retiring7 0 2) ∧
      Received awaiting7 0 2 [7, 0, 1, 2, 0, 1, 1, 1, 96, 1] (taken awaiting7 0 2)) ∧
    ((readReply [7, 0, 1, 1, 0] = some (7, 1, .accept false) ∧ readReply [7, 0, 1, 4, 0] = none ∧
      readReply [7, 0, 2, 1, 1] = some (7, 2, .accept true)) ∧
      readReply [7, 0, 1, 3, 1] = some (7, 1, .reject .noSlot) ∧
      readReply [7, 0, 1, 2, 0, 1, 3, 0] = some (7, 1, .hold { generation := 1, entry := .carried, results := [] }) ∧
      readReply [7, 0, 1, 2, 0, 1, 1, 1, 96, 1] =
        some (7, 1, .hold { generation := 1, entry := .firing, results := [(96, .tripped)] })) ∧
    ((taken idle79 0 2).findHome 8 = none ∧ (taken idle79 0 2).findHome 7 = some (0, record7 .dormant homeOf7, homeOf7) ∧
      homeOf7.part 2 = some (there 2) ∧ homeOf7.part 3 = none ∧ (record7 .dormant homeOf7).generation = 1) ∧
    (((taken updating7 0 2).findHome 7).map (fun x => (x.2.1.life, (x.2.2.part 2).map Participant.status)) = some (.dormant, some .behind) ∧
      (taken updating7 0 2).openContext 7 false = none) ∧
    (((taken (lost7 true) 0 2).findHome 7).map (fun x => (x.2.2.part 2).map Participant.owesClose) = some (some true) ∧
      (taken (lost7 true) 0 2).openContext 7 false = none ∧
      (taken (lost7 true) 0 2).missedContext 2 (fun x => x.schemeId == 7 && !x.test) = none) ∧
    (((taken retiring7 0 2).findHome 7).map (fun x => x.2.1.life) = some .retiring ∧
      (taken retiring7 0 2).openContext 7 false = none) ∧
    ((taken awaiting7 0 2).openContext 7 false = some (7, exec7 false .awaiting) ∧
      ∀ a ∈ [(96, some Result.tripped)], a.2.isSome = true) := by
  refine ⟨⟨idle79_rest, atRest_of (by decide +kernel), atRest_of (by decide +kernel), atRest_of (by decide +kernel),
    atRest_of (by decide +kernel)⟩, ⟨takes_of idle79_two, takes_of updating7_two, takes_of lost7_two, takes_of retiring7_two,
    takes_of awaiting7_two⟩, ⟨by decide +kernel, by decide +kernel, by decide +kernel, by decide +kernel⟩, by decide +kernel,
    by decide +kernel, by decide +kernel, by decide +kernel, by decide +kernel⟩

/-- Scheme 7 with its participant engaged: its execution OPEN and site 2 AWAITING; or COMPLETE with site 2 MISSED and a
close owed. -/
def holding7 (c : Context) (life : Life) (owes : Bool) : State :=
  withContext (with7 .run (record7 life { homeOf7 with
    lastFiring := 1, statuses := [{ engagedAt 2 1 with owesClose := owes }], round := .update }) (copy9 .armed)) c
def holdOpen : State := holding7 (opened7 false .awaiting) .fired false
def holdLate : State := holding7 (complete7 false) .dormant true

theorem holdOpen_two : takesB holdOpen 0 2 [] = true := by decide +kernel
theorem holdLate_two : takesB holdLate 0 2 [] = true := by decide +kernel

/-- Site 2's entry as a HOLD fills it: with the action answered, and without. -/
def heldSite (status : SiteStatus) (r : Option Result) : State :=
  (taken holdOpen 0 2).setContext 7 (.opened ((exec7 false .awaiting).modSite 2 (fun en => { en with
    actions := [(96, r)], status := status, generation := some 1, latency := some 40 })) (some 7680) 7680)

theorem witness_UpdateReply_hold : (holdOpen.AtRest ∧ holdLate.AtRest) ∧
    (Received holdOpen 0 2 [7, 0, 1, 2, 0, 1, 1, 1, 96, 1] (taken holdOpen 0 2) ∧
      Received holdLate 0 2 [7, 0, 1, 2, 0, 1, 1, 1, 96, 1] (taken holdLate 0 2)) ∧
    ((taken holdOpen 0 2).openContext 7 false = some (7, exec7 false .awaiting) ∧
      (taken holdOpen 0 2).contextAt 7 = opened7 false .awaiting ∧ ((exec7 false .awaiting).site 2).isSome = true ∧
      (exec7 false .awaiting).site 3 = none ∧ (engagedAt 2 1).status ≠ .current) ∧
    (heldSite .reported (some .tripped)).concludes 7 ∧
    (∀ cx ∈ (State.dispatchFrame (heldSite .ordered none) (holdOpen.orderFrame (exec7 false .awaiting) 2 [96])).contexts,
      cx.current) ∧
    ((taken holdLate 0 2).openContext 7 false = none ∧
      (taken holdLate 0 2).missedContext 2 (fun x => x.schemeId == 7 && !x.test) = some 7 ∧
      (taken holdLate 0 2).contextAt 7 = complete7 false ∧
      ((taken holdLate 0 2).findHome 7).map (fun x => (x.2.2.lastFiring, (x.2.2.part 2).map Participant.owesClose)) =
        some (1, some true)) :=
  ⟨⟨atRest_of (by decide +kernel), atRest_of (by decide +kernel)⟩, ⟨takes_of holdOpen_two, takes_of holdLate_two⟩,
    by decide +kernel, concludes_of (by decide +kernel), waits_of (by decide +kernel), by decide +kernel⟩

theorem witness_RefreshFrames : idle79.AtRest ∧ Received idle79 0 2 [1, 9, 0, 3] (taken idle79 0 2) ∧
    Received idle79 0 2 [1, 7, 0, 1, 0, 0] (taken idle79 0 2) ∧
    readRefresh [1, 9, 0, 3] = some [(9, 3)] ∧ readRefreshAck [1, 7, 0, 1, 0, 0] = some [(7, 1, none)] := by
  refine ⟨idle79_rest, takes_of idle79_two, takes_of idle79_two, by decide +kernel, by decide +kernel⟩

theorem witness_RetryTimer :
    (updating7.AtRest ∧ retiring7.AtRest) ∧
    (updating7.findHome 7).map (fun x => (x.1, x.2.2.part 2)) = some (0, some (engagedAt 2 1)) ∧
    ((engagedAt 2 1).engaged = true ∧ updating7.ranOut (engagedAt 2 1).retry = true ∧ (there 2).engaged = false ∧
      updating7.ranOut (some 7681) = false) ∧
    ((inRound .retiring (engagedAt 2 8) .retire).findHome 7).map (fun x => (x.2.1.life, x.2.2.round, x.2.2.part 2)) =
      some (.retiring, .retire, some (engagedAt 2 8)) ∧
    ¬ 8 < (inRound .retiring (engagedAt 2 8) .retire).settings.retryCount ∧
    (inRound .retiring (engagedAt 2 8) .retire).AtRest := by
  refine ⟨⟨atRest_of (by decide +kernel), atRest_of (by decide +kernel)⟩, by decide +kernel, by decide +kernel,
    by decide +kernel, by decide +kernel, atRest_of (by decide +kernel)⟩

/-- The part with another port 3. -/
def port3 (m : Mode) (x : Port) : State := { small m with ports := [upPort, heardPort, deafPort, x] }

/-- A frame that waits. -/
def waiting1 : Queued := { frame := largestFrame 1, origin := .block }

theorem witness_PortStarts :
    (3 < 4 ∧ 3 ≤ 3 ∧ (small .run).mode = .run ∧ (small .maintenance).mode = .maintenance) ∧
    ((small .run).ports[3]? = some closedPort ∧ (small .run).ports[1]? = some heardPort ∧ (small .run).ports[0]? = some upPort ∧
      closedPort.state = .closed ∧ heardPort.state = .starting ∧ upPort.state = .up) ∧
    (heardPort.startDue = some 7680 ∧ deafPort.startDue = some 7681 ∧ (small .run).now = 7680 ∧
      upPort.tx = .fill ∧ upPort.lastEnd + msTicks 2 ≤ (small .run).now) ∧
    ({ upPort with tx := .sending .routine 7680, urgent := [waiting1] }.tx = .sending .routine 7680 ∧
      { upPort with tx := .sending .idle 7681 }.tx = .sending .idle 7681) := by decide +kernel

/-- A routine frame in transmission that an urgent one preempts, one that it waits behind, and a transmitter that is free. -/
theorem witness_PortStarts_join :
    (small .run).rateOf 0 < 512 ∧ urgentKind .contingency = true ∧ urgentKind .update = false ∧
    { upPort with tx := .sending .routine 7681 }.tx = .sending .routine 7681 ∧ Sending.routine ≠ .urgent ∧
    { upPort with tx := .sending .urgent 7681 }.tx ≠ .fill ∧ upPort.tx = .fill ∧ upPort.urgent = [] := by decide +kernel

theorem runs_of_lives {s : State} (h : s.held.all (fun sc => decide (sc.life ≠ .retiring)) = true) : s.retirementsRun := by
  intro sc hs p _ hl _
  exact absurd hl (of_decide_eq_true (List.all_eq_true.1 h sc hs))

/-- Scheme 7 in its update round, frames waiting at port 0, whose silent run stands one below F. -/
def closing0 : Port := { upPort with silent := 4, urgent := [waiting1], routine := [waiting1] }
def closing7 : State := { updating7 with ports := updating7.ports.set 0 closing0 }

/-- The states that port 0 leaves UP for: by PORT CLOSE, a window's end, and a START. -/
def leavings : List State :=
  let failed := { closing0 with
    state := .starting, health := some .failed, silent := 0, urgent := [], routine := [], neighbour := none,
    windowDue := none, startDue := some 10240 }
  [closing7.leftUp 0 closedPort true, closing7.leftUp 0 failed true,
    closing7.leftUp 0 { failed with health := none, peer := some (7680, 14) } true]

theorem witness_ports_leaving_up : closing7.AtRest ∧
    (closing7.ports[0]? = some closing0 ∧ closing0.state = .up ∧ closing0.windowDue = some 7680 ∧
      closing7.settings.fail ≤ min 255 (closing0.silent + 1) ∧ closing0.neighbour ≠ some 14) ∧
    (∀ u ∈ leavings, ∀ cx ∈ u.contexts, cx.current) ∧ ∀ u ∈ leavings, (closing7.cutOff u).retirementsRun := by
  refine ⟨atRest_of (by decide +kernel), by decide +kernel, ?_, ?_⟩
  · have h : leavings.all waitsB = true := by decide +kernel
    exact fun u hu => waits_of (List.all_eq_true.1 h u hu)
  · have h : leavings.all (fun u => (closing7.cutOff u).held.all (fun sc => decide (sc.life ≠ .retiring))) = true := by
      decide +kernel
    exact fun u hu => runs_of_lives (List.all_eq_true.1 h u hu)

theorem witness_PortClose : 3 < 4 ∧ (small .run).ports[3]? = some closedPort ∧ (small .run).ports[1]? = some heardPort ∧
    (small .run).ports[0]? = some upPort ∧ (small .run).AtRest ∧
    (small .run).events[eventPlace .portHealth]? = some { item := none, enable := false } :=
  ⟨by decide, by decide +kernel, by decide +kernel, by decide +kernel, small_rest, by decide +kernel⟩

theorem witness_WindowEnd :
    ((small .run).ports[0]? = some upPort ∧ upPort.state = .up ∧ upPort.windowDue = some 7680 ∧ 7680 ≤ (small .run).now ∧
      upPort.health = some .normal ∧ heardPort.state ≠ .up) ∧
    ((small .run).AtRest ∧ (small .run).settings.degrade ≤ 2 + 1 ∧ (small .run).settings.fail ≤ 4 + 1 ∧
      (small .run).settings.clear ≤ 254 + 1 ∧ 3 + 1 < (small .run).settings.fail) := ⟨by decide +kernel, small_rest, by decide +kernel⟩

theorem witness_LineFaults :
    (3 ≤ 3 ∧ (small .run).ports[3]? = some closedPort ∧ (small .run).ports[0]? = some upPort) ∧
    (judgeLine [0x01#8] = .fault .malformed ∧ judgeLine [0x7D#8, 0x7E#8] ≠ .nothing ∧ judgeLine [] = .nothing) ∧
    ((restore (escaped (List.replicate 8 0#8))).bytes = [0#8, 0, 0, 0, 0, 0] ++ [] ++ [0, 0] ∧
      [0#8, 0#8] ≠ crcBytes [0#8, 0, 0, 0, 0, 0] ∧ 8 ≤ 8 ∧ 64 ≤ 64) := by decide +kernel

theorem witness_LinkFrames :
    (3 ≤ 3 ∧ (1 ≤ 14 ∧ 14 ≤ 14) ∧ (small .run).ports[3]? = some closedPort ∧ (small .run).ports[2]? = some deafPort ∧
      (small .run).ports[0]? = some upPort ∧ 1 = (small .run).own ∧ deafPort.loopback = false ∧ (1#8).toNat % 2 = 1 ∧
      ¬ (0#8).toNat % 2 = 1 ∧ upPort.neighbour = some 2 ∧ upPort.neighbour ≠ some 14) ∧
    (small .run).AtRest ∧ Received idle79 0 2 [] (taken idle79 0 2) ∧
    (∀ d, ({ small .run with ports := (small .run).ports.set 2 { upPort with neighbour := some 14 } } : State).reachable d =
      (small .run).reachable d) ∧
    ((1 ≤ 7 ∧ 7 ≤ 7) ∧ linkKind .update = false ∧ 2 ≠ idle79.own ∧ (idle79.routeTo 2).primary = some 0 ∧
      (idle79.routeTo 14).primary = none ∧ (idle79.routeTo 14).alternate = none) := by
  refine ⟨by decide +kernel, small_rest, takes_of idle79_two, reach_of (by decide +kernel) (by decide +kernel) (by decide +kernel),
    by decide +kernel⟩

/-- A frame that arrives at port 2, now UP, for terminal 2 goes on through port 0. -/
def twoUp : State := { small .run with ports := [upPort, closedPort, { upPort with neighbour := some 3 }, closedPort] }

theorem witness_LinkFrames_relay : twoUp.AtRest ∧ Received twoUp 2 3 [] (taken twoUp 2 3) ∧ 2 ≠ twoUp.own ∧
    (twoUp.routeTo 2).primary = some 0 ∧ ((taken twoUp 2 3).portAt 0).usable = true ∧
    ((taken twoUp 2 3).portAt 0).room .update = true :=
  ⟨atRest_of (by decide +kernel), received_of (by decide +kernel), by decide +kernel, by decide +kernel, by decide +kernel,
    by decide +kernel⟩

theorem witness_RoutesAndTests :
    (14 < 15 ∧ 3 < 4 ∧ ¬ (14 = 0 ∨ 14 < 14) ∧ (3 = 3 ∨ 3 ≠ 255)) ∧
    (∀ n, ({ small .run with routes := (small .run).routes.set 13 { primary := some 3, alternate := some 2 } } : State).reachable n =
      (small .run).reachable n) ∧
    ((small .run).mode ≠ .config ∧ (small .run).testing = false ∧
      { small .run with test := .outstanding 2 7680 7681 }.testing = true) ∧
    (small .run).AtRest ∧ Received idle79 0 2 [0] (taken idle79 0 2) ∧
    (((small .run).route ((small .run).originate .echo 2 [1] (.echoTest 1))).isSome = true ∧
      ((small .run).route ((small .run).originate .echo 14 [1] (.echoTest 1))).isNone = true) ∧
    idle79.testing = false ∧ [0#8] = [byteOf idle79.testNumber] := by
  refine ⟨by decide, reach_of (by decide +kernel) (by decide +kernel) (by decide +kernel), by decide +kernel, small_rest,
    takes_of idle79_two, by decide +kernel, by decide +kernel, by decide +kernel⟩

/-- Terminal 2 is cut off from the part whose participant is engaged there, and reached again where it is LOST. -/
def regain7 : State := { lost7 false with routes := State.reset.routes }

theorem witness_RoutesAndTests_reach :
    (updating7.AtRest ∧ regain7.AtRest) ∧
    (updating7.reachable 2 = true ∧ ({ updating7 with routes := State.reset.routes } : State).reachable 2 = false ∧
      regain7.reachable 2 = false ∧ (lost7 false).reachable 2 = true ∧
      updating7.routes.set 1 { primary := none, alternate := none } = State.reset.routes ∧
      regain7.routes.set 1 { primary := some 0, alternate := none } = (lost7 false).routes) ∧
    (with7 .run (record7 .dormant { homeOf7 with
        statuses := [{ engagedAt 2 1 with status := .lost, retry := none, reason := none }], round := .update })
      (copy9 .armed)).retirementsRun ∧
    (with7 .run (record7 .dormant { homeOf7 with
        statuses := [{ there 2 with status := .behind, tries := 0, retry := none, reason := none }],
        unsettled := true }) (copy9 .armed)).retirementsRun ∧
    ((idle79.portAt 0).usable = true ∧ (idle79.portAt 0).room .update = true ∧ waiting1.origin.arrival ≠ some 0) := by
  refine ⟨⟨atRest_of (by decide +kernel), atRest_of (by decide +kernel)⟩, by decide +kernel,
    runs_of_lives (by decide +kernel), runs_of_lives (by decide +kernel), by decide +kernel⟩

/-- Terminal 2 is routed through port 1, which is heard and not yet UP; the participant there is LOST. -/
def joining7 : State :=
  { lost7 false with routes := State.reset.routes.set 1 { primary := some 1, alternate := none } }

theorem witness_entry_into_up : joining7.AtRest ∧ joining7.ports[1]? = some heardPort ∧
    (∀ body : List Byte, body.length ≤ 56 → Admitted joining7 1 3 body (taken joining7 1 3)) ∧
    (joining7.reachable 2 = false ∧ (taken joining7 1 3).reachable 2 = true) ∧
    ((taken joining7 1 3).findHome 7).map (fun x => (x.2.1.life, (x.2.2.part 2).map Participant.status)) =
      some (.dormant, some .lost) ∧
    (({} : Work).rejoining joining7 (taken joining7 1 3)).wants = [0] :=
  ⟨atRest_of (by decide +kernel), by decide +kernel,
    fun body h => ⟨by decide, by decide, by decide, h, by decide +kernel⟩, by decide +kernel, by decide +kernel,
    by decide +kernel⟩

theorem heard_takes : Received (small .run) 1 14 [] (taken (small .run) 1 14) := received_of (by decide +kernel)

theorem witness_FramesIgnored :
    (3 ≤ 3 ∧ (1 ≤ 14 ∧ 14 ≤ 14) ∧ (List.replicate 56 0#8).length ≤ 56 ∧ (small .run).admitFrame 3 14 = none ∧
      (small .run).admitFrame 2 14 = none ∧ (small .run).admitFrame 1 1 = none) ∧
    idle79.AtRest ∧ Received idle79 0 2 [0x10, 0x01] (taken idle79 0 2) ∧ readContingency [0x10, 0x01] = none ∧
    (readFiredReport [] = none ∧ readTripOrder [] = none ∧ readOrderAck [] = none ∧ readUpdate [] = none ∧
      readRefresh [] = none ∧ readRefreshAck [] = none ∧ readRetireAck [] = none ∧ readQuantity [] = none ∧
      readActionStatus [] = none ∧ readReply [7, 0, 1, 4, 0] = none) ∧
    ((small .run).ports[1]? = some heardPort ∧ heardPort.peer = some (0, 3) ∧ (small .run).now ≤ 0 + msTicks 30 ∧
      (small .run).ports[0]? = some upPort ∧ (small .run).admitFrame 1 14 = some (taken (small .run) 1 14)) := by
  refine ⟨by decide +kernel, idle79_rest, takes_of idle79_two, by decide +kernel, ?_, by decide +kernel⟩
  exact ⟨by rfl, by rfl, by rfl, by rfl, by rfl, by rfl, by rfl, by rfl, by rfl, by rfl⟩

end Sys2Proof.Tests
end

section
/-! What an evaluation of a home record computes (04_arming_and_selection.md): its arming result (R71 to R73), its
requirement at a GOOD quantity (R80, R81) and its selection (R83 to R85). -/

namespace Sys2Proof.Machine

/-! ### The home part an evaluation leaves -/

/-- The requirement and the held requirement that an evaluation finds. -/
def State.requirements (s : State) (h : HomePart) : Nat × Nat :=
  requirementNow h.form (s.reading h.form) h.margin h.floor h.held

/-- The walk of the action list that an evaluation makes: the selection and its sum. -/
def State.selectionWalk (s : State) (sc : Scheme) (h : HomePart) : List ActionRef × Nat :=
  walk s.selectable (s.requirements h).1 h.cap sc.actions 0 0

/-- The home part that an evaluation leaves. -/
def State.evaluatedHome (s : State) (sc : Scheme) (h : HomePart) : HomePart :=
  { h with
    frozen := s.frozenNow h.form
    armingResult := armingNow h.form (s.reading h.form) h.armingResult
    requirement := (s.requirements h).1
    held := (s.requirements h).2
    sum := (s.selectionWalk sc h).2
    shortfall := decide ((s.selectionWalk sc h).2 < (s.requirements h).1) }

section Evaluation

variable (s : State) (sc : Scheme) (h : HomePart)

theorem evaluate_part : (s.evaluate sc h).part = .home (s.evaluatedHome sc h) := rfl

theorem evaluate_selection : (s.evaluate sc h).selection = (s.selectionWalk sc h).1 := rfl

@[simp] theorem evaluatedHome_frozen : (s.evaluatedHome sc h).frozen = s.frozenNow h.form := rfl

@[simp] theorem evaluatedHome_armingResult :
    (s.evaluatedHome sc h).armingResult = armingNow h.form (s.reading h.form) h.armingResult := rfl

@[simp] theorem evaluatedHome_requirement : (s.evaluatedHome sc h).requirement = (s.requirements h).1 := rfl

@[simp] theorem evaluatedHome_held : (s.evaluatedHome sc h).held = (s.requirements h).2 := rfl

@[simp] theorem evaluatedHome_sum : (s.evaluatedHome sc h).sum = (s.selectionWalk sc h).2 := rfl

@[simp] theorem evaluatedHome_shortfall :
    (s.evaluatedHome sc h).shortfall = decide ((s.selectionWalk sc h).2 < (s.requirements h).1) := rfl

end Evaluation

/-! ### The monitored quantity -/

section Monitored

variable {s : State} {f : Form} {slot : Nat}

theorem reading_of_monitored (hm : f.monitored = some slot) : s.reading f = s.goodValue slot := by
  simp only [State.reading, hm]

theorem frozenNow_of_monitored (hm : f.monitored = some slot) :
    s.frozenNow f = (s.goodValue slot).isNone := by
  simp [State.frozenNow, reading_of_monitored hm, hm]

theorem frozenNow_of_no_slot (hm : f.monitored = none) : s.frozenNow f = false := by
  simp [State.frozenNow, hm]

end Monitored

/-! ### The arming result (R71 to R73) -/

section Latch

variable {slot k : Nat} {onAt offAt limit q : Int} {before : Bool}

/-- The latch of R71 at a GOOD quantity. -/
theorem armingNow_computed_good :
    armingNow (.computed slot onAt offAt limit k) (some q) before =
      if onAt ≤ q then true else if q < offAt then false else before := rfl

theorem armingNow_computed_held : armingNow (.computed slot onAt offAt limit k) none before = before := rfl

theorem latch_sets (hq : onAt ≤ q) :
    armingNow (.computed slot onAt offAt limit k) (some q) before = true := by
  rw [armingNow_computed_good, if_pos hq]

theorem latch_clears (hoff : offAt ≤ onAt) (hq : q < offAt) :
    armingNow (.computed slot onAt offAt limit k) (some q) before = false := by
  rw [armingNow_computed_good, if_neg (by omega), if_pos hq]

theorem latch_keeps (hlow : offAt ≤ q) (hhigh : q < onAt) :
    armingNow (.computed slot onAt offAt limit k) (some q) before = before := by
  rw [armingNow_computed_good, if_neg (by omega), if_neg (by omega)]

end Latch

/-- Settles O17, by the form of the record: a COMPUTED record's result is the latch at a GOOD quantity and is held at any
other, a DIRECTED record's is its flag. -/
theorem armingResult : Obligations.ArmingResult := by
  intro s sc h
  refine ⟨s.evaluatedHome sc h, evaluate_part s sc h, ?_, ?_, ?_⟩
  · intro slot onAt offAt limit k hform hoff
    have hm : h.form.monitored = some slot := by rw [hform]; rfl
    rw [evaluatedHome_frozen, evaluatedHome_armingResult, frozenNow_of_monitored hm, reading_of_monitored hm, hform]
    refine ⟨fun q hq => ?_, fun hq => ?_⟩
    · rw [hq]
      exact ⟨rfl, latch_sets, latch_clears hoff, latch_keeps⟩
    · rw [hq]
      exact ⟨rfl, armingNow_computed_held⟩
  · intro flag slot limit k hform
    have hm : h.form.monitored = some slot := by rw [hform]; rfl
    exact ⟨by rw [evaluatedHome_armingResult, hform]; rfl, frozenNow_of_monitored hm⟩
  · intro flag hform
    exact ⟨by rw [evaluatedHome_armingResult, hform]; rfl, frozenNow_of_no_slot (by rw [hform]; rfl)⟩

/-! ### The requirement (R80, R81) -/

theorem requirements_good {s : State} {h : HomePart} {slot k : Nat} {q limit : Int}
    (hm : h.form.monitored = some slot) (hl : h.form.limitAndK = some (limit, k)) (hq : s.goodValue slot = some q) :
    s.requirements h =
      (requirementOf q limit k h.margin h.floor, requirementOf q limit k h.margin h.floor) := by
  simp only [State.requirements, requirementNow, hl, reading_of_monitored hm, hq]

/-- The product of stage 2 of R81. -/
def excessProduct (q limit : Int) (k : Nat) : Nat := (q - limit).toNat * k

/-- A product scaled by 1024 and rounded up: stage 3 of R81. -/
def scaledUp (p : Nat) : Nat := (p + 1023) / 1024

section Requirement

variable {q limit : Int} {k margin floor p : Nat}

theorem requirementOf_within (he : q - limit ≤ 0) : requirementOf q limit k margin floor = floor := if_pos he

theorem requirementOf_above (he : 0 < q - limit) :
    requirementOf q limit k margin floor =
      if scaledUp (excessProduct q limit k) + margin < floor then floor
      else if 65535 < scaledUp (excessProduct q limit k) + margin then 65535
      else scaledUp (excessProduct q limit k) + margin := if_neg (by omega)

theorem requirementOf_bounds (hf : floor ≤ 65535) :
    floor ≤ requirementOf q limit k margin floor ∧ requirementOf q limit k margin floor ≤ 65535 := by
  rcases le_or_gt (q - limit) 0 with he | he
  · rw [requirementOf_within he]
    exact ⟨Nat.le_refl floor, hf⟩
  · rw [requirementOf_above he]
    split_ifs <;> omega

theorem excessProduct_cast (he : 0 < q - limit) : (excessProduct q limit k : Int) = (q - limit) * k := by
  rw [excessProduct, Nat.cast_mul, Int.toNat_of_nonneg he.le]

/-- The greatest product: the widest excess, 120000, by the greatest K. -/
theorem excessProduct_le (hl : -60000 ≤ limit) (hq : q ≤ 60000) (hk : k ≤ 4095) : excessProduct q limit k ≤ 491400000 :=
  Nat.mul_le_mul (show (q - limit).toNat ≤ 120000 by omega) hk

theorem le_scaledUp : p ≤ 1024 * scaledUp p := by unfold scaledUp; omega

theorem scaledUp_lt : 1024 * scaledUp p < p + 1024 := by unfold scaledUp; omega

end Requirement

/-- Settles O15: the requirement and the held requirement are both `requirementOf` at the GOOD quantity, which the sign of
the excess splits. -/
theorem requirementOfGoodQuantity : Obligations.RequirementOfGoodQuantity := by
  intro s sc h slot q limit k hm hl hq
  refine ⟨s.evaluatedHome sc h, evaluate_part s sc h, ?_⟩
  rw [evaluatedHome_requirement, evaluatedHome_held, requirements_good hm hl hq]
  refine ⟨fun he => ⟨requirementOf_within he, requirementOf_within he⟩, fun he => ?_⟩
  refine ⟨excessProduct q limit k, scaledUp (excessProduct q limit k), _, excessProduct_cast he, le_scaledUp, scaledUp_lt, rfl,
    requirementOf_above he, rfl, fun hlimit hquantity hk hmargin hfloor => ?_⟩
  have hp : excessProduct q limit k ≤ 491400000 := excessProduct_le hlimit hquantity hk
  have hr : scaledUp (excessProduct q limit k) ≤ 479883 := by
    have := scaledUp_lt (p := excessProduct q limit k)
    omega
  exact ⟨hp, hr, by omega, requirementOf_bounds hfloor⟩

/-! ### Selectable actions (R83) -/

section Selectable

variable {s : State} {r : ActionRef} {v : Nat}

theorem selectable_eq_some : s.selectable r = some v ↔
    ∃ a, s.findAction r = some a ∧ s.availability a = .inService ∧ 0 < s.effective a ∧ v = s.effective a := by
  unfold State.selectable
  cases s.findAction r with
  | none => simp
  | some a => simp [and_assoc, eq_comm]

theorem isSome_selectable : (s.selectable r).isSome = true ↔
    ∃ a, s.findAction r = some a ∧ s.availability a = .inService ∧ 0 < s.effective a := by
  simp only [Option.isSome_iff_exists, selectable_eq_some]
  exact ⟨fun ⟨_, a, hf, ha, hv, _⟩ => ⟨a, hf, ha, hv⟩, fun ⟨a, hf, ha, hv⟩ => ⟨_, a, hf, ha, hv, rfl⟩⟩

theorem mem_actions_of_findAction {a : ActionEntry} (hf : s.findAction r = some a) : a ∈ s.actions :=
  List.mem_of_find?_eq_some hf

theorem selectable_le {bound : Nat} (hb : ∀ a ∈ s.actions, s.effective a ≤ bound) (hv : s.selectable r = some v) :
    v ≤ bound := by
  obtain ⟨a, hf, _, _, rfl⟩ := selectable_eq_some.1 hv
  exact hb a (mem_actions_of_findAction hf)

end Selectable

/-! ### The walk (R84) -/

/-- The references that have a value, in rank order. -/
def chosen (value : ActionRef → Option Nat) (l : List ActionRef) : List ActionRef :=
  l.filter (fun r => (value r).isSome)

/-- The sum of the values. -/
def sumOf (value : ActionRef → Option Nat) (l : List ActionRef) : Nat := (l.filterMap value).sum

section Walk

variable {value : ActionRef → Option Nat} {req cap : Nat} {r : ActionRef} {l : List ActionRef} {sum count n v : Nat}

theorem mem_chosen : r ∈ chosen value l ↔ r ∈ l ∧ (value r).isSome = true := List.mem_filter

theorem chosen_cons_none (hr : value r = none) : chosen value (r :: l) = chosen value l := by simp [chosen, hr]

theorem chosen_cons_some (hr : value r = some v) : chosen value (r :: l) = r :: chosen value l := by
  simp [chosen, hr]

theorem sumOf_cons_none (hr : value r = none) : sumOf value (r :: l) = sumOf value l := by simp [sumOf, hr]

theorem sumOf_cons_some (hr : value r = some v) : sumOf value (r :: l) = v + sumOf value l := by simp [sumOf, hr]

/-- A sum of values of at most `bound` each. -/
theorem sumOf_le {bound : Nat} (hb : ∀ r v, value r = some v → v ≤ bound) : sumOf value l ≤ l.length * bound :=
  calc sumOf value l ≤ (l.filterMap value).length * bound :=
        List.sum_le_card_nsmul _ _ fun _ hv => have ⟨r, _, hr⟩ := List.mem_filterMap.1 hv; hb r _ hr
    _ ≤ l.length * bound := Nat.mul_le_mul_right _ (List.length_filterMap_le _ _)

theorem walk_cons_ended (he : req ≤ sum ∨ cap ≤ count) : walk value req cap (r :: l) sum count = ([], sum) := by
  rw [walk, if_pos he]

theorem walk_cons_none (hs : sum < req) (hc : count < cap) (hr : value r = none) :
    walk value req cap (r :: l) sum count = walk value req cap l sum count := by
  rw [walk, if_neg (by omega), hr]

theorem walk_cons_some (hs : sum < req) (hc : count < cap) (hr : value r = some v) :
    walk value req cap (r :: l) sum count =
      (r :: (walk value req cap l (sum + v) (count + 1)).1, (walk value req cap l (sum + v) (count + 1)).2) := by
  rw [walk, if_neg (by omega), hr]

/-- The walk of `l`, begun at a sum and a count, ends after `n` actions: it has taken those of them that have a value, it
ends there by one of the three ends of R84, and none of the ends stood at an action before. -/
structure EndsAt (value : ActionRef → Option Nat) (req cap : Nat) (l : List ActionRef) (sum count n : Nat) : Prop where
  le : n ≤ l.length
  result : walk value req cap l sum count = (chosen value (l.take n), sum + sumOf value (l.take n))
  ended : n = l.length ∨ req ≤ sum + sumOf value (l.take n) ∨ cap ≤ count + (chosen value (l.take n)).length
  not_ended_before : ∀ m < n, sum + sumOf value (l.take m) < req ∧ count + (chosen value (l.take m)).length < cap

theorem EndsAt.nil : EndsAt value req cap [] sum count 0 where
  le := Nat.le_refl 0
  result := rfl
  ended := .inl rfl
  not_ended_before := by simp

theorem EndsAt.at_once (he : req ≤ sum ∨ cap ≤ count) : EndsAt value req cap (r :: l) sum count 0 where
  le := Nat.zero_le _
  result := walk_cons_ended he
  ended := .inr he
  not_ended_before := by simp

theorem EndsAt.cons_none (hs : sum < req) (hc : count < cap) (hr : value r = none)
    (e : EndsAt value req cap l sum count n) : EndsAt value req cap (r :: l) sum count (n + 1) where
  le := Nat.succ_le_succ e.le
  result := by
    rw [walk_cons_none hs hc hr, e.result, List.take_succ_cons, chosen_cons_none hr, sumOf_cons_none hr]
  ended := by
    rw [List.take_succ_cons, chosen_cons_none hr, sumOf_cons_none hr, List.length_cons, Nat.succ_inj]
    exact e.ended
  not_ended_before
    | 0, _ => ⟨hs, hc⟩
    | m + 1, hm => by
      rw [List.take_succ_cons, chosen_cons_none hr, sumOf_cons_none hr]
      exact e.not_ended_before m (Nat.lt_of_succ_lt_succ hm)

theorem EndsAt.cons_some (hs : sum < req) (hc : count < cap) (hr : value r = some v)
    (e : EndsAt value req cap l (sum + v) (count + 1) n) : EndsAt value req cap (r :: l) sum count (n + 1) where
  le := Nat.succ_le_succ e.le
  result := by
    rw [walk_cons_some hs hc hr, e.result, List.take_succ_cons, chosen_cons_some hr, sumOf_cons_some hr, Nat.add_assoc]
  ended := by
    have h := e.ended
    rw [List.take_succ_cons, chosen_cons_some hr, sumOf_cons_some hr, List.length_cons, List.length_cons]
    omega
  not_ended_before
    | 0, _ => ⟨hs, hc⟩
    | m + 1, hm => by
      have h := e.not_ended_before m (Nat.lt_of_succ_lt_succ hm)
      rw [List.take_succ_cons, chosen_cons_some hr, sumOf_cons_some hr, List.length_cons]
      omega

theorem exists_endsAt (value : ActionRef → Option Nat) (req cap : Nat) (l : List ActionRef) (sum count : Nat) :
    ∃ n, EndsAt value req cap l sum count n := by
  induction l generalizing sum count with
  | nil => exact ⟨0, .nil⟩
  | cons r rest ih =>
    by_cases he : req ≤ sum ∨ cap ≤ count
    · exact ⟨0, .at_once he⟩
    · obtain ⟨hs, hc⟩ : sum < req ∧ count < cap := by omega
      cases hr : value r with
      | none =>
        obtain ⟨n, e⟩ := ih sum count
        exact ⟨n + 1, e.cons_none hs hc hr⟩
      | some v =>
        obtain ⟨n, e⟩ := ih (sum + v) (count + 1)
        exact ⟨n + 1, e.cons_some hs hc hr⟩

/-- The cap bounds the count: each action but the last was taken below it, and the last adds at most one. -/
theorem EndsAt.chosen_length_le (e : EndsAt value req cap l 0 0 n) : (chosen value (l.take n)).length ≤ cap := by
  cases n with
  | zero => simp [chosen]
  | succ m =>
    have hlt := (e.not_ended_before m (Nat.lt_succ_self m)).2
    have hstep : (chosen value (l.take (m + 1))).length ≤ (chosen value (l.take m)).length + 1 := by
      rw [chosen, List.take_add_one, List.filter_append, List.length_append]
      exact Nat.add_le_add_left ((List.length_filter_le _ _).trans Option.length_toList_le) _
    omega

/-- Where the walk ends short of the requirement, the cap is taken up or the list is at its end. -/
theorem EndsAt.of_short (e : EndsAt value req cap l 0 0 n) (hs : sumOf value (l.take n) < req) :
    cap ≤ (chosen value (l.take n)).length ∨ chosen value (l.take n) = chosen value l := by
  obtain rfl | hreq | hcap := e.ended
  · exact .inr (by rw [List.take_length])
  · omega
  · exact .inl (by omega)

end Walk

/-- Settles O18, from where the walk of the evaluation ends (`EndsAt`). -/
theorem selectionWalk : Obligations.SelectionWalk := by
  intro s sc h
  obtain ⟨n, e⟩ := exists_endsAt s.selectable (s.requirements h).1 h.cap sc.actions 0 0
  have hsel : (s.evaluate sc h).selection = chosen s.selectable (sc.actions.take n) :=
    (evaluate_selection s sc h).trans (congrArg Prod.fst e.result)
  have hsum : (s.evaluatedHome sc h).sum = sumOf s.selectable (sc.actions.take n) :=
    calc (s.evaluatedHome sc h).sum = (s.selectionWalk sc h).2 := evaluatedHome_sum s sc h
      _ = 0 + sumOf s.selectable (sc.actions.take n) := congrArg Prod.snd e.result
      _ = sumOf s.selectable (sc.actions.take n) := Nat.zero_add _
  have hshort : (s.evaluatedHome sc h).shortfall = true ↔
      (s.evaluatedHome sc h).sum < (s.evaluatedHome sc h).requirement := by
    rw [evaluatedHome_shortfall, evaluatedHome_sum, evaluatedHome_requirement, decide_eq_true_iff]
  refine ⟨s.evaluatedHome sc h, n, evaluate_part s sc h, e.le, hsel, hsum, ?_, ?_, hshort, ?_, ?_, ?_, ?_, ?_, ?_⟩
  · have hended := e.ended
    rwa [Nat.zero_add, Nat.zero_add] at hended
  · intro m hm
    have hbefore := e.not_ended_before m hm
    rwa [Nat.zero_add, Nat.zero_add] at hbefore
  · intro hs
    rw [hsel]
    exact e.of_short (hsum ▸ hshort.1 hs)
  · rw [hsel]
    exact List.filter_sublist.trans (List.take_sublist _ _)
  · rw [hsel]
    exact e.chosen_length_le
  · intro r hr
    rw [hsel] at hr
    exact isSome_selectable.1 (mem_chosen.1 hr).2
  · exact fun r v => selectable_eq_some
  · intro hlen hb
    calc (s.evaluatedHome sc h).sum = sumOf s.selectable (sc.actions.take n) := hsum
      _ ≤ (sc.actions.take n).length * 65535 := sumOf_le fun _ _ => selectable_le hb
      _ ≤ 12 * 65535 := Nat.mul_le_mul_right _ ((List.length_take_le' _ _).trans hlen)
      _ = 786420 := rfl

end Sys2Proof.Machine
end

section
/-! The device mode (R194, R202): which commands change it, and in which modes each station command is taken. -/

namespace Sys2Proof.Machine

/-! ### What the shared operations of an event do to the mode -/

section Shared

variable (s : State) (e : Ev)

theorem mode_of_still {a b : State} (h : a.still = b.still) : a.mode = b.mode := (sameStill h).mode

@[simp] theorem s_begin : (Ev.begin s).s = s := rfl

@[simp] theorem mode_event (f : Ev → Ev) : (event s f).mode = (f (Ev.begin s)).s.mode := (event_sameStill s f).mode

@[simp] theorem mode_put (i : Nat) (sc : Scheme) : (e.put i sc).s.mode = e.s.mode := rfl
@[simp] theorem mode_putHome (i : Nat) (sc : Scheme) (h : HomePart) : (e.putHome i sc h).s.mode = e.s.mode := rfl
@[simp] theorem mode_evRaise (ev : Event) (n : Nat) : (e.raise ev n).s.mode = e.s.mode := rfl
@[simp] theorem s_sendDisown (id t : Nat) : (e.sendDisown id t).s = e.s := rfl

@[simp] theorem mode_openPort (p : Nat) : (s.openPort p).mode = s.mode := rfl
@[simp] theorem mode_beginStarting (p : Nat) (l : List Byte) : (s.beginStarting p l).mode = s.mode := rfl
@[simp] theorem mode_sendStart (p : Nat) (l : List Byte) : (s.sendStart p l).mode = s.mode := rfl
@[simp] theorem mode_transmit (p : Nat) (w : Sending) : (s.transmit p w).mode = s.mode := rfl
@[simp] theorem mode_markValid (p : Nat) : (s.markValid p).mode = s.mode := rfl
@[simp] theorem mode_recordFault (p : Nat) (f : LineFault) (n : Nat) : (s.recordFault p f n).mode = s.mode := rfl

@[simp] theorem mode_choose (p : Nat) : (s.choose p).mode = s.mode := mode_of_still (still_choose s p)
@[simp] theorem mode_enterUp (p : Nat) : (s.enterUp p).mode = s.mode := mode_of_still (still_enterUp s p)
@[simp] theorem mode_leaveUp (p : Nat) (failed : Bool) : (s.leaveUp p failed).1.mode = s.mode :=
  mode_of_still (still_leaveUp s p failed)
@[simp] theorem mode_closePort (p : Nat) : (s.closePort p).1.mode = s.mode := mode_of_still (still_closePort s p)
@[simp] theorem mode_returnAll (l : List Queued) : (s.returnAll l).mode = s.mode := mode_of_still (still_returnAll s l)
@[simp] theorem mode_tripAll (test : Bool) (l : List Nat) : (s.tripAll test l).1.mode = s.mode :=
  mode_of_still (still_tripAll s test l)

@[simp] theorem mode_sendRounds (i : Nat) (sc : Scheme) (h : HomePart) (w : Participant → Bool) :
    (e.sendRounds i sc h w).s.mode = e.s.mode := mode_of_still (still_sendRounds e i sc h w)
@[simp] theorem mode_startRetire (i : Nat) (sc : Scheme) (h : HomePart) :
    (e.startRetire i sc h).s.mode = e.s.mode := mode_of_still (still_startRetire e i sc h)
@[simp] theorem mode_complete (c : Nat) : (e.complete c).s.mode = e.s.mode := mode_of_still (still_complete e c)
@[simp] theorem mode_stray (i : Nat) (sc : Scheme) (h : HomePart) : (e.stray i sc h).s.mode = e.s.mode := rfl
@[simp] theorem mode_takeReport (i : Nat) (k : Cause) (t g : Nat) (r : List (Nat × Result)) :
    (e.takeReport i k t g r).s.mode = e.s.mode := mode_of_still (still_takeReport e i k t g r)
@[simp] theorem mode_takeAck (c t : Nat) (r : List (Nat × Result)) : (e.takeAck c t r).s.mode = e.s.mode :=
  mode_of_still (still_takeAck e c t r)

/-- A fold over steps of an event that each keep the mode keeps it. -/
theorem mode_foldl {α : Type} {f : Ev → α → Ev} (h : ∀ e a, (f e a).s.mode = e.s.mode) (l : List α) :
    (l.foldl f e).s.mode = e.s.mode :=
  foldl_keeps (fun e : Ev => e.s.mode) f h l e

end Shared

/-! ### Inputs, links and publication -/

section Units

variable (s : State) (e : Ev)

@[simp] theorem mode_assertInput (i : Nat) : (e.assertInput i).s.mode = e.s.mode := by simp [Ev.assertInput]

@[simp] theorem mode_releaseInput (i : Nat) : (e.releaseInput i).s.mode = e.s.mode := by simp [Ev.releaseInput]

@[simp] theorem mode_qualifyInput (i : Nat) : (e.qualifyInput i).s.mode = e.s.mode := by
  unfold Ev.qualifyInput; split <;> simp

@[simp] theorem mode_reconfigureInput (i : Nat) (x : Input) (enable : Bool) (q d : Nat) :
    (e.reconfigureInput i x enable q d).s.mode = e.s.mode := by
  unfold Ev.reconfigureInput
  dsimp only
  repeat' split
  all_goals simp

@[simp] theorem mode_levelChanged (i : Nat) (active : Bool) : (e.levelChanged i active).s.mode = e.s.mode := by
  unfold Ev.levelChanged
  dsimp only
  repeat' split
  all_goals simp

@[simp] theorem mode_closing (p : Nat) : (e.closing p).s.mode = e.s.mode := by simp [Ev.closing]

@[simp] theorem mode_restart (p : Nat) (failed : Bool) (peer : Option (Nat × Nat)) :
    (e.restart p failed peer).s.mode = e.s.mode := by simp [Ev.restart]

@[simp] theorem mode_decideHealth (p : Nat) : (e.decideHealth p).s.mode = e.s.mode := by
  unfold Ev.decideHealth; split <;> simp

@[simp] theorem mode_startInStarting (p source : Nat) (flags : Byte) :
    (e.startInStarting p source flags).s.mode = e.s.mode := by
  unfold Ev.startInStarting
  split
  · simp
  · dsimp only; split <;> simp

@[simp] theorem mode_startInUp (p source : Nat) (flags : Byte) : (e.startInUp p source flags).s.mode = e.s.mode := by
  unfold Ev.startInUp; split <;> simp

theorem mode_admitFrame {p source : Nat} {t : State} (h : s.admitFrame p source = some t) : t.mode = s.mode :=
  mode_of_still (still_admit s h)

theorem mode_route_getD (q : Queued) : ((s.route q).getD s).mode = s.mode := by
  cases h : s.route q with
  | none => rfl
  | some t => exact mode_of_still (still_route s h)

@[simp] theorem mode_relay (p : Nat) (f : Frame) : (e.relay p f).s.mode = e.s.mode := by
  unfold Ev.relay
  repeat' split
  all_goals simp [mode_route_getD]

@[simp] theorem mode_judged (p : Nat) (line : List Byte) : (s.judged p line).mode = s.mode := by
  unfold State.judged; split <;> simp

@[simp] theorem mode_malformed (p : Nat) (body : List Byte) : (s.malformed p body).mode = s.mode := by
  unfold State.malformed; split <;> simp

@[simp] theorem s_publishQuantities : e.publishQuantities.s = e.s := by
  unfold Ev.publishQuantities
  refine foldl_keeps (fun e : Ev => e.s) _ (fun b t => ?_) _ _
  exact foldl_keeps (fun e : Ev => e.s) (fun e l => e.send .quantity t l) (fun _ _ => rfl) _ _

@[simp] theorem s_publishStatus : e.publishStatus.s = e.s := by
  unfold Ev.publishStatus
  exact foldl_keeps (fun e : Ev => e.s) _ (fun b t => s_publishTo b t _) _ _

@[simp] theorem mode_testReplied (source : Nat) (body : List Byte) : (s.testReplied source body).mode = s.mode := by
  unfold State.testReplied
  repeat' split
  all_goals rfl

end Units

/-! ### Records, copies and contexts -/

section Records

variable (s : State) (e : Ev)

@[simp] theorem mode_loadCreate (b : LoadBody) (i : Nat) : (loadCreate b i e).s.mode = e.s.mode := by
  unfold loadCreate; dsimp only; split <;> simp

@[simp] theorem mode_loadReplace (b : LoadBody) (i : Nat) (sc : Scheme) (h : HomePart) :
    (loadReplace b i sc h e).s.mode = e.s.mode := by
  unfold loadReplace
  dsimp only
  rw [mode_foldl]
  · rfl
  · exact fun _ _ => rfl

@[simp] theorem mode_toService (i : Nat) (sc : Scheme) : (e.toService i sc).s.mode = e.s.mode := rfl

@[simp] theorem mode_refreshRecord (i : Nat) (sc : Scheme) : (e.refreshRecord i sc).s.mode = e.s.mode := rfl

@[simp] theorem mode_openTest (c : Nat) (sc : Scheme) : (e.openTest c sc).s.mode = e.s.mode := by
  unfold Ev.openTest
  dsimp only
  rw [mode_foldl]
  · simp
  · exact fun _ _ => rfl

@[simp] theorem mode_expire (c : Nat) : (e.expire c).s.mode = e.s.mode := by simp [Ev.expire]

@[simp] theorem mode_retry (i : Nat) (sc : Scheme) (h : HomePart) (p : Participant) :
    (e.retry i sc h p).s.mode = e.s.mode := by
  unfold Ev.retry; split <;> simp

@[simp] theorem mode_releaseWithheld (i : Nat) : (e.releaseWithheld i).s.mode = e.s.mode := by
  unfold Ev.releaseWithheld
  dsimp only
  repeat' split
  all_goals simp

@[simp] theorem mode_evaluatingHome (i : Nat) : (e.evaluatingHome i).s.mode = e.s.mode := by
  unfold Ev.evaluatingHome
  repeat' split
  all_goals simp

/-- MAINTENANCE EXIT brings the device to RUN before it releases and evaluates, which leaves the mode. -/
@[simp] theorem mode_exitMaintenance : e.exitMaintenance.s.mode = .run := by
  unfold Ev.exitMaintenance
  dsimp only
  rw [mode_foldl _ mode_evaluatingHome, mode_foldl _ mode_releaseWithheld, s_on]

end Records

/-! ### Received frames, each taken by the block of its kind -/

section Frames

variable (s : State) (e : Ev) (source : Nat)

@[simp] theorem mode_takeNotice (n : Nat × Bool) : (e.takeNotice source n).s.mode = e.s.mode := by
  unfold Ev.takeNotice
  dsimp only
  repeat' split
  all_goals simp

@[simp] theorem mode_takeFiredReport (m : Nat × Nat × List (Nat × Result)) :
    (e.takeFiredReport source m).s.mode = e.s.mode := by
  unfold Ev.takeFiredReport
  repeat' split
  all_goals simp

@[simp] theorem mode_orderFires (id : Nat) (test : Bool) (r : List (Nat × Result)) :
    (e.orderFires id source test r).s.mode = e.s.mode := by
  unfold Ev.orderFires
  repeat' split
  all_goals simp

@[simp] theorem mode_takeOrder (m : Nat × Nat × Bool × List Nat) : (e.takeOrder source m).s.mode = e.s.mode := by
  simp [Ev.takeOrder]

@[simp] theorem mode_takeOrderAck (m : Nat × Nat × Bool × List (Nat × Result)) :
    (e.takeOrderAck source m).s.mode = e.s.mode := by
  unfold Ev.takeOrderAck; split <;> simp

@[simp] theorem mode_acceptUpdate (i : Nat) (u : Carried) (before : Option Scheme) :
    (e.acceptUpdate i source u before).s.mode = e.s.mode := by
  unfold Ev.acceptUpdate; dsimp only; split <;> simp

@[simp] theorem mode_takeUpdate (u : Carried) : (e.takeUpdate source u).s.mode = e.s.mode := by
  unfold Ev.takeUpdate
  dsimp only
  rw [s_send]
  split <;> simp

@[simp] theorem mode_takeAccept (i : Nat) (sc : Scheme) (h : HomePart) (p : Participant) (gen : Nat) (echo : Bool) :
    (e.takeAccept i sc h p gen echo).s.mode = e.s.mode := by
  unfold Ev.takeAccept
  repeat' split
  all_goals simp

@[simp] theorem mode_takeHold (i : Nat) (sc : Scheme) (h : HomePart) (p : Participant) (f : FiringSummary) :
    (e.takeHold i sc h p f).s.mode = e.s.mode := by
  unfold Ev.takeHold
  dsimp only
  repeat' split
  all_goals simp

@[simp] theorem mode_takeReject (i : Nat) (sc : Scheme) (h : HomePart) (p : Participant) (r : RejectReason) :
    (e.takeReject i sc h p r).s.mode = e.s.mode := by
  unfold Ev.takeReject; split <;> simp

@[simp] theorem mode_replyInRetiring (i id : Nat) (f : Reply) :
    (e.replyInRetiring i id source f).s.mode = e.s.mode := by
  cases f <;> simp [Ev.replyInRetiring]

@[simp] theorem mode_takeReply (m : Nat × Nat × Reply) : (e.takeReply source m).s.mode = e.s.mode := by
  unfold Ev.takeReply
  repeat' split
  all_goals simp

theorem mode_takePair (acc : Ev × List (Nat × Nat × Option Nat)) (p : Nat × Nat) :
    (Ev.takePair acc source p).1.s.mode = acc.1.s.mode := by
  unfold Ev.takePair
  dsimp only
  repeat' split
  all_goals simp

@[simp] theorem mode_takeRefresh (pairs : List (Nat × Nat)) : (e.takeRefresh source pairs).s.mode = e.s.mode := by
  unfold Ev.takeRefresh
  dsimp only
  rw [mode_foldl]
  · exact foldl_keeps (fun acc : Ev × List (Nat × Nat × Option Nat) => acc.1.s.mode) _
      (fun acc p => mode_takePair source acc p) pairs (e, [])
  · exact fun _ _ => rfl

@[simp] theorem mode_compareEntry (i : Nat) (sc : Scheme) (h : HomePart) (p : Participant) (copy : Option Nat) :
    (e.compareEntry i sc h p copy).s.mode = e.s.mode := by
  unfold Ev.compareEntry
  dsimp only
  repeat' split
  all_goals simp

@[simp] theorem mode_takeAckEntry (m : Nat × Nat × Option Nat) : (e.takeAckEntry source m).s.mode = e.s.mode := by
  unfold Ev.takeAckEntry
  repeat' split
  all_goals simp

@[simp] theorem mode_takeRetire (id : Nat) : (e.takeRetire source id).s.mode = e.s.mode := by
  unfold Ev.takeRetire; split <;> simp

@[simp] theorem mode_takeRetireAck (m : Nat × Option FiringSummary) :
    (e.takeRetireAck source m).s.mode = e.s.mode := by
  unfold Ev.takeRetireAck
  dsimp only
  repeat' split
  all_goals simp

@[simp] theorem mode_takeDisown (id : Nat) : (e.takeDisown source id).s.mode = e.s.mode := by
  unfold Ev.takeDisown; split <;> simp

@[simp] theorem mode_applyEntry (q : Nat) (v : Int) (quality : Quality) :
    (e.applyEntry q v quality).s.mode = e.s.mode := by
  unfold Ev.applyEntry; dsimp only; split <;> simp

@[simp] theorem mode_takeQuantity (m : Nat × Int × Nat) : (e.takeQuantity source m).s.mode = e.s.mode := by
  unfold Ev.takeQuantity
  split
  · split
    · rfl
    · exact mode_foldl _ (fun e q => mode_applyEntry e q _ _) _
  · rfl

@[simp] theorem mode_takeStatus (m : Nat × Nat × Nat) : (e.takeStatus source m).s.mode = e.s.mode := by
  unfold Ev.takeStatus
  repeat' split
  all_goals simp

end Frames

/-! ### Commands that are no station command keep the mode -/

/-- Where an outcome is a next state, its mode is that of `s`. -/
def KeepsMode (s : State) (r : Host.Outcome State Fault Refusal) : Prop := ∀ t, r = .next t → t.mode = s.mode

section Keeps

variable {s : State}

@[simp] theorem keepsMode_next {t : State} : KeepsMode s (.next t) ↔ t.mode = s.mode :=
  ⟨fun h => h t rfl, fun h u hu => by cases hu; exact h⟩

theorem keepsMode_ofUnit {n count : Nat} {t : State} (h : t.mode = s.mode) : KeepsMode s (ofUnit n count t) := by
  unfold ofUnit
  split
  · exact keepsMode_next.2 h
  · intro u hu; cases hu

theorem keepsMode_received {port source : Nat} {body : List Byte} {f : Ev → Ev}
    (h : ∀ e, (f e).s.mode = e.s.mode) : KeepsMode s (received port source body s f) := by
  refine keepsMode_ofUnit ?_
  split
  · exact mode_malformed s port body
  · split
    · rfl
    · next t ht => rw [mode_event, h, s_on, mode_admitFrame s ht]

theorem mode_taking {α : Type} {f : α → Ev → Ev} (h : ∀ a e, (f a e).s.mode = e.s.mode) (r : Option α)
    (e : Ev) : (taking r f e).s.mode = e.s.mode := by
  cases r with
  | none => rfl
  | some a => exact h a e

end Keeps

section Events

variable (s : State)

/-! #### The station port's transactions -/

theorem mode_fetched (n : Nat) : (s.fetched n).mode = s.mode := by
  unfold State.fetched; split <;> rfl

theorem mode_commandReceived (mosi : List Byte) : (s.commandReceived mosi).mode = s.mode := by
  unfold State.commandReceived; dsimp only; split <;> rfl

theorem execCommandTransaction_keepsMode (mosi : List Byte) : KeepsMode s (execCommandTransaction mosi s) := by
  unfold execCommandTransaction
  rw [keepsMode_next]
  split
  · rfl
  · split
    · rfl
    · split
      · exact mode_fetched s _
      · exact mode_commandReceived s mosi

theorem execFetch_keepsMode (n : Nat) : KeepsMode s (execFetch n s) := by
  unfold execFetch
  rw [keepsMode_next]
  split
  · rfl
  · split
    · rfl
    · exact mode_fetched s n

theorem execBusyTransaction_keepsMode (n : Nat) : KeepsMode s (execBusyTransaction n s) := by
  unfold execBusyTransaction
  rw [keepsMode_next]
  split <;> rfl

theorem execCommandFrameRefused_keepsMode : KeepsMode s (execCommandFrameRefused s) := by
  unfold execCommandFrameRefused
  rw [keepsMode_next]
  split <;> rfl

/-! #### Pins and timers: an expiry that does not happen changes nothing, one that does is an event -/

theorem execInputLevelChange_keepsMode (i : Nat) (active : Bool) : KeepsMode s (execInputLevelChange i active s) := by
  refine keepsMode_ofUnit ?_
  split <;> simp

theorem execQualifyTimerExpiry_keepsMode (i : Nat) : KeepsMode s (execQualifyTimerExpiry i s) := by
  refine keepsMode_ofUnit ?_
  split
  · split <;> simp
  · rfl

theorem execDropoutTimerExpiry_keepsMode (i : Nat) : KeepsMode s (execDropoutTimerExpiry i s) := by
  refine keepsMode_ofUnit ?_
  split
  · split <;> simp
  · rfl

theorem execRepeatTimerExpiry_keepsMode (i : Nat) : KeepsMode s (execRepeatTimerExpiry i s) := by
  refine keepsMode_ofUnit ?_
  split
  · split <;> simp
  · rfl

theorem execHoldTimerExpiry_keepsMode (terminal i : Nat) : KeepsMode s (execHoldTimerExpiry terminal i s) := by
  unfold execHoldTimerExpiry
  rw [keepsMode_next]
  dsimp only
  split
  · split <;> simp
  · rfl

theorem execSlotExpiry_keepsMode (q : Nat) : KeepsMode s (execSlotExpiry q s) := by
  refine keepsMode_ofUnit ?_
  split <;> simp

theorem execPublicationTimerExpiry_keepsMode : KeepsMode s (execPublicationTimerExpiry s) := by
  unfold execPublicationTimerExpiry
  rw [keepsMode_next]
  split <;> simp

theorem execFreshnessExpiry_keepsMode (site number : Nat) : KeepsMode s (execFreshnessExpiry site number s) := by
  unfold execFreshnessExpiry
  rw [keepsMode_next]
  dsimp only
  split <;> simp

theorem execPulseEnd_keepsMode (o : Nat) : KeepsMode s (execPulseEnd o s) := by
  refine keepsMode_ofUnit ?_
  split <;> simp

theorem execRefreshDeadlineExpiry_keepsMode (id : Nat) : KeepsMode s (execRefreshDeadlineExpiry id s) := by
  unfold execRefreshDeadlineExpiry
  rw [keepsMode_next]
  repeat' split
  all_goals simp

theorem execCopyDeadlineExpiry_keepsMode (id : Nat) : KeepsMode s (execCopyDeadlineExpiry id s) := by
  unfold execCopyDeadlineExpiry
  rw [keepsMode_next]
  split
  · split <;> simp
  · rfl

theorem execReportWaitExpiry_keepsMode (c : Nat) : KeepsMode s (execReportWaitExpiry c s) := by
  refine keepsMode_ofUnit ?_
  split
  · split
    · rw [mode_event, mode_foldl]
      · simp
      · exact fun _ _ => rfl
    · rfl
  · rfl

theorem execExecutionDeadlineExpiry_keepsMode (c : Nat) : KeepsMode s (execExecutionDeadlineExpiry c s) := by
  refine keepsMode_ofUnit ?_
  split
  · split <;> simp
  · rfl

theorem execRetryTimerExpiry_keepsMode (id terminal : Nat) : KeepsMode s (execRetryTimerExpiry id terminal s) := by
  unfold execRetryTimerExpiry
  rw [keepsMode_next]
  split
  · split
    · split <;> simp
    · rfl
  · rfl

theorem execPortTestExpiry_keepsMode : KeepsMode s (execPortTestExpiry s) := by
  unfold execPortTestExpiry
  rw [keepsMode_next]
  split
  · split <;> rfl
  · rfl

theorem execStartTimerExpiry_keepsMode (p : Nat) : KeepsMode s (execStartTimerExpiry p s) := by
  refine keepsMode_ofUnit ?_
  split <;> simp

theorem execWindowEnd_keepsMode (p : Nat) (unfinished : Bool) : KeepsMode s (execWindowEnd p unfinished s) := by
  refine keepsMode_ofUnit ?_
  split <;> simp

theorem execIdleDue_keepsMode (p : Nat) : KeepsMode s (execIdleDue p s) := by
  refine keepsMode_ofUnit ?_
  dsimp only
  split <;> simp

theorem execTransmissionEnd_keepsMode (p : Nat) : KeepsMode s (execTransmissionEnd p s) := by
  refine keepsMode_ofUnit ?_
  split
  · dsimp only
    repeat' split
    all_goals simp
  · rfl

/-! #### Reception -/

theorem execFrameFault_keepsMode (p : Nat) (line : List Byte) : KeepsMode s (execFrameFault p line s) := by
  refine keepsMode_ofUnit ?_
  split <;> simp

theorem execRelayedFrame_keepsMode (p destination source : Nat) (kind : FrameKind) (hop : Nat) (body : List Byte) :
    KeepsMode s (execRelayedFrame p destination source kind hop body s) := by
  unfold execRelayedFrame
  split
  · exact keepsMode_received fun e => mode_relay e p _
  · exact keepsMode_ofUnit (mode_malformed s p body)

theorem execStart_keepsMode (p source : Nat) (flags : Byte) : KeepsMode s (execStart p source flags s) := by
  refine keepsMode_ofUnit ?_
  split
  · simp
  · split <;> simp

/-- The rows of reception: each frame is taken by the block of its kind, and a body that cannot be read is discarded. -/
theorem received_taking_keepsMode {α : Type} {port source : Nat} {body : List Byte} {r : Option α}
    {f : α → Ev → Ev} (h : ∀ a e, (f a e).s.mode = e.s.mode) :
    KeepsMode s (received port source body s (taking r f)) :=
  keepsMode_received (mode_taking h r)

theorem execIdle_keepsMode (p source : Nat) : KeepsMode s (execIdle p source s) :=
  keepsMode_received fun _ => rfl

theorem execContingency_keepsMode (p source : Nat) (body : List Byte) : KeepsMode s (execContingency p source body s) :=
  received_taking_keepsMode s fun n e => mode_takeNotice e source n

theorem execFiredReport_keepsMode (p source : Nat) (body : List Byte) : KeepsMode s (execFiredReport p source body s) :=
  received_taking_keepsMode s fun m e => mode_takeFiredReport e source m

theorem execTripOrder_keepsMode (p source : Nat) (body : List Byte) : KeepsMode s (execTripOrder p source body s) :=
  received_taking_keepsMode s fun m e => mode_takeOrder e source m

theorem execOrderAck_keepsMode (p source : Nat) (body : List Byte) : KeepsMode s (execOrderAck p source body s) :=
  received_taking_keepsMode s fun m e => mode_takeOrderAck e source m

theorem execUpdate_keepsMode (p source : Nat) (body : List Byte) : KeepsMode s (execUpdate p source body s) :=
  received_taking_keepsMode s fun u e => mode_takeUpdate e source u

theorem execUpdateReply_keepsMode (p source : Nat) (body : List Byte) : KeepsMode s (execUpdateReply p source body s) :=
  received_taking_keepsMode s fun m e => mode_takeReply e source m

theorem execRefreshFrame_keepsMode (p source : Nat) (body : List Byte) :
    KeepsMode s (execRefreshFrame p source body s) :=
  received_taking_keepsMode s fun l e => mode_takeRefresh e source l

theorem execRefreshAck_keepsMode (p source : Nat) (body : List Byte) : KeepsMode s (execRefreshAck p source body s) :=
  received_taking_keepsMode s fun l e => mode_foldl e (fun e m => mode_takeAckEntry e source m) l

theorem execRetireFrame_keepsMode (p source : Nat) (body : List Byte) : KeepsMode s (execRetireFrame p source body s) :=
  received_taking_keepsMode s fun id e => mode_takeRetire e source id

theorem execRetireAck_keepsMode (p source : Nat) (body : List Byte) : KeepsMode s (execRetireAck p source body s) :=
  received_taking_keepsMode s fun m e => mode_takeRetireAck e source m

theorem execDisown_keepsMode (p source : Nat) (body : List Byte) : KeepsMode s (execDisown p source body s) :=
  received_taking_keepsMode s fun id e => mode_takeDisown e source id

theorem execQuantityFrame_keepsMode (p source : Nat) (body : List Byte) :
    KeepsMode s (execQuantityFrame p source body s) :=
  received_taking_keepsMode s fun l e => mode_foldl e (fun e m => mode_takeQuantity e source m) l

theorem execActionStatus_keepsMode (p source : Nat) (body : List Byte) :
    KeepsMode s (execActionStatus p source body s) :=
  received_taking_keepsMode s fun l e => mode_foldl e (fun e m => mode_takeStatus e source m) l

theorem execEcho_keepsMode (p source : Nat) (body : List Byte) : KeepsMode s (execEcho p source body s) :=
  keepsMode_received fun _ => rfl

theorem execEchoReply_keepsMode (p source : Nat) (body : List Byte) : KeepsMode s (execEchoReply p source body s) :=
  keepsMode_received fun e => mode_testReplied e.s source body

end Events

/-- A command that is neither a full reset nor a station command keeps the mode. -/
theorem exec_keepsMode {i : Instr} (hi : stationModes i = none) (hreset : i ≠ .fullReset) (s : State) :
    KeepsMode s (exec i s) := by
  cases i with
  | fullReset => exact absurd rfl hreset
  | commandTransaction mosi => exact execCommandTransaction_keepsMode s mosi
  | fetch n => exact execFetch_keepsMode s n
  | busyTransaction n => exact execBusyTransaction_keepsMode s n
  | commandFrameRefused => exact execCommandFrameRefused_keepsMode s
  | inputLevelChange i active => exact execInputLevelChange_keepsMode s i active
  | qualifyTimerExpiry i => exact execQualifyTimerExpiry_keepsMode s i
  | dropoutTimerExpiry i => exact execDropoutTimerExpiry_keepsMode s i
  | repeatTimerExpiry i => exact execRepeatTimerExpiry_keepsMode s i
  | holdTimerExpiry terminal i => exact execHoldTimerExpiry_keepsMode s terminal i
  | slotExpiry q => exact execSlotExpiry_keepsMode s q
  | publicationTimerExpiry => exact execPublicationTimerExpiry_keepsMode s
  | freshnessExpiry site number => exact execFreshnessExpiry_keepsMode s site number
  | pulseEnd o => exact execPulseEnd_keepsMode s o
  | refreshDeadlineExpiry id => exact execRefreshDeadlineExpiry_keepsMode s id
  | copyDeadlineExpiry id => exact execCopyDeadlineExpiry_keepsMode s id
  | reportWaitExpiry c => exact execReportWaitExpiry_keepsMode s c
  | executionDeadlineExpiry c => exact execExecutionDeadlineExpiry_keepsMode s c
  | retryTimerExpiry id terminal => exact execRetryTimerExpiry_keepsMode s id terminal
  | portTestExpiry => exact execPortTestExpiry_keepsMode s
  | startTimerExpiry p => exact execStartTimerExpiry_keepsMode s p
  | windowEnd p unfinished => exact execWindowEnd_keepsMode s p unfinished
  | idleDue p => exact execIdleDue_keepsMode s p
  | transmissionEnd p => exact execTransmissionEnd_keepsMode s p
  | frameFault p line => exact execFrameFault_keepsMode s p line
  | relayedFrame p d src kind hop body => exact execRelayedFrame_keepsMode s p d src kind hop body
  | start p src flags => exact execStart_keepsMode s p src flags
  | idle p src => exact execIdle_keepsMode s p src
  | contingency p src body => exact execContingency_keepsMode s p src body
  | firedReport p src body => exact execFiredReport_keepsMode s p src body
  | tripOrder p src body => exact execTripOrder_keepsMode s p src body
  | orderAck p src body => exact execOrderAck_keepsMode s p src body
  | update p src body => exact execUpdate_keepsMode s p src body
  | updateReply p src body => exact execUpdateReply_keepsMode s p src body
  | refreshFrame p src body => exact execRefreshFrame_keepsMode s p src body
  | refreshAck p src body => exact execRefreshAck_keepsMode s p src body
  | retireFrame p src body => exact execRetireFrame_keepsMode s p src body
  | retireAck p src body => exact execRetireAck_keepsMode s p src body
  | disown p src body => exact execDisown_keepsMode s p src body
  | quantityFrame p src body => exact execQuantityFrame_keepsMode s p src body
  | actionStatus p src body => exact execActionStatus_keepsMode s p src body
  | echo p src body => exact execEcho_keepsMode s p src body
  | echoReply p src body => exact execEchoReply_keepsMode s p src body
  | _ => exact absurd hi (Option.some_ne_none _)

/-! ### Station commands: the modes of the row, and the mode a command leaves -/

/-- A command's own checks refuse with a code of their own, never MODE, or leave the part in mode `m`. -/
def Taken.Leaves (m : Mode) : Taken → Prop
  | .refused c => c ≠ .mode
  | .done t _ _ => t.mode = m

/-- An outcome is that of a station command taken in the given modes, its own checks before `m`. -/
def TakenIn (allowed : List Mode) (m : Mode) (s : State) (r : Host.Outcome State Fault Refusal) : Prop :=
  ∃ act : Taken, r = .next (station allowed s act) ∧ act.Leaves m

section Checks

variable {s : State} {m : Mode}

@[simp] theorem leaves_refused {c : Code} : (Taken.refused c).Leaves m ↔ c ≠ .mode := Iff.rfl

@[simp] theorem leaves_done {t : State} {adjusted : Bool} {body : List Byte} :
    (Taken.done t adjusted body).Leaves m ↔ t.mode = m := Iff.rfl

@[simp] theorem leaves_doneWith {t : State} {i : Nat} : (doneWith t i).Leaves m ↔ t.mode = m := Iff.rfl

/-- Checks that refuse where `p` holds, and pass on otherwise. -/
@[simp] theorem leaves_ite {p : Prop} [Decidable p] {a b : Taken} :
    (if p then a else b).Leaves m ↔ (p → a.Leaves m) ∧ (¬p → b.Leaves m) := by
  split <;> simp [*]

theorem withHomeRecord_leaves {id : Nat} {k : Nat → Scheme → HomePart → Taken}
    (h : ∀ i sc hp, (k i sc hp).Leaves m) : (withHomeRecord s id k).Leaves m := by
  unfold withHomeRecord
  split
  · simp
  · split
    · simp
    · split
      · simp
      · exact h _ _ _

theorem withLocalAction_leaves {r : ActionRef} {k : Taken} (h : k.Leaves m) : (withLocalAction s r k).Leaves m := by
  unfold withLocalAction
  split
  · simp
  · split <;> simp [h]

/-- In a mode of its row a command's own checks decide. -/
theorem station_own_refusal {allowed : List Mode} (c : Code) (h : s.mode ∈ allowed) :
    station allowed s (.refused c) = s.respond c false [] := if_pos h

theorem station_done {allowed : List Mode} (t : State) (adjusted : Bool) (body : List Byte) (h : s.mode ∈ allowed) :
    station allowed s (.done t adjusted body) = t.respond .done adjusted body := if_pos h

theorem station_mode_refusal {allowed : List Mode} (act : Taken) (h : s.mode ∉ allowed) :
    station allowed s act = s.respond .mode false [] := if_neg h

theorem mem_everyMode (m : Mode) : m ∈ everyMode := by cases m <;> decide

end Checks

section Commands

variable (s : State)

/-! #### Record commands -/

theorem loadRefusal_ne_mode {b : LoadBody} {slot : Option Nat} {c : Code} (h : loadRefusal b s slot = some c) :
    c ≠ .mode := by
  rintro rfl
  revert h
  unfold loadRefusal
  repeat' split
  all_goals simp

theorem loadNew_leaves (b : LoadBody): (loadNew b s).Leaves s.mode := by
  unfold loadNew
  split
  · next c hc => exact loadRefusal_ne_mode s hc
  · split
    · simp
    · simp

theorem loadHeld_leaves (b : LoadBody) (i : Nat) (sc : Scheme) (h : HomePart) :
    (loadHeld b s i sc h).Leaves s.mode := by
  unfold loadHeld
  split
  · simp
  · split
    · next c hc => exact loadRefusal_ne_mode s hc
    · simp

theorem execRecordLoad_takenIn (b : LoadBody) : TakenIn inService s.mode s (execRecordLoad b s) := by
  refine ⟨_, rfl, ?_⟩
  split
  · simp
  · split
    · exact loadNew_leaves s b
    · split
      · simp
      · exact loadHeld_leaves s b _ _ _

theorem execRecordTune_takenIn (id : Nat) (onAt offAt limit : Int) (k m f : Nat) :
    TakenIn inService s.mode s (execRecordTune id onAt offAt limit k m f s) :=
  ⟨_, rfl, withHomeRecord_leaves fun i sc h => by simp⟩

theorem execArm_takenIn (id : Nat) : TakenIn inService s.mode s (execArm id s) :=
  ⟨_, rfl, withHomeRecord_leaves fun i sc h => by simp⟩

theorem execDisarm_takenIn (id : Nat) : TakenIn inService s.mode s (execDisarm id s) :=
  ⟨_, rfl, withHomeRecord_leaves fun i sc h => by simp⟩

theorem execBlock_takenIn (id : Nat) : TakenIn inService s.mode s (execBlock id s) :=
  ⟨_, rfl, withHomeRecord_leaves fun i sc h => by simp⟩

theorem execUnblock_takenIn (id : Nat) : TakenIn inService s.mode s (execUnblock id s) :=
  ⟨_, rfl, withHomeRecord_leaves fun i sc h => by simp⟩

theorem execResetSpent_takenIn (id : Nat) : TakenIn inService s.mode s (execResetSpent id s) :=
  ⟨_, rfl, withHomeRecord_leaves fun i sc h => by simp⟩

theorem execRetire_takenIn (id : Nat) : TakenIn inService s.mode s (execRetire id s) :=
  ⟨_, rfl, withHomeRecord_leaves fun i sc h => by simp⟩

theorem execRefresh_takenIn (id : Nat) : TakenIn inService s.mode s (execRefresh id s) :=
  ⟨_, rfl, withHomeRecord_leaves fun i sc h => by simp⟩

theorem execRefreshGroup_takenIn (g : Nat) : TakenIn inService s.mode s (execRefreshGroup g s) := by
  refine ⟨_, rfl, ?_⟩
  split
  · simp
  · rw [leaves_done, mode_event, mode_foldl]
    · rfl
    · intro e i
      split <;> rfl

theorem execDropCopy_takenIn (id : Nat) : TakenIn inService s.mode s (execDropCopy id s) := by
  refine ⟨_, rfl, ?_⟩
  split
  · simp
  · split <;> simp

theorem execRecordRead_takenIn (id : Nat) : TakenIn inService s.mode s (execRecordRead id s) := by
  refine ⟨_, rfl, ?_⟩
  split
  · simp
  · split <;> simp

theorem execRecordList_takenIn : TakenIn inService s.mode s (execRecordList s) := ⟨_, rfl, rfl⟩

theorem execRecordFindByAction_takenIn (site number : Nat) :
    TakenIn inService s.mode s (execRecordFindByAction site number s) := ⟨_, rfl, by simp⟩

theorem execRecordFindByTrigger_takenIn (terminal input : Nat) :
    TakenIn inService s.mode s (execRecordFindByTrigger terminal input s) := ⟨_, rfl, by simp⟩

/-! #### Quantity commands -/

theorem execQuantitySource_takenIn (slot source terminal peerSlot limit publish : Nat) :
    TakenIn inService s.mode s (execQuantitySource slot source terminal peerSlot limit publish s) := by
  refine ⟨_, rfl, ?_⟩
  split
  · simp
  · split <;> simp

theorem mode_foldl_modSlot {α : Type} (q : α → Nat) (f : State → α → QSlot → QSlot) (l : List α) :
    (l.foldl (fun s a => s.modSlot (q a) (f s a)) s).mode = s.mode :=
  foldl_keeps State.mode (fun s a => s.modSlot (q a) (f s a)) (fun _ _ => rfl) l s

theorem execQuantityPost_takenIn (entries : List (Nat × Int)) :
    TakenIn inService s.mode s (execQuantityPost entries s) :=
  ⟨_, rfl, by simp [mode_foldl_modSlot]⟩

theorem execQuantityInvalidate_takenIn (slots : List Nat) :
    TakenIn inService s.mode s (execQuantityInvalidate slots s) :=
  ⟨_, rfl, by simp [mode_foldl_modSlot]⟩

theorem execQuantityRead_takenIn (slot : Nat) : TakenIn everyMode s.mode s (execQuantityRead slot s) :=
  ⟨_, rfl, by simp⟩

/-! #### Action and output commands -/

theorem actionRefusal_ne_mode {kind output valueSlot : Nat} {r : ActionRef} {c : Code}
    (h : s.actionRefusal kind r output valueSlot = some c) : c ≠ .mode := by
  rintro rfl
  revert h
  unfold State.actionRefusal
  dsimp only
  repeat' split
  all_goals simp

theorem execActionLoad_takenIn (kind site number output valueSlot nominal pulse : Nat) :
    TakenIn inService s.mode s (execActionLoad kind site number output valueSlot nominal pulse s) := by
  refine ⟨_, rfl, ?_⟩
  dsimp only
  split
  · next c hc => exact actionRefusal_ne_mode s hc
  · simp

theorem execActionBlock_takenIn (site number : Nat) : TakenIn inService s.mode s (execActionBlock site number s) :=
  ⟨_, rfl, withLocalAction_leaves (by simp)⟩

theorem execActionRestore_takenIn (site number : Nat) :
    TakenIn inService s.mode s (execActionRestore site number s) :=
  ⟨_, rfl, withLocalAction_leaves (by simp)⟩

theorem execActionRemove_takenIn (site number : Nat) : TakenIn inService s.mode s (execActionRemove site number s) :=
  ⟨_, rfl, by simp⟩

theorem execActionRead_takenIn (site number : Nat) : TakenIn everyMode s.mode s (execActionRead site number s) :=
  ⟨_, rfl, by simp⟩

theorem execOutputRead_takenIn : TakenIn everyMode s.mode s (execOutputRead s) := ⟨_, rfl, rfl⟩

/-! #### Trigger commands -/

theorem execInputConfigure_takenIn (input enable qualifyUs dropoutUs : Nat) :
    TakenIn everyMode s.mode s (execInputConfigure input enable qualifyUs dropoutUs s) := ⟨_, rfl, by simp⟩

theorem execInputRead_takenIn (input : Nat) : TakenIn everyMode s.mode s (execInputRead input s) :=
  ⟨_, rfl, by simp⟩

theorem execRemoteTriggerRead_takenIn : TakenIn everyMode s.mode s (execRemoteTriggerRead s) := ⟨_, rfl, rfl⟩

/-! #### Execution, ports and routes -/

theorem execExecutionRead_takenIn (c collect : Nat) : TakenIn everyMode s.mode s (execExecutionRead c collect s) := by
  refine ⟨_, rfl, ?_⟩
  simp only [leaves_ite, leaves_refused, leaves_done]
  refine ⟨by simp, fun _ => ⟨by simp, fun _ => ?_⟩⟩
  split <;> rfl

theorem execPortOpen_takenIn (p : Nat) : TakenIn [.run] s.mode s (execPortOpen p s) := by
  refine ⟨_, rfl, ?_⟩
  simp only [leaves_ite, leaves_refused, leaves_done]
  refine ⟨by simp, fun _ => ?_⟩
  split <;> rfl

theorem execPortClose_takenIn (p : Nat) : TakenIn everyMode s.mode s (execPortClose p s) := ⟨_, rfl, by simp⟩

theorem execPortRead_takenIn (p : Nat) : TakenIn everyMode s.mode s (execPortRead p s) := ⟨_, rfl, by simp⟩

theorem execRouteWrite_takenIn (destination primary alternate : Nat) :
    TakenIn everyMode s.mode s (execRouteWrite destination primary alternate s) := ⟨_, rfl, by simp⟩

theorem execRouteRead_takenIn : TakenIn everyMode s.mode s (execRouteRead s) := ⟨_, rfl, rfl⟩

theorem execPortTest_takenIn (destination : Nat) : TakenIn inService s.mode s (execPortTest destination s) :=
  ⟨_, rfl, by simp⟩

theorem execPortLoopback_takenIn (p : Nat) : TakenIn [.maintenance] s.mode s (execPortLoopback p s) :=
  ⟨_, rfl, by simp⟩

/-! #### Event flags -/

theorem execEventRead_takenIn : TakenIn everyMode s.mode s (execEventRead s) := ⟨_, rfl, rfl⟩

theorem execEventEnable_takenIn (bits : Nat) : TakenIn everyMode s.mode s (execEventEnable bits s) :=
  ⟨_, rfl, by simp⟩

theorem execEventClear_takenIn (bits : Nat) : TakenIn everyMode s.mode s (execEventClear bits s) :=
  ⟨_, rfl, by simp⟩

/-! #### Settings, modes and maintenance -/

theorem execSettingsWrite_takenIn {items : List (Nat × List Byte)} (h : items.all settingLengthOk = true) :
    TakenIn [.config] s.mode s (execSettingsWrite items s) :=
  ⟨_, congrArg Host.Outcome.next (if_pos h), by simp⟩

theorem execSettingsWrite_length {items : List (Nat × List Byte)} (h : ¬ items.all settingLengthOk = true) :
    execSettingsWrite items s = .next (s.respond .length false []) :=
  congrArg Host.Outcome.next (if_neg h)

theorem execSettingsRead_takenIn : TakenIn everyMode s.mode s (execSettingsRead s) := ⟨_, rfl, rfl⟩

theorem execSettingsComplete_takenIn : TakenIn [.config] .run s (execSettingsComplete s) := ⟨_, rfl, by simp⟩

theorem execReconfigure_takenIn : TakenIn [.run] .config s (execReconfigure s) := ⟨_, rfl, by simp⟩

theorem execTableClear_takenIn : TakenIn [.run] s.mode s (execTableClear s) := ⟨_, rfl, by simp⟩

theorem execMaintenanceEnter_takenIn : TakenIn [.run] .maintenance s (execMaintenanceEnter s) := ⟨_, rfl, by simp⟩

theorem execMaintenanceExit_takenIn : TakenIn [.maintenance] .run s (execMaintenanceExit s) := ⟨_, rfl, by simp⟩

theorem execTestFire_takenIn (id : Nat) : TakenIn [.maintenance] s.mode s (execTestFire id s) := by
  refine ⟨_, rfl, withHomeRecord_leaves fun i sc h => ?_⟩
  simp only [leaves_ite, leaves_refused]
  refine ⟨by simp, fun _ => ⟨by simp, fun _ => ?_⟩⟩
  split <;> simp

end Commands

/-- The mode in which a station command that is taken leaves a part that was in mode `m` (R202). -/
def modeAfter (m : Mode) : Instr → Mode
  | .settingsComplete => .run
  | .reconfigure => .config
  | .maintenanceEnter => .maintenance
  | .maintenanceExit => .run
  | _ => m

/-- Every station command whose frame passes its tests is taken in the modes of its row (R194), and refused with MODE in
the others. -/
theorem exec_takenIn {i : Instr} {modes : List Mode} (hi : stationModes i = some modes) (hb : bodyStands i = true)
    (s : State) : TakenIn modes (modeAfter s.mode i) s (exec i s) := by
  cases i with
  | recordLoad b => cases hi; exact execRecordLoad_takenIn s b
  | recordTune id onAt offAt limit k m f => cases hi; exact execRecordTune_takenIn s id onAt offAt limit k m f
  | arm id => cases hi; exact execArm_takenIn s id
  | disarm id => cases hi; exact execDisarm_takenIn s id
  | block id => cases hi; exact execBlock_takenIn s id
  | unblock id => cases hi; exact execUnblock_takenIn s id
  | resetSpent id => cases hi; exact execResetSpent_takenIn s id
  | retire id => cases hi; exact execRetire_takenIn s id
  | refresh id => cases hi; exact execRefresh_takenIn s id
  | refreshGroup g => cases hi; exact execRefreshGroup_takenIn s g
  | dropCopy id => cases hi; exact execDropCopy_takenIn s id
  | recordRead id => cases hi; exact execRecordRead_takenIn s id
  | recordList => cases hi; exact execRecordList_takenIn s
  | recordFindByAction site number => cases hi; exact execRecordFindByAction_takenIn s site number
  | recordFindByTrigger terminal input => cases hi; exact execRecordFindByTrigger_takenIn s terminal input
  | quantitySource slot source terminal peerSlot limit publish =>
    cases hi; exact execQuantitySource_takenIn s slot source terminal peerSlot limit publish
  | quantityPost entries => cases hi; exact execQuantityPost_takenIn s entries
  | quantityInvalidate slots => cases hi; exact execQuantityInvalidate_takenIn s slots
  | quantityRead slot => cases hi; exact execQuantityRead_takenIn s slot
  | actionLoad kind site number output valueSlot nominal pulse =>
    cases hi; exact execActionLoad_takenIn s kind site number output valueSlot nominal pulse
  | actionBlock site number => cases hi; exact execActionBlock_takenIn s site number
  | actionRestore site number => cases hi; exact execActionRestore_takenIn s site number
  | actionRemove site number => cases hi; exact execActionRemove_takenIn s site number
  | actionRead site number => cases hi; exact execActionRead_takenIn s site number
  | outputRead => cases hi; exact execOutputRead_takenIn s
  | inputConfigure input enable qualifyUs dropoutUs =>
    cases hi; exact execInputConfigure_takenIn s input enable qualifyUs dropoutUs
  | inputRead input => cases hi; exact execInputRead_takenIn s input
  | remoteTriggerRead => cases hi; exact execRemoteTriggerRead_takenIn s
  | executionRead c collect => cases hi; exact execExecutionRead_takenIn s c collect
  | portOpen p => cases hi; exact execPortOpen_takenIn s p
  | portClose p => cases hi; exact execPortClose_takenIn s p
  | portRead p => cases hi; exact execPortRead_takenIn s p
  | routeWrite destination primary alternate =>
    cases hi; exact execRouteWrite_takenIn s destination primary alternate
  | routeRead => cases hi; exact execRouteRead_takenIn s
  | portTest destination => cases hi; exact execPortTest_takenIn s destination
  | portLoopback p => cases hi; exact execPortLoopback_takenIn s p
  | eventRead => cases hi; exact execEventRead_takenIn s
  | eventEnable bits => cases hi; exact execEventEnable_takenIn s bits
  | eventClear bits => cases hi; exact execEventClear_takenIn s bits
  | settingsWrite items => cases hi; exact execSettingsWrite_takenIn s hb
  | settingsComplete => cases hi; exact execSettingsComplete_takenIn s
  | settingsRead => cases hi; exact execSettingsRead_takenIn s
  | reconfigure => cases hi; exact execReconfigure_takenIn s
  | tableClear => cases hi; exact execTableClear_takenIn s
  | maintenanceEnter => cases hi; exact execMaintenanceEnter_takenIn s
  | maintenanceExit => cases hi; exact execMaintenanceExit_takenIn s
  | testFire id => cases hi; exact execTestFire_takenIn s id
  | _ => exact absurd hi.symm (Option.some_ne_none _)

/-! ### The mode after a command -/

section ModeAfter

variable {s t : State} {i : Instr} {modes : List Mode} {m : Mode} {r : Host.Outcome State Fault Refusal}

/-- A station command leaves the mode as it stood, or is taken in one of its modes and leaves the part in its own. -/
theorem TakenIn.mode_next (h : TakenIn modes m s r) (hr : r = .next t) :
    t.mode = s.mode ∨ (s.mode ∈ modes ∧ t.mode = m) := by
  obtain ⟨act, hact, hm⟩ := h
  obtain rfl : station modes s act = t := Host.Outcome.next.inj (hact.symm.trans hr)
  by_cases hmem : s.mode ∈ modes
  · cases act with
    | refused c => exact .inl (by rw [station_own_refusal c hmem, State.respond_mode])
    | done u adjusted body => exact .inr ⟨hmem, by rw [station_done u adjusted body hmem, State.respond_mode, hm]⟩
  · rw [station_mode_refusal act hmem]
    exact .inl rfl

theorem TakenIn.refused (h : TakenIn modes m s r) (hs : s.mode ∉ modes) : r = .next (s.respond .mode false []) := by
  obtain ⟨act, hact, -⟩ := h
  rw [hact, station_mode_refusal act hs]

theorem TakenIn.answered (h : TakenIn modes m s r) (hs : s.mode ∈ modes) :
    ∃ (t : State) (c : Code) (adjusted : Bool) (body : List Byte),
      r = .next (t.respond c adjusted body) ∧ c ≠ .mode := by
  obtain ⟨act, hact, hm⟩ := h
  cases act with
  | refused c => exact ⟨s, c, false, [], by rw [hact, station_own_refusal c hs], hm⟩
  | done t adjusted body =>
    exact ⟨t, .done, adjusted, body, by rw [hact, station_done t adjusted body hs], by decide⟩

/-- Of the station commands, the four mode commands alone leave another mode. -/
theorem mode_command_of_modeAfter_ne (h : modeAfter m i ≠ m) :
    i = .settingsComplete ∨ i = .reconfigure ∨ i = .maintenanceEnter ∨ i = .maintenanceExit := by
  cases i with
  | settingsComplete => exact .inl rfl
  | reconfigure => exact .inr (.inl rfl)
  | maintenanceEnter => exact .inr (.inr (.inl rfl))
  | maintenanceExit => exact .inr (.inr (.inr rfl))
  | _ => exact absurd rfl h

/-- A SETTINGS WRITE with a value of a wrong length is the one station command that is answered before its mode is
looked at, and it changes nothing. -/
theorem exec_mode_of_not_bodyStands (hb : bodyStands i ≠ true) (h : exec i s = .next t) : t.mode = s.mode := by
  cases i with
  | settingsWrite items =>
    cases (execSettingsWrite_length s hb).symm.trans h
    rfl
  | _ => exact absurd rfl hb

/-- A command that changes the mode is a full reset, or a mode command taken in one of its modes. -/
theorem exec_mode_cases (h : exec i s = .next t) (hne : t.mode ≠ s.mode) :
    i = .fullReset ∨ ∃ modes, stationModes i = some modes ∧ s.mode ∈ modes ∧ t.mode = modeAfter s.mode i := by
  cases hi : stationModes i with
  | none => exact .inl (by_contra fun hreset => hne (exec_keepsMode hi hreset s t h))
  | some modes =>
    have hb : bodyStands i = true := by_contra fun hb => hne (exec_mode_of_not_bodyStands hb h)
    obtain hkept | ⟨hmem, hafter⟩ := (exec_takenIn hi hb s).mode_next h
    · exact absurd hkept hne
    · exact .inr ⟨modes, rfl, hmem, hafter⟩

end ModeAfter

theorem modePlace_injective {m m' : Mode} (h : byteOf (modePlace m) = byteOf (modePlace m')) : m = m' := by
  revert h
  cases m <;> cases m' <;> decide

/-- Settles O12: a command that changes the mode is a full reset or a mode command taken in its mode
(`exec_mode_cases`), and a station command is taken in the modes of its row alone (`exec_takenIn`). -/
theorem deviceMode : Obligations.DeviceMode := by
  refine ⟨?_, ?_, ?_, ⟨rfl, rfl, rfl, rfl⟩, fun m => byteOf (modePlace m), fun _ _ => modePlace_injective, ?_⟩
  · intro i s t h hne
    obtain rfl | ⟨modes, hmodes, hmem, hafter⟩ := exec_mode_cases h hne
    · cases h
      exact .inl ⟨rfl, rfl⟩
    · obtain rfl | rfl | rfl | rfl := mode_command_of_modeAfter_ne (hafter ▸ hne) <;> cases hmodes
      · exact .inr (.inl ⟨rfl, List.mem_singleton.1 hmem, hafter⟩)
      · exact .inr (.inr (.inl ⟨rfl, List.mem_singleton.1 hmem, hafter⟩))
      · exact .inr (.inr (.inr (.inl ⟨rfl, List.mem_singleton.1 hmem, hafter⟩)))
      · exact .inr (.inr (.inr (.inr ⟨rfl, List.mem_singleton.1 hmem, hafter⟩)))
  · intro s t hp h
    unfold step at h
    rw [hp] at h
    cases h
    rfl
  · intro i modes s hi hb
    exact ⟨(exec_takenIn hi hb s).refused, (exec_takenIn hi hb s).answered⟩
  · intro s
    exact ⟨settingsBytes s.settings, congrArg Host.Outcome.next (station_done s false _ (mem_everyMode s.mode))⟩

end Sys2Proof.Machine
end
